-- ==== Sys2Proof/Word.lean ====
section
/-! DEFINITION. The word types of the model and the four operand widths of rule R12
(`spec/00_scope.md`): a value of any operand size is carried in a 64-bit word whose bits above the
size are 0. -/

namespace Sys2Proof

/-- A byte of memory or of an instruction. -/
abbrev Byte := BitVec 8

/-- A 64-bit word: register contents, linear addresses, operand values (R100, R200). -/
abbrev Word := BitVec 64

/-- The operand and address sizes `w` and `a` of R12. -/
inductive Width where
  | w8 | w16 | w32 | w64
  deriving DecidableEq, Repr

/-- The size in bits. -/
def Width.bits : Width → Nat
  | .w8 => 8
  | .w16 => 16
  | .w32 => 32
  | .w64 => 64

/-- The size in bytes. -/
def Width.bytes : Width → Nat
  | .w8 => 1
  | .w16 => 2
  | .w32 => 4
  | .w64 => 8

/-- The decoding modes of R142. -/
inductive DecodeMode where
  | m16 | m32 | m64
  deriving DecidableEq, Repr

end Sys2Proof
end

