-- ==== Sys2Proof/Machine/Bits.lean ====
section
/-! DEFINITION. Bit fields, truncation, extension, parity, canonical addresses and byte order
(R12, R116, R201, R207). -/

namespace Sys2Proof

/-- `v[i]` (R12). -/
def bit (v : Word) (i : Nat) : Bool := v.getLsbD i

/-- `v[hi:lo]` as an unsigned number (R12). -/
def field (v : Word) (hi lo : Nat) : Nat := v.toNat / 2 ^ lo % 2 ^ (hi + 1 - lo)

/-- `zext_64(trunc_w(v))` (R12): the low `w` bits of `v`. -/
def trunc (w : Width) (v : Word) : Word := (v.setWidth w.bits).setWidth 64

/-- `sext_64(trunc_w(v))` (R12): the low `w` bits of `v`, their top bit copied upward. -/
def sext (w : Width) (v : Word) : Word := (v.setWidth w.bits).signExtend 64

/-- `s(v)`, the two's-complement value of the low `w` bits (R12). -/
def sint (w : Width) (v : Word) : Int := (v.setWidth w.bits).toInt

/-- `msb_w(v)` (R12). -/
def msb (w : Width) (v : Word) : Bool := v.getLsbD (w.bits - 1)

/-- `parity8(v)`: an even number of 1 bits among bits 7:0 (R12). -/
def parity8 (v : Word) : Bool :=
  !(bit v 0 ^^ bit v 1 ^^ bit v 2 ^^ bit v 3 ^^ bit v 4 ^^ bit v 5 ^^ bit v 6 ^^ bit v 7)

/-- Bits 63:47 all equal, `LINEAR_BITS` = 48 (R207). -/
def canonical (v : Word) : Bool :=
  let top := v.toNat / 2 ^ 47
  top == 0 || top == 2 ^ 17 - 1

/-- The `w`-bit value of a natural number, modulo `2^w`. -/
def ofNatW (w : Width) (n : Nat) : Word := BitVec.ofNat 64 (n % 2 ^ w.bits)

/-- The `w`-bit two's-complement value of an integer, modulo `2^w`. -/
def ofIntW (w : Width) (n : Int) : Word := trunc w (BitVec.ofInt 64 n)

/-- A Boolean at bit position `i`. -/
def flagAt (b : Bool) (i : Nat) : Word := if b then BitVec.ofNat 64 (2 ^ i) else 0

/-- Little-endian value of a byte list, first byte least significant (R201). -/
def leNat : List Byte → Nat
  | [] => 0
  | b :: bs => b.toNat + 256 * leNat bs

/-- The `n` least significant bytes of a number, least significant first (R201). -/
def leBytes : Nat → Nat → List Byte
  | 0, _ => []
  | n + 1, v => BitVec.ofNat 8 v :: leBytes n (v / 256)

end Sys2Proof
end

