-- ==== Sys2Proof/Syntax.lean ====
section
/-! DEFINITION. The decoded instruction (R347): its header (address size, prefixes, length), its
operands, and one constructor per instruction of `spec/opcode_table.json`. The rows that share a
mnemonic are told apart by the form argument and the width. -/

namespace Sys2Proof

/-- The segment registers, numbered as the encoding numbers them (R120). -/
inductive SReg where
  | es | cs | ss | ds | fs | gs
  deriving DecidableEq, Repr

/-- The control registers of the block (R130 to R133). -/
inductive CReg where
  | cr0 | cr2 | cr3 | cr4
  deriving DecidableEq, Repr

/-- The repeat prefix recorded by the decoder (R311). -/
inductive Rep where
  | none | rep | repne
  deriving DecidableEq, Repr

/-- The condition codes, in the order of their numbers (R338). -/
inductive CC where
  | o | no | b | ae | e | ne | be | a | s | ns | p | np | l | ge | le | g
  deriving DecidableEq, Repr

/-- The number of a general register, `0` RAX to `15` R15 (R101). -/
abbrev RegNum := Fin 16

/-- A register designator `(i, high8)` (R102). -/
structure Gpr where
  num : RegNum
  high8 : Bool
  deriving DecidableEq, Repr

/-- A memory operand (R347): segment, base, index, log2 of the scale, displacement sign-extended to
64 bits (for a `moffs` operand, the address itself), RIP-relative. -/
structure MemOp where
  seg : SReg
  base : Option RegNum
  index : Option RegNum
  scale : Fin 4
  disp : Word
  ripRel : Bool
  deriving DecidableEq, Repr

/-- The register-or-memory operand of a ModRM byte (R321). -/
inductive RM where
  | reg (r : Gpr)
  | mem (m : MemOp)
  deriving DecidableEq, Repr

/-- What every decoded instruction carries beside its operands (R347): address size, prefixes, length
in bytes. -/
structure Hdr where
  a : Width
  lock : Bool
  rep : Rep
  segOv : Option SReg
  os66 : Bool
  as67 : Bool
  rex : Option (BitVec 4)
  len : Nat
  deriving DecidableEq, Repr

/-- The forms of the eight two-operand operations (R453), each with its operand size: opcodes
`8n+0/1`, `8n+2/3`, `8n+4/5`, `80/81 /n`, `83 /n`. -/
inductive AluForm where
  | mr (w : Width) (dst : RM) (src : Gpr)
  | rm (w : Width) (dst : Gpr) (src : RM)
  | acc (w : Width) (imm : Word)
  | mi (w : Width) (dst : RM) (imm : Word)
  | mis (w : Width) (dst : RM) (imm : Word)
  deriving DecidableEq, Repr

/-- The forms of TEST (R462): `84/85`, `A8/A9`, `F6/F7 /0`. -/
inductive TestForm where
  | mr (w : Width) (a : RM) (b : Gpr)
  | acc (w : Width) (imm : Word)
  | mi (w : Width) (a : RM) (imm : Word)
  deriving DecidableEq, Repr

/-- The forms of INC and DEC (R463, R464): `FE/FF` and the one-byte `40+r`, `48+r`. -/
inductive IncForm where
  | rm (w : Width) (dst : RM)
  | short (w : Width) (dst : Gpr)
  deriving DecidableEq, Repr

/-- The count of a shift or rotate (R500): an immediate byte, the constant 1, or CL. -/
inductive ShiftCount where
  | imm (c : BitVec 8)
  | one
  | cl
  deriving DecidableEq, Repr

/-- The general forms of MOV (R401 to R404): `88/89`, `8A/8B`, `B0+r/B8+r`, `C6/C7`, `A0/A1`, `A2/A3`. -/
inductive MovForm where
  | mr (w : Width) (dst : RM) (src : Gpr)
  | rm (w : Width) (dst : Gpr) (src : RM)
  | ri (w : Width) (dst : Gpr) (imm : Word)
  | mi (w : Width) (dst : RM) (imm : Word)
  | fromMoffs (w : Width) (src : MemOp)
  | toMoffs (w : Width) (dst : MemOp)
  deriving DecidableEq, Repr

/-- The forms of XCHG (R409): `86/87` and `90+r`. -/
inductive XchgForm where
  | mr (w : Width) (dst : RM) (src : Gpr)
  | acc (w : Width) (r : Gpr)
  deriving DecidableEq, Repr

/-- The forms of PUSH (R422): `50+r`, `68`, `6A`, `FF /6`. -/
inductive PushForm where
  | reg (w : Width) (r : Gpr)
  | immz (w : Width) (imm : Word)
  | imm8 (w : Width) (imm : Word)
  | rm (w : Width) (src : RM)
  deriving DecidableEq, Repr

/-- The forms of POP (R423): `58+r`, `8F /0`. -/
inductive PopForm where
  | reg (w : Width) (r : Gpr)
  | rm (w : Width) (dst : RM)
  deriving DecidableEq, Repr

/-- The size of a relative displacement: `rel8` or `relz` (R333). -/
inductive RelSize where
  | rel8 | relz
  deriving DecidableEq, Repr

/-- The size of the immediate of three-operand IMUL (R469): `69` or `6B`. -/
inductive ImmSize where
  | immz | imm8
  deriving DecidableEq, Repr

/-- The admitted instructions (R340, R342) and, last, the class `Invalid` of R345. -/
inductive Instr where
  | add (h : Hdr) (f : AluForm)
  | or (h : Hdr) (f : AluForm)
  | adc (h : Hdr) (f : AluForm)
  | sbb (h : Hdr) (f : AluForm)
  | and (h : Hdr) (f : AluForm)
  | sub (h : Hdr) (f : AluForm)
  | xor (h : Hdr) (f : AluForm)
  | cmp (h : Hdr) (f : AluForm)
  | test (h : Hdr) (f : TestForm)
  | not (h : Hdr) (w : Width) (dst : RM)
  | neg (h : Hdr) (w : Width) (dst : RM)
  | mul (h : Hdr) (w : Width) (src : RM)
  | imul1 (h : Hdr) (w : Width) (src : RM)
  | div (h : Hdr) (w : Width) (src : RM)
  | idiv (h : Hdr) (w : Width) (src : RM)
  | inc (h : Hdr) (f : IncForm)
  | dec (h : Hdr) (f : IncForm)
  | imul2 (h : Hdr) (w : Width) (dst : Gpr) (src : RM)
  | imul3 (h : Hdr) (w : Width) (dst : Gpr) (src : RM) (imm : Word) (z : ImmSize)
  | cmpxchg (h : Hdr) (w : Width) (dst : RM) (src : Gpr)
  | xadd (h : Hdr) (w : Width) (dst : RM) (src : Gpr)
  | rol (h : Hdr) (w : Width) (dst : RM) (c : ShiftCount)
  | ror (h : Hdr) (w : Width) (dst : RM) (c : ShiftCount)
  | shl (h : Hdr) (w : Width) (dst : RM) (c : ShiftCount)
  | shr (h : Hdr) (w : Width) (dst : RM) (c : ShiftCount)
  | sar (h : Hdr) (w : Width) (dst : RM) (c : ShiftCount)
  | mov (h : Hdr) (f : MovForm)
  | movFromSeg (h : Hdr) (w : Width) (dst : RM) (sr : SReg)
  | movToSeg (h : Hdr) (sr : SReg) (src : RM)
  | movFromCr (h : Hdr) (w : Width) (dst : RegNum) (cr : CReg)
  | movToCr (h : Hdr) (w : Width) (cr : CReg) (src : RegNum)
  | movzx (h : Hdr) (w : Width) (dst : Gpr) (sw : Width) (src : RM)
  | movsx (h : Hdr) (w : Width) (dst : Gpr) (sw : Width) (src : RM)
  | movsxd (h : Hdr) (w : Width) (dst : Gpr) (src : RM)
  | lea (h : Hdr) (w : Width) (dst : Gpr) (m : MemOp)
  | xchg (h : Hdr) (f : XchgForm)
  | push (h : Hdr) (f : PushForm)
  | pop (h : Hdr) (f : PopForm)
  | cmovcc (h : Hdr) (cc : CC) (w : Width) (dst : Gpr) (src : RM)
  | setcc (h : Hdr) (cc : CC) (dst : RM)
  | cbw (h : Hdr) (w : Width)
  | cwd (h : Hdr) (w : Width)
  | sahf (h : Hdr)
  | lahf (h : Hdr)
  | pushf (h : Hdr) (w : Width)
  | popf (h : Hdr) (w : Width)
  | leave (h : Hdr) (w : Width)
  | jmpRel (h : Hdr) (w : Width) (z : RelSize) (rel : Word)
  | jmpInd (h : Hdr) (w : Width) (src : RM)
  | jcc (h : Hdr) (cc : CC) (w : Width) (z : RelSize) (rel : Word)
  | callRel (h : Hdr) (w : Width) (rel : Word)
  | callInd (h : Hdr) (w : Width) (src : RM)
  | ret (h : Hdr) (w : Width)
  | retImm (h : Hdr) (w : Width) (imm : BitVec 16)
  | loop (h : Hdr) (w : Width) (rel : Word)
  | loope (h : Hdr) (w : Width) (rel : Word)
  | loopne (h : Hdr) (w : Width) (rel : Word)
  | jrcxz (h : Hdr) (w : Width) (rel : Word)
  | int3 (h : Hdr)
  | intn (h : Hdr) (vec : BitVec 8)
  | into (h : Hdr)
  | ud2
  | movs (h : Hdr) (w : Width)
  | stos (h : Hdr) (w : Width)
  | lods (h : Hdr) (w : Width)
  | cmps (h : Hdr) (w : Width)
  | scas (h : Hdr) (w : Width)
  | nop (h : Hdr)
  | pause (h : Hdr)
  | nopRm (h : Hdr) (w : Width) (rm : RM)
  | hlt (h : Hdr)
  | cmc (h : Hdr)
  | clc (h : Hdr)
  | stc (h : Hdr)
  | cli (h : Hdr)
  | sti (h : Hdr)
  | cld (h : Hdr)
  | std (h : Hdr)
  | lfence (h : Hdr)
  | mfence (h : Hdr)
  | sfence (h : Hdr)
  | lgdt (h : Hdr) (w : Width) (m : MemOp)
  | lidt (h : Hdr) (w : Width) (m : MemOp)
  | invlpg (h : Hdr) (m : MemOp)
  | swapgs (h : Hdr)
  | wrmsr (h : Hdr)
  | rdmsr (h : Hdr)
  | cpuid (h : Hdr)
  /-- Every encoding of the class `Invalid` (R345) but UD2. -/
  | invalid
  deriving DecidableEq, Repr

end Sys2Proof
end

