-- ==== Sys2Proof/Machine/Sizes.lean ====
section
/-! DEFINITION. Operand-size classes (R318), address sizes (R319), the default segment of a memory
operand (R322, R323, R331), and the byte sizes of immediates (R332). Used by the decoder, the encoder
and the well-formedness check alike. -/

namespace Sys2Proof

/-- The "Op size" classes of R342: `b`, `v`, `d64`, `f64`, `none`, fixed 16, "32 or 64 by mode" (MOV
to and from a control register), "v (64 forced in 64-bit mode)" (LGDT, LIDT). -/
inductive SizeClass where
  | b | v | d64 | f64 | none | w16 | byMode | vForced
  deriving DecidableEq, Repr

/-- The `v` column of R318. -/
def sizeV (m : DecodeMode) (os66 rexW : Bool) : Width :=
  match m with
  | .m16 => if os66 then .w32 else .w16
  | .m32 => if os66 then .w16 else .w32
  | .m64 => if rexW then .w64 else if os66 then .w16 else .w32

/-- The operand size of a row (R318); no answer for a near branch with `66` in mode 64, which is
`Unsupported`. A row of class `none` has no sized operand: its answer is not used. -/
def opSize (c : SizeClass) (m : DecodeMode) (os66 rexW : Bool) : Option Width :=
  match c with
  | .b => some .w8
  | .v => some (sizeV m os66 rexW)
  | .d64 =>
    match m with
    | .m64 => some (if os66 then .w16 else .w64)
    | _ => some (sizeV m os66 rexW)
  | .f64 =>
    match m with
    | .m64 => if os66 then Option.none else some .w64
    | _ => some (sizeV m os66 rexW)
  | .none => some .w8
  | .w16 => some .w16
  | .byMode =>
    match m with
    | .m64 => some .w64
    | _ => some .w32
  | .vForced =>
    match m with
    | .m64 => some .w64
    | _ => some (sizeV m os66 rexW)

/-- The address size (R319). -/
def addrSize (m : DecodeMode) (as67 : Bool) : Width :=
  match m with
  | .m16 => if as67 then .w32 else .w16
  | .m32 => if as67 then .w16 else .w32
  | .m64 => if as67 then .w32 else .w64

/-- Default segment of 16-bit addressing (R322): SS when BP is the base. -/
def defaultSeg16 (base : Option RegNum) : SReg := if base == some 5 then .ss else .ds

/-- Default segment of 32- and 64-bit addressing (R323): SS when the base is register 4 or 5. -/
def defaultSeg (base : Option RegNum) : SReg :=
  if base == some 4 || base == some 5 then .ss else .ds

/-- The default segment by address size. -/
def defaultSegOf (a : Width) (base : Option RegNum) : SReg :=
  match a with
  | .w16 => defaultSeg16 base
  | _ => defaultSeg base

/-- The width an `iz` immediate has in the instruction: 16 bits when `w` is 16, else 32 (R332). -/
def izWidth (w : Width) : Width :=
  match w with
  | .w16 => .w16
  | _ => .w32

/-- Sign extension of a displacement or immediate of `n` bytes (R322, R323, R332, R333). -/
def sextBytes (n : Nat) (v : Nat) : Word :=
  match n with
  | 0 => 0
  | 1 => sext .w8 (BitVec.ofNat 64 v)
  | 2 => sext .w16 (BitVec.ofNat 64 v)
  | 4 => sext .w32 (BitVec.ofNat 64 v)
  | _ => BitVec.ofNat 64 v

/-- Segment register by its encoding number (R120); 6 and 7 do not exist. -/
def SReg.ofNum (n : Nat) : Option SReg :=
  match n with
  | 0 => some .es
  | 1 => some .cs
  | 2 => some .ss
  | 3 => some .ds
  | 4 => some .fs
  | 5 => some .gs
  | _ => none

/-- The encoding number of a segment register (R120). -/
def SReg.num : SReg → Nat
  | .es => 0
  | .cs => 1
  | .ss => 2
  | .ds => 3
  | .fs => 4
  | .gs => 5

/-- Control register by number: the block has 0, 2, 3 and 4 (R134, R610). -/
def CReg.ofNum (n : Nat) : Option CReg :=
  match n with
  | 0 => some .cr0
  | 2 => some .cr2
  | 3 => some .cr3
  | 4 => some .cr4
  | _ => none

/-- The number of a control register. -/
def CReg.num : CReg → Nat
  | .cr0 => 0
  | .cr2 => 2
  | .cr3 => 3
  | .cr4 => 4

/-- Condition code by number (R338). -/
def CC.ofNum (n : Nat) : CC :=
  match n with
  | 0 => .o
  | 1 => .no
  | 2 => .b
  | 3 => .ae
  | 4 => .e
  | 5 => .ne
  | 6 => .be
  | 7 => .a
  | 8 => .s
  | 9 => .ns
  | 10 => .p
  | 11 => .np
  | 12 => .l
  | 13 => .ge
  | 14 => .le
  | _ => .g

/-- The number of a condition code (R338). -/
def CC.num : CC → Nat
  | .o => 0
  | .no => 1
  | .b => 2
  | .ae => 3
  | .e => 4
  | .ne => 5
  | .be => 6
  | .a => 7
  | .s => 8
  | .ns => 9
  | .p => 10
  | .np => 11
  | .l => 12
  | .ge => 13
  | .le => 14
  | .g => 15

/-- A 4-bit register number from its REX bit and its three encoded bits (R321). -/
def regNum (ext : Bool) (low : Nat) : RegNum :=
  Fin.ofNat 16 ((if ext then 8 else 0) + low % 8)

/-- The designator of a register number at width `w` (R325): without REX, numbers 4 to 7 at width 8
are AH, CH, DH, BH. -/
def designator (rexPresent : Bool) (w : Width) (n : RegNum) : Gpr :=
  if w == .w8 && !rexPresent && decide (4 ≤ n.val) && decide (n.val ≤ 7) then
    ⟨Fin.ofNat 16 (n.val - 4), true⟩
  else ⟨n, false⟩

end Sys2Proof
end

