-- ==== Sys2Proof/Config.lean ====
section
/-! DEFINITION. The implementation parameters of R10 (`spec/00_scope.md`). The finite ones are plain
data (`Config`, carried by the state so that a claim about every state is a claim about every
configuration: log entry 4). The total functions `UndefFlags` and `CpuidTable`, and the answers of a
bus page that is not RAM, are uninterpreted constants: nothing can be proved of their values. -/

namespace Sys2Proof

/-- The plain-data parameters of R10. -/
structure Config where
  /-- `TLB_ENTRIES`: the number of slots of the translation cache, a power of two (R252). -/
  tlbEntries : Nat
  /-- `MAX_BLOCK_INSTRS`, at least 1 (R703). -/
  maxBlockInstrs : Nat
  /-- `MAX_BLOCK_BYTES`, at least 15 (R703). -/
  maxBlockBytes : Nat
  /-- `PHYS_BITS`, 32 to 52 (R262). -/
  physBits : Nat
  /-- `SEG_CHECKS`: on (`true`) or off (R209). -/
  segChecks : Bool
  /-- `RESET_EDX` (R901). -/
  resetEdx : BitVec 32
  /-- `MsrExtra`: the further MSR indices, plain 64-bit storage (R624). -/
  msrExtra : List (BitVec 32)
  /-- The pages for which `IsRam` is false, as half-open ranges of physical page numbers (R205; log
  entry 9). -/
  nonRam : List (Nat × Nat)
  deriving DecidableEq, Repr

/-- The constraints R10 puts on the parameters. -/
def Config.ok (c : Config) : Bool :=
  decide (0 < c.tlbEntries) && c.tlbEntries == 2 ^ Nat.log2 c.tlbEntries &&
  decide (1 ≤ c.maxBlockInstrs) && decide (15 ≤ c.maxBlockBytes) &&
  decide (32 ≤ c.physBits) && decide (c.physBits ≤ 52)

/-- The values the model's reset state carries: the ones R10 suggests, and where R10 suggests none
the model's choice (log entry 4, DESIGN CHOICE). -/
def Config.suggested : Config where
  tlbEntries := 256
  maxBlockInstrs := 64
  maxBlockBytes := 1024
  physBits := 52
  segChecks := false
  resetEdx := 0
  msrExtra := []
  nonRam := []

/-- `UndefFlags(tag, width, a, b, count, flags_in)` of R10: bit 0 CF, 1 PF, 2 AF, 3 ZF, 4 SF, 5 OF. -/
opaque undefFlags : String → Nat → Nat → Nat → Nat → Word → BitVec 6

/-- The four result words of CPUID (R628). -/
structure CpuidWords where
  eax : BitVec 32
  ebx : BitVec 32
  ecx : BitVec 32
  edx : BitVec 32
  deriving DecidableEq, Repr, Inhabited

/-- `CpuidTable(eax, ecx)` of R10. -/
opaque cpuidTable : BitVec 32 → BitVec 32 → CpuidWords

/-- The byte a bus page that is not RAM answers (R205: "may return any value"): applied to the number
of accesses made to such pages so far and to the physical address (log entry 8). -/
opaque freeBusByte : Nat → Nat → BitVec 8

end Sys2Proof
end

