-- ==== Sys2Proof/Machine/State.lean ====
section
/-! DEFINITION. The state of the machine (`spec/10_state.md`), as plain data, the reasons a step can
stop, and the state after reset (R901). -/

namespace Sys2Proof.Machine
open Sys2Proof

/-- The six status flags of R115. -/
structure SFlags where
  cf : Bool
  pf : Bool
  af : Bool
  zf : Bool
  sf : Bool
  of : Bool
  deriving DecidableEq, Repr

/-- `rflags` (R115), field by field. The fixed bits (1; 3, 5, 15, 63:22) are constants of the 64-bit
image `Flags.image` and cannot be anything else (log entry 12). -/
structure Flags where
  st : SFlags
  /-- TF, single step -/
  tf : Bool
  /-- IF, maskable interrupts enabled -/
  ie : Bool
  /-- DF, string direction -/
  df : Bool
  iopl : BitVec 2
  nt : Bool
  rf : Bool
  vm : Bool
  ac : Bool
  vif : Bool
  vip : Bool
  id : Bool
  deriving DecidableEq, Repr

/-- A segment register: selector and descriptor cache (R120). -/
structure SegReg where
  selector : BitVec 16
  base : Word
  limit : BitVec 32
  type : BitVec 4
  s : Bool
  dpl : BitVec 2
  p : Bool
  avl : Bool
  l : Bool
  db : Bool
  g : Bool
  unusable : Bool
  deriving DecidableEq, Repr

/-- The six segment registers (R120). -/
structure Segs where
  es : SegReg
  cs : SegReg
  ss : SegReg
  ds : SegReg
  fs : SegReg
  gs : SegReg
  deriving DecidableEq, Repr

/-- `gdtr` and `idtr` (R123). -/
structure TableReg where
  base : Word
  limit : BitVec 16
  deriving DecidableEq, Repr

/-- An entry of the translation cache (R150). -/
structure TlbEntry where
  valid : Bool
  tag : BitVec 52
  salt : Nat
  ppn : BitVec 40
  r : Bool
  w : Bool
  x : Bool
  u : Bool
  d : Bool
  isRam : Bool
  deriving DecidableEq, Repr

/-- An entry that has not been filled since reset (R150, R901; log entry 11). -/
def TlbEntry.empty : TlbEntry := ⟨false, 0, 0, 0, false, false, false, false, false, false⟩

/-- What a raised exception carries (R801): vector, error code, fault address (`#PF` only). -/
structure FaultRec where
  vector : Nat
  code : Option (BitVec 32)
  addr : Option Word
  deriving DecidableEq, Repr

/-- The kinds of software interrupt (R701). -/
inductive SoftIntKind where
  | int3 | intN | into
  deriving DecidableEq, Repr

/-- The kinds of outcome of `ExecuteBlock` with their extra fields (R701). -/
inductive OutcomeKind where
  | blockEnd
  | limit
  | halted
  | fault (f : FaultRec)
  | trap (vector : Nat)
  | softInt (vector : BitVec 8) (kind : SoftIntKind) (len : Nat)
  | unsupported (bytes : List Byte)
  deriving DecidableEq, Repr

/-- What `ExecuteBlock` returns (R700, R701). -/
structure BlockOutcome where
  kind : OutcomeKind
  retired : Nat
  nextRip : Word
  deriving DecidableEq, Repr

/-- What the memory operations read and write: physical memory (R205), the page-version tracker
(R155), the translation cache (R150), and the model's own counter of accesses to bus pages that are
not RAM (log entry 8). Each list holds (key, value) pairs with rising keys and no entry equal to what
an unlisted key means: the byte 0 (log entry 7), version 0, `TlbEntry.empty`. -/
structure MemSys where
  mem : List Host.Cell
  pageVersion : List (Nat × Nat)
  tlb : List (Nat × TlbEntry)
  busOps : Nat
  deriving DecidableEq, Repr

/-- The state of the machine. -/
structure State where
  /-- `x[0]` to `x[15]` (R100) -/
  regs : Vector Word 16
  /-- R110 -/
  rip : Word
  /-- R115 -/
  flags : Flags
  /-- R120 -/
  segs : Segs
  /-- R122 -/
  ldtr : SegReg
  tr : SegReg
  /-- R123 -/
  gdtr : TableReg
  idtr : TableReg
  /-- R128 -/
  cpl : BitVec 2
  /-- R130 to R133 -/
  cr0 : Word
  cr2 : Word
  cr3 : Word
  cr4 : Word
  /-- R135 -/
  efer : Word
  /-- R136 -/
  kernelGsBase : Word
  /-- R136: index and value of each `msr_extra` register that is not 0 (log entry 26) -/
  msrExtra : List (Nat × Word)
  /-- R137: one opaque field that no instruction reads or writes (log entry 10) -/
  fpuSse : Nat
  /-- R145 -/
  halted : Bool
  /-- R146 -/
  interruptShadow : Bool
  /-- R151 -/
  tlbSalt : Nat
  /-- memory, page versions, translation cache -/
  ms : MemSys
  /-- the counters of the running `ExecuteBlock` call (R700; log entry 1) -/
  retired : Nat
  nbytes : Nat
  /-- what the last call returned; `none` while a block is running (R701; log entry 1) -/
  outcome : Option BlockOutcome
  /-- the plain-data parameters of R10, constant (log entry 4) -/
  cfg : Config
  deriving DecidableEq, Repr

/-- The model has no fault of its own: every stop the spec describes is an outcome recorded in the
next state (R701; log entries 2 and 3). -/
inductive Fault where
  /-- Raised by nothing (safe): kept so that the type has a name to report. -/
  | unreachable
  deriving DecidableEq, Repr

/-- Why an instruction has no meaning. -/
inductive Refusal where
  /-- Raised by an arm of `exec` whose instruction has no meaning yet (safe); no arm is one. -/
  | notModelled (mnemonic : String)
  deriving DecidableEq, Repr

/-- `rflags` = `0x2` (R901). -/
def Flags.reset : Flags :=
  ⟨⟨false, false, false, false, false, false⟩, false, false, false, 0, false, false, false, false,
    false, false, false⟩

/-- CS after reset (R121). -/
def SegReg.resetCs : SegReg :=
  ⟨0xF000, 0xFFFF0000, 0xFFFF, 0b1011, true, 0, true, false, false, false, false, false⟩

/-- ES, SS, DS, FS, GS after reset (R121). -/
def SegReg.resetData : SegReg :=
  ⟨0, 0, 0xFFFF, 0b0011, true, 0, true, false, false, false, false, false⟩

/-- `ldtr` after reset (R122). -/
def SegReg.resetLdtr : SegReg :=
  ⟨0, 0, 0xFFFF, 0b0010, false, 0, true, false, false, false, false, false⟩

/-- `tr` after reset (R122). -/
def SegReg.resetTr : SegReg :=
  ⟨0, 0, 0xFFFF, 0b1011, false, 0, true, false, false, false, false, false⟩

/-- All registers 0 but RDX, which is `zext_64(RESET_EDX)` (R100, R901). -/
def resetRegs (c : Config) : Vector Word 16 :=
  #v[0, 0, c.resetEdx.setWidth 64, 0, 0, 0, 0, 0, 0, 0, 0, 0, 0, 0, 0, 0]

/-- CpuState, translation cache and salt after reset (R901), over the memory and the page versions a
reset leaves as they are (R900). -/
def State.resetOf (c : Config) (mem : List Host.Cell) (pv : List (Nat × Nat)) (busOps : Nat) :
    State where
  regs := resetRegs c
  rip := 0xFFF0
  flags := .reset
  segs := ⟨.resetData, .resetCs, .resetData, .resetData, .resetData, .resetData⟩
  ldtr := .resetLdtr
  tr := .resetTr
  gdtr := ⟨0, 0xFFFF⟩
  idtr := ⟨0, 0xFFFF⟩
  cpl := 0
  cr0 := 0x60000010
  cr2 := 0
  cr3 := 0
  cr4 := 0
  efer := 0
  kernelGsBase := 0
  msrExtra := []
  fpuSse := 0
  halted := false
  interruptShadow := false
  tlbSalt := 0
  ms := ⟨mem, pv, [], busOps⟩
  retired := 0
  nbytes := 0
  outcome := none
  cfg := c

/-- A fresh machine right after reset (R901), with the suggested parameters (log entry 4) and nothing
in memory (log entry 7). -/
def State.reset : State := State.resetOf .suggested [] [] 0

end Sys2Proof.Machine
end

