-- ==== Sys2Proof/Machine/Flags.lean ====
section
/-! DEFINITION. The flags register as a word (R115), the condition codes (R338), and every flag
computation of the spec (R116, R451, R452, and the rules of the single instructions). A result and its
flags are computed together, as a pair. -/

namespace Sys2Proof.Machine
open Sys2Proof

/-- The 64-bit value of `rflags` (R115): bit 1 is always 1; bits 3, 5, 15 and 63:22 always 0. -/
def Flags.image (f : Flags) : Word :=
  flagAt f.st.cf 0 ||| flagAt true 1 ||| flagAt f.st.pf 2 ||| flagAt f.st.af 4 |||
  flagAt f.st.zf 6 ||| flagAt f.st.sf 7 ||| flagAt f.tf 8 ||| flagAt f.ie 9 ||| flagAt f.df 10 |||
  flagAt f.st.of 11 ||| (f.iopl.setWidth 64 <<< 12) ||| flagAt f.nt 14 ||| flagAt f.rf 16 |||
  flagAt f.vm 17 ||| flagAt f.ac 18 ||| flagAt f.vif 19 ||| flagAt f.vip 20 ||| flagAt f.id 21

/-- `Cond(cc)` (R338). -/
def SFlags.cond (f : SFlags) : CC → Bool
  | .o => f.of
  | .no => !f.of
  | .b => f.cf
  | .ae => !f.cf
  | .e => f.zf
  | .ne => !f.zf
  | .be => f.cf || f.zf
  | .a => !f.cf && !f.zf
  | .s => f.sf
  | .ns => !f.sf
  | .p => f.pf
  | .np => !f.pf
  | .l => f.sf != f.of
  | .ge => f.sf == f.of
  | .le => f.zf || (f.sf != f.of)
  | .g => !f.zf && (f.sf == f.of)

/-- The flags with the six status flags replaced. -/
def Flags.withSt (f : Flags) (g : SFlags) : Flags := { f with st := g }

/-- `ZF(r)` (R116), for a `w`-bit result. -/
def zfOf (r : Word) : Bool := r == 0

/-- The six bits the configuration gives for undefined flags (R10), as flags (argument conventions: log
entry 21). -/
def undefSt (tag : String) (w : Width) (a b : Nat) (cnt : Nat) (f : Flags) : SFlags :=
  let u := undefFlags tag w.bits a b cnt f.image
  ⟨u.getLsbD 0, u.getLsbD 1, u.getLsbD 2, u.getLsbD 3, u.getLsbD 4, u.getLsbD 5⟩

/-- A result with the flags it leaves. -/
structure Computed where
  value : Word
  flags : Flags
  deriving DecidableEq, Repr

/-- `((a xor b xor r) >> 4) & 1` (R452). -/
def afOf (a b r : Word) : Bool := bit (a ^^^ b ^^^ r) 4

/-- `AddFlags(w, a, b, c)` (R452). -/
def addFlags (w : Width) (a b : Word) (c : Bool) (f : Flags) : Computed :=
  let s := a.toNat + b.toNat + c.toNat
  let r := ofNatW w s
  ⟨r, f.withSt
    { cf := decide (2 ^ w.bits ≤ s)
      of := (msb w a == msb w b) && (msb w r != msb w a)
      af := afOf a b r
      zf := zfOf r
      sf := msb w r
      pf := parity8 r }⟩

/-- `SubFlags(w, a, b, c)` (R452). -/
def subFlags (w : Width) (a b : Word) (c : Bool) (f : Flags) : Computed :=
  let r := ofNatW w (a.toNat + 2 * 2 ^ w.bits - (b.toNat + c.toNat))
  ⟨r, f.withSt
    { cf := decide (a.toNat < b.toNat + c.toNat)
      of := (msb w a != msb w b) && (msb w r != msb w a)
      af := afOf a b r
      zf := zfOf r
      sf := msb w r
      pf := parity8 r }⟩

/-- `LogicFlags(w, r)` (R452): AF undefined. -/
def logicFlags (tag : String) (w : Width) (a b r : Word) (f : Flags) : Computed :=
  ⟨r, f.withSt
    { cf := false
      of := false
      af := (undefSt tag w a.toNat b.toNat 0 f).af
      zf := zfOf r
      sf := msb w r
      pf := parity8 r }⟩

/-- INC (R463): CF unchanged. -/
def incFlags (w : Width) (a : Word) (f : Flags) : Computed :=
  let r := ofNatW w (a.toNat + 1)
  ⟨r, f.withSt
    { cf := f.st.cf
      of := a.toNat == 2 ^ (w.bits - 1) - 1
      af := a.toNat % 16 == 15
      zf := zfOf r
      sf := msb w r
      pf := parity8 r }⟩

/-- DEC (R464): CF unchanged. -/
def decFlags (w : Width) (a : Word) (f : Flags) : Computed :=
  let r := ofNatW w (a.toNat + 2 ^ w.bits - 1)
  ⟨r, f.withSt
    { cf := f.st.cf
      of := a.toNat == 2 ^ (w.bits - 1)
      af := a.toNat % 16 == 0
      zf := zfOf r
      sf := msb w r
      pf := parity8 r }⟩

/-- MUL and IMUL (R467 to R469): CF = OF, the others undefined. -/
def mulFlags (tag : String) (w : Width) (a b : Word) (ovf : Bool) (f : Flags) : Flags :=
  f.withSt { undefSt tag w a.toNat b.toNat 0 f with cf := ovf, of := ovf }

/-- All six undefined (DIV, IDIV: R470, R471; MOV to and from a control register: R610, R611). -/
def allUndef (tag : String) (w : Width) (a b : Nat) (f : Flags) : Flags :=
  f.withSt (undefSt tag w a b 0 f)

/-- The masked shift count (R500). -/
def shiftCnt (w : Width) (raw : Nat) : Nat :=
  match w with
  | .w64 => raw % 64
  | _ => raw % 32

/-- The flags of a shift with a masked count other than 0 (R501 to R503): CF when the rule gives it
(`none`: undefined), OF when the count is 1. -/
def shiftFlags (tag : String) (w : Width) (a raw : Word) (cnt : Nat) (r : Word) (cf : Option Bool)
    (of1 : Bool → Bool) (f : Flags) : Flags :=
  let u := undefSt tag w a.toNat raw.toNat cnt f
  let c := cf.getD u.cf
  f.withSt
    { cf := c
      of := if cnt == 1 then of1 c else u.of
      af := u.af
      zf := zfOf r
      sf := msb w r
      pf := parity8 r }

/-- SHL (R501). -/
def shlFlags (w : Width) (a raw : Word) (f : Flags) : Computed :=
  let cnt := shiftCnt w raw.toNat
  let r := ofNatW w (a.toNat * 2 ^ cnt)
  if cnt == 0 then ⟨r, f⟩
  else
    ⟨r, shiftFlags "SHL" w a raw cnt r
      (if cnt < w.bits then some (bit a (w.bits - cnt)) else none) (fun c => msb w r ^^ c) f⟩

/-- SHR (R502). -/
def shrFlags (w : Width) (a raw : Word) (f : Flags) : Computed :=
  let cnt := shiftCnt w raw.toNat
  let r := ofNatW w (a.toNat / 2 ^ cnt)
  if cnt == 0 then ⟨r, f⟩
  else
    ⟨r, shiftFlags "SHR" w a raw cnt r
      (if cnt < w.bits then some (bit a (cnt - 1)) else none) (fun _ => msb w a) f⟩

/-- SAR (R503): the sign is replicated; CF is the sign once the count reaches the width. -/
def sarFlags (w : Width) (a raw : Word) (f : Flags) : Computed :=
  let cnt := shiftCnt w raw.toNat
  let r := ofIntW w (sint w a / (2 ^ min cnt w.bits : Nat))
  if cnt == 0 then ⟨r, f⟩
  else
    ⟨r, shiftFlags "SAR" w a raw cnt r
      (some (if cnt < w.bits then bit a (cnt - 1) else msb w a)) (fun _ => false) f⟩

/-- The flags of a rotate with a masked count other than 0 (R504, R505): only CF, and OF when the count
is 1. -/
def rotFlags (tag : String) (w : Width) (a raw : Word) (cnt : Nat) (cf of1 : Bool) (f : Flags) :
    Flags :=
  f.withSt
    { f.st with
      cf := cf
      of := if cnt == 1 then of1 else (undefSt tag w a.toNat raw.toNat cnt f).of }

/-- ROL (R504). -/
def rolFlags (w : Width) (a raw : Word) (f : Flags) : Computed :=
  let cnt := shiftCnt w raw.toNat
  let c := cnt % w.bits
  let r := ofNatW w (a.toNat * 2 ^ c ||| a.toNat / 2 ^ (w.bits - c))
  if cnt == 0 then ⟨r, f⟩
  else ⟨r, rotFlags "ROL" w a raw cnt (bit r 0) (msb w r ^^ bit r 0) f⟩

/-- ROR (R505). -/
def rorFlags (w : Width) (a raw : Word) (f : Flags) : Computed :=
  let cnt := shiftCnt w raw.toNat
  let c := cnt % w.bits
  let r := ofNatW w (a.toNat / 2 ^ c ||| a.toNat * 2 ^ (w.bits - c))
  if cnt == 0 then ⟨r, f⟩
  else ⟨r, rotFlags "ROR" w a raw cnt (msb w r) (msb w r ^^ bit r (w.bits - 2)) f⟩

/-- SAHF (R415). -/
def sahfFlags (v : Word) (f : Flags) : Flags :=
  f.withSt
    { f.st with
      sf := bit v 7
      zf := bit v 6
      af := bit v 4
      pf := bit v 2
      cf := bit v 0 }

/-- POPF (R425): the bits of the mask, which IOPL and IF leave according to `cpl`, and AC and ID with an
operand size of 32 or 64; RF is cleared. -/
def popfFlags (w : Width) (cpl : BitVec 2) (v : Word) (f : Flags) : Flags :=
  let wide := decide (32 ≤ w.bits)
  { f with
    st := ⟨bit v 0, bit v 2, bit v 4, bit v 6, bit v 7, bit v 11⟩
    tf := bit v 8
    ie := if f.iopl < cpl then f.ie else bit v 9
    df := bit v 10
    iopl := if 0 < cpl then f.iopl else BitVec.ofNat 2 (field v 13 12)
    nt := bit v 14
    rf := false
    ac := if wide then bit v 18 else f.ac
    id := if wide then bit v 21 else f.id }

end Sys2Proof.Machine
end

