-- ==== Sys2Proof/Machine/Mode.lean ====
section
/-! DEFINITION. What is derived from the state and never stored: the control bits, the operating mode
(R140), the paging mode (R141), the decoding mode (R142), the stack address size (R143). -/

namespace Sys2Proof.Machine
open Sys2Proof

/-- `cr0.PE` (R130). -/
def State.pe (s : State) : Bool := bit s.cr0 0
/-- `cr0.WP` (R130). -/
def State.wp (s : State) : Bool := bit s.cr0 16
/-- `cr0.PG` (R130). -/
def State.pg (s : State) : Bool := bit s.cr0 31
/-- `cr4.PSE` (R133). -/
def State.pse (s : State) : Bool := bit s.cr4 4
/-- `cr4.PAE` (R133). -/
def State.pae (s : State) : Bool := bit s.cr4 5
/-- `efer.LME` (R135). -/
def State.lme (s : State) : Bool := bit s.efer 8
/-- `efer.LMA` (R135). -/
def State.lma (s : State) : Bool := bit s.efer 10
/-- `efer.NXE` (R135). -/
def State.nxe (s : State) : Bool := bit s.efer 11

/-- The operating modes (R140). -/
inductive OpMode where
  | real | prot | long
  deriving DecidableEq, Repr

/-- `OpMode` (R140). -/
def State.opMode (s : State) : OpMode :=
  if s.pe then (if s.lma then .long else .prot) else .real

/-- The paging modes (R141). -/
inductive PagingMode where
  | none | legacy2 | pae3 | long4
  deriving DecidableEq, Repr

/-- `PagingMode` (R141). -/
def State.pagingMode (s : State) : PagingMode :=
  if s.pg then
    (if s.pae then (if s.lma then .long4 else .pae3) else .legacy2)
  else .none

/-- `DecodeMode` (R142). -/
def State.decodeMode (s : State) : DecodeMode :=
  if s.lma && s.segs.cs.l then .m64 else if s.segs.cs.db then .m32 else .m16

/-- Whether the decoding mode is 64. -/
def State.is64 (s : State) : Bool := s.decodeMode == .m64

/-- The stack address size `S` (R143). -/
def State.stackSize (s : State) : Width :=
  if s.is64 then .w64 else if s.segs.ss.db then .w32 else .w16

/-- `cpl == 3`: the access is a user access (R250). -/
def State.user (s : State) : Bool := s.cpl == 3

/-- A segment register by name (R120). -/
def Segs.get (g : Segs) : SReg → SegReg
  | .es => g.es
  | .cs => g.cs
  | .ss => g.ss
  | .ds => g.ds
  | .fs => g.fs
  | .gs => g.gs

/-- The segment registers after a write to one. -/
def Segs.set (g : Segs) (r : SReg) (v : SegReg) : Segs :=
  match r with
  | .es => { g with es := v }
  | .cs => { g with cs := v }
  | .ss => { g with ss := v }
  | .ds => { g with ds := v }
  | .fs => { g with fs := v }
  | .gs => { g with gs := v }

/-- Reduction of an instruction-pointer value to what the decoding mode can hold (R110, R160.6). -/
def State.ripWrap (s : State) (v : Word) : Word := if s.is64 then v else trunc .w32 v

/-- `next_rip` (R110). -/
def State.nextRip (s : State) (len : Nat) : Word := s.ripWrap (s.rip + BitVec.ofNat 64 len)

end Sys2Proof.Machine
end

