-- ==== Sys2Proof/Machine/Ops.lean ====
section
/-! DEFINITION. The shared operations: instruction bodies that may raise (R14), taking an exception
(R801, R812, R835), completing an instruction with the block bookkeeping of R700, software interrupts
(R532), and the general registers (R102, R103). -/

namespace Sys2Proof.Machine
open Sys2Proof

/-! ### Bodies that may raise

A body reads and changes the state or raises. What it has changed when it raises stays: a rule changes
registers, flags and segment registers only after the last point at which it can raise, so that what
stays is what R802 lets stay. -/

/-- A body: it ends with a value and a state, or raises with the state reached. -/
abbrev M := EStateM FaultRec State

/-- `raise` (R801). -/
def raise {α : Type} (f : FaultRec) : M α := throw f

/-- `#DE` (R810). -/
def FaultRec.de : FaultRec := ⟨0, none, none⟩
/-- `#UD` (R810). -/
def FaultRec.ud : FaultRec := ⟨6, none, none⟩
/-- `#NP(sel)` (R810, R811 b). -/
def FaultRec.np (code : BitVec 32) : FaultRec := ⟨11, some code, none⟩
/-- `#SS(code)` (R810). -/
def FaultRec.ss (code : BitVec 32) : FaultRec := ⟨12, some code, none⟩
/-- `#GP(code)` (R810). -/
def FaultRec.gp (code : BitVec 32) : FaultRec := ⟨13, some code, none⟩
/-- `#PF(code)` at a linear address (R810, R811 c, R812). -/
def FaultRec.pf (code : BitVec 32) (addr : Word) : FaultRec := ⟨14, some code, some addr⟩

/-- `if c: raise f`. -/
def raiseIf (c : Bool) (f : FaultRec) : M Unit := if c then raise f else pure ()

/-- The privilege check of R600: `if cpl != 0: raise #GP(0)`. -/
def privileged : M Unit := do
  let s ← get
  raiseIf (s.cpl != 0) (.gp 0)

/-! ### Ends of an instruction step -/

/-- A linear address as a page fault reports it: zero-extended from 32 bits outside 64-bit mode (R812). -/
def State.reportedAddr (s : State) (lin : Word) : Word := if s.is64 then lin else trunc .w32 lin

/-- What the outcome carries of a raised exception (R801, R812). -/
def State.reported (s : State) (f : FaultRec) : FaultRec :=
  { f with addr := f.addr.map s.reportedAddr }

/-- Taking an exception, as far as the block goes (R801, R812, R835): `cr2` gets the fault address of a
`#PF`, the block ends with the outcome `Fault`, and nothing else changes; `rip` stays at the
instruction. -/
def takeFault (f : FaultRec) (s : State) : State :=
  { s with
    cr2 := (s.reported f).addr.getD s.cr2
    outcome := some ⟨.fault (s.reported f), s.retired, s.rip⟩ }

/-- A software interrupt (R532 to R534): the block ends with the outcome `SoftInt`, not retired,
nothing else changes. -/
def softInt (vector : BitVec 8) (kind : SoftIntKind) (len : Nat) (s : State) : State :=
  { s with outcome := some ⟨.softInt vector kind len, s.retired, s.rip⟩ }

/-- The bytes are not modelled by the decoder (R713): the block ends with `Unsupported`. -/
def unsupported (bytes : List Byte) (s : State) : State :=
  { s with outcome := some ⟨.unsupported bytes, s.retired, s.rip⟩ }

/-- The `Completed` case of R700: whether and how the block ends after an instruction, given the state
with the counters already advanced, TF before the instruction, and whether it ends a block (R703). -/
def blockEnds (tf0 ends : Bool) (s : State) : Option OutcomeKind :=
  if s.halted then some .halted
  else if tf0 then some (.trap 1)
  else if ends then some .blockEnd
  else if s.cfg.maxBlockInstrs ≤ s.retired || s.cfg.maxBlockBytes < s.nbytes + 15 then some .limit
  else none

/-- Completion of an instruction of `len` bytes started in `s0` (R710, R714, R715, R700): `rip`
committed, RF cleared, the interrupt shadow set or cleared, the counters advanced, the end of the block
decided. -/
def complete (s0 : State) (len : Nat) (ends shadow : Bool) (rip : Word) (s : State) : State :=
  let t : State :=
    { s with
      rip := s0.ripWrap rip
      flags := { s.flags with rf := false }
      interruptShadow := shadow
      retired := s.retired + 1
      nbytes := s.nbytes + len }
  { t with
    outcome :=
      match blockEnds s0.flags.tf ends t with
      | some k => some ⟨k, t.retired, t.rip⟩
      | none => none }

/-- The result type of a meaning. -/
abbrev Result := Host.Outcome State Fault Refusal

/-- Runs a body that leaves `rip` to `next_rip` (R400 a). -/
def retire (h : Hdr) (ends : Bool) (body : M Unit) (s : State) : Result :=
  match body s with
  | .ok _ t => .next (complete s h.len ends false (s.nextRip h.len) t)
  | .error f t => .next (takeFault f t)

/-- Runs a body that says whether it opens an interrupt shadow (STI, MOV to SS: R714); it ends the
block. -/
def retireShadow (h : Hdr) (body : M Bool) (s : State) : Result :=
  match body s with
  | .ok shadow t => .next (complete s h.len true shadow (s.nextRip h.len) t)
  | .error f t => .next (takeFault f t)

/-- Runs the body of a control transfer, which gives the new `rip`; it ends the block (R520). -/
def retireTo (h : Hdr) (body : M Word) (s : State) : Result :=
  match body s with
  | .ok rip t => .next (complete s h.len true false rip t)
  | .error f t => .next (takeFault f t)

/-! ### General registers -/

/-- `x[i]` (R100). -/
def State.x (s : State) (i : RegNum) : Word := s.regs[i]

/-- `x[i] <- v` (R100). -/
def State.setX (s : State) (i : RegNum) (v : Word) : State := { s with regs := s.regs.set i v }

/-- `RegRead(w, r)` (R102). -/
def State.regRead (s : State) (w : Width) (r : Gpr) : Word :=
  match w with
  | .w8 => if r.high8 then trunc .w8 (s.x r.num >>> 8) else trunc .w8 (s.x r.num)
  | _ => trunc w (s.x r.num)

/-- The register value after a write of width `w` (R103): 8 and 16 bits keep the rest, 32 bits clear
bits 63:32. -/
def mergeReg (w : Width) (high8 : Bool) (old v : Word) : Word :=
  match w with
  | .w8 =>
    if high8 then (old &&& ~~~(0xFF00#64)) ||| (trunc .w8 v <<< 8)
    else (old &&& ~~~(0xFF#64)) ||| trunc .w8 v
  | .w16 => (old &&& ~~~(0xFFFF#64)) ||| trunc .w16 v
  | .w32 => trunc .w32 v
  | .w64 => v

/-- `RegWrite(w, r, v)` (R103). -/
def State.regWrite (s : State) (w : Width) (r : Gpr) (v : Word) : State :=
  s.setX r.num (mergeReg w r.high8 (s.x r.num) v)

/-- The designator of a whole register. -/
def gpr (i : RegNum) : Gpr := ⟨i, false⟩

/-- rAX, rCX, rDX, rBX, rSP, rBP, rSI, rDI, and AH (R101). -/
def rAX : Gpr := gpr 0
def rCX : Gpr := gpr 1
def rDX : Gpr := gpr 2
def rBX : Gpr := gpr 3
def rSP : Gpr := gpr 4
def rBP : Gpr := gpr 5
def rSI : Gpr := gpr 6
def rDI : Gpr := gpr 7
def regAH : Gpr := ⟨0, true⟩

/-- Commits of one register and of the flags, inside a body. -/
def setReg (w : Width) (r : Gpr) (v : Word) : M Unit := modify (·.regWrite w r v)

/-- `flags <- f`. -/
def setFlags (f : Flags) : M Unit := modify fun s => { s with flags := f }

/-- `BumpSalt()` (R280). -/
def State.bumpSalt (s : State) : State := { s with tlbSalt := s.tlbSalt + 1 }

end Sys2Proof.Machine
end

