-- ==== Sys2Proof/Machine/Sparse.lean ====
section
/-! DEFINITION. Finite maps from natural numbers as lists of (key, value) pairs in one canonical form:
keys strictly rising, no value equal to the default `d` that an unlisted key has. Memory, the page
versions, the translation cache and the extra MSRs are held so. -/

namespace Sys2Proof.Machine

/-- The value at a key. -/
def sparseGet {β : Type} (d : β) : List (Nat × β) → Nat → β
  | [], _ => d
  | (a, b) :: t, k => if k = a then b else sparseGet d t k

/-- The list after a write; writing the default removes the entry. -/
def sparseSet {β : Type} [DecidableEq β] (d : β) : List (Nat × β) → Nat → β → List (Nat × β)
  | [], k, v => if v = d then [] else [(k, v)]
  | (a, b) :: t, k, v =>
    if k < a then (if v = d then (a, b) :: t else (k, v) :: (a, b) :: t)
    else if k = a then (if v = d then t else (k, v) :: t)
    else (a, b) :: sparseSet d t k v

/-- The canonical form. -/
def sparseWf {β : Type} [DecidableEq β] (d : β) : List (Nat × β) → Bool
  | [] => true
  | (a, b) :: t => decide (b ≠ d) && t.all (fun e => decide (a < e.1)) && sparseWf d t

end Sys2Proof.Machine
end

