-- ==== Sys2Proof/Machine/Bus.lean ====
section
/-! DEFINITION. The bus and the guest-write observer (`spec/20_memory.md` R203 to R205, R230 to R234):
reads and writes of physical bytes, little-endian, and the page-version bump after every write. -/

namespace Sys2Proof.Machine
open Sys2Proof

/-- Whether a physical page is RAM (`IsRam` of R10, R205; log entry 9). -/
def isRam (c : Config) (ppn : Nat) : Bool :=
  !c.nonRam.any fun r => decide (r.1 ≤ ppn) && decide (ppn < r.2)

/-- The byte of RAM at a physical address; an unlisted address reads as 0 (log entry 7). -/
def MemSys.byte (m : MemSys) (pa : Nat) : Byte := sparseGet 0 m.mem pa

/-- `n` bytes of RAM from a physical address up. -/
def MemSys.bytes (m : MemSys) : Nat → Nat → List Byte
  | _, 0 => []
  | pa, n + 1 => m.byte pa :: m.bytes (pa + 1) n

/-- The bytes a page that is not RAM answers: free values (R205; log entry 8). -/
def freeBytes (op : Nat) : Nat → Nat → List Byte
  | _, 0 => []
  | pa, n + 1 => freeBusByte op pa :: freeBytes op (pa + 1) n

/-- RAM after bytes are written from a physical address up. -/
def MemSys.storeBytes (m : MemSys) : Nat → List Byte → MemSys
  | _, [] => m
  | pa, b :: bs => ({ m with mem := sparseSet 0 m.mem pa b } : MemSys).storeBytes (pa + 1) bs

/-- One more access to a page that is not RAM. -/
def MemSys.countBusOp (m : MemSys) : MemSys := { m with busOps := m.busOps + 1 }

/-- Bumps of `count` page versions from page `p` up, each by 1 (R232). -/
def MemSys.bumpPages (m : MemSys) : Nat → Nat → MemSys
  | _, 0 => m
  | p, n + 1 =>
    ({ m with pageVersion := sparseSet 0 m.pageVersion p (sparseGet 0 m.pageVersion p + 1) } :
      MemSys).bumpPages (p + 1) n

/-- `OnGuestWrite(pa, len)` (R232): every page the range touches, once. -/
def MemSys.onGuestWrite (m : MemSys) (pa len : Nat) : MemSys :=
  if len = 0 then m else m.bumpPages (pa / 4096) ((pa + len - 1) / 4096 + 1 - pa / 4096)

/-- `PhysWrite` of some bytes (R204): RAM holds them; a page that is not RAM promises nothing (R205). -/
def MemSys.physWrite (c : Config) (m : MemSys) (pa : Nat) (bs : List Byte) : MemSys :=
  if isRam c (pa / 4096) then m.storeBytes pa bs else m.countBusOp

/-- A change of memory, page versions and translation cache only. -/
def State.withMs (s : State) (m : MemSys) : State := { s with ms := m }

/-- `PhysRead(pa, n)` (R203): little-endian (R201), cannot fail. -/
def physRead (pa n : Nat) : M Word := fun s =>
  if isRam s.cfg (pa / 4096) then .ok (BitVec.ofNat 64 (leNat (s.ms.bytes pa n))) s
  else .ok (BitVec.ofNat 64 (leNat (freeBytes s.ms.busOps pa n))) (s.withMs s.ms.countBusOp)

/-- `PhysWrite(pa, n, v)` (R204). -/
def physWrite (pa n : Nat) (v : Word) : M Unit :=
  modify fun s => s.withMs (s.ms.physWrite s.cfg pa (leBytes n v.toNat))

/-- `OnGuestWrite(pa, len)` (R232). -/
def onGuestWrite (pa len : Nat) : M Unit := modify fun s => s.withMs (s.ms.onGuestWrite pa len)

end Sys2Proof.Machine
end

