-- ==== Sys2Proof/Machine/Paging.lean ====
section
/-! DEFINITION. Address translation (`spec/21_mmu_tlb.md`): the translation cache with its salt
(R250 to R254, R280), the three walks (R255 to R262), protection (R270 to R273), accessed and dirty bits
(R275). -/

namespace Sys2Proof.Machine
open Sys2Proof

/-- The access kinds of R250. -/
inductive Access where
  | read | write | execute
  deriving DecidableEq, Repr

/-- `Permits(w, u, x, kind, user)` (R270). -/
def State.permits (s : State) (w u x : Bool) (kind : Access) (user : Bool) : Bool :=
  (!user || u) && (kind != .write || w || (!user && !s.wp)) && (kind != .execute || x)

/-- The error code of a page fault (R273). -/
def State.pfCode (s : State) (kind : Access) (user present rsvd : Bool) : BitVec 32 :=
  (flagAt present 0 ||| flagAt (kind == .write) 1 ||| flagAt user 2 ||| flagAt rsvd 3 |||
    flagAt (kind == .execute && s.pae && s.nxe) 4).setWidth 32

/-- `if c: raise PF(present, rsvd)` inside `Translate(lin, kind, user)` (R273). -/
def pfIf (c : Bool) (lin : Word) (kind : Access) (user present rsvd : Bool) : M Unit := do
  let s ← get
  raiseIf c (.pf (s.pfCode kind user present rsvd) lin)

/-- `Rsvd8(e, pae, large)` (R262). -/
def State.rsvd8 (s : State) (e : Word) (pae large : Bool) : Bool :=
  field e 51 s.cfg.physBits != 0 ||
  (pae && field e 62 52 != 0) ||
  (!s.nxe && bit e 63) ||
  (large && field e 20 13 != 0)

/-- What a walk finds before the permission check: the entries it read that have accessed bits, root
first, with their addresses, the last one the leaf; the entry size; the physical page number and the
accumulated permissions. -/
structure Walked where
  levels : List (Nat × Word)
  size : Nat
  ppn : Nat
  w : Bool
  u : Bool
  x : Bool
  deriving DecidableEq, Repr

/-- A paging-structure entry that must be present: read (R256 to R259), present check (R274). -/
def readEntry (pa size : Nat) (lin : Word) (kind : Access) (user : Bool) : M Word := do
  let e ← physRead pa size
  pfIf (!bit e 0) lin kind user false false
  pure e

/-- Legacy 2-level walk (R256, R257). -/
def walkLegacy2 (lin : Word) (kind : Access) (user : Bool) : M Walked := do
  let s ← get
  let pdeAddr := field s.cr3 31 12 * 4096 + field lin 31 22 * 4
  let pde ← readEntry pdeAddr 4 lin kind user
  if bit pde 7 && s.pse then
    pure ⟨[(pdeAddr, pde)], 4, field pde 31 22 * 1024 + field lin 21 12, bit pde 1, bit pde 2, true⟩
  else do
    let pteAddr := field pde 31 12 * 4096 + field lin 21 12 * 4
    let pte ← readEntry pteAddr 4 lin kind user
    pure ⟨[(pdeAddr, pde), (pteAddr, pte)], 4, field pte 31 12, bit pde 1 && bit pte 1,
      bit pde 2 && bit pte 2, true⟩

/-- The base address in an 8-byte entry: bits `M-1:12`, `M` = `PHYS_BITS`. -/
def State.entryBase (s : State) (e : Word) : Nat := field e (s.cfg.physBits - 1) 12

/-- The lower two levels of the 8-byte walks, alike in R258 and R259: `pdeBase` is the page number of
the page directory; `above` the levels read before, `w`, `u`, `xd` their permissions; `pae` says which
bits are reserved. -/
def walkPd (pdeBase : Nat) (above : List (Nat × Word)) (w u xd pae : Bool) (lin : Word)
    (kind : Access) (user : Bool) : M Walked := do
  let s ← get
  let pdeAddr := pdeBase * 4096 + field lin 29 21 * 8
  let pde ← readEntry pdeAddr 8 lin kind user
  pfIf (s.rsvd8 pde pae (bit pde 7)) lin kind user true true
  if bit pde 7 then
    pure ⟨above ++ [(pdeAddr, pde)], 8,
      field pde (s.cfg.physBits - 1) 21 * 512 + field lin 20 12,
      w && bit pde 1, u && bit pde 2, !(s.nxe && (xd || bit pde 63))⟩
  else do
    let pteAddr := s.entryBase pde * 4096 + field lin 20 12 * 8
    let pte ← readEntry pteAddr 8 lin kind user
    pfIf (s.rsvd8 pte pae false) lin kind user true true
    pure ⟨above ++ [(pdeAddr, pde), (pteAddr, pte)], 8, s.entryBase pte,
      w && (bit pde 1 && bit pte 1), u && (bit pde 2 && bit pte 2),
      !(s.nxe && (xd || (bit pde 63 || bit pte 63)))⟩

/-- PAE 3-level walk (R258): the page-directory-pointer entry has no permissions and is never
written. -/
def walkPae3 (lin : Word) (kind : Access) (user : Bool) : M Walked := do
  let s ← get
  let pdpteAddr := field s.cr3 31 5 * 32 + field lin 31 30 * 8
  let pdpte ← readEntry pdpteAddr 8 lin kind user
  pfIf (field pdpte 2 1 != 0 || field pdpte 8 5 != 0 || field pdpte 63 s.cfg.physBits != 0)
    lin kind user true true
  walkPd (s.entryBase pdpte) [] true true false true lin kind user

/-- Long-mode 4-level walk (R259); bit 7 of the two upper entries is reserved (R260). -/
def walkLong4 (lin : Word) (kind : Access) (user : Bool) : M Walked := do
  let s ← get
  let pml4eAddr := s.entryBase s.cr3 * 4096 + field lin 47 39 * 8
  let pml4e ← readEntry pml4eAddr 8 lin kind user
  pfIf (bit pml4e 7 || s.rsvd8 pml4e false false) lin kind user true true
  let pdpteAddr := s.entryBase pml4e * 4096 + field lin 38 30 * 8
  let pdpte ← readEntry pdpteAddr 8 lin kind user
  pfIf (bit pdpte 7 || s.rsvd8 pdpte false false) lin kind user true true
  walkPd (s.entryBase pdpte) [(pml4eAddr, pml4e), (pdpteAddr, pdpte)] (bit pml4e 1 && bit pdpte 1)
    (bit pml4e 2 && bit pdpte 2) (bit pml4e 63 || bit pdpte 63) false lin kind user

/-- The entry after the accessed and, for the leaf of a write, dirty bit is set (R275). -/
def markEntry (kind : Access) (leaf : Bool) (e : Word) : Word :=
  e ||| 0x20 ||| (if leaf && kind == .write then 0x40 else 0)

/-- An entry is written only if it changes, and the write is followed by the page-version bump (R275,
R234). -/
def writeEntry (pa size : Nat) (old new : Word) : M Unit :=
  if new == old then pure ()
  else do
    physWrite pa size new
    onGuestWrite pa size

/-- Accessed and dirty bits (R275), root first. -/
def markLevels (size : Nat) (kind : Access) : List (Nat × Word) → M Unit
  | [] => pure ()
  | (pa, e) :: rest => do
    writeEntry pa size e (markEntry kind rest.isEmpty e)
    markLevels size kind rest

/-- The leaf's dirty bit after the update (R275). -/
def Walked.dirty (r : Walked) (kind : Access) : Bool :=
  kind == .write || bit (r.levels.getLastD (0, 0)).2 6

/-- The walk of the paging mode (R255). -/
def walkTables (mode : PagingMode) (lin : Word) (kind : Access) (user : Bool) : M Walked :=
  match mode with
  | .legacy2 => walkLegacy2 lin kind user
  | .pae3 => walkPae3 lin kind user
  | .long4 | .none => walkLong4 lin kind user

/-- `Walk` (R250): the structure checks, the permission check (R271), then accessed and dirty bits. -/
def walk (lin : Word) (kind : Access) (user : Bool) : M Walked := do
  let s ← get
  let r ← walkTables s.pagingMode lin kind user
  pfIf (!s.permits r.w r.u r.x kind user) lin kind user true false
  markLevels r.size kind r.levels
  pure r

/-- The slot of a linear page (R252). -/
def State.tlbIndex (s : State) (lin : Word) : Nat := lin.toNat / 4096 % s.cfg.tlbEntries

/-- The entry in a slot. -/
def State.tlbEntry (s : State) (idx : Nat) : TlbEntry := sparseGet .empty s.ms.tlb idx

/-- The linear page number (R250). -/
def vpnOf (lin : Word) : BitVec 52 := BitVec.ofNat 52 (lin.toNat / 4096)

/-- `Hit(e, vpn, kind, user)` (R252). -/
def State.tlbHit (s : State) (e : TlbEntry) (lin : Word) (kind : Access) (user : Bool) : Bool :=
  e.valid && e.tag == vpnOf lin && e.salt == s.tlbSalt && s.permits e.w e.u e.x kind user &&
  (kind != .write || e.d)

/-- `Fill(vpn, r)` (R253). -/
def State.tlbFill (s : State) (lin : Word) (kind : Access) (r : Walked) : TlbEntry where
  valid := true
  tag := vpnOf lin
  salt := s.tlbSalt
  ppn := BitVec.ofNat 40 r.ppn
  r := true
  w := r.w
  x := r.x
  u := r.u
  d := r.dirty kind
  isRam := isRam s.cfg r.ppn

/-- The translation cache with one slot written. -/
def State.setTlb (s : State) (idx : Nat) (e : TlbEntry) : State :=
  s.withMs { s.ms with tlb := sparseSet .empty s.ms.tlb idx e }

/-- `Translate(lin, kind, user)` (R250, R255): the physical address. -/
def translate (lin : Word) (kind : Access) (user : Bool) : M Nat := do
  let s ← get
  if s.pagingMode == .none then pure (field lin 31 0)
  else if s.tlbHit (s.tlbEntry (s.tlbIndex lin)) lin kind user then
    pure ((s.tlbEntry (s.tlbIndex lin)).ppn.toNat * 4096 + lin.toNat % 4096)
  else do
    let r ← walk lin kind user
    modify fun t => t.setTlb (t.tlbIndex lin) (t.tlbFill lin kind r)
    pure (r.ppn * 4096 + lin.toNat % 4096)

end Sys2Proof.Machine
end

