-- ==== Sys2Proof/Machine/Memory.lean ====
section
/-! DEFINITION. Memory access (`spec/20_memory.md`): logical to linear (R206 to R209), paging-aware
reads and writes at a linear address (R210, R211, R215, R216), data accesses (R212, R213),
read-modify-write (R214), and the stack (`40_data_movement.md` R420, R421). -/

namespace Sys2Proof.Machine
open Sys2Proof

/-- `Lin(seg, off)` (R206). -/
def State.lin (s : State) (seg : SReg) (off : Word) : Word :=
  if s.is64 then
    (match seg with
     | .fs | .gs => (s.segs.get seg).base + off
     | .es | .cs | .ss | .ds => off)
  else trunc .w32 ((s.segs.get seg).base + off)

/-- The segment violation of an access: `#SS(0)` through SS, else `#GP(0)` (R207, R209). -/
def segFault (seg : SReg) : FaultRec := if seg == .ss then .ss 0 else .gp 0

/-- Whether a code or data type allows an access kind (R209 step 2). -/
def SegReg.typeAllows (r : SegReg) (kind : Access) : Bool :=
  let code := r.type.getLsbD 3
  match kind with
  | .write => !code && r.type.getLsbD 1
  | .read => !code || r.type.getLsbD 1
  | .execute => true

/-- Whether `n` bytes at an offset lie in the segment (R209 step 3). -/
def SegReg.inLimit (r : SegReg) (off : Word) (n : Nat) : Bool :=
  let code := r.type.getLsbD 3
  let last := off.toNat + n - 1
  if !code && r.type.getLsbD 2 then
    decide (r.limit.toNat < off.toNat) && decide (last ≤ if r.db then 0xFFFFFFFF else 0xFFFF)
  else decide (last ≤ r.limit.toNat)

/-- The checks of R209 for one access kind; they hold when `SEG_CHECKS` is off and in 64-bit mode. -/
def State.segOk (s : State) (seg : SReg) (off : Word) (n : Nat) (kind : Access) : Bool :=
  !s.cfg.segChecks || s.is64 ||
  (let r := s.segs.get seg
   !r.unusable && (s.opMode == .real || r.typeAllows kind) && r.inLimit off n)

/-- The canonical check of R207 on the first and the last byte, in 64-bit mode. -/
def State.canonOk (s : State) (lin : Word) (n : Nat) : Bool :=
  !s.is64 || (canonical lin && canonical (lin + BitVec.ofNat 64 (n - 1)))

/-- `lin + i` (R210): modulo `2^64` in 64-bit mode, modulo `2^32` otherwise. -/
def State.linAdd (s : State) (lin : Word) (i : Nat) : Word :=
  if s.is64 then lin + BitVec.ofNat 64 i else trunc .w32 (lin + BitVec.ofNat 64 i)

/-- The physical bytes of an access of `n` bytes: the first `k` from `pa0`, the rest from `pa1`;
`split` when it crosses a page (R210). This is the token of R214. -/
structure Span where
  pa0 : Nat
  pa1 : Nat
  k : Nat
  split : Bool
  deriving DecidableEq, Repr

/-- The physical address of byte `i` of an access (R210). -/
def Span.addr (p : Span) (i : Nat) : Nat := if i < p.k then p.pa0 + i else p.pa1 + (i - p.k)

/-- The physical addresses of the `n` bytes of an access. -/
def Span.addrs (p : Span) (n : Nat) : List Nat := (List.range n).map p.addr

/-- The translations of R210 and R211: both pages of a crossing access, the first page first. -/
def translateSpan (lin : Word) (n : Nat) (kind : Access) (user : Bool) : M Span := do
  let s ← get
  if lin.toNat % 4096 + n ≤ 4096 then do
    let pa ← translate lin kind user
    pure ⟨pa, 0, n, false⟩
  else do
    let pa0 ← translate lin kind user
    let pa1 ← translate (s.linAdd lin (4096 - lin.toNat % 4096)) kind user
    pure ⟨pa0, pa1, 4096 - lin.toNat % 4096, true⟩

/-- Bytes read one by one (R210), in the order of the list. -/
def readEach : List Nat → M (List Byte)
  | [] => pure []
  | a :: as => do
    let b ← physRead a 1
    let bs ← readEach as
    pure (b.setWidth 8 :: bs)

/-- The read half of R210. -/
def spanRead (p : Span) (n : Nat) : M Word :=
  if p.split then do
    let bs ← readEach (p.addrs n)
    pure (BitVec.ofNat 64 (leNat bs))
  else physRead p.pa0 n

/-- Bytes written one by one (R211), in the order of the list. -/
def writeEach : List (Nat × Byte) → M Unit
  | [] => pure ()
  | (a, b) :: rest => do
    physWrite a 1 (b.setWidth 64)
    writeEach rest

/-- The write half of R211: one `OnGuestWrite` per page touched, after the bytes. -/
def spanWrite (p : Span) (n : Nat) (v : Word) : M Unit :=
  if p.split then do
    writeEach ((p.addrs n).zip (leBytes n v.toNat))
    onGuestWrite p.pa0 p.k
    onGuestWrite p.pa1 (n - p.k)
  else do
    physWrite p.pa0 n v
    onGuestWrite p.pa0 n

/-- `LinRead(lin, n, kind, user)` (R210). -/
def linRead (lin : Word) (n : Nat) (kind : Access) (user : Bool) : M Word := do
  let p ← translateSpan lin n kind user
  spanRead p n

/-- `LinWrite(lin, n, v, user)` (R211). -/
def linWrite (lin : Word) (n : Nat) (v : Word) (user : Bool) : M Unit := do
  let p ← translateSpan lin n .write user
  spanWrite p n v

/-- `MemRead(seg, off, n)` (R212). -/
def memRead (seg : SReg) (off : Word) (n : Nat) : M Word := do
  let s ← get
  raiseIf (!s.segOk seg off n .read) (segFault seg)
  raiseIf (!s.canonOk (s.lin seg off) n) (segFault seg)
  linRead (s.lin seg off) n .read s.user

/-- `MemWrite(seg, off, n, v)` (R213). -/
def memWrite (seg : SReg) (off : Word) (n : Nat) (v : Word) : M Unit := do
  let s ← get
  raiseIf (!s.segOk seg off n .write) (segFault seg)
  raiseIf (!s.canonOk (s.lin seg off) n) (segFault seg)
  linWrite (s.lin seg off) n v s.user

/-- `MemRmwBegin(seg, off, n)` (R214): translated for write, then read. -/
def rmwBegin (seg : SReg) (off : Word) (n : Nat) : M (Word × Span) := do
  let s ← get
  raiseIf (!s.segOk seg off n .write) (segFault seg)
  raiseIf (!s.segOk seg off n .read) (segFault seg)
  raiseIf (!s.canonOk (s.lin seg off) n) (segFault seg)
  let p ← translateSpan (s.lin seg off) n .write s.user
  let old ← spanRead p n
  pure (old, p)

/-- `MemRmwEnd(token, n, v)` (R214). -/
def rmwEnd (p : Span) (n : Nat) (v : Word) : M Unit := spanWrite p n v

/-- `SysRead(lin, n)` (R216): a supervisor access whatever `cpl` is. -/
def sysRead (lin : Word) (n : Nat) : M Word := linRead lin n .read false

/-- `SysWrite(lin, n, v)` (R216). -/
def sysWrite (lin : Word) (n : Nat) (v : Word) : M Unit := linWrite lin n v false

/-- The stack pointer at the stack address size (R143, R420). -/
def State.sp (s : State) : Word := s.regRead s.stackSize rSP

/-- `trunc_S(RegRead(S, RSP) + n)`. -/
def State.spPlus (s : State) (n : Nat) : Word := trunc s.stackSize (s.sp + BitVec.ofNat 64 n)

/-- `trunc_S(RegRead(S, RSP) - n)`. -/
def State.spMinus (s : State) (n : Nat) : Word := trunc s.stackSize (s.sp - BitVec.ofNat 64 n)

/-- `RegWrite(S, RSP, v)`. -/
def State.setSp (s : State) (v : Word) : State := s.regWrite s.stackSize rSP v

/-- `Push(n, v)` (R420): a fault leaves RSP unchanged. -/
def push (n : Nat) (v : Word) : M Unit := do
  let s ← get
  memWrite .ss (s.spMinus n) n v
  modify fun t => t.setSp (s.spMinus n)

/-- `Pop(n)` (R421): a fault leaves RSP unchanged. -/
def pop (n : Nat) : M Word := do
  let s ← get
  let v ← memRead .ss s.sp n
  modify fun t => t.setSp (s.spPlus n)
  pure v

end Sys2Proof.Machine
end

