-- ==== Sys2Proof/Machine/Operands.lean ====
section
/-! DEFINITION. Operand forms: effective offsets (R330), reading and writing a decoded operand (R336),
the read-modify-write discipline (R214, R336), the forms of the two-operand operations (R453). -/

namespace Sys2Proof.Machine
open Sys2Proof

/-- `EA(m)` (R330) in a state, for an instruction with header `h`; a `moffs` operand has only a
displacement. -/
def State.ea (s : State) (h : Hdr) (m : MemOp) : Word :=
  let base := (m.base.map fun r => s.regRead h.a (gpr r)).getD 0
  let index := (m.index.map fun r => s.regRead h.a (gpr r)).getD 0
  let rel := if m.ripRel then s.nextRip h.len else 0
  trunc h.a (base + index * BitVec.ofNat 64 (2 ^ m.scale.val) + m.disp + rel)

/-- `ReadOp` of a register-or-memory operand (R336). -/
def readRM (h : Hdr) (w : Width) (o : RM) : M Word :=
  match o with
  | .reg r => do
    let s ← get
    pure (s.regRead w r)
  | .mem m => do
    let s ← get
    memRead m.seg (s.ea h m) w.bytes

/-- `WriteOp` of a register-or-memory operand that is not read (R336). -/
def writeRM (h : Hdr) (w : Width) (o : RM) (v : Word) : M Unit :=
  match o with
  | .reg r => setReg w r v
  | .mem m => do
    let s ← get
    memWrite m.seg (s.ea h m) w.bytes v

/-- `RegRead` in a body. -/
def readReg (w : Width) (r : Gpr) : M Word := do
  let s ← get
  pure (s.regRead w r)

/-- `RmwOp(o, f)` (R336): read the destination, compute result and flags, write the result, commit the
flags. -/
def rmwRM (h : Hdr) (w : Width) (o : RM) (f : Word → Flags → Computed) : M Unit :=
  match o with
  | .reg r => do
    let s ← get
    let c := f (s.regRead w r) s.flags
    setReg w r c.value
    setFlags c.flags
  | .mem m => do
    let s ← get
    let r ← rmwBegin m.seg (s.ea h m) w.bytes
    let c := f r.1 s.flags
    rmwEnd r.2 w.bytes c.value
    setFlags c.flags

/-- `RmwOp` on a register. -/
def rmwReg (w : Width) (r : Gpr) (f : Word → Flags → Computed) : M Unit := do
  let s ← get
  let c := f (s.regRead w r) s.flags
  setReg w r c.value
  setFlags c.flags

/-- The result and flags of a two-operand operation, from the operation `f w a b flags`, with the
destination written (R453): the five forms. -/
def aluWrite (h : Hdr) (f : Width → Word → Word → Flags → Computed) (form : AluForm) : M Unit :=
  match form with
  | .mr w dst src => do
    let b ← readReg w src
    rmwRM h w dst (fun a fl => f w a b fl)
  | .rm w dst src => do
    let b ← readRM h w src
    rmwReg w dst (fun a fl => f w a b fl)
  | .acc w imm => rmwReg w rAX (fun a fl => f w a imm fl)
  | .mi w dst imm => rmwRM h w dst (fun a fl => f w a imm fl)
  | .mis w dst imm => rmwRM h w dst (fun a fl => f w a imm fl)

/-- Commits only the flags of a computation (R461, R462). -/
def compareWith (a b : Word) (f : Word → Word → Flags → Computed) : M Unit := do
  let s ← get
  setFlags (f a b s.flags).flags

/-- The five forms with both operands only read (CMP, R461). -/
def aluCompare (h : Hdr) (f : Width → Word → Word → Flags → Computed) (form : AluForm) : M Unit :=
  match form with
  | .mr w dst src => do
    let a ← readRM h w dst
    let b ← readReg w src
    compareWith a b (f w)
  | .rm w dst src => do
    let a ← readReg w dst
    let b ← readRM h w src
    compareWith a b (f w)
  | .acc w imm => do
    let a ← readReg w rAX
    compareWith a imm (f w)
  | .mi w dst imm => do
    let a ← readRM h w dst
    compareWith a imm (f w)
  | .mis w dst imm => do
    let a ← readRM h w dst
    compareWith a imm (f w)

/-- The raw count of a shift or rotate (R500). -/
def State.shiftRaw (s : State) (c : ShiftCount) : Word :=
  match c with
  | .imm b => b.setWidth 64
  | .one => 1
  | .cl => s.regRead .w8 rCX

/-- The condition of a conditional instruction (R338). -/
def State.cond (s : State) (cc : CC) : Bool := s.flags.st.cond cc

end Sys2Proof.Machine
end

