-- ==== Sys2Proof/Machine/Alu.lean ====
section
/-! DEFINITION. Two-operand and one-operand arithmetic and logic, CMPXCHG and XADD
(`spec/41_integer_alu.md` R454 to R466, R472, R473). -/

namespace Sys2Proof.Machine
open Sys2Proof

/-- ADD (R454). -/
def execAdd (h : Hdr) (f : AluForm) (s : State) : Result :=
  retire h false (aluWrite h (fun w a b fl => addFlags w a b false fl) f) s

/-- OR (R455). -/
def execOr (h : Hdr) (f : AluForm) (s : State) : Result :=
  retire h false (aluWrite h (fun w a b fl => logicFlags "OR" w a b (a ||| b) fl) f) s

/-- ADC (R456). -/
def execAdc (h : Hdr) (f : AluForm) (s : State) : Result :=
  retire h false (aluWrite h (fun w a b fl => addFlags w a b fl.st.cf fl) f) s

/-- SBB (R457). -/
def execSbb (h : Hdr) (f : AluForm) (s : State) : Result :=
  retire h false (aluWrite h (fun w a b fl => subFlags w a b fl.st.cf fl) f) s

/-- AND (R458). -/
def execAnd (h : Hdr) (f : AluForm) (s : State) : Result :=
  retire h false (aluWrite h (fun w a b fl => logicFlags "AND" w a b (a &&& b) fl) f) s

/-- SUB (R459). -/
def execSub (h : Hdr) (f : AluForm) (s : State) : Result :=
  retire h false (aluWrite h (fun w a b fl => subFlags w a b false fl) f) s

/-- XOR (R460). -/
def execXor (h : Hdr) (f : AluForm) (s : State) : Result :=
  retire h false (aluWrite h (fun w a b fl => logicFlags "XOR" w a b (a ^^^ b) fl) f) s

/-- CMP (R461): no operand is written. -/
def execCmp (h : Hdr) (f : AluForm) (s : State) : Result :=
  retire h false (aluCompare h (fun w a b fl => subFlags w a b false fl) f) s

/-- The flags of TEST (R462). -/
def testFlags (w : Width) (a b : Word) (fl : Flags) : Computed :=
  logicFlags "TEST" w a b (a &&& b) fl

/-- R462. -/
def testBody (h : Hdr) (f : TestForm) : M Unit :=
  match f with
  | .mr w x y => do
    let a ← readRM h w x
    let b ← readReg w y
    compareWith a b (testFlags w)
  | .acc w imm => do
    let a ← readReg w rAX
    compareWith a imm (testFlags w)
  | .mi w x imm => do
    let a ← readRM h w x
    compareWith a imm (testFlags w)

/-- TEST (R462). -/
def execTest (h : Hdr) (f : TestForm) (s : State) : Result := retire h false (testBody h f) s

/-- The destination forms of INC and DEC. -/
def incBody (h : Hdr) (g : Width → Word → Flags → Computed) (f : IncForm) : M Unit :=
  match f with
  | .rm w dst => rmwRM h w dst (g w)
  | .short w r => rmwReg w r (g w)

/-- INC (R463). -/
def execInc (h : Hdr) (f : IncForm) (s : State) : Result := retire h false (incBody h incFlags f) s

/-- DEC (R464). -/
def execDec (h : Hdr) (f : IncForm) (s : State) : Result := retire h false (incBody h decFlags f) s

/-- NEG (R465). -/
def execNeg (h : Hdr) (w : Width) (dst : RM) (s : State) : Result :=
  retire h false (rmwRM h w dst (fun a fl => subFlags w 0 a false fl)) s

/-- NOT (R466): no flags. -/
def execNot (h : Hdr) (w : Width) (dst : RM) (s : State) : Result :=
  retire h false (rmwRM h w dst (fun a fl => ⟨trunc w (~~~a), fl⟩)) s

/-- R472: the memory destination is written in every case, the register destination only on a match. -/
def cmpxchgBody (h : Hdr) (w : Width) (dst : RM) (src : Gpr) : M Unit := do
  let s ← get
  let acc := s.regRead w rAX
  match dst with
  | .reg r => do
    let old := s.regRead w r
    (if acc == old then setReg w r (s.regRead w src) else setReg w rAX old)
    setFlags (subFlags w acc old false s.flags).flags
  | .mem m => do
    let o ← rmwBegin m.seg (s.ea h m) w.bytes
    (if acc == o.1 then rmwEnd o.2 w.bytes (s.regRead w src)
     else do
       rmwEnd o.2 w.bytes o.1
       setReg w rAX o.1)
    setFlags (subFlags w acc o.1 false s.flags).flags

/-- CMPXCHG (R472). -/
def execCmpxchg (h : Hdr) (w : Width) (dst : RM) (src : Gpr) (s : State) : Result :=
  retire h false (cmpxchgBody h w dst src) s

/-- R473: source first, then destination. -/
def xaddBody (h : Hdr) (w : Width) (dst : RM) (src : Gpr) : M Unit := do
  let s ← get
  match dst with
  | .reg r => do
    let c := addFlags w (s.regRead w r) (s.regRead w src) false s.flags
    setReg w src (s.regRead w r)
    setReg w r c.value
    setFlags c.flags
  | .mem m => do
    let o ← rmwBegin m.seg (s.ea h m) w.bytes
    let c := addFlags w o.1 (s.regRead w src) false s.flags
    rmwEnd o.2 w.bytes c.value
    setReg w src o.1
    setFlags c.flags

/-- XADD (R473). -/
def execXadd (h : Hdr) (w : Width) (dst : RM) (src : Gpr) (s : State) : Result :=
  retire h false (xaddBody h w dst src) s

end Sys2Proof.Machine
end

