-- ==== Sys2Proof/Machine/Control.lean ====
section
/-! DEFINITION. Control transfers (`spec/43_control_transfer.md`): every one ends the block, taken or
not; the software interrupts are outcomes for the caller. -/

namespace Sys2Proof.Machine
open Sys2Proof

/-- `RelTarget(rel)` (R520). -/
def State.relTarget (s : State) (h : Hdr) (w : Width) (rel : Word) : Word :=
  trunc w (s.nextRip h.len + rel)

/-- Whether `BranchCheck(t)` passes (R520). -/
def State.branchOk (s : State) (t : Word) : Bool :=
  if s.is64 then canonical t
  else !(s.cfg.segChecks && decide (s.segs.cs.limit.toNat < t.toNat))

/-- `BranchCheck(t)` (R520). -/
def branchCheck (t : Word) : M Unit := do
  let s ← get
  raiseIf (!s.branchOk t) (.gp 0)

/-- The target of a taken relative branch, checked (R520). -/
def takeRel (h : Hdr) (w : Width) (rel : Word) : M Word := do
  let s ← get
  let t := s.relTarget h w rel
  branchCheck t
  pure t

/-- A conditional relative branch: no check when it is not taken (R520). -/
def branchIf (taken : Bool) (h : Hdr) (w : Width) (rel : Word) : M Word :=
  if taken then takeRel h w rel
  else do
    let s ← get
    pure (s.nextRip h.len)

/-- JMP rel (R521). -/
def execJmpRel (h : Hdr) (w : Width) (_z : RelSize) (rel : Word) (s : State) : Result :=
  retireTo h (takeRel h w rel) s

/-- JMP r/m (R522). -/
def execJmpInd (h : Hdr) (w : Width) (src : RM) (s : State) : Result :=
  retireTo h (do
    let t ← readRM h w src
    branchCheck t
    pure t) s

/-- Jcc (R523). -/
def execJcc (h : Hdr) (cc : CC) (w : Width) (_z : RelSize) (rel : Word) (s : State) : Result :=
  retireTo h (branchIf (s.cond cc) h w rel) s

/-- The return address of a call (R524, R525). -/
def pushReturn (h : Hdr) (w : Width) : M Unit := do
  let s ← get
  push w.bytes (trunc w (s.nextRip h.len))

/-- CALL rel (R524): the check comes before the push. -/
def execCallRel (h : Hdr) (w : Width) (rel : Word) (s : State) : Result :=
  retireTo h (do
    let t ← takeRel h w rel
    pushReturn h w
    pure t) s

/-- CALL r/m (R525). -/
def execCallInd (h : Hdr) (w : Width) (src : RM) (s : State) : Result :=
  retireTo h (do
    let t ← readRM h w src
    branchCheck t
    pushReturn h w
    pure t) s

/-- The common part of R526 and R527: the stack pointer moves past the return address and `extra`
bytes. -/
def retBody (w : Width) (extra : Nat) : M Word := do
  let s ← get
  let v ← memRead .ss s.sp w.bytes
  branchCheck v
  modify fun t => t.setSp (s.spPlus (w.bytes + extra))
  pure v

/-- RET (R526). -/
def execRet (h : Hdr) (w : Width) (s : State) : Result := retireTo h (retBody w 0) s

/-- RET imm16 (R527). -/
def execRetImm (h : Hdr) (w : Width) (imm : BitVec 16) (s : State) : Result :=
  retireTo h (retBody w imm.toNat) s

/-- R528 to R530: the counter is decremented whether or not the branch is taken; the check comes
first. -/
def loopBody (h : Hdr) (w : Width) (rel : Word) (also : Bool) : M Word := do
  let s ← get
  let c := trunc h.a (s.regRead h.a rCX - 1)
  let t ← branchIf (c != 0 && also) h w rel
  setReg h.a rCX c
  pure t

/-- LOOP (R528). -/
def execLoop (h : Hdr) (w : Width) (rel : Word) (s : State) : Result :=
  retireTo h (loopBody h w rel true) s

/-- LOOPE (R529). -/
def execLoope (h : Hdr) (w : Width) (rel : Word) (s : State) : Result :=
  retireTo h (loopBody h w rel s.flags.st.zf) s

/-- LOOPNE (R530). -/
def execLoopne (h : Hdr) (w : Width) (rel : Word) (s : State) : Result :=
  retireTo h (loopBody h w rel !s.flags.st.zf) s

/-- JCXZ, JECXZ, JRCXZ (R531). -/
def execJrcxz (h : Hdr) (w : Width) (rel : Word) (s : State) : Result :=
  retireTo h (branchIf (s.regRead h.a rCX == 0) h w rel) s

/-- INT3 (R532): reported with `len` = 1, not retired. -/
def execInt3 (_h : Hdr) (s : State) : Result := .next (softInt 3 .int3 1 s)

/-- INT n (R533). -/
def execIntn (h : Hdr) (vec : BitVec 8) (s : State) : Result := .next (softInt vec .intN h.len s)

/-- INTO (R534): reported when OF is 1, else it completes. -/
def execInto (h : Hdr) (s : State) : Result :=
  if s.flags.st.of then .next (softInt 4 .into h.len s)
  else retire h true (pure ()) s

/-- UD2 (R535): `#UD`. -/
def execUd2 (s : State) : Result := .next (takeFault .ud s)

/-- Every other encoding of the class `Invalid` (R345, R713): `#UD`. -/
def execInvalid (s : State) : Result := .next (takeFault .ud s)

end Sys2Proof.Machine
end

