-- ==== Sys2Proof/Machine/DataMove.lean ====
section
/-! DEFINITION. Data movement (`spec/40_data_movement.md`): MOV, XCHG, CMOVcc, SETcc, the sign
extensions, LAHF and SAHF, the stack instructions. A body follows its rule's pseudocode line by line. -/

namespace Sys2Proof.Machine
open Sys2Proof

/-- R401 to R404. -/
def movBody (h : Hdr) (f : MovForm) : M Unit :=
  match f with
  | .mr w dst src => do
    let v ← readReg w src
    writeRM h w dst v
  | .rm w dst src => do
    let v ← readRM h w src
    setReg w dst v
  | .ri w dst imm => setReg w dst imm
  | .mi w dst imm => writeRM h w dst imm
  | .fromMoffs w m => do
    let v ← readRM h w (.mem m)
    setReg w rAX v
  | .toMoffs w m => do
    let v ← readReg w rAX
    writeRM h w (.mem m) v

/-- MOV, general forms (R401 to R404). -/
def execMov (h : Hdr) (f : MovForm) (s : State) : Result := retire h false (movBody h f) s

/-- MOVZX (R405). -/
def execMovzx (h : Hdr) (w : Width) (dst : Gpr) (sw : Width) (src : RM) (s : State) : Result :=
  retire h false (do
    let v ← readRM h sw src
    setReg w dst (trunc sw v)) s

/-- MOVSX (R406). -/
def execMovsx (h : Hdr) (w : Width) (dst : Gpr) (sw : Width) (src : RM) (s : State) : Result :=
  retire h false (do
    let v ← readRM h sw src
    setReg w dst (sext sw v)) s

/-- The width at which MOVSXD reads its source (R407). -/
def movsxdSrc (w : Width) : Width :=
  match w with
  | .w16 => .w16
  | _ => .w32

/-- MOVSXD (R407). -/
def execMovsxd (h : Hdr) (w : Width) (dst : Gpr) (src : RM) (s : State) : Result :=
  retire h false (do
    let v ← readRM h (movsxdSrc w) src
    setReg w dst (sext (movsxdSrc w) v)) s

/-- LEA (R408): the offset, no memory access. -/
def execLea (h : Hdr) (w : Width) (dst : Gpr) (m : MemOp) (s : State) : Result :=
  retire h false (do
    let t ← get
    setReg w dst (t.ea h m)) s

/-- Exchange of two registers (R409). -/
def xchgRegs (w : Width) (d r : Gpr) : M Unit := do
  let t ← readReg w d
  let v ← readReg w r
  setReg w d v
  setReg w r t

/-- R409. -/
def xchgBody (h : Hdr) (f : XchgForm) : M Unit :=
  match f with
  | .mr w (.reg d) r => xchgRegs w d r
  | .mr w (.mem m) r => do
    let s ← get
    let o ← rmwBegin m.seg (s.ea h m) w.bytes
    rmwEnd o.2 w.bytes (s.regRead w r)
    setReg w r o.1
  | .acc w r => xchgRegs w rAX r

/-- XCHG (R409). -/
def execXchg (h : Hdr) (f : XchgForm) (s : State) : Result := retire h false (xchgBody h f) s

/-- CMOVcc (R410): the source is always read; the destination is written in either case. -/
def execCmovcc (h : Hdr) (cc : CC) (w : Width) (dst : Gpr) (src : RM) (s : State) : Result :=
  retire h false (do
    let v ← readRM h w src
    let t ← get
    setReg w dst (if t.cond cc then v else t.regRead w dst)) s

/-- SETcc (R411). -/
def execSetcc (h : Hdr) (cc : CC) (dst : RM) (s : State) : Result :=
  retire h false (do
    let t ← get
    writeRM h .w8 dst (if t.cond cc then 1 else 0)) s

/-- Half an operand size (R412). -/
def halfWidth (w : Width) : Width :=
  match w with
  | .w64 => .w32
  | .w32 => .w16
  | _ => .w8

/-- CBW, CWDE, CDQE (R412). -/
def execCbw (h : Hdr) (w : Width) (s : State) : Result :=
  retire h false (do
    let v ← readReg (halfWidth w) rAX
    setReg w rAX (sext (halfWidth w) v)) s

/-- CWD, CDQ, CQO (R413). -/
def execCwd (h : Hdr) (w : Width) (s : State) : Result :=
  retire h false (do
    let v ← readReg w rAX
    setReg w rDX (if msb w v then BitVec.allOnes 64 else 0)) s

/-- LAHF (R414). -/
def execLahf (h : Hdr) (s : State) : Result :=
  retire h false (do
    let t ← get
    setReg .w8 regAH (trunc .w8 t.flags.image)) s

/-- SAHF (R415). -/
def execSahf (h : Hdr) (s : State) : Result :=
  retire h false (do
    let t ← get
    setFlags (sahfFlags (t.regRead .w8 regAH) t.flags)) s

/-- R422: the source is read before the stack pointer changes. -/
def pushBody (h : Hdr) (f : PushForm) : M Unit :=
  match f with
  | .reg w r => do
    let v ← readReg w r
    push w.bytes v
  | .immz w imm => push w.bytes imm
  | .imm8 w imm => push w.bytes imm
  | .rm w src => do
    let v ← readRM h w src
    push w.bytes v

/-- PUSH (R422). -/
def execPush (h : Hdr) (f : PushForm) (s : State) : Result := retire h false (pushBody h f) s

/-- `EA(m)` of POP's memory destination (R423): with `sp'`, the incremented pointer at the stack address
size, wherever the operand names rSP. -/
def State.popEa (s : State) (h : Hdr) (w : Width) (m : MemOp) : Word :=
  (s.setX rSP.num (s.spPlus w.bytes)).ea h m

/-- R423: the register form increments first and then writes the value; the memory form computes its
address with the incremented pointer and commits the pointer last. -/
def popBody (h : Hdr) (f : PopForm) : M Unit :=
  match f with
  | .reg w r => do
    let v ← pop w.bytes
    setReg w r v
  | .rm w (.reg r) => do
    let v ← pop w.bytes
    setReg w r v
  | .rm w (.mem m) => do
    let s ← get
    let v ← memRead .ss s.sp w.bytes
    memWrite m.seg (s.popEa h w m) w.bytes v
    modify fun t => t.setSp (s.spPlus w.bytes)

/-- POP (R423). -/
def execPop (h : Hdr) (f : PopForm) (s : State) : Result := retire h false (popBody h f) s

/-- PUSHF (R424): RF and VM read as 0 in the image. -/
def execPushf (h : Hdr) (w : Width) (s : State) : Result :=
  retire h false (do
    let t ← get
    push w.bytes (trunc w (t.flags.image &&& 0xFCFFFF))) s

/-- POPF (R425): ends the block. -/
def execPopf (h : Hdr) (w : Width) (s : State) : Result :=
  retire h true (do
    let v ← pop w.bytes
    let t ← get
    setFlags (popfFlags w t.cpl v t.flags)) s

/-- LEAVE (R426). -/
def execLeave (h : Hdr) (w : Width) (s : State) : Result :=
  retire h false (do
    let t ← get
    let bp := t.regRead t.stackSize rBP
    let v ← memRead .ss bp w.bytes
    modify fun u => u.setSp (trunc t.stackSize (bp + BitVec.ofNat 64 w.bytes))
    setReg w rBP v) s

end Sys2Proof.Machine
end

