-- ==== Sys2Proof/Machine/MulDiv.lean ====
section
/-! DEFINITION. Multiply and divide (`spec/41_integer_alu.md` R467 to R471), computed exactly on
naturals and integers and narrowed at the end. -/

namespace Sys2Proof.Machine
open Sys2Proof

/-- The accumulator pair after a double-width result `hi:lo` (R467): AX at width 8, else rDX:rAX. -/
def State.setPair (s : State) (w : Width) (hi lo : Word) : State :=
  match w with
  | .w8 => s.regWrite .w16 rAX (trunc .w8 hi <<< 8 ||| trunc .w8 lo)
  | _ => (s.regWrite w rAX lo).regWrite w rDX hi

/-- The double-width dividend (R470): AX at width 8, else rDX:rAX. -/
def State.pair (s : State) (w : Width) : Nat :=
  match w with
  | .w8 => (s.regRead .w16 rAX).toNat
  | _ => (s.regRead w rDX).toNat * 2 ^ w.bits + (s.regRead w rAX).toNat

/-- The double-width value as a signed number (R471). -/
def signedPair (w : Width) (n : Nat) : Int :=
  if n < 2 ^ (2 * w.bits - 1) then (n : Int) else (n : Int) - 2 ^ (2 * w.bits)

/-- Whether a signed result is representable in `w` bits (R468, R469, R471). -/
def fitsSigned (w : Width) (p : Int) : Bool :=
  decide (-(2 ^ (w.bits - 1) : Int) ≤ p) && decide (p ≤ 2 ^ (w.bits - 1) - 1)

/-- R467. -/
def mulBody (h : Hdr) (w : Width) (src : RM) : M Unit := do
  let b ← readRM h w src
  let s ← get
  let a := s.regRead w rAX
  let p := a.toNat * b.toNat
  let hi := ofNatW w (p / 2 ^ w.bits)
  modify fun t => t.setPair w hi (ofNatW w p)
  setFlags (mulFlags "MUL" w a b (hi != 0) s.flags)

/-- MUL (R467). -/
def execMul (h : Hdr) (w : Width) (src : RM) (s : State) : Result := retire h false (mulBody h w src) s

/-- R468. -/
def imul1Body (h : Hdr) (w : Width) (src : RM) : M Unit := do
  let b ← readRM h w src
  let s ← get
  let a := s.regRead w rAX
  let p := sint w a * sint w b
  modify fun t => t.setPair w (ofIntW w (p / 2 ^ w.bits)) (ofIntW w p)
  setFlags (mulFlags "IMUL" w a b (!fitsSigned w p) s.flags)

/-- IMUL, one operand (R468). -/
def execImul1 (h : Hdr) (w : Width) (src : RM) (s : State) : Result :=
  retire h false (imul1Body h w src) s

/-- The truncated signed product of R469 into a register. -/
def imulInto (w : Width) (dst : Gpr) (a b : Word) : M Unit := do
  let s ← get
  let p := sint w a * sint w b
  setReg w dst (ofIntW w p)
  setFlags (mulFlags "IMUL" w a b (!fitsSigned w p) s.flags)

/-- IMUL, two operands (R469). -/
def execImul2 (h : Hdr) (w : Width) (dst : Gpr) (src : RM) (s : State) : Result :=
  retire h false (do
    let b ← readRM h w src
    let a ← readReg w dst
    imulInto w dst a b) s

/-- IMUL, three operands (R469). -/
def execImul3 (h : Hdr) (w : Width) (dst : Gpr) (src : RM) (imm : Word) (_z : ImmSize) (s : State) :
    Result :=
  retire h false (do
    let a ← readRM h w src
    imulInto w dst a imm) s

/-- R470: `#DE` when the divisor is 0 or the quotient does not fit. The operand values of the undefined
flags are the double-width dividend and the divisor (log entry 21). -/
def divBody (h : Hdr) (w : Width) (src : RM) : M Unit := do
  let d ← readRM h w src
  let s ← get
  let n := s.pair w
  raiseIf (d.toNat == 0) .de
  raiseIf (decide (2 ^ w.bits ≤ n / d.toNat)) .de
  modify fun t => t.setPair w (ofNatW w (n % d.toNat)) (ofNatW w (n / d.toNat))
  setFlags (allUndef "DIV" w n d.toNat s.flags)

/-- DIV (R470). -/
def execDiv (h : Hdr) (w : Width) (src : RM) (s : State) : Result := retire h false (divBody h w src) s

/-- R471: the quotient is rounded toward zero, the remainder has the sign of the dividend. -/
def idivBody (h : Hdr) (w : Width) (src : RM) : M Unit := do
  let b ← readRM h w src
  let s ← get
  let d := sint w b
  let n := signedPair w (s.pair w)
  raiseIf (d == 0) .de
  raiseIf (!fitsSigned w (n.tdiv d)) .de
  modify fun t => t.setPair w (ofIntW w (n.tmod d)) (ofIntW w (n.tdiv d))
  setFlags (allUndef "IDIV" w (s.pair w) b.toNat s.flags)

/-- IDIV (R471). -/
def execIdiv (h : Hdr) (w : Width) (src : RM) (s : State) : Result := retire h false (idivBody h w src) s

end Sys2Proof.Machine
end

