-- ==== Sys2Proof/Machine/Shift.lean ====
section
/-! DEFINITION. Shifts and rotates (`spec/42_shift_rotate.md` R500 to R505). The destination is written
also when the masked count is 0. -/

namespace Sys2Proof.Machine
open Sys2Proof

/-- The common body (R500): destination read, result and flags from the raw count, result written. -/
def shiftBody (h : Hdr) (w : Width) (dst : RM) (c : ShiftCount)
    (f : Width → Word → Word → Flags → Computed) : M Unit := do
  let s ← get
  let raw := s.shiftRaw c
  rmwRM h w dst (fun a fl => f w a raw fl)

/-- ROL (R504). -/
def execRol (h : Hdr) (w : Width) (dst : RM) (c : ShiftCount) (s : State) : Result :=
  retire h false (shiftBody h w dst c rolFlags) s

/-- ROR (R505). -/
def execRor (h : Hdr) (w : Width) (dst : RM) (c : ShiftCount) (s : State) : Result :=
  retire h false (shiftBody h w dst c rorFlags) s

/-- SHL (R501). -/
def execShl (h : Hdr) (w : Width) (dst : RM) (c : ShiftCount) (s : State) : Result :=
  retire h false (shiftBody h w dst c shlFlags) s

/-- SHR (R502). -/
def execShr (h : Hdr) (w : Width) (dst : RM) (c : ShiftCount) (s : State) : Result :=
  retire h false (shiftBody h w dst c shrFlags) s

/-- SAR (R503). -/
def execSar (h : Hdr) (w : Width) (dst : RM) (c : ShiftCount) (s : State) : Result :=
  retire h false (shiftBody h w dst c sarFlags) s

end Sys2Proof.Machine
end

