-- ==== Sys2Proof/Machine/StringOps.lean ====
section
/-! DEFINITION. String instructions and the REP prefixes (`spec/44_string.md` R560 to R566). -/

namespace Sys2Proof.Machine
open Sys2Proof

/-- `Advance(reg)` (R560): by `d` bytes, upward or downward by DF, at the address size. -/
def advance (a : Width) (d : Nat) (r : Gpr) : M Unit := do
  let s ← get
  let v := s.regRead a r
  setReg a r (if s.flags.df then v - BitVec.ofNat 64 d else v + BitVec.ofNat 64 d)

/-- Whether CMPS or SCAS stops after an element (R561). -/
def repStops (rp : Rep) (zf : Bool) : Bool :=
  match rp with
  | .none => false
  | .rep => !zf
  | .repne => zf

/-- The loop of R561 with `c` elements to go: each element commits before the next; `cmp` says whether
the flag is tested. -/
def repLoop (a : Width) (rp : Rep) (cmp : Bool) (body : M Unit) : Nat → M Unit
  | 0 => pure ()
  | c + 1 => do
    body
    setReg a rCX (BitVec.ofNat 64 c)
    let s ← get
    if cmp && repStops rp s.flags.st.zf then pure () else repLoop a rp cmp body c

/-- R561: one element, or the loop. -/
def stringBody (h : Hdr) (cmp : Bool) (body : M Unit) : M Unit :=
  match h.rep with
  | .none => body
  | .rep | .repne => do
    let s ← get
    repLoop h.a h.rep cmp body (s.regRead h.a rCX).toNat

/-- The source segment: DS unless overridden (R560). -/
def srcSeg (h : Hdr) : SReg := h.segOv.getD .ds

/-- One element of MOVS (R562). -/
def movsElem (h : Hdr) (w : Width) : M Unit := do
  let s ← get
  let v ← memRead (srcSeg h) (s.regRead h.a rSI) w.bytes
  memWrite .es (s.regRead h.a rDI) w.bytes v
  advance h.a w.bytes rSI
  advance h.a w.bytes rDI

/-- MOVS (R562). -/
def execMovs (h : Hdr) (w : Width) (s : State) : Result :=
  retire h false (stringBody h false (movsElem h w)) s

/-- One element of STOS (R563). -/
def stosElem (h : Hdr) (w : Width) : M Unit := do
  let s ← get
  memWrite .es (s.regRead h.a rDI) w.bytes (s.regRead w rAX)
  advance h.a w.bytes rDI

/-- STOS (R563). -/
def execStos (h : Hdr) (w : Width) (s : State) : Result :=
  retire h false (stringBody h false (stosElem h w)) s

/-- One element of LODS (R564). -/
def lodsElem (h : Hdr) (w : Width) : M Unit := do
  let s ← get
  let v ← memRead (srcSeg h) (s.regRead h.a rSI) w.bytes
  setReg w rAX v
  advance h.a w.bytes rSI

/-- LODS (R564). -/
def execLods (h : Hdr) (w : Width) (s : State) : Result :=
  retire h false (stringBody h false (lodsElem h w)) s

/-- The flags of comparing two values (R565, R566: those of CMP). -/
def cmpElems (w : Width) (x y : Word) : M Unit := do
  let s ← get
  setFlags (subFlags w x y false s.flags).flags

/-- One element of CMPS (R565): both reads before any change. -/
def cmpsElem (h : Hdr) (w : Width) : M Unit := do
  let s ← get
  let x ← memRead (srcSeg h) (s.regRead h.a rSI) w.bytes
  let y ← memRead .es (s.regRead h.a rDI) w.bytes
  cmpElems w x y
  advance h.a w.bytes rSI
  advance h.a w.bytes rDI

/-- CMPS (R565). -/
def execCmps (h : Hdr) (w : Width) (s : State) : Result :=
  retire h false (stringBody h true (cmpsElem h w)) s

/-- One element of SCAS (R566). -/
def scasElem (h : Hdr) (w : Width) : M Unit := do
  let s ← get
  let y ← memRead .es (s.regRead h.a rDI) w.bytes
  cmpElems w (s.regRead w rAX) y
  advance h.a w.bytes rDI

/-- SCAS (R566). -/
def execScas (h : Hdr) (w : Width) (s : State) : Result :=
  retire h false (stringBody h true (scasElem h w)) s

end Sys2Proof.Machine
end

