-- ==== Sys2Proof/Machine/System.lean ====
section
/-! DEFINITION. System, flag-control and miscellaneous instructions (`spec/45_system.md`): no-operations
and fences, HLT, the single-flag instructions, control and segment registers, descriptor tables, MSRs,
SWAPGS, CPUID. -/

namespace Sys2Proof.Machine
open Sys2Proof

/-! ### No-operations, halt, flag control, fences -/

/-- NOP (R601). -/
def execNop (h : Hdr) (s : State) : Result := retire h false (pure ()) s

/-- PAUSE (R601). -/
def execPause (h : Hdr) (s : State) : Result := retire h false (pure ()) s

/-- NOP r/m (R601): no address, no access. -/
def execNopRm (h : Hdr) (_w : Width) (_rm : RM) (s : State) : Result := retire h false (pure ()) s

/-- LFENCE (R605, R226). -/
def execLfence (h : Hdr) (s : State) : Result := retire h false (pure ()) s

/-- MFENCE (R605, R226). -/
def execMfence (h : Hdr) (s : State) : Result := retire h false (pure ()) s

/-- SFENCE (R605, R226). -/
def execSfence (h : Hdr) (s : State) : Result := retire h false (pure ()) s

/-- HLT (R602): retired, and the block ends as Halted. -/
def execHlt (h : Hdr) (s : State) : Result :=
  retire h true (do
    privileged
    modify fun t => { t with halted := true }) s

/-- `flags.CF <- c`. -/
def Flags.withCf (f : Flags) (c : Bool) : Flags := f.withSt { f.st with cf := c }

/-- CLC (R603). -/
def execClc (h : Hdr) (s : State) : Result := retire h false (setFlags (s.flags.withCf false)) s

/-- STC (R603). -/
def execStc (h : Hdr) (s : State) : Result := retire h false (setFlags (s.flags.withCf true)) s

/-- CMC (R603). -/
def execCmc (h : Hdr) (s : State) : Result :=
  retire h false (setFlags (s.flags.withCf !s.flags.st.cf)) s

/-- CLD (R604). -/
def execCld (h : Hdr) (s : State) : Result :=
  retire h false (setFlags { s.flags with df := false }) s

/-- STD (R604). -/
def execStd (h : Hdr) (s : State) : Result :=
  retire h false (setFlags { s.flags with df := true }) s

/-- Whether CLI and STI are allowed (R606, R607). -/
def State.ifAllowed (s : State) : Bool := s.opMode == .real || decide (s.cpl ≤ s.flags.iopl)

/-- CLI (R606). -/
def execCli (h : Hdr) (s : State) : Result :=
  retire h true (do
    raiseIf (!s.ifAllowed) (.gp 0)
    setFlags { s.flags with ie := false }) s

/-- STI (R607): an interrupt shadow when IF changes from 0 to 1. -/
def execSti (h : Hdr) (s : State) : Result :=
  retireShadow h (do
    raiseIf (!s.ifAllowed) (.gp 0)
    setFlags { s.flags with ie := true }
    pure !s.flags.ie) s

/-! ### Control registers -/

/-- A control register (R130 to R133). -/
def State.cr (s : State) : CReg → Word
  | .cr0 => s.cr0
  | .cr2 => s.cr2
  | .cr3 => s.cr3
  | .cr4 => s.cr4

/-- MOV r, CRn (R610). -/
def execMovFromCr (h : Hdr) (w : Width) (dst : RegNum) (cr : CReg) (s : State) : Result :=
  retire h true (do
    privileged
    let v := trunc w (s.cr cr)
    setReg w (gpr dst) v
    setFlags (allUndef "MOV" w v.toNat 0 s.flags)) s

/-- `CR4_SUPPORTED` (R10). -/
def cr4Supported : Word := 0x7FF

/-- `EFER_WRITABLE` (R10). -/
def eferWritable : Word := 0x901

/-- Whether MOV to CR0 raises `#GP(0)` (R612). -/
def State.cr0Refused (s : State) (v : Word) : Bool :=
  field v 63 32 != 0 ||
  (bit v 31 && !bit v 0) ||
  (bit v 29 && !bit v 30) ||
  (bit v 31 && !s.pg && s.lme && (!s.pae || s.segs.cs.l)) ||
  (!bit v 31 && s.pg && s.is64)

/-- `efer` with LMA recomputed as `LME and PG` (R612). -/
def withLma (efer : Word) (pg : Bool) : Word := (efer &&& ~~~(0x400#64)) ||| flagAt (bit efer 8 && pg) 10

/-- A control-register write that passed its checks (R612, R613). -/
def State.setCr (s : State) (cr : CReg) (v : Word) : State :=
  match cr with
  | .cr0 =>
    State.bumpSalt
      { s with cr0 := (v &&& 0xE005003F) ||| 0x10, efer := withLma s.efer (bit v 31) }
  | .cr2 => { s with cr2 := v }
  | .cr3 => State.bumpSalt { s with cr3 := v }
  | .cr4 => State.bumpSalt { s with cr4 := v }

/-- Whether a control-register write raises `#GP(0)` (R612, R613). -/
def State.crRefused (s : State) (cr : CReg) (v : Word) : Bool :=
  match cr with
  | .cr0 => s.cr0Refused v
  | .cr2 => false
  | .cr3 => field v 63 s.cfg.physBits != 0
  | .cr4 => (v &&& ~~~cr4Supported) != 0 || (s.lma && !bit v 5)

/-- MOV CRn, r (R611 to R613). -/
def execMovToCr (h : Hdr) (w : Width) (cr : CReg) (src : RegNum) (s : State) : Result :=
  retire h true (do
    privileged
    let v := s.regRead w (gpr src)
    raiseIf (s.crRefused cr v) (.gp 0)
    modify fun t => t.setCr cr v
    setFlags (allUndef "MOV" w v.toNat 0 s.flags)) s

/-! ### Segment registers and descriptor tables -/

/-- A segment descriptor as R619 lays it out, as the cache a load gives (R618). -/
def descriptor (raw : Word) : SegReg :=
  let limit20 := field raw 15 0 + field raw 51 48 * 2 ^ 16
  let g := bit raw 55
  { selector := 0
    base := BitVec.ofNat 64 (field raw 39 16 + field raw 63 56 * 2 ^ 24)
    limit := BitVec.ofNat 32 (if g then limit20 * 4096 + 0xFFF else limit20)
    type := BitVec.ofNat 4 (field raw 43 40)
    s := bit raw 44
    dpl := BitVec.ofNat 2 (field raw 46 45)
    p := bit raw 47
    avl := bit raw 52
    l := bit raw 53
    db := bit raw 54
    g := g
    unusable := false }

/-- The cache of a null load (R618). -/
def nullSeg (sel : BitVec 16) : SegReg :=
  ⟨sel, 0, 0, 0, false, 0, false, false, false, false, false, true⟩

/-- A selector's RPL (R120). -/
def rplOf (sel : BitVec 16) : BitVec 2 := sel.setWidth 2

/-- `sel & 0xFFFC` as an error code (R811 b). -/
def selCode (sel : BitVec 16) : BitVec 32 := (sel &&& 0xFFFC).setWidth 32

/-- Whether a null selector is refused (R618): SS, but for 64-bit mode below `cpl` 3 with RPL = CPL. -/
def State.nullRefused (s : State) (r : SReg) (sel : BitVec 16) : Bool :=
  r == .ss && !(s.is64 && s.cpl != 3 && rplOf sel == s.cpl)

/-- The checks of R618 on a descriptor, in order: the fault of the first that fails. -/
def State.descFault (s : State) (r : SReg) (sel : BitVec 16) (d : SegReg) : Option FaultRec :=
  let err := selCode sel
  let code := d.type.getLsbD 3
  let rpl := rplOf sel
  if r == .ss then
    if rpl != s.cpl then some (.gp err)
    else if !d.s || code || !d.type.getLsbD 1 then some (.gp err)
    else if d.dpl != s.cpl then some (.gp err)
    else if !d.p then some (.ss err)
    else none
  else
    if !d.s then some (.gp err)
    else if code && !d.type.getLsbD 1 then some (.gp err)
    else if (!code || !d.type.getLsbD 2) && (decide (d.dpl < rpl) || decide (d.dpl < s.cpl)) then
      some (.gp err)
    else if !d.p then some (.np err)
    else none

/-- Commit of a segment register. -/
def State.setSeg (s : State) (r : SReg) (v : SegReg) : State := { s with segs := s.segs.set r v }

/-- The accessed bit of a descriptor, set in memory when it is not (R618). -/
def markDescriptor (lin : Word) (raw : Word) : M Unit :=
  if bit raw 40 then pure ()
  else sysWrite (lin + 5) 1 (BitVec.ofNat 64 (field raw 47 40) ||| 1)

/-- The non-null part of `LoadSeg` in protected and long mode (R618): table, limit, descriptor read,
checks, accessed bit, commit. -/
def loadDescriptor (r : SReg) (sel : BitVec 16) : M Unit := do
  let s ← get
  let ti := sel.getLsbD 2
  raiseIf (ti && (s.ldtr.unusable || s.ldtr.selector.toNat / 4 == 0)) (.gp (selCode sel))
  let base := if ti then s.ldtr.base else s.gdtr.base
  let limit := if ti then s.ldtr.limit.toNat else s.gdtr.limit.toNat
  let idx := sel.toNat / 8
  raiseIf (decide (limit < idx * 8 + 7)) (.gp (selCode sel))
  let lin := base + BitVec.ofNat 64 (idx * 8)
  let raw ← sysRead lin 8
  let d := descriptor raw
  match s.descFault r sel d with
  | some f => raise f
  | none => do
    markDescriptor lin raw
    modify fun t => t.setSeg r { d with selector := sel, type := d.type ||| 1 }

/-- `LoadSeg(s, sel)` (R618). -/
def loadSeg (r : SReg) (sel : BitVec 16) : M Unit := do
  let s ← get
  if s.opMode == .real then
    modify fun t =>
      t.setSeg r { t.segs.get r with selector := sel, base := sel.setWidth 64 <<< 4 }
  else if sel.toNat / 4 == 0 then do
    raiseIf (s.nullRefused r sel) (.gp 0)
    modify fun t => t.setSeg r (nullSeg sel)
  else loadDescriptor r sel

/-- MOV Sreg, r/m16 (R616). A load of CS is no instruction (R345): `#UD`. -/
def execMovToSeg (h : Hdr) (sr : SReg) (src : RM) (s : State) : Result :=
  retireShadow h (do
    raiseIf (sr == .cs) .ud
    let sel ← readRM h .w16 src
    loadSeg sr (sel.setWidth 16)
    pure (sr == .ss)) s

/-- R617: 2 bytes to memory, `w` bits to a register. -/
def movFromSegBody (h : Hdr) (w : Width) (dst : RM) (sel : BitVec 16) : M Unit :=
  match dst with
  | .reg r => setReg w r (sel.setWidth 64)
  | .mem m => writeRM h .w16 (.mem m) (sel.setWidth 64)

/-- MOV r/m, Sreg (R617). -/
def execMovFromSeg (h : Hdr) (w : Width) (dst : RM) (sr : SReg) (s : State) : Result :=
  retire h false (movFromSegBody h w dst (s.segs.get sr).selector) s

/-- The operand of LGDT and LIDT (R620): limit first, then the base. -/
def readTable (h : Hdr) (w : Width) (m : MemOp) : M TableReg := do
  let s ← get
  let e := s.ea h m
  let limit ← memRead m.seg e 2
  let base ← memRead m.seg (trunc h.a (e + 2)) (if s.is64 then 8 else 4)
  raiseIf (s.is64 && !canonical base) (.gp 0)
  pure ⟨if !s.is64 && w == .w16 then base &&& 0xFFFFFF else base, limit.setWidth 16⟩

/-- LGDT (R620). -/
def execLgdt (h : Hdr) (w : Width) (m : MemOp) (s : State) : Result :=
  retire h true (do
    privileged
    let t ← readTable h w m
    modify fun u => { u with gdtr := t }) s

/-- LIDT (R621). -/
def execLidt (h : Hdr) (w : Width) (m : MemOp) (s : State) : Result :=
  retire h true (do
    privileged
    let t ← readTable h w m
    modify fun u => { u with idtr := t }) s

/-- INVLPG (R622): the whole cache; the address is not used. -/
def execInvlpg (h : Hdr) (_m : MemOp) (s : State) : Result :=
  retire h true (do
    privileged
    modify State.bumpSalt) s

/-! ### Model-specific registers, SWAPGS, CPUID -/

/-- The MSRs of R624. -/
inductive Msr where
  | efer | fsBase | gsBase | kernelGsBase
  | extra (index : Nat)
  deriving DecidableEq, Repr

/-- The MSR map of R624: `none` for any other index. -/
def State.msrOf (s : State) (index : Nat) : Option Msr :=
  if index == 0xC0000080 then some .efer
  else if index == 0xC0000100 then some .fsBase
  else if index == 0xC0000101 then some .gsBase
  else if index == 0xC0000102 then some .kernelGsBase
  else if s.cfg.msrExtra.any (fun i => i.toNat == index) then some (.extra index)
  else none

/-- `MsrRead` (R624). -/
def State.msrRead (s : State) : Msr → Word
  | .efer => s.efer
  | .fsBase => s.segs.fs.base
  | .gsBase => s.segs.gs.base
  | .kernelGsBase => s.kernelGsBase
  | .extra i => sparseGet 0 s.msrExtra i

/-- Whether WRMSR raises `#GP(0)` for a value (R624, R625). -/
def State.msrRefused (s : State) (r : Msr) (v : Word) : Bool :=
  match r with
  | .efer => (v &&& ~~~(eferWritable ||| 0x400)) != 0 || (bit v 8 != s.lme && s.pg)
  | .fsBase | .gsBase | .kernelGsBase => !canonical v
  | .extra _ => false

/-- An MSR write that passed its checks (R624, R625). -/
def State.msrWrite (s : State) (r : Msr) (v : Word) : State :=
  match r with
  | .efer => State.bumpSalt { s with efer := (v &&& eferWritable) ||| (s.efer &&& 0x400) }
  | .fsBase => s.setSeg .fs { s.segs.fs with base := v }
  | .gsBase => s.setSeg .gs { s.segs.gs with base := v }
  | .kernelGsBase => { s with kernelGsBase := v }
  | .extra i => { s with msrExtra := sparseSet 0 s.msrExtra i v }

/-- The 64-bit value in EDX:EAX (R623, R625). -/
def State.edxEax (s : State) : Word := s.regRead .w32 rDX <<< 32 ||| s.regRead .w32 rAX

/-- RDMSR (R623). -/
def execRdmsr (h : Hdr) (s : State) : Result :=
  retire h true (do
    privileged
    match s.msrOf (s.regRead .w32 rCX).toNat with
    | none => raise (.gp 0)
    | some r => do
      let v := s.msrRead r
      setReg .w32 rAX v
      setReg .w32 rDX (v >>> 32)) s

/-- WRMSR (R625). -/
def execWrmsr (h : Hdr) (s : State) : Result :=
  retire h true (do
    privileged
    match s.msrOf (s.regRead .w32 rCX).toNat with
    | none => raise (.gp 0)
    | some r => do
      raiseIf (s.msrRefused r s.edxEax) (.gp 0)
      modify fun t => t.msrWrite r s.edxEax) s

/-- SWAPGS (R627). -/
def execSwapgs (h : Hdr) (s : State) : Result :=
  retire h true (do
    privileged
    modify fun t =>
      { t.setSeg .gs { t.segs.gs with base := t.kernelGsBase } with
        kernelGsBase := t.segs.gs.base }) s

/-- CPUID (R628): the configuration's table. -/
def execCpuid (h : Hdr) (s : State) : Result :=
  retire h true (do
    let r := cpuidTable ((s.regRead .w32 rAX).setWidth 32) ((s.regRead .w32 rCX).setWidth 32)
    setReg .w32 rAX (r.eax.setWidth 64)
    setReg .w32 rBX (r.ebx.setWidth 64)
    setReg .w32 rCX (r.ecx.setWidth 64)
    setReg .w32 rDX (r.edx.setWidth 64)) s

end Sys2Proof.Machine
end

