-- ==== Sys2Proof/Machine/Dispatch.lean ====
section
/-! DEFINITION. One arm per constructor of `Instr`, each one direct call of its meaning. -/

namespace Sys2Proof.Machine
open Sys2Proof

/-- The effect of one decoded instruction (R710). -/
def exec (i : Instr) (s : State) : Host.Outcome State Fault Refusal :=
  match i with
  | .add h f => Sys2Proof.Machine.execAdd h f s
  | .or h f => Sys2Proof.Machine.execOr h f s
  | .adc h f => Sys2Proof.Machine.execAdc h f s
  | .sbb h f => Sys2Proof.Machine.execSbb h f s
  | .and h f => Sys2Proof.Machine.execAnd h f s
  | .sub h f => Sys2Proof.Machine.execSub h f s
  | .xor h f => Sys2Proof.Machine.execXor h f s
  | .cmp h f => Sys2Proof.Machine.execCmp h f s
  | .test h f => Sys2Proof.Machine.execTest h f s
  | .not h w dst => Sys2Proof.Machine.execNot h w dst s
  | .neg h w dst => Sys2Proof.Machine.execNeg h w dst s
  | .mul h w src => Sys2Proof.Machine.execMul h w src s
  | .imul1 h w src => Sys2Proof.Machine.execImul1 h w src s
  | .div h w src => Sys2Proof.Machine.execDiv h w src s
  | .idiv h w src => Sys2Proof.Machine.execIdiv h w src s
  | .inc h f => Sys2Proof.Machine.execInc h f s
  | .dec h f => Sys2Proof.Machine.execDec h f s
  | .imul2 h w dst src => Sys2Proof.Machine.execImul2 h w dst src s
  | .imul3 h w dst src imm z => Sys2Proof.Machine.execImul3 h w dst src imm z s
  | .cmpxchg h w dst src => Sys2Proof.Machine.execCmpxchg h w dst src s
  | .xadd h w dst src => Sys2Proof.Machine.execXadd h w dst src s
  | .rol h w dst c => Sys2Proof.Machine.execRol h w dst c s
  | .ror h w dst c => Sys2Proof.Machine.execRor h w dst c s
  | .shl h w dst c => Sys2Proof.Machine.execShl h w dst c s
  | .shr h w dst c => Sys2Proof.Machine.execShr h w dst c s
  | .sar h w dst c => Sys2Proof.Machine.execSar h w dst c s
  | .mov h f => Sys2Proof.Machine.execMov h f s
  | .movFromSeg h w dst sr => Sys2Proof.Machine.execMovFromSeg h w dst sr s
  | .movToSeg h sr src => Sys2Proof.Machine.execMovToSeg h sr src s
  | .movFromCr h w dst cr => Sys2Proof.Machine.execMovFromCr h w dst cr s
  | .movToCr h w cr src => Sys2Proof.Machine.execMovToCr h w cr src s
  | .movzx h w dst sw src => Sys2Proof.Machine.execMovzx h w dst sw src s
  | .movsx h w dst sw src => Sys2Proof.Machine.execMovsx h w dst sw src s
  | .movsxd h w dst src => Sys2Proof.Machine.execMovsxd h w dst src s
  | .lea h w dst m => Sys2Proof.Machine.execLea h w dst m s
  | .xchg h f => Sys2Proof.Machine.execXchg h f s
  | .push h f => Sys2Proof.Machine.execPush h f s
  | .pop h f => Sys2Proof.Machine.execPop h f s
  | .cmovcc h cc w dst src => Sys2Proof.Machine.execCmovcc h cc w dst src s
  | .setcc h cc dst => Sys2Proof.Machine.execSetcc h cc dst s
  | .cbw h w => Sys2Proof.Machine.execCbw h w s
  | .cwd h w => Sys2Proof.Machine.execCwd h w s
  | .sahf h => Sys2Proof.Machine.execSahf h s
  | .lahf h => Sys2Proof.Machine.execLahf h s
  | .pushf h w => Sys2Proof.Machine.execPushf h w s
  | .popf h w => Sys2Proof.Machine.execPopf h w s
  | .leave h w => Sys2Proof.Machine.execLeave h w s
  | .jmpRel h w z rel => Sys2Proof.Machine.execJmpRel h w z rel s
  | .jmpInd h w src => Sys2Proof.Machine.execJmpInd h w src s
  | .jcc h cc w z rel => Sys2Proof.Machine.execJcc h cc w z rel s
  | .callRel h w rel => Sys2Proof.Machine.execCallRel h w rel s
  | .callInd h w src => Sys2Proof.Machine.execCallInd h w src s
  | .ret h w => Sys2Proof.Machine.execRet h w s
  | .retImm h w imm => Sys2Proof.Machine.execRetImm h w imm s
  | .loop h w rel => Sys2Proof.Machine.execLoop h w rel s
  | .loope h w rel => Sys2Proof.Machine.execLoope h w rel s
  | .loopne h w rel => Sys2Proof.Machine.execLoopne h w rel s
  | .jrcxz h w rel => Sys2Proof.Machine.execJrcxz h w rel s
  | .int3 h => Sys2Proof.Machine.execInt3 h s
  | .intn h vec => Sys2Proof.Machine.execIntn h vec s
  | .into h => Sys2Proof.Machine.execInto h s
  | .ud2 => Sys2Proof.Machine.execUd2 s
  | .movs h w => Sys2Proof.Machine.execMovs h w s
  | .stos h w => Sys2Proof.Machine.execStos h w s
  | .lods h w => Sys2Proof.Machine.execLods h w s
  | .cmps h w => Sys2Proof.Machine.execCmps h w s
  | .scas h w => Sys2Proof.Machine.execScas h w s
  | .nop h => Sys2Proof.Machine.execNop h s
  | .pause h => Sys2Proof.Machine.execPause h s
  | .nopRm h w rm => Sys2Proof.Machine.execNopRm h w rm s
  | .hlt h => Sys2Proof.Machine.execHlt h s
  | .cmc h => Sys2Proof.Machine.execCmc h s
  | .clc h => Sys2Proof.Machine.execClc h s
  | .stc h => Sys2Proof.Machine.execStc h s
  | .cli h => Sys2Proof.Machine.execCli h s
  | .sti h => Sys2Proof.Machine.execSti h s
  | .cld h => Sys2Proof.Machine.execCld h s
  | .std h => Sys2Proof.Machine.execStd h s
  | .lfence h => Sys2Proof.Machine.execLfence h s
  | .mfence h => Sys2Proof.Machine.execMfence h s
  | .sfence h => Sys2Proof.Machine.execSfence h s
  | .lgdt h w m => Sys2Proof.Machine.execLgdt h w m s
  | .lidt h w m => Sys2Proof.Machine.execLidt h w m s
  | .invlpg h m => Sys2Proof.Machine.execInvlpg h m s
  | .swapgs h => Sys2Proof.Machine.execSwapgs h s
  | .wrmsr h => Sys2Proof.Machine.execWrmsr h s
  | .rdmsr h => Sys2Proof.Machine.execRdmsr h s
  | .cpuid h => Sys2Proof.Machine.execCpuid h s
  | .invalid => Sys2Proof.Machine.execInvalid s

end Sys2Proof.Machine
end

