-- ==== Sys2Proof/WellFormed.lean ====
section
/-! DEFINITION. Well-formedness: the instructions that some bytes decode to in a given mode, as a check
on the syntax (sizes R318 and R319, prefixes R311 to R316, register designators R325, memory operands
R322 to R324 and R331, immediates R332 and R333). -/

namespace Sys2Proof

/-- Bit `k` of the REX prefix in effect, 0 without one (R312): 3 W, 2 R, 1 X, 0 B. -/
def Hdr.rexBit (h : Hdr) (k : Nat) : Bool := (h.rex.getD 0).getLsbD k

/-- The header in a mode: address size, REX and the ignored overrides exist as the mode allows,
1 to 15 bytes. -/
def Hdr.wf (m : DecodeMode) (h : Hdr) : Bool :=
  h.a == addrSize m h.as67 &&
  (m == .m64 || h.rex.isNone) &&
  (m != .m64 || h.segOv == none || h.segOv == some .fs || h.segOv == some .gs) &&
  decide (1 ≤ h.len) && decide (h.len ≤ 15)

/-- No LOCK and no repeat prefix. -/
def Hdr.plain (h : Hdr) : Bool := !h.lock && h.rep == .none

/-- A register designator of width `w` whose number's bit 3 is the REX bit `k` (R321, R325). -/
def Gpr.wf (h : Hdr) (w : Width) (k : Nat) (r : Gpr) : Bool :=
  if r.high8 then w == .w8 && h.rex.isNone && decide (r.num.val < 4)
  else
    (decide (8 ≤ r.num.val) == h.rexBit k) &&
    !(w == .w8 && h.rex.isNone && decide (4 ≤ r.num.val) && decide (r.num.val ≤ 7))

/-- A register number whose bit 3 is the REX bit `k`. -/
def RegNum.wf (h : Hdr) (k : Nat) (r : RegNum) : Bool := decide (8 ≤ r.val) == h.rexBit k

/-- Base and index of 16-bit addressing (R322). -/
def MemOp.shape16 (mo : MemOp) : Bool :=
  mo.scale == 0 && !mo.ripRel && sext .w16 mo.disp == mo.disp &&
  (match mo.base, mo.index with
   | some b, some x => (b == 3 || b == 5) && (x == 6 || x == 7)
   | some b, none => b == 3 || b == 5 || b == 6 || b == 7
   | none, none => true
   | none, some _ => false)

/-- Base, index, scale and displacement of 32- and 64-bit addressing (R323, R324). -/
def MemOp.shape32 (m : DecodeMode) (h : Hdr) (mo : MemOp) : Bool :=
  sext .w32 mo.disp == mo.disp &&
  (match mo.base with
   | some b => b.wf h 0 && !mo.ripRel
   | none => true) &&
  (match mo.index with
   | some x => x.wf h 1 && x != 4 && !mo.ripRel
   | none =>
     mo.scale == 0 && (!mo.ripRel || m == .m64) &&
     -- a SIB byte without an index needs REX.X = 0
     (match mo.base with
      | some b => b.val % 8 != 4 || !h.rexBit 1
      | none => mo.ripRel || m != .m64 || !h.rexBit 1))

/-- A memory operand of a ModRM byte. -/
def MemOp.wf (m : DecodeMode) (h : Hdr) (mo : MemOp) : Bool :=
  mo.seg == h.segOv.getD (defaultSegOf h.a mo.base) &&
  (match h.a with
   | .w16 => mo.shape16
   | _ => mo.shape32 m h)

/-- A `moffs` operand (R332): an address of the address size, segment DS unless overridden. -/
def MemOp.wfMoffs (h : Hdr) (mo : MemOp) : Bool :=
  mo == ⟨h.segOv.getD .ds, none, none, 0, trunc h.a mo.disp, false⟩

/-- A register-or-memory operand of width `w`. -/
def RM.wf (m : DecodeMode) (h : Hdr) (w : Width) (rm : RM) : Bool :=
  match rm with
  | .reg r => r.wf h w 0
  | .mem mo => mo.wf m h

/-- Whether the operand is in memory. -/
def RM.isMem : RM → Bool
  | .reg _ => false
  | .mem _ => true

/-- The prefixes of a row that admits LOCK with this destination (R316). -/
def Hdr.lockable (h : Hdr) (dst : RM) : Bool := (!h.lock || dst.isMem) && h.rep == .none

/-- `w` is what the class gives in the mode (R318). -/
def Hdr.sized (m : DecodeMode) (h : Hdr) (c : SizeClass) (w : Width) : Bool :=
  opSize c m h.os66 (h.rexBit 3) == some w

/-- `w` is the size of a `b` or a `v` row. -/
def Hdr.sizedBV (m : DecodeMode) (h : Hdr) (w : Width) : Bool := w == .w8 || h.sized m .v w

/-- An immediate of 1 byte at width 8, else `iz` (R332). -/
def immBZok (w : Width) (imm : Word) : Bool :=
  match w with
  | .w8 => trunc .w8 imm == imm
  | _ => trunc w (sext (izWidth w) imm) == imm

/-- A sign-extended immediate byte at width `w` (R332). -/
def imm8ok (w : Width) (imm : Word) : Bool := trunc w (sext .w8 imm) == imm

/-- A relative displacement (R333). -/
def relOk (w : Width) (z : RelSize) (rel : Word) : Bool :=
  match z with
  | .rel8 => sext .w8 rel == rel
  | .relz => sext (izWidth w) rel == rel

/-- The forms of a two-operand operation; `lock` says whether the rows admit LOCK (CMP's do not). -/
def AluForm.wf (m : DecodeMode) (h : Hdr) (lock : Bool) (f : AluForm) : Bool :=
  match f with
  | .mr w dst src =>
    h.sizedBV m w && dst.wf m h w && src.wf h w 2 && (if lock then h.lockable dst else h.plain)
  | .rm w dst src => h.sizedBV m w && dst.wf h w 2 && src.wf m h w && h.plain
  | .acc w imm => h.sizedBV m w && immBZok w imm && h.plain
  | .mi w dst imm =>
    h.sizedBV m w && dst.wf m h w && immBZok w imm && (if lock then h.lockable dst else h.plain)
  | .mis w dst imm =>
    h.sized m .v w && dst.wf m h w && imm8ok w imm && (if lock then h.lockable dst else h.plain)

/-- `0F 0B` and the class `Invalid` are no well-formed instructions; every other constructor is
checked field by field. -/
def Instr.wf (m : DecodeMode) (i : Instr) : Bool :=
  match i with
  | .add h f | .or h f | .adc h f | .sbb h f | .and h f | .sub h f | .xor h f =>
    h.wf m && f.wf m h true
  | .cmp h f => h.wf m && f.wf m h false
  | .test h (.mr w a b) => h.wf m && h.plain && h.sizedBV m w && a.wf m h w && b.wf h w 2
  | .test h (.acc w imm) => h.wf m && h.plain && h.sizedBV m w && immBZok w imm
  | .test h (.mi w a imm) => h.wf m && h.plain && h.sizedBV m w && a.wf m h w && immBZok w imm
  | .not h w dst | .neg h w dst => h.wf m && h.lockable dst && h.sizedBV m w && dst.wf m h w
  | .mul h w src | .imul1 h w src | .div h w src | .idiv h w src =>
    h.wf m && h.plain && h.sizedBV m w && src.wf m h w
  | .inc h (.rm w dst) | .dec h (.rm w dst) =>
    h.wf m && h.lockable dst && h.sizedBV m w && dst.wf m h w
  | .inc h (.short w r) | .dec h (.short w r) =>
    h.wf m && h.plain && m != .m64 && h.sized m .v w && r.wf h w 0
  | .imul2 h w dst src => h.wf m && h.plain && h.sized m .v w && dst.wf h w 2 && src.wf m h w
  | .imul3 h w dst src imm z =>
    h.wf m && h.plain && h.sized m .v w && dst.wf h w 2 && src.wf m h w &&
    (match z with
     | .immz => trunc w (sext (izWidth w) imm) == imm
     | .imm8 => imm8ok w imm)
  | .cmpxchg h w dst src | .xadd h w dst src =>
    h.wf m && h.lockable dst && h.sizedBV m w && dst.wf m h w && src.wf h w 2
  | .rol h w dst _ | .ror h w dst _ | .shl h w dst _ | .shr h w dst _ | .sar h w dst _ =>
    h.wf m && h.plain && h.sizedBV m w && dst.wf m h w
  | .mov h (.mr w dst src) => h.wf m && h.plain && h.sizedBV m w && dst.wf m h w && src.wf h w 2
  | .mov h (.rm w dst src) => h.wf m && h.plain && h.sizedBV m w && dst.wf h w 2 && src.wf m h w
  | .mov h (.ri w dst imm) =>
    h.wf m && h.plain && h.sizedBV m w && dst.wf h w 0 && trunc w imm == imm
  | .mov h (.mi w dst imm) => h.wf m && h.plain && h.sizedBV m w && dst.wf m h w && immBZok w imm
  | .mov h (.fromMoffs w mo) | .mov h (.toMoffs w mo) =>
    h.wf m && h.plain && h.sizedBV m w && mo.wfMoffs h
  | .movFromSeg h w dst _ =>
    h.wf m && h.plain && (if dst.isMem then w == .w16 else h.sized m .v w) && dst.wf m h w
  | .movToSeg h sr src => h.wf m && h.plain && sr != .cs && src.wf m h .w16
  | .movFromCr h w r _ | .movToCr h w _ r =>
    h.wf m && h.plain && h.sized m .byMode w && r.wf h 0 && !h.rexBit 2
  | .movzx h w dst sw src | .movsx h w dst sw src =>
    h.wf m && h.plain && h.sized m .v w && (sw == .w8 || sw == .w16) && dst.wf h w 2 &&
    src.wf m h sw
  | .movsxd h w dst src =>
    h.wf m && h.plain && m == .m64 && h.sized m .v w && dst.wf h w 2 && src.wf m h w
  | .lea h w dst mo => h.wf m && h.plain && h.sized m .v w && dst.wf h w 2 && mo.wf m h
  | .xchg h (.mr w dst src) =>
    h.wf m && h.lockable dst && h.sizedBV m w && dst.wf m h w && src.wf h w 2
  | .xchg h (.acc w r) => h.wf m && h.plain && h.sized m .v w && r.wf h w 0 && r.num != 0
  | .push h (.reg w r) | .pop h (.reg w r) => h.wf m && h.plain && h.sized m .d64 w && r.wf h w 0
  | .push h (.immz w imm) =>
    h.wf m && h.plain && h.sized m .d64 w && trunc w (sext (izWidth w) imm) == imm
  | .push h (.imm8 w imm) => h.wf m && h.plain && h.sized m .d64 w && imm8ok w imm
  | .push h (.rm w x) | .pop h (.rm w x) => h.wf m && h.plain && h.sized m .d64 w && x.wf m h w
  | .cmovcc h _ w dst src => h.wf m && h.plain && h.sized m .v w && dst.wf h w 2 && src.wf m h w
  | .setcc h _ dst => h.wf m && h.plain && dst.wf m h .w8
  | .cbw h w | .cwd h w => h.wf m && h.plain && h.sized m .v w
  | .pushf h w | .popf h w | .leave h w => h.wf m && h.plain && h.sized m .d64 w
  | .jmpRel h w z rel | .jcc h _ w z rel => h.wf m && h.plain && h.sized m .f64 w && relOk w z rel
  | .callRel h w rel => h.wf m && h.plain && h.sized m .f64 w && relOk w .relz rel
  | .jmpInd h w src | .callInd h w src =>
    h.wf m && h.plain && h.sized m .f64 w && src.wf m h w
  | .ret h w | .retImm h w _ => h.wf m && h.plain && h.sized m .f64 w
  | .loop h w rel | .loope h w rel | .loopne h w rel | .jrcxz h w rel =>
    h.wf m && h.plain && h.sized m .f64 w && relOk w .rel8 rel
  | .movs h w | .stos h w | .lods h w => h.wf m && !h.lock && h.rep != .repne && h.sizedBV m w
  | .cmps h w | .scas h w => h.wf m && !h.lock && h.sizedBV m w
  | .nop h => h.wf m && h.plain && !h.rexBit 0
  | .pause h => h.wf m && !h.lock && h.rep == .rep && !h.rexBit 0
  | .nopRm h w rm => h.wf m && h.plain && h.sized m .v w && rm.wf m h w
  | .into h => h.wf m && h.plain && m != .m64
  | .lfence h | .mfence h | .sfence h => h.wf m && h.plain && !h.os66
  | .lgdt h w mo | .lidt h w mo => h.wf m && h.plain && h.sized m .vForced w && mo.wf m h
  | .invlpg h mo => h.wf m && h.plain && mo.wf m h
  | .swapgs h => h.wf m && h.plain && m == .m64
  | .sahf h | .lahf h | .int3 h | .intn h _ | .hlt h | .cmc h | .clc h | .stc h | .cli h | .sti h
  | .cld h | .std h | .wrmsr h | .rdmsr h | .cpuid h => h.wf m && h.plain
  | .ud2 | .invalid => false

end Sys2Proof
end

