-- ==== Sys2Proof/Decode.lean ====
section
/-! DEFINITION. The decoder (`spec/30_encoding.md`: contract R300 to R303, layout R310 to R316, sizes
R318 to R320, ModRM and SIB R321 to R325, immediates R332 and R333, opcode map R342, `Invalid` and
`Unsupported` R345 and R346, algorithm R355), total on any bytes, and after it the encoder, written
from the same tables. -/

namespace Sys2Proof

/-- The five results of `Decode` (R300 to R302). `invalid` names the row of R345: `Instr.ud2` or
`Instr.invalid`. The length of a decoded instruction is in its header. -/
inductive DecodeResult where
  | decoded (i : Instr)
  | invalid (i : Instr)
  | unsupported
  | truncated
  | tooLong
  deriving DecidableEq, Repr

/-! ### Prefixes (R311, R312) -/

/-- What the prefix bytes recorded. -/
structure Pfx where
  lock : Bool
  rep : Rep
  segOv : Option SReg
  os66 : Bool
  as67 : Bool
  rex : Option (BitVec 4)
  deriving DecidableEq, Repr

/-- No prefix. -/
def Pfx.empty : Pfx := ⟨false, .none, none, false, false, none⟩

/-- The record after one legacy prefix byte; `none` when the byte is not one. A REX byte before a
legacy prefix is dropped (R312); the ES, CS, SS, DS overrides are consumed and ignored in mode 64
(R311). -/
def Pfx.legacy (m : DecodeMode) (p : Pfx) (b : Nat) : Option Pfx :=
  let q := { p with rex := none }
  let old (s : SReg) : Pfx :=
    match m with
    | .m64 => q
    | _ => { q with segOv := some s }
  match b with
  | 0xF0 => some { q with lock := true }
  | 0xF2 => some { q with rep := .repne }
  | 0xF3 => some { q with rep := .rep }
  | 0x26 => some (old .es)
  | 0x2E => some (old .cs)
  | 0x36 => some (old .ss)
  | 0x3E => some (old .ds)
  | 0x64 => some { q with segOv := some .fs }
  | 0x65 => some { q with segOv := some .gs }
  | 0x66 => some { q with os66 := true }
  | 0x67 => some { q with as67 := true }
  | _ => none

/-- Whether a byte is a REX prefix (R312). -/
def isRex (m : DecodeMode) (b : Nat) : Bool := m == .m64 && b / 16 == 4

/-- The prefix loop of R355: what was recorded and the bytes from the opcode on. -/
def scanPrefixes (m : DecodeMode) : Pfx → List Byte → Pfx × List Byte
  | p, [] => (p, [])
  | p, b :: bs =>
    match p.legacy m b.toNat with
    | some q => scanPrefixes m q bs
    | none =>
      if isRex m b.toNat then scanPrefixes m { p with rex := some (b.setWidth 4) } bs
      else (p, b :: bs)

/-- REX.W (R312). -/
def Pfx.rexW (p : Pfx) : Bool := (p.rex.getD 0).getLsbD 3
/-- REX.R. -/
def Pfx.rexR (p : Pfx) : Bool := (p.rex.getD 0).getLsbD 2
/-- REX.X. -/
def Pfx.rexX (p : Pfx) : Bool := (p.rex.getD 0).getLsbD 1
/-- REX.B. -/
def Pfx.rexB (p : Pfx) : Bool := (p.rex.getD 0).getLsbD 0

/-! ### ModRM, SIB and displacement (R321 to R324) -/

/-- `n` bytes as a little-endian number, and the rest; `none` when there are fewer. -/
def takeLE (n : Nat) (bs : List Byte) : Option (Nat × List Byte) :=
  if bs.length < n then none else some (leNat (bs.take n), bs.drop n)

/-- Base and index of 16-bit addressing (R322). -/
def base16 (md rm : Nat) : Option RegNum × Option RegNum :=
  match rm with
  | 0 => (some 3, some 6)
  | 1 => (some 3, some 7)
  | 2 => (some 5, some 6)
  | 3 => (some 5, some 7)
  | 4 => (some 6, none)
  | 5 => (some 7, none)
  | 6 => if md == 0 then (none, none) else (some 5, none)
  | _ => (some 3, none)

/-- Bytes of displacement in 16-bit addressing (R322). -/
def dispLen16 (md rm : Nat) : Nat :=
  match md with
  | 0 => if rm == 6 then 2 else 0
  | 1 => 1
  | _ => 2

/-- A memory operand with 16-bit addressing (R322). -/
def mem16 (p : Pfx) (md rm : Nat) (bs : List Byte) : Option (MemOp × List Byte) :=
  let n := dispLen16 md rm
  match takeLE n bs with
  | none => none
  | some (d, rest) =>
    let bi := base16 md rm
    some (⟨p.segOv.getD (defaultSeg16 bi.1), bi.1, bi.2, 0, sextBytes n d, false⟩, rest)

/-- Bytes of displacement in 32- and 64-bit addressing: `low` is the field (ModRM.rm or SIB.base)
whose value 5 with `mod` = 0 means a bare displacement (R323). -/
def dispLen (md low : Nat) : Nat :=
  match md with
  | 0 => if low == 5 then 4 else 0
  | 1 => 1
  | _ => 4

/-- A memory operand with 32- or 64-bit addressing (R323, R324). -/
def mem32 (m : DecodeMode) (p : Pfx) (md rm : Nat) (bs : List Byte) : Option (MemOp × List Byte) :=
  if rm != 4 then
    let n := dispLen md rm
    match takeLE n bs with
    | none => none
    | some (d, rest) =>
      let bare := md == 0 && rm == 5
      let base := if bare then none else some (regNum p.rexB rm)
      some (⟨p.segOv.getD (defaultSeg base), base, none, 0, sextBytes n d, bare && m == .m64⟩, rest)
  else
    match bs with
    | [] => none
    | sib :: bs =>
      let sb := sib.toNat
      let low := sb % 8
      let ix := regNum p.rexX (sb / 8)
      let index := if ix == 4 then none else some ix
      let n := dispLen md low
      match takeLE n bs with
      | none => none
      | some (d, rest) =>
        let base := if md == 0 && low == 5 then none else some (regNum p.rexB low)
        let scale : Fin 4 := if ix == 4 then 0 else Fin.ofNat 4 (sb / 64)
        some (⟨p.segOv.getD (defaultSeg base), base, index, scale, sextBytes n d, false⟩, rest)

/-- A memory operand (`mod` not 3) by address size. -/
def memOperand (m : DecodeMode) (a : Width) (p : Pfx) (md rm : Nat) (bs : List Byte) :
    Option (MemOp × List Byte) :=
  match a with
  | .w16 => mem16 p md rm bs
  | _ => mem32 m p md rm bs

/-! ### The opcode map (R342) -/

/-- The opcode maps (R313). -/
inductive OpMap where
  | m1 | m0F
  deriving DecidableEq, Repr

/-- How many opcode bits a row fixes: all, all but `+r`, all but `+cc` (R314). -/
inductive OpMask where
  | exact | plusR | plusCC
  deriving DecidableEq, Repr

/-- The modes in which a row exists. -/
inductive Modes where
  | all | legacy | long
  deriving DecidableEq, Repr

/-- The "mod" column: no ModRM byte, any, memory only, register only, ignored and treated as 3, or a
whole ModRM byte. -/
inductive ModSel where
  | noModRM | any | mem | reg | ignored
  | byte (b : Nat)
  deriving DecidableEq, Repr

/-- The immediates of R332 (`ibs` is an `ib` the row calls sign-extended) and the displacements of
R333. -/
inductive ImmKind where
  | none | ib | ibs | iw | iz | iv | moffs | rel8 | relz
  deriving DecidableEq, Repr

/-- Which repeat prefixes a row admits (R315): none, `F3` (REP), both (REPE, REPNE), or `F3` as part
of the encoding (PAUSE). -/
inductive RepUse where
  | no | rep | repe | f3
  deriving DecidableEq, Repr

/-- The rows that share opcode `90` (R343 a): any number; number 0 without `F3`; number 0 with `F3`;
a number other than 0. -/
inductive Pick where
  | always | num0 | num0F3 | numNot0
  deriving DecidableEq, Repr

/-- What the bytes gave, from which a row builds its instruction. -/
structure Parts where
  h : Hdr
  w : Width
  /-- the opcode's condition code (low four bits) -/
  cc : CC
  /-- `ModRM.reg`, three bits -/
  modReg : Nat
  /-- `R:reg` and `B:rm`, four bits -/
  regN : RegNum
  rmN : RegNum
  /-- the register operand of ModRM.reg -/
  reg : Gpr
  /-- the register-or-memory operand -/
  rm : RM
  /-- the register operand in the opcode -/
  oreg : Gpr
  imm : Word
  moffs : MemOp

/-- An instruction whose row admits a memory operand only. -/
def Parts.withMem (p : Parts) (k : MemOp → Instr) : Instr :=
  match p.rm with
  | .mem m => k m
  | .reg _ => .invalid

/-- `8C`: the memory form is always 16 bits wide (R342, R617). -/
def buildMovFromSeg (p : Parts) : Instr :=
  match SReg.ofNum p.modReg with
  | some s =>
    match p.rm with
    | .reg _ => .movFromSeg p.h p.w p.rm s
    | .mem _ => .movFromSeg p.h .w16 p.rm s
  | none => .invalid

/-- `8E` (R616). -/
def buildMovToSeg (p : Parts) : Instr :=
  match SReg.ofNum p.modReg with
  | some s => .movToSeg p.h s p.rm
  | none => .invalid

/-- `0F 20` (R610): the control register is `R:reg`, the general register `B:rm`. -/
def buildMovFromCr (p : Parts) : Instr :=
  match CReg.ofNum p.regN.val with
  | some c => .movFromCr p.h p.w p.rmN c
  | none => .invalid

/-- `0F 22` (R611). -/
def buildMovToCr (p : Parts) : Instr :=
  match CReg.ofNum p.regN.val with
  | some c => .movToCr p.h p.w c p.rmN
  | none => .invalid

/-- One row of R342, its columns in the table's order: map, opcode, opcode mask, modes, mod, digit,
operand size, immediate, LOCK legal with a memory destination, repeat prefixes, selection at opcode
`90`, r/m operand 8 bits wide although `w` is not, and the instruction. -/
structure Row where
  map : OpMap
  op : Nat
  mask : OpMask
  modes : Modes
  sel : ModSel
  digit : Option Nat
  size : SizeClass
  imm : ImmKind
  lock : Bool
  rep : RepUse
  pick : Pick
  rm8 : Bool
  build : Parts → Instr

/-- Rows of R342. -/
def rowsArith : List Row := [
  ⟨.m1, 0x00, .exact, .all, .any, none, .b, .none, true, .no, .always, false, fun p => .add p.h (.mr p.w p.rm p.reg)⟩,
  ⟨.m1, 0x01, .exact, .all, .any, none, .v, .none, true, .no, .always, false, fun p => .add p.h (.mr p.w p.rm p.reg)⟩,
  ⟨.m1, 0x02, .exact, .all, .any, none, .b, .none, false, .no, .always, false, fun p => .add p.h (.rm p.w p.reg p.rm)⟩,
  ⟨.m1, 0x03, .exact, .all, .any, none, .v, .none, false, .no, .always, false, fun p => .add p.h (.rm p.w p.reg p.rm)⟩,
  ⟨.m1, 0x04, .exact, .all, .noModRM, none, .b, .ib, false, .no, .always, false, fun p => .add p.h (.acc p.w p.imm)⟩,
  ⟨.m1, 0x05, .exact, .all, .noModRM, none, .v, .iz, false, .no, .always, false, fun p => .add p.h (.acc p.w p.imm)⟩,
  ⟨.m1, 0x80, .exact, .all, .any, (some 0), .b, .ib, true, .no, .always, false, fun p => .add p.h (.mi p.w p.rm p.imm)⟩,
  ⟨.m1, 0x81, .exact, .all, .any, (some 0), .v, .iz, true, .no, .always, false, fun p => .add p.h (.mi p.w p.rm p.imm)⟩,
  ⟨.m1, 0x83, .exact, .all, .any, (some 0), .v, .ibs, true, .no, .always, false, fun p => .add p.h (.mis p.w p.rm p.imm)⟩,
  ⟨.m1, 0x08, .exact, .all, .any, none, .b, .none, true, .no, .always, false, fun p => .or p.h (.mr p.w p.rm p.reg)⟩,
  ⟨.m1, 0x09, .exact, .all, .any, none, .v, .none, true, .no, .always, false, fun p => .or p.h (.mr p.w p.rm p.reg)⟩,
  ⟨.m1, 0x0A, .exact, .all, .any, none, .b, .none, false, .no, .always, false, fun p => .or p.h (.rm p.w p.reg p.rm)⟩,
  ⟨.m1, 0x0B, .exact, .all, .any, none, .v, .none, false, .no, .always, false, fun p => .or p.h (.rm p.w p.reg p.rm)⟩,
  ⟨.m1, 0x0C, .exact, .all, .noModRM, none, .b, .ib, false, .no, .always, false, fun p => .or p.h (.acc p.w p.imm)⟩,
  ⟨.m1, 0x0D, .exact, .all, .noModRM, none, .v, .iz, false, .no, .always, false, fun p => .or p.h (.acc p.w p.imm)⟩,
  ⟨.m1, 0x80, .exact, .all, .any, (some 1), .b, .ib, true, .no, .always, false, fun p => .or p.h (.mi p.w p.rm p.imm)⟩,
  ⟨.m1, 0x81, .exact, .all, .any, (some 1), .v, .iz, true, .no, .always, false, fun p => .or p.h (.mi p.w p.rm p.imm)⟩,
  ⟨.m1, 0x83, .exact, .all, .any, (some 1), .v, .ibs, true, .no, .always, false, fun p => .or p.h (.mis p.w p.rm p.imm)⟩,
  ⟨.m1, 0x10, .exact, .all, .any, none, .b, .none, true, .no, .always, false, fun p => .adc p.h (.mr p.w p.rm p.reg)⟩,
  ⟨.m1, 0x11, .exact, .all, .any, none, .v, .none, true, .no, .always, false, fun p => .adc p.h (.mr p.w p.rm p.reg)⟩,
  ⟨.m1, 0x12, .exact, .all, .any, none, .b, .none, false, .no, .always, false, fun p => .adc p.h (.rm p.w p.reg p.rm)⟩,
  ⟨.m1, 0x13, .exact, .all, .any, none, .v, .none, false, .no, .always, false, fun p => .adc p.h (.rm p.w p.reg p.rm)⟩,
  ⟨.m1, 0x14, .exact, .all, .noModRM, none, .b, .ib, false, .no, .always, false, fun p => .adc p.h (.acc p.w p.imm)⟩,
  ⟨.m1, 0x15, .exact, .all, .noModRM, none, .v, .iz, false, .no, .always, false, fun p => .adc p.h (.acc p.w p.imm)⟩,
  ⟨.m1, 0x80, .exact, .all, .any, (some 2), .b, .ib, true, .no, .always, false, fun p => .adc p.h (.mi p.w p.rm p.imm)⟩,
  ⟨.m1, 0x81, .exact, .all, .any, (some 2), .v, .iz, true, .no, .always, false, fun p => .adc p.h (.mi p.w p.rm p.imm)⟩,
  ⟨.m1, 0x83, .exact, .all, .any, (some 2), .v, .ibs, true, .no, .always, false, fun p => .adc p.h (.mis p.w p.rm p.imm)⟩,
  ⟨.m1, 0x18, .exact, .all, .any, none, .b, .none, true, .no, .always, false, fun p => .sbb p.h (.mr p.w p.rm p.reg)⟩,
  ⟨.m1, 0x19, .exact, .all, .any, none, .v, .none, true, .no, .always, false, fun p => .sbb p.h (.mr p.w p.rm p.reg)⟩,
  ⟨.m1, 0x1A, .exact, .all, .any, none, .b, .none, false, .no, .always, false, fun p => .sbb p.h (.rm p.w p.reg p.rm)⟩,
  ⟨.m1, 0x1B, .exact, .all, .any, none, .v, .none, false, .no, .always, false, fun p => .sbb p.h (.rm p.w p.reg p.rm)⟩,
  ⟨.m1, 0x1C, .exact, .all, .noModRM, none, .b, .ib, false, .no, .always, false, fun p => .sbb p.h (.acc p.w p.imm)⟩,
  ⟨.m1, 0x1D, .exact, .all, .noModRM, none, .v, .iz, false, .no, .always, false, fun p => .sbb p.h (.acc p.w p.imm)⟩,
  ⟨.m1, 0x80, .exact, .all, .any, (some 3), .b, .ib, true, .no, .always, false, fun p => .sbb p.h (.mi p.w p.rm p.imm)⟩,
  ⟨.m1, 0x81, .exact, .all, .any, (some 3), .v, .iz, true, .no, .always, false, fun p => .sbb p.h (.mi p.w p.rm p.imm)⟩,
  ⟨.m1, 0x83, .exact, .all, .any, (some 3), .v, .ibs, true, .no, .always, false, fun p => .sbb p.h (.mis p.w p.rm p.imm)⟩]

/-- Rows of R342. -/
def rowsLogic : List Row := [
  ⟨.m1, 0x20, .exact, .all, .any, none, .b, .none, true, .no, .always, false, fun p => .and p.h (.mr p.w p.rm p.reg)⟩,
  ⟨.m1, 0x21, .exact, .all, .any, none, .v, .none, true, .no, .always, false, fun p => .and p.h (.mr p.w p.rm p.reg)⟩,
  ⟨.m1, 0x22, .exact, .all, .any, none, .b, .none, false, .no, .always, false, fun p => .and p.h (.rm p.w p.reg p.rm)⟩,
  ⟨.m1, 0x23, .exact, .all, .any, none, .v, .none, false, .no, .always, false, fun p => .and p.h (.rm p.w p.reg p.rm)⟩,
  ⟨.m1, 0x24, .exact, .all, .noModRM, none, .b, .ib, false, .no, .always, false, fun p => .and p.h (.acc p.w p.imm)⟩,
  ⟨.m1, 0x25, .exact, .all, .noModRM, none, .v, .iz, false, .no, .always, false, fun p => .and p.h (.acc p.w p.imm)⟩,
  ⟨.m1, 0x80, .exact, .all, .any, (some 4), .b, .ib, true, .no, .always, false, fun p => .and p.h (.mi p.w p.rm p.imm)⟩,
  ⟨.m1, 0x81, .exact, .all, .any, (some 4), .v, .iz, true, .no, .always, false, fun p => .and p.h (.mi p.w p.rm p.imm)⟩,
  ⟨.m1, 0x83, .exact, .all, .any, (some 4), .v, .ibs, true, .no, .always, false, fun p => .and p.h (.mis p.w p.rm p.imm)⟩,
  ⟨.m1, 0x28, .exact, .all, .any, none, .b, .none, true, .no, .always, false, fun p => .sub p.h (.mr p.w p.rm p.reg)⟩,
  ⟨.m1, 0x29, .exact, .all, .any, none, .v, .none, true, .no, .always, false, fun p => .sub p.h (.mr p.w p.rm p.reg)⟩,
  ⟨.m1, 0x2A, .exact, .all, .any, none, .b, .none, false, .no, .always, false, fun p => .sub p.h (.rm p.w p.reg p.rm)⟩,
  ⟨.m1, 0x2B, .exact, .all, .any, none, .v, .none, false, .no, .always, false, fun p => .sub p.h (.rm p.w p.reg p.rm)⟩,
  ⟨.m1, 0x2C, .exact, .all, .noModRM, none, .b, .ib, false, .no, .always, false, fun p => .sub p.h (.acc p.w p.imm)⟩,
  ⟨.m1, 0x2D, .exact, .all, .noModRM, none, .v, .iz, false, .no, .always, false, fun p => .sub p.h (.acc p.w p.imm)⟩,
  ⟨.m1, 0x80, .exact, .all, .any, (some 5), .b, .ib, true, .no, .always, false, fun p => .sub p.h (.mi p.w p.rm p.imm)⟩,
  ⟨.m1, 0x81, .exact, .all, .any, (some 5), .v, .iz, true, .no, .always, false, fun p => .sub p.h (.mi p.w p.rm p.imm)⟩,
  ⟨.m1, 0x83, .exact, .all, .any, (some 5), .v, .ibs, true, .no, .always, false, fun p => .sub p.h (.mis p.w p.rm p.imm)⟩,
  ⟨.m1, 0x30, .exact, .all, .any, none, .b, .none, true, .no, .always, false, fun p => .xor p.h (.mr p.w p.rm p.reg)⟩,
  ⟨.m1, 0x31, .exact, .all, .any, none, .v, .none, true, .no, .always, false, fun p => .xor p.h (.mr p.w p.rm p.reg)⟩,
  ⟨.m1, 0x32, .exact, .all, .any, none, .b, .none, false, .no, .always, false, fun p => .xor p.h (.rm p.w p.reg p.rm)⟩,
  ⟨.m1, 0x33, .exact, .all, .any, none, .v, .none, false, .no, .always, false, fun p => .xor p.h (.rm p.w p.reg p.rm)⟩,
  ⟨.m1, 0x34, .exact, .all, .noModRM, none, .b, .ib, false, .no, .always, false, fun p => .xor p.h (.acc p.w p.imm)⟩,
  ⟨.m1, 0x35, .exact, .all, .noModRM, none, .v, .iz, false, .no, .always, false, fun p => .xor p.h (.acc p.w p.imm)⟩,
  ⟨.m1, 0x80, .exact, .all, .any, (some 6), .b, .ib, true, .no, .always, false, fun p => .xor p.h (.mi p.w p.rm p.imm)⟩,
  ⟨.m1, 0x81, .exact, .all, .any, (some 6), .v, .iz, true, .no, .always, false, fun p => .xor p.h (.mi p.w p.rm p.imm)⟩,
  ⟨.m1, 0x83, .exact, .all, .any, (some 6), .v, .ibs, true, .no, .always, false, fun p => .xor p.h (.mis p.w p.rm p.imm)⟩,
  ⟨.m1, 0x38, .exact, .all, .any, none, .b, .none, false, .no, .always, false, fun p => .cmp p.h (.mr p.w p.rm p.reg)⟩,
  ⟨.m1, 0x39, .exact, .all, .any, none, .v, .none, false, .no, .always, false, fun p => .cmp p.h (.mr p.w p.rm p.reg)⟩,
  ⟨.m1, 0x3A, .exact, .all, .any, none, .b, .none, false, .no, .always, false, fun p => .cmp p.h (.rm p.w p.reg p.rm)⟩,
  ⟨.m1, 0x3B, .exact, .all, .any, none, .v, .none, false, .no, .always, false, fun p => .cmp p.h (.rm p.w p.reg p.rm)⟩,
  ⟨.m1, 0x3C, .exact, .all, .noModRM, none, .b, .ib, false, .no, .always, false, fun p => .cmp p.h (.acc p.w p.imm)⟩,
  ⟨.m1, 0x3D, .exact, .all, .noModRM, none, .v, .iz, false, .no, .always, false, fun p => .cmp p.h (.acc p.w p.imm)⟩,
  ⟨.m1, 0x80, .exact, .all, .any, (some 7), .b, .ib, false, .no, .always, false, fun p => .cmp p.h (.mi p.w p.rm p.imm)⟩,
  ⟨.m1, 0x81, .exact, .all, .any, (some 7), .v, .iz, false, .no, .always, false, fun p => .cmp p.h (.mi p.w p.rm p.imm)⟩,
  ⟨.m1, 0x83, .exact, .all, .any, (some 7), .v, .ibs, false, .no, .always, false, fun p => .cmp p.h (.mis p.w p.rm p.imm)⟩,
  ⟨.m1, 0x84, .exact, .all, .any, none, .b, .none, false, .no, .always, false, fun p => .test p.h (.mr p.w p.rm p.reg)⟩,
  ⟨.m1, 0x85, .exact, .all, .any, none, .v, .none, false, .no, .always, false, fun p => .test p.h (.mr p.w p.rm p.reg)⟩,
  ⟨.m1, 0xA8, .exact, .all, .noModRM, none, .b, .ib, false, .no, .always, false, fun p => .test p.h (.acc p.w p.imm)⟩,
  ⟨.m1, 0xA9, .exact, .all, .noModRM, none, .v, .iz, false, .no, .always, false, fun p => .test p.h (.acc p.w p.imm)⟩,
  ⟨.m1, 0xF6, .exact, .all, .any, (some 0), .b, .ib, false, .no, .always, false, fun p => .test p.h (.mi p.w p.rm p.imm)⟩,
  ⟨.m1, 0xF7, .exact, .all, .any, (some 0), .v, .iz, false, .no, .always, false, fun p => .test p.h (.mi p.w p.rm p.imm)⟩]

/-- Rows of R342. -/
def rowsUnary : List Row := [
  ⟨.m1, 0xF6, .exact, .all, .any, (some 2), .b, .none, true, .no, .always, false, fun p => .not p.h p.w p.rm⟩,
  ⟨.m1, 0xF7, .exact, .all, .any, (some 2), .v, .none, true, .no, .always, false, fun p => .not p.h p.w p.rm⟩,
  ⟨.m1, 0xF6, .exact, .all, .any, (some 3), .b, .none, true, .no, .always, false, fun p => .neg p.h p.w p.rm⟩,
  ⟨.m1, 0xF7, .exact, .all, .any, (some 3), .v, .none, true, .no, .always, false, fun p => .neg p.h p.w p.rm⟩,
  ⟨.m1, 0xF6, .exact, .all, .any, (some 4), .b, .none, false, .no, .always, false, fun p => .mul p.h p.w p.rm⟩,
  ⟨.m1, 0xF7, .exact, .all, .any, (some 4), .v, .none, false, .no, .always, false, fun p => .mul p.h p.w p.rm⟩,
  ⟨.m1, 0xF6, .exact, .all, .any, (some 5), .b, .none, false, .no, .always, false, fun p => .imul1 p.h p.w p.rm⟩,
  ⟨.m1, 0xF7, .exact, .all, .any, (some 5), .v, .none, false, .no, .always, false, fun p => .imul1 p.h p.w p.rm⟩,
  ⟨.m1, 0xF6, .exact, .all, .any, (some 6), .b, .none, false, .no, .always, false, fun p => .div p.h p.w p.rm⟩,
  ⟨.m1, 0xF7, .exact, .all, .any, (some 6), .v, .none, false, .no, .always, false, fun p => .div p.h p.w p.rm⟩,
  ⟨.m1, 0xF6, .exact, .all, .any, (some 7), .b, .none, false, .no, .always, false, fun p => .idiv p.h p.w p.rm⟩,
  ⟨.m1, 0xF7, .exact, .all, .any, (some 7), .v, .none, false, .no, .always, false, fun p => .idiv p.h p.w p.rm⟩,
  ⟨.m1, 0xFE, .exact, .all, .any, (some 0), .b, .none, true, .no, .always, false, fun p => .inc p.h (.rm p.w p.rm)⟩,
  ⟨.m1, 0xFF, .exact, .all, .any, (some 0), .v, .none, true, .no, .always, false, fun p => .inc p.h (.rm p.w p.rm)⟩,
  ⟨.m1, 0x40, .plusR, .legacy, .noModRM, none, .v, .none, false, .no, .always, false, fun p => .inc p.h (.short p.w p.oreg)⟩,
  ⟨.m1, 0xFE, .exact, .all, .any, (some 1), .b, .none, true, .no, .always, false, fun p => .dec p.h (.rm p.w p.rm)⟩,
  ⟨.m1, 0xFF, .exact, .all, .any, (some 1), .v, .none, true, .no, .always, false, fun p => .dec p.h (.rm p.w p.rm)⟩,
  ⟨.m1, 0x48, .plusR, .legacy, .noModRM, none, .v, .none, false, .no, .always, false, fun p => .dec p.h (.short p.w p.oreg)⟩,
  ⟨.m0F, 0xAF, .exact, .all, .any, none, .v, .none, false, .no, .always, false, fun p => .imul2 p.h p.w p.reg p.rm⟩,
  ⟨.m1, 0x69, .exact, .all, .any, none, .v, .iz, false, .no, .always, false, fun p => .imul3 p.h p.w p.reg p.rm p.imm .immz⟩,
  ⟨.m1, 0x6B, .exact, .all, .any, none, .v, .ibs, false, .no, .always, false, fun p => .imul3 p.h p.w p.reg p.rm p.imm .imm8⟩,
  ⟨.m0F, 0xB0, .exact, .all, .any, none, .b, .none, true, .no, .always, false, fun p => .cmpxchg p.h p.w p.rm p.reg⟩,
  ⟨.m0F, 0xB1, .exact, .all, .any, none, .v, .none, true, .no, .always, false, fun p => .cmpxchg p.h p.w p.rm p.reg⟩,
  ⟨.m0F, 0xC0, .exact, .all, .any, none, .b, .none, true, .no, .always, false, fun p => .xadd p.h p.w p.rm p.reg⟩,
  ⟨.m0F, 0xC1, .exact, .all, .any, none, .v, .none, true, .no, .always, false, fun p => .xadd p.h p.w p.rm p.reg⟩]

/-- Rows of R342. -/
def rowsShift : List Row := [
  ⟨.m1, 0xC0, .exact, .all, .any, (some 0), .b, .ib, false, .no, .always, false, fun p => .rol p.h p.w p.rm (.imm (p.imm.setWidth 8))⟩,
  ⟨.m1, 0xC1, .exact, .all, .any, (some 0), .v, .ib, false, .no, .always, false, fun p => .rol p.h p.w p.rm (.imm (p.imm.setWidth 8))⟩,
  ⟨.m1, 0xD0, .exact, .all, .any, (some 0), .b, .none, false, .no, .always, false, fun p => .rol p.h p.w p.rm .one⟩,
  ⟨.m1, 0xD1, .exact, .all, .any, (some 0), .v, .none, false, .no, .always, false, fun p => .rol p.h p.w p.rm .one⟩,
  ⟨.m1, 0xD2, .exact, .all, .any, (some 0), .b, .none, false, .no, .always, false, fun p => .rol p.h p.w p.rm .cl⟩,
  ⟨.m1, 0xD3, .exact, .all, .any, (some 0), .v, .none, false, .no, .always, false, fun p => .rol p.h p.w p.rm .cl⟩,
  ⟨.m1, 0xC0, .exact, .all, .any, (some 1), .b, .ib, false, .no, .always, false, fun p => .ror p.h p.w p.rm (.imm (p.imm.setWidth 8))⟩,
  ⟨.m1, 0xC1, .exact, .all, .any, (some 1), .v, .ib, false, .no, .always, false, fun p => .ror p.h p.w p.rm (.imm (p.imm.setWidth 8))⟩,
  ⟨.m1, 0xD0, .exact, .all, .any, (some 1), .b, .none, false, .no, .always, false, fun p => .ror p.h p.w p.rm .one⟩,
  ⟨.m1, 0xD1, .exact, .all, .any, (some 1), .v, .none, false, .no, .always, false, fun p => .ror p.h p.w p.rm .one⟩,
  ⟨.m1, 0xD2, .exact, .all, .any, (some 1), .b, .none, false, .no, .always, false, fun p => .ror p.h p.w p.rm .cl⟩,
  ⟨.m1, 0xD3, .exact, .all, .any, (some 1), .v, .none, false, .no, .always, false, fun p => .ror p.h p.w p.rm .cl⟩,
  ⟨.m1, 0xC0, .exact, .all, .any, (some 4), .b, .ib, false, .no, .always, false, fun p => .shl p.h p.w p.rm (.imm (p.imm.setWidth 8))⟩,
  ⟨.m1, 0xC1, .exact, .all, .any, (some 4), .v, .ib, false, .no, .always, false, fun p => .shl p.h p.w p.rm (.imm (p.imm.setWidth 8))⟩,
  ⟨.m1, 0xD0, .exact, .all, .any, (some 4), .b, .none, false, .no, .always, false, fun p => .shl p.h p.w p.rm .one⟩,
  ⟨.m1, 0xD1, .exact, .all, .any, (some 4), .v, .none, false, .no, .always, false, fun p => .shl p.h p.w p.rm .one⟩,
  ⟨.m1, 0xD2, .exact, .all, .any, (some 4), .b, .none, false, .no, .always, false, fun p => .shl p.h p.w p.rm .cl⟩,
  ⟨.m1, 0xD3, .exact, .all, .any, (some 4), .v, .none, false, .no, .always, false, fun p => .shl p.h p.w p.rm .cl⟩,
  ⟨.m1, 0xC0, .exact, .all, .any, (some 5), .b, .ib, false, .no, .always, false, fun p => .shr p.h p.w p.rm (.imm (p.imm.setWidth 8))⟩,
  ⟨.m1, 0xC1, .exact, .all, .any, (some 5), .v, .ib, false, .no, .always, false, fun p => .shr p.h p.w p.rm (.imm (p.imm.setWidth 8))⟩,
  ⟨.m1, 0xD0, .exact, .all, .any, (some 5), .b, .none, false, .no, .always, false, fun p => .shr p.h p.w p.rm .one⟩,
  ⟨.m1, 0xD1, .exact, .all, .any, (some 5), .v, .none, false, .no, .always, false, fun p => .shr p.h p.w p.rm .one⟩,
  ⟨.m1, 0xD2, .exact, .all, .any, (some 5), .b, .none, false, .no, .always, false, fun p => .shr p.h p.w p.rm .cl⟩,
  ⟨.m1, 0xD3, .exact, .all, .any, (some 5), .v, .none, false, .no, .always, false, fun p => .shr p.h p.w p.rm .cl⟩,
  ⟨.m1, 0xC0, .exact, .all, .any, (some 7), .b, .ib, false, .no, .always, false, fun p => .sar p.h p.w p.rm (.imm (p.imm.setWidth 8))⟩,
  ⟨.m1, 0xC1, .exact, .all, .any, (some 7), .v, .ib, false, .no, .always, false, fun p => .sar p.h p.w p.rm (.imm (p.imm.setWidth 8))⟩,
  ⟨.m1, 0xD0, .exact, .all, .any, (some 7), .b, .none, false, .no, .always, false, fun p => .sar p.h p.w p.rm .one⟩,
  ⟨.m1, 0xD1, .exact, .all, .any, (some 7), .v, .none, false, .no, .always, false, fun p => .sar p.h p.w p.rm .one⟩,
  ⟨.m1, 0xD2, .exact, .all, .any, (some 7), .b, .none, false, .no, .always, false, fun p => .sar p.h p.w p.rm .cl⟩,
  ⟨.m1, 0xD3, .exact, .all, .any, (some 7), .v, .none, false, .no, .always, false, fun p => .sar p.h p.w p.rm .cl⟩]

/-- Rows of R342. -/
def rowsMove : List Row := [
  ⟨.m1, 0x88, .exact, .all, .any, none, .b, .none, false, .no, .always, false, fun p => .mov p.h (.mr p.w p.rm p.reg)⟩,
  ⟨.m1, 0x89, .exact, .all, .any, none, .v, .none, false, .no, .always, false, fun p => .mov p.h (.mr p.w p.rm p.reg)⟩,
  ⟨.m1, 0x8A, .exact, .all, .any, none, .b, .none, false, .no, .always, false, fun p => .mov p.h (.rm p.w p.reg p.rm)⟩,
  ⟨.m1, 0x8B, .exact, .all, .any, none, .v, .none, false, .no, .always, false, fun p => .mov p.h (.rm p.w p.reg p.rm)⟩,
  ⟨.m1, 0xB0, .plusR, .all, .noModRM, none, .b, .ib, false, .no, .always, false, fun p => .mov p.h (.ri p.w p.oreg p.imm)⟩,
  ⟨.m1, 0xB8, .plusR, .all, .noModRM, none, .v, .iv, false, .no, .always, false, fun p => .mov p.h (.ri p.w p.oreg p.imm)⟩,
  ⟨.m1, 0xC6, .exact, .all, .any, (some 0), .b, .ib, false, .no, .always, false, fun p => .mov p.h (.mi p.w p.rm p.imm)⟩,
  ⟨.m1, 0xC7, .exact, .all, .any, (some 0), .v, .iz, false, .no, .always, false, fun p => .mov p.h (.mi p.w p.rm p.imm)⟩,
  ⟨.m1, 0xA0, .exact, .all, .noModRM, none, .b, .moffs, false, .no, .always, false, fun p => .mov p.h (.fromMoffs p.w p.moffs)⟩,
  ⟨.m1, 0xA1, .exact, .all, .noModRM, none, .v, .moffs, false, .no, .always, false, fun p => .mov p.h (.fromMoffs p.w p.moffs)⟩,
  ⟨.m1, 0xA2, .exact, .all, .noModRM, none, .b, .moffs, false, .no, .always, false, fun p => .mov p.h (.toMoffs p.w p.moffs)⟩,
  ⟨.m1, 0xA3, .exact, .all, .noModRM, none, .v, .moffs, false, .no, .always, false, fun p => .mov p.h (.toMoffs p.w p.moffs)⟩,
  ⟨.m1, 0x8C, .exact, .all, .any, none, .v, .none, false, .no, .always, false, fun p => buildMovFromSeg p⟩,
  ⟨.m1, 0x8E, .exact, .all, .any, none, .w16, .none, false, .no, .always, false, fun p => buildMovToSeg p⟩,
  ⟨.m0F, 0x20, .exact, .all, .ignored, none, .byMode, .none, false, .no, .always, false, fun p => buildMovFromCr p⟩,
  ⟨.m0F, 0x22, .exact, .all, .ignored, none, .byMode, .none, false, .no, .always, false, fun p => buildMovToCr p⟩,
  ⟨.m0F, 0xB6, .exact, .all, .any, none, .v, .none, false, .no, .always, true, fun p => .movzx p.h p.w p.reg .w8 p.rm⟩,
  ⟨.m0F, 0xB7, .exact, .all, .any, none, .v, .none, false, .no, .always, false, fun p => .movzx p.h p.w p.reg .w16 p.rm⟩,
  ⟨.m0F, 0xBE, .exact, .all, .any, none, .v, .none, false, .no, .always, true, fun p => .movsx p.h p.w p.reg .w8 p.rm⟩,
  ⟨.m0F, 0xBF, .exact, .all, .any, none, .v, .none, false, .no, .always, false, fun p => .movsx p.h p.w p.reg .w16 p.rm⟩,
  ⟨.m1, 0x63, .exact, .long, .any, none, .v, .none, false, .no, .always, false, fun p => .movsxd p.h p.w p.reg p.rm⟩,
  ⟨.m1, 0x8D, .exact, .all, .mem, none, .v, .none, false, .no, .always, false, fun p => p.withMem fun m => .lea p.h p.w p.reg m⟩,
  ⟨.m1, 0x86, .exact, .all, .any, none, .b, .none, true, .no, .always, false, fun p => .xchg p.h (.mr p.w p.rm p.reg)⟩,
  ⟨.m1, 0x87, .exact, .all, .any, none, .v, .none, true, .no, .always, false, fun p => .xchg p.h (.mr p.w p.rm p.reg)⟩,
  ⟨.m1, 0x90, .plusR, .all, .noModRM, none, .v, .none, false, .no, .numNot0, false, fun p => .xchg p.h (.acc p.w p.oreg)⟩,
  ⟨.m0F, 0x40, .plusCC, .all, .any, none, .v, .none, false, .no, .always, false, fun p => .cmovcc p.h p.cc p.w p.reg p.rm⟩,
  ⟨.m0F, 0x90, .plusCC, .all, .any, none, .b, .none, false, .no, .always, false, fun p => .setcc p.h p.cc p.rm⟩,
  ⟨.m1, 0x98, .exact, .all, .noModRM, none, .v, .none, false, .no, .always, false, fun p => .cbw p.h p.w⟩,
  ⟨.m1, 0x99, .exact, .all, .noModRM, none, .v, .none, false, .no, .always, false, fun p => .cwd p.h p.w⟩,
  ⟨.m1, 0x9E, .exact, .all, .noModRM, none, .none, .none, false, .no, .always, false, fun p => .sahf p.h⟩,
  ⟨.m1, 0x9F, .exact, .all, .noModRM, none, .none, .none, false, .no, .always, false, fun p => .lahf p.h⟩]

/-- Rows of R342. -/
def rowsStack : List Row := [
  ⟨.m1, 0x50, .plusR, .all, .noModRM, none, .d64, .none, false, .no, .always, false, fun p => .push p.h (.reg p.w p.oreg)⟩,
  ⟨.m1, 0x68, .exact, .all, .noModRM, none, .d64, .iz, false, .no, .always, false, fun p => .push p.h (.immz p.w p.imm)⟩,
  ⟨.m1, 0x6A, .exact, .all, .noModRM, none, .d64, .ibs, false, .no, .always, false, fun p => .push p.h (.imm8 p.w p.imm)⟩,
  ⟨.m1, 0xFF, .exact, .all, .any, (some 6), .d64, .none, false, .no, .always, false, fun p => .push p.h (.rm p.w p.rm)⟩,
  ⟨.m1, 0x58, .plusR, .all, .noModRM, none, .d64, .none, false, .no, .always, false, fun p => .pop p.h (.reg p.w p.oreg)⟩,
  ⟨.m1, 0x8F, .exact, .all, .any, (some 0), .d64, .none, false, .no, .always, false, fun p => .pop p.h (.rm p.w p.rm)⟩,
  ⟨.m1, 0x9C, .exact, .all, .noModRM, none, .d64, .none, false, .no, .always, false, fun p => .pushf p.h p.w⟩,
  ⟨.m1, 0x9D, .exact, .all, .noModRM, none, .d64, .none, false, .no, .always, false, fun p => .popf p.h p.w⟩,
  ⟨.m1, 0xC9, .exact, .all, .noModRM, none, .d64, .none, false, .no, .always, false, fun p => .leave p.h p.w⟩]

/-- Rows of R342. -/
def rowsControl : List Row := [
  ⟨.m1, 0xEB, .exact, .all, .noModRM, none, .f64, .rel8, false, .no, .always, false, fun p => .jmpRel p.h p.w .rel8 p.imm⟩,
  ⟨.m1, 0xE9, .exact, .all, .noModRM, none, .f64, .relz, false, .no, .always, false, fun p => .jmpRel p.h p.w .relz p.imm⟩,
  ⟨.m1, 0xFF, .exact, .all, .any, (some 4), .f64, .none, false, .no, .always, false, fun p => .jmpInd p.h p.w p.rm⟩,
  ⟨.m1, 0x70, .plusCC, .all, .noModRM, none, .f64, .rel8, false, .no, .always, false, fun p => .jcc p.h p.cc p.w .rel8 p.imm⟩,
  ⟨.m0F, 0x80, .plusCC, .all, .noModRM, none, .f64, .relz, false, .no, .always, false, fun p => .jcc p.h p.cc p.w .relz p.imm⟩,
  ⟨.m1, 0xE8, .exact, .all, .noModRM, none, .f64, .relz, false, .no, .always, false, fun p => .callRel p.h p.w p.imm⟩,
  ⟨.m1, 0xFF, .exact, .all, .any, (some 2), .f64, .none, false, .no, .always, false, fun p => .callInd p.h p.w p.rm⟩,
  ⟨.m1, 0xC3, .exact, .all, .noModRM, none, .f64, .none, false, .no, .always, false, fun p => .ret p.h p.w⟩,
  ⟨.m1, 0xC2, .exact, .all, .noModRM, none, .f64, .iw, false, .no, .always, false, fun p => .retImm p.h p.w (p.imm.setWidth 16)⟩,
  ⟨.m1, 0xE2, .exact, .all, .noModRM, none, .f64, .rel8, false, .no, .always, false, fun p => .loop p.h p.w p.imm⟩,
  ⟨.m1, 0xE1, .exact, .all, .noModRM, none, .f64, .rel8, false, .no, .always, false, fun p => .loope p.h p.w p.imm⟩,
  ⟨.m1, 0xE0, .exact, .all, .noModRM, none, .f64, .rel8, false, .no, .always, false, fun p => .loopne p.h p.w p.imm⟩,
  ⟨.m1, 0xE3, .exact, .all, .noModRM, none, .f64, .rel8, false, .no, .always, false, fun p => .jrcxz p.h p.w p.imm⟩,
  ⟨.m1, 0xCC, .exact, .all, .noModRM, none, .none, .none, false, .no, .always, false, fun p => .int3 p.h⟩,
  ⟨.m1, 0xCD, .exact, .all, .noModRM, none, .none, .ib, false, .no, .always, false, fun p => .intn p.h (p.imm.setWidth 8)⟩,
  ⟨.m1, 0xCE, .exact, .legacy, .noModRM, none, .none, .none, false, .no, .always, false, fun p => .into p.h⟩]

/-- Rows of R342. -/
def rowsString : List Row := [
  ⟨.m1, 0xA4, .exact, .all, .noModRM, none, .b, .none, false, .rep, .always, false, fun p => .movs p.h p.w⟩,
  ⟨.m1, 0xA5, .exact, .all, .noModRM, none, .v, .none, false, .rep, .always, false, fun p => .movs p.h p.w⟩,
  ⟨.m1, 0xAA, .exact, .all, .noModRM, none, .b, .none, false, .rep, .always, false, fun p => .stos p.h p.w⟩,
  ⟨.m1, 0xAB, .exact, .all, .noModRM, none, .v, .none, false, .rep, .always, false, fun p => .stos p.h p.w⟩,
  ⟨.m1, 0xAC, .exact, .all, .noModRM, none, .b, .none, false, .rep, .always, false, fun p => .lods p.h p.w⟩,
  ⟨.m1, 0xAD, .exact, .all, .noModRM, none, .v, .none, false, .rep, .always, false, fun p => .lods p.h p.w⟩,
  ⟨.m1, 0xA6, .exact, .all, .noModRM, none, .b, .none, false, .repe, .always, false, fun p => .cmps p.h p.w⟩,
  ⟨.m1, 0xA7, .exact, .all, .noModRM, none, .v, .none, false, .repe, .always, false, fun p => .cmps p.h p.w⟩,
  ⟨.m1, 0xAE, .exact, .all, .noModRM, none, .b, .none, false, .repe, .always, false, fun p => .scas p.h p.w⟩,
  ⟨.m1, 0xAF, .exact, .all, .noModRM, none, .v, .none, false, .repe, .always, false, fun p => .scas p.h p.w⟩]

/-- Rows of R342. -/
def rowsSystem : List Row := [
  ⟨.m1, 0x90, .exact, .all, .noModRM, none, .none, .none, false, .no, .num0, false, fun p => .nop p.h⟩,
  ⟨.m1, 0x90, .exact, .all, .noModRM, none, .none, .none, false, .f3, .num0F3, false, fun p => .pause p.h⟩,
  ⟨.m0F, 0x1F, .exact, .all, .any, (some 0), .v, .none, false, .no, .always, false, fun p => .nopRm p.h p.w p.rm⟩,
  ⟨.m1, 0xF4, .exact, .all, .noModRM, none, .none, .none, false, .no, .always, false, fun p => .hlt p.h⟩,
  ⟨.m1, 0xF5, .exact, .all, .noModRM, none, .none, .none, false, .no, .always, false, fun p => .cmc p.h⟩,
  ⟨.m1, 0xF8, .exact, .all, .noModRM, none, .none, .none, false, .no, .always, false, fun p => .clc p.h⟩,
  ⟨.m1, 0xF9, .exact, .all, .noModRM, none, .none, .none, false, .no, .always, false, fun p => .stc p.h⟩,
  ⟨.m1, 0xFA, .exact, .all, .noModRM, none, .none, .none, false, .no, .always, false, fun p => .cli p.h⟩,
  ⟨.m1, 0xFB, .exact, .all, .noModRM, none, .none, .none, false, .no, .always, false, fun p => .sti p.h⟩,
  ⟨.m1, 0xFC, .exact, .all, .noModRM, none, .none, .none, false, .no, .always, false, fun p => .cld p.h⟩,
  ⟨.m1, 0xFD, .exact, .all, .noModRM, none, .none, .none, false, .no, .always, false, fun p => .std p.h⟩,
  ⟨.m0F, 0xAE, .exact, .all, .reg, (some 5), .none, .none, false, .no, .always, false, fun p => .lfence p.h⟩,
  ⟨.m0F, 0xAE, .exact, .all, .reg, (some 6), .none, .none, false, .no, .always, false, fun p => .mfence p.h⟩,
  ⟨.m0F, 0xAE, .exact, .all, .reg, (some 7), .none, .none, false, .no, .always, false, fun p => .sfence p.h⟩,
  ⟨.m0F, 0x01, .exact, .all, .mem, (some 2), .vForced, .none, false, .no, .always, false, fun p => p.withMem fun m => .lgdt p.h p.w m⟩,
  ⟨.m0F, 0x01, .exact, .all, .mem, (some 3), .vForced, .none, false, .no, .always, false, fun p => p.withMem fun m => .lidt p.h p.w m⟩,
  ⟨.m0F, 0x01, .exact, .all, .mem, (some 7), .none, .none, false, .no, .always, false, fun p => p.withMem fun m => .invlpg p.h m⟩,
  ⟨.m0F, 0x01, .exact, .long, (.byte 0xF8), none, .none, .none, false, .no, .always, false, fun p => .swapgs p.h⟩,
  ⟨.m0F, 0x30, .exact, .all, .noModRM, none, .none, .none, false, .no, .always, false, fun p => .wrmsr p.h⟩,
  ⟨.m0F, 0x32, .exact, .all, .noModRM, none, .none, .none, false, .no, .always, false, fun p => .rdmsr p.h⟩,
  ⟨.m0F, 0xA2, .exact, .all, .noModRM, none, .none, .none, false, .no, .always, false, fun p => .cpuid p.h⟩]

/-- The rows of R342; UD2, whose decoder result is `Invalid` (R343 g), stands in `invalidOpcode`. -/
def rows : List Row :=
  rowsArith ++ rowsLogic ++ rowsUnary ++ rowsShift ++ rowsMove ++ rowsStack ++ rowsControl ++
    rowsString ++ rowsSystem

/-! ### Row selection (R314) and the class `Invalid` (R345) -/

/-- Whether a row exists in a mode. -/
def Modes.has (ms : Modes) (m : DecodeMode) : Bool :=
  match ms with
  | .all => true
  | .legacy => m != .m64
  | .long => m == .m64

/-- Whether an opcode byte matches under the row's mask. -/
def OpMask.agrees (k : OpMask) (rowOp op : Nat) : Bool :=
  match k with
  | .exact => rowOp == op
  | .plusR => rowOp / 8 == op / 8
  | .plusCC => rowOp / 16 == op / 16

/-- The choice among the rows of opcode `90` (R343 a; `F3 90` with REX.B: log entry 13). -/
def Pick.agrees (k : Pick) (p : Pfx) (op : Nat) : Bool :=
  let n := regNum p.rexB op
  match k with
  | .always => true
  | .num0 => n == 0 && p.rep != .rep
  | .num0F3 => n == 0 && p.rep == .rep
  | .numNot0 => n != 0

/-- Map, opcode under the mask, mode. -/
def Row.matchesOpcode (r : Row) (m : DecodeMode) (p : Pfx) (map : OpMap) (op : Nat) : Bool :=
  r.map == map && r.mask.agrees r.op op && r.modes.has m && r.pick.agrees p op

/-- Whether the row has a ModRM byte. -/
def Row.hasModRM (r : Row) : Bool := r.sel != .noModRM

/-- Digit, mod constraint, fixed ModRM byte. -/
def Row.matchesModRM (r : Row) (mr : Nat) : Bool :=
  (match r.digit with
   | some d => mr / 8 % 8 == d
   | none => true) &&
  (match r.sel with
   | .noModRM => false
   | .any => true
   | .mem => mr / 64 != 3
   | .reg => mr / 64 == 3
   | .ignored => true
   | .byte b => mr == b)

/-- The first line of R345: one-byte opcodes removed from 64-bit mode. -/
def removedIn64 (op : Nat) : Bool :=
  [0x06, 0x07, 0x0E, 0x16, 0x17, 0x1E, 0x1F, 0x27, 0x2F, 0x37, 0x3F, 0x60, 0x61, 0x82, 0x9A, 0xCE,
    0xD4, 0xD5, 0xD6, 0xEA].contains op

/-- The first two lines of R345: opcodes that are `Invalid` whatever follows. -/
def invalidOpcode (m : DecodeMode) (map : OpMap) (op : Nat) : Option Instr :=
  match map with
  | .m1 => if m == .m64 && removedIn64 op then some .invalid else none
  | .m0F =>
    if op == 0x0B then some .ud2
    else if op == 0xB9 || op == 0xFF then some .invalid
    else none

/-- The lines of R345 that look at the ModRM byte; `crn` is `R:reg`. -/
def invalidModRM (map : OpMap) (op mr : Nat) (crn : RegNum) : Bool :=
  let reg := mr / 8 % 8
  match map with
  | .m1 =>
    (op == 0x8D && mr / 64 == 3) ||
    (op == 0x8E && (reg == 1 || reg == 6 || reg == 7)) ||
    (op == 0x8C && (reg == 6 || reg == 7)) ||
    (op == 0xFE && decide (2 ≤ reg)) ||
    (op == 0xFF && reg == 7)
  | .m0F =>
    (op == 0x20 || op == 0x22) &&
      [1, 5, 6, 7, 9, 10, 11, 12, 13, 14, 15].contains crn.val

/-- Control register 8 is `Unsupported` (R346). -/
def unsupportedModRM (map : OpMap) (op : Nat) (crn : RegNum) : Bool :=
  map == .m0F && (op == 0x20 || op == 0x22) && crn == 8

/-- Bytes of an immediate (R332, R333). -/
def immLen (k : ImmKind) (w a : Width) : Nat :=
  match k with
  | .none => 0
  | .ib | .ibs | .rel8 => 1
  | .iw => 2
  | .iz | .relz => (izWidth w).bytes
  | .iv => w.bytes
  | .moffs => a.bytes

/-- The value an immediate gives the instruction (R332, R333). -/
def immValue (k : ImmKind) (w : Width) (v : Nat) : Word :=
  match k with
  | .none => 0
  | .ib | .iw | .iv | .moffs => BitVec.ofNat 64 v
  | .ibs => trunc w (sextBytes 1 v)
  | .iz => trunc w (sextBytes (izWidth w).bytes v)
  | .rel8 => sextBytes 1 v
  | .relz => sextBytes (izWidth w).bytes v

/-- R315: the refusals of repeat prefixes and of `66` on a fence. -/
def prefixRefused (r : Row) (p : Pfx) (op : Nat) : Bool :=
  (match r.rep with
   | .no => p.rep != .none
   | .rep => p.rep == .repne
   | .repe => false
   | .f3 => false) ||
  (p.os66 && r.map == .m0F && op == 0xAE)

/-- What follows the opcode and ModRM bytes of the selected row, in the order of R355: operand size,
memory operand, immediate, the refusals of R315, the LOCK rule R316. `used` is the number of bytes up
to here, `short` the answer when bytes are missing. -/
def decodeRow (m : DecodeMode) (p : Pfx) (r : Row) (op mr used : Nat) (bs : List Byte)
    (short : DecodeResult) : DecodeResult :=
  match opSize r.size m p.os66 p.rexW with
  | none => .unsupported
  | some w =>
    let a := addrSize m p.as67
    let rmN := regNum p.rexB mr
    let regN := regNum p.rexR (mr / 8)
    let isMem := r.hasModRM && r.sel != .ignored && mr / 64 != 3
    let rmReg := RM.reg (designator p.rex.isSome (if r.rm8 then .w8 else w) rmN)
    let operand : Option (RM × List Byte) :=
      if isMem then
        match memOperand m a p (mr / 64) (mr % 8) bs with
        | some (mo, rest) => some (.mem mo, rest)
        | none => none
      else some (rmReg, bs)
    match operand with
    | none => short
    | some (rm, bs1) =>
      match takeLE (immLen r.imm w a) bs1 with
      | none => short
      | some (v, bs2) =>
        if prefixRefused r p op then .unsupported
        else if p.lock && !(r.lock && isMem) then .invalid .invalid
        else
          let h : Hdr := ⟨a, p.lock, p.rep, p.segOv, p.os66, p.as67, p.rex,
            used + (bs.length - bs2.length)⟩
          .decoded (r.build
            { h := h, w := w, cc := CC.ofNum (op % 16), modReg := mr / 8 % 8, regN := regN, rmN := rmN,
              reg := designator p.rex.isSome w regN, rm := rm,
              oreg := designator p.rex.isSome w (regNum p.rexB op),
              imm := immValue r.imm w v,
              moffs := ⟨p.segOv.getD .ds, none, none, 0, BitVec.ofNat 64 v, false⟩ })

/-- What follows the opcode (R355): the opcodes that are `Invalid` or unknown at once, then the ModRM
byte and the row. -/
def decodeOpcode (m : DecodeMode) (p : Pfx) (map : OpMap) (op used : Nat) (bs : List Byte)
    (short : DecodeResult) : DecodeResult :=
  match invalidOpcode m map op with
  | some i => .invalid i
  | none =>
    let cands := rows.filter (·.matchesOpcode m p map op)
    match cands with
    | [] => .unsupported
    | first :: _ =>
      if cands.any Row.hasModRM then
        match bs with
        | [] => short
        | mrb :: bs =>
          let mr := mrb.toNat
          let crn := regNum p.rexR (mr / 8)
          if invalidModRM map op mr crn then .invalid .invalid
          else if unsupportedModRM map op crn then .unsupported
          else
            match cands.find? (·.matchesModRM mr) with
            | none => .unsupported
            | some r => decodeRow m p r op mr (used + 1) bs short
      else decodeRow m p first op 0 used bs short

/-- `Decode(bytes, mode)` (R300, R355). A byte beyond the fifteenth is never looked at. -/
def decode (m : DecodeMode) (bytes : List Byte) : DecodeResult :=
  let bs := bytes.take 15
  let short : DecodeResult := if bs.length = 15 then .tooLong else .truncated
  let pr := scanPrefixes m Pfx.empty bs
  let used := bs.length - pr.2.length
  match pr.2 with
  | [] => short
  | b :: rest =>
    if b.toNat == 0x0F then
      match rest with
      | [] => short
      | b2 :: rest2 =>
        if b2.toNat == 0x38 || b2.toNat == 0x3A then .unsupported
        else decodeOpcode m pr.1 .m0F b2.toNat (used + 2) rest2 short
    else decodeOpcode m pr.1 .m1 b.toNat (used + 1) rest short

/-! ### The encoder

`encode m i` spells a well-formed instruction: each recorded prefix once in a fixed order, the opcode
of its row, and the displacement as 8 bits when it fits, else 16 or 32 (log entry 25). -/

/-- The prefix bytes of a header. -/
def encodePfx (h : Hdr) : List Byte :=
  let lock : List Byte := if h.lock then [0xF0] else []
  let rep : List Byte :=
    match h.rep with
    | .none => []
    | .rep => [0xF3]
    | .repne => [0xF2]
  let seg : List Byte :=
    match h.segOv with
    | none => []
    | some .es => [0x26]
    | some .cs => [0x2E]
    | some .ss => [0x36]
    | some .ds => [0x3E]
    | some .fs => [0x64]
    | some .gs => [0x65]
  let os : List Byte := if h.os66 then [0x66] else []
  let as : List Byte := if h.as67 then [0x67] else []
  let rex : List Byte :=
    match h.rex with
    | none => []
    | some r => [0x40 + r.setWidth 8]
  lock ++ (rep ++ (seg ++ (os ++ (as ++ rex))))

/-- The three encoded bits of a register designator (R325). -/
def Gpr.low (r : Gpr) : Nat := if r.high8 then r.num.val + 4 else r.num.val % 8

/-- A byte from its three fields (ModRM: mod, reg, rm; SIB: scale, index, base). -/
def packByte (hi mid low : Nat) : Byte := BitVec.ofNat 8 (hi * 64 + mid % 8 * 8 + low % 8)

/-- Whether a displacement fits one sign-extended byte. -/
def fits8 (d : Word) : Bool := sext .w8 d == d

/-- The `rm` field of 16-bit addressing (R322). -/
def rm16 (base index : Option RegNum) : Nat :=
  match index with
  | some i => if base == some 3 then (if i == 6 then 0 else 1) else (if i == 6 then 2 else 3)
  | none =>
    if base == some 6 then 4 else if base == some 7 then 5 else if base == some 3 then 7 else 6

/-- ModRM, SIB and displacement of a memory operand. -/
def encodeMem (m : DecodeMode) (a : Width) (reg : Nat) (mo : MemOp) : List Byte :=
  let d := mo.disp.toNat
  let md := if fits8 mo.disp then 1 else 2
  match a with
  | .w16 =>
    if mo.base.isNone then packByte 0 reg 6 :: leBytes 2 d
    else packByte md reg (rm16 mo.base mo.index) :: leBytes md d
  | _ =>
    let n := if fits8 mo.disp then 1 else 4
    match mo.base, mo.index with
    | none, none =>
      if mo.ripRel || m != .m64 then packByte 0 reg 5 :: leBytes 4 d
      else packByte 0 reg 4 :: packByte 0 4 5 :: leBytes 4 d
    | none, some x => packByte 0 reg 4 :: packByte mo.scale.val x.val 5 :: leBytes 4 d
    | some b, none =>
      if b.val % 8 == 4 then packByte md reg 4 :: packByte 0 4 4 :: leBytes n d
      else packByte md reg b.val :: leBytes n d
    | some b, some x =>
      packByte md reg 4 :: packByte mo.scale.val x.val b.val :: leBytes n d

/-- ModRM (and what follows) of a register-or-memory operand. -/
def encodeRM (m : DecodeMode) (h : Hdr) (reg : Nat) (rm : RM) : List Byte :=
  match rm with
  | .reg r => [packByte 3 reg r.low]
  | .mem mo => encodeMem m h.a reg mo

/-- The opcode of a pair of rows `b`, `v`: the even one at width 8. -/
def pairOp (w : Width) (op : Nat) : Byte := BitVec.ofNat 8 (if w == .w8 then op else op + 1)

/-- An immediate of a row pair: 1 byte at width 8, else `iz`. -/
def immBZ (w : Width) (imm : Word) : List Byte :=
  match w with
  | .w8 => leBytes 1 imm.toNat
  | _ => leBytes (izWidth w).bytes imm.toNat

/-- The eight two-operand operations by their number `n` (R453). -/
def encodeAlu (m : DecodeMode) (n : Nat) (h : Hdr) (f : AluForm) : List Byte :=
  match f with
  | .mr w dst src => pairOp w (8 * n) :: encodeRM m h src.low dst
  | .rm w dst src => pairOp w (8 * n + 2) :: encodeRM m h dst.low src
  | .acc w imm => pairOp w (8 * n + 4) :: immBZ w imm
  | .mi w dst imm => pairOp w 0x80 :: encodeRM m h n dst ++ immBZ w imm
  | .mis _ dst imm => 0x83 :: encodeRM m h n dst ++ leBytes 1 imm.toNat

/-- Shifts and rotates by their digit (R500). -/
def encodeShift (m : DecodeMode) (d : Nat) (h : Hdr) (w : Width) (dst : RM) (c : ShiftCount) :
    List Byte :=
  match c with
  | .imm b => pairOp w 0xC0 :: encodeRM m h d dst ++ [b]
  | .one => pairOp w 0xD0 :: encodeRM m h d dst
  | .cl => pairOp w 0xD2 :: encodeRM m h d dst

/-- A relative displacement: `short` opcode with `rel8`, `near` opcode bytes with `relz`. -/
def encodeRel (short : List Byte) (near : List Byte) (w : Width) (z : RelSize) (rel : Word) :
    List Byte :=
  match z with
  | .rel8 => short ++ leBytes 1 rel.toNat
  | .relz => near ++ leBytes (izWidth w).bytes rel.toNat

/-- An opcode byte with a register number (`+r`) or a condition code (`+cc`). -/
def plusOp (op n : Nat) : Byte := BitVec.ofNat 8 (op + n)

/-- The bytes after the prefixes, by the rows of R342. -/
def encodeBody (m : DecodeMode) (i : Instr) : List Byte :=
  match i with
  | .add h f => encodeAlu m 0 h f
  | .or h f => encodeAlu m 1 h f
  | .adc h f => encodeAlu m 2 h f
  | .sbb h f => encodeAlu m 3 h f
  | .and h f => encodeAlu m 4 h f
  | .sub h f => encodeAlu m 5 h f
  | .xor h f => encodeAlu m 6 h f
  | .cmp h f => encodeAlu m 7 h f
  | .test h (.mr w a b) => pairOp w 0x84 :: encodeRM m h b.low a
  | .test _ (.acc w imm) => pairOp w 0xA8 :: immBZ w imm
  | .test h (.mi w a imm) => pairOp w 0xF6 :: encodeRM m h 0 a ++ immBZ w imm
  | .not h w dst => pairOp w 0xF6 :: encodeRM m h 2 dst
  | .neg h w dst => pairOp w 0xF6 :: encodeRM m h 3 dst
  | .mul h w src => pairOp w 0xF6 :: encodeRM m h 4 src
  | .imul1 h w src => pairOp w 0xF6 :: encodeRM m h 5 src
  | .div h w src => pairOp w 0xF6 :: encodeRM m h 6 src
  | .idiv h w src => pairOp w 0xF6 :: encodeRM m h 7 src
  | .inc h (.rm w dst) => pairOp w 0xFE :: encodeRM m h 0 dst
  | .inc _ (.short _ r) => [plusOp 0x40 r.low]
  | .dec h (.rm w dst) => pairOp w 0xFE :: encodeRM m h 1 dst
  | .dec _ (.short _ r) => [plusOp 0x48 r.low]
  | .imul2 h _ dst src => 0x0F :: 0xAF :: encodeRM m h dst.low src
  | .imul3 h w dst src imm .immz =>
    0x69 :: encodeRM m h dst.low src ++ leBytes (izWidth w).bytes imm.toNat
  | .imul3 h _ dst src imm .imm8 => 0x6B :: encodeRM m h dst.low src ++ leBytes 1 imm.toNat
  | .cmpxchg h w dst src => 0x0F :: pairOp w 0xB0 :: encodeRM m h src.low dst
  | .xadd h w dst src => 0x0F :: pairOp w 0xC0 :: encodeRM m h src.low dst
  | .rol h w dst c => encodeShift m 0 h w dst c
  | .ror h w dst c => encodeShift m 1 h w dst c
  | .shl h w dst c => encodeShift m 4 h w dst c
  | .shr h w dst c => encodeShift m 5 h w dst c
  | .sar h w dst c => encodeShift m 7 h w dst c
  | .mov h (.mr w dst src) => pairOp w 0x88 :: encodeRM m h src.low dst
  | .mov h (.rm w dst src) => pairOp w 0x8A :: encodeRM m h dst.low src
  | .mov _ (.ri .w8 dst imm) => plusOp 0xB0 dst.low :: leBytes 1 imm.toNat
  | .mov _ (.ri w dst imm) => plusOp 0xB8 dst.low :: leBytes w.bytes imm.toNat
  | .mov h (.mi w dst imm) => pairOp w 0xC6 :: encodeRM m h 0 dst ++ immBZ w imm
  | .mov h (.fromMoffs w src) => pairOp w 0xA0 :: leBytes h.a.bytes src.disp.toNat
  | .mov h (.toMoffs w dst) => pairOp w 0xA2 :: leBytes h.a.bytes dst.disp.toNat
  | .movFromSeg h _ dst sr => 0x8C :: encodeRM m h sr.num dst
  | .movToSeg h sr src => 0x8E :: encodeRM m h sr.num src
  | .movFromCr _ _ dst cr => [0x0F, 0x20, packByte 3 cr.num dst.val]
  | .movToCr _ _ cr src => [0x0F, 0x22, packByte 3 cr.num src.val]
  | .movzx h _ dst sw src => 0x0F :: pairOp sw 0xB6 :: encodeRM m h dst.low src
  | .movsx h _ dst sw src => 0x0F :: pairOp sw 0xBE :: encodeRM m h dst.low src
  | .movsxd h _ dst src => 0x63 :: encodeRM m h dst.low src
  | .lea h _ dst mo => 0x8D :: encodeMem m h.a dst.low mo
  | .xchg h (.mr w dst src) => pairOp w 0x86 :: encodeRM m h src.low dst
  | .xchg _ (.acc _ r) => [plusOp 0x90 r.low]
  | .push _ (.reg _ r) => [plusOp 0x50 r.low]
  | .push _ (.immz w imm) => 0x68 :: leBytes (izWidth w).bytes imm.toNat
  | .push _ (.imm8 _ imm) => 0x6A :: leBytes 1 imm.toNat
  | .push h (.rm _ src) => 0xFF :: encodeRM m h 6 src
  | .pop _ (.reg _ r) => [plusOp 0x58 r.low]
  | .pop h (.rm _ dst) => 0x8F :: encodeRM m h 0 dst
  | .cmovcc h cc _ dst src => 0x0F :: plusOp 0x40 cc.num :: encodeRM m h dst.low src
  | .setcc h cc dst => 0x0F :: plusOp 0x90 cc.num :: encodeRM m h 0 dst
  | .cbw _ _ => [0x98]
  | .cwd _ _ => [0x99]
  | .sahf _ => [0x9E]
  | .lahf _ => [0x9F]
  | .pushf _ _ => [0x9C]
  | .popf _ _ => [0x9D]
  | .leave _ _ => [0xC9]
  | .jmpRel _ w z rel => encodeRel [0xEB] [0xE9] w z rel
  | .jmpInd h _ src => 0xFF :: encodeRM m h 4 src
  | .jcc _ cc w z rel => encodeRel [plusOp 0x70 cc.num] [0x0F, plusOp 0x80 cc.num] w z rel
  | .callRel _ w rel => 0xE8 :: leBytes (izWidth w).bytes rel.toNat
  | .callInd h _ src => 0xFF :: encodeRM m h 2 src
  | .ret _ _ => [0xC3]
  | .retImm _ _ imm => 0xC2 :: leBytes 2 imm.toNat
  | .loop _ _ rel => 0xE2 :: leBytes 1 rel.toNat
  | .loope _ _ rel => 0xE1 :: leBytes 1 rel.toNat
  | .loopne _ _ rel => 0xE0 :: leBytes 1 rel.toNat
  | .jrcxz _ _ rel => 0xE3 :: leBytes 1 rel.toNat
  | .int3 _ => [0xCC]
  | .intn _ v => [0xCD, v]
  | .into _ => [0xCE]
  | .ud2 => [0x0F, 0x0B]
  | .movs _ w => [pairOp w 0xA4]
  | .stos _ w => [pairOp w 0xAA]
  | .lods _ w => [pairOp w 0xAC]
  | .cmps _ w => [pairOp w 0xA6]
  | .scas _ w => [pairOp w 0xAE]
  | .nop _ => [0x90]
  | .pause _ => [0x90]
  | .nopRm h _ rm => 0x0F :: 0x1F :: encodeRM m h 0 rm
  | .hlt _ => [0xF4]
  | .cmc _ => [0xF5]
  | .clc _ => [0xF8]
  | .stc _ => [0xF9]
  | .cli _ => [0xFA]
  | .sti _ => [0xFB]
  | .cld _ => [0xFC]
  | .std _ => [0xFD]
  | .lfence _ => [0x0F, 0xAE, 0xE8]
  | .mfence _ => [0x0F, 0xAE, 0xF0]
  | .sfence _ => [0x0F, 0xAE, 0xF8]
  | .lgdt h _ mo => 0x0F :: 0x01 :: encodeMem m h.a 2 mo
  | .lidt h _ mo => 0x0F :: 0x01 :: encodeMem m h.a 3 mo
  | .invlpg h mo => 0x0F :: 0x01 :: encodeMem m h.a 7 mo
  | .swapgs _ => [0x0F, 0x01, 0xF8]
  | .wrmsr _ => [0x0F, 0x30]
  | .rdmsr _ => [0x0F, 0x32]
  | .cpuid _ => [0x0F, 0xA2]
  | .invalid => [0x0F, 0xB9]

/-- The header of an instruction; UD2 and the class `Invalid` have none. -/
def Instr.hdr (i : Instr) : Option Hdr :=
  match i with
  | .add h _ | .or h _ | .adc h _ | .sbb h _ | .and h _ | .sub h _ | .xor h _ | .cmp h _
  | .test h _ | .not h _ _ | .neg h _ _ | .mul h _ _ | .imul1 h _ _ | .div h _ _ | .idiv h _ _
  | .inc h _ | .dec h _ | .imul2 h _ _ _ | .imul3 h _ _ _ _ _ | .cmpxchg h _ _ _ | .xadd h _ _ _
  | .rol h _ _ _ | .ror h _ _ _ | .shl h _ _ _ | .shr h _ _ _ | .sar h _ _ _
  | .mov h _ | .movFromSeg h _ _ _ | .movToSeg h _ _ | .movFromCr h _ _ _ | .movToCr h _ _ _
  | .movzx h _ _ _ _ | .movsx h _ _ _ _ | .movsxd h _ _ _ | .lea h _ _ _ | .xchg h _ | .push h _
  | .pop h _ | .cmovcc h _ _ _ _ | .setcc h _ _ | .cbw h _ | .cwd h _ | .sahf h | .lahf h
  | .pushf h _ | .popf h _ | .leave h _ | .jmpRel h _ _ _ | .jmpInd h _ _ | .jcc h _ _ _ _
  | .callRel h _ _ | .callInd h _ _ | .ret h _ | .retImm h _ _ | .loop h _ _ | .loope h _ _
  | .loopne h _ _ | .jrcxz h _ _ | .int3 h | .intn h _ | .into h | .movs h _ | .stos h _
  | .lods h _ | .cmps h _ | .scas h _ | .nop h | .pause h | .nopRm h _ _ | .hlt h | .cmc h | .clc h
  | .stc h | .cli h | .sti h | .cld h | .std h | .lfence h | .mfence h | .sfence h | .lgdt h _ _
  | .lidt h _ _ | .invlpg h _ | .swapgs h | .wrmsr h | .rdmsr h | .cpuid h => some h
  | .ud2 | .invalid => none

/-- The bytes of an instruction in a decoding mode. -/
def encode (m : DecodeMode) (i : Instr) : List Byte :=
  (match i.hdr with
   | some h => encodePfx h
   | none => []) ++ encodeBody m i

/-! ### The opcode table's words

`spec/opcode_table.json` writes a row's bits as the byte string of the encoding read as one number:
the FIRST byte is the most significant (its `80 /1` has `80` in bits 15:8 and the digit in bits 5:3;
R342, `98_reader.md`; log entry 16). -/

/-- The bytes of a table word: its `nbits / 8` bytes, first byte most significant, then zeros up to
the longest instruction. -/
def tableBytes (nbits w : Nat) : List Byte :=
  (leBytes (nbits / 8) w).reverse ++ List.replicate (15 - nbits / 8) 0

/-- The instruction a decoder result names. -/
def DecodeResult.instr? (r : DecodeResult) : Option Instr :=
  match r with
  | .decoded i => some i
  | .invalid i => some i
  | .unsupported | .truncated | .tooLong => none

/-- What the decoder reads from a table word in the first of the modes 16, 32, 64 that gives it a
meaning. -/
def decodeTableWord (nbits w : Nat) : Option Instr :=
  match (decode .m16 (tableBytes nbits w)).instr? with
  | some i => some i
  | none =>
    match (decode .m32 (tableBytes nbits w)).instr? with
    | some i => some i
    | none => (decode .m64 (tableBytes nbits w)).instr?

end Sys2Proof
end

