-- ==== Sys2Proof/Machine/Fetch.lean ====
section
/-! DEFINITION. Fetching an instruction (R712): bytes one at a time, only as the decoder asks for
them. -/

namespace Sys2Proof.Machine
open Sys2Proof

/-- The offset of byte `k` of the instruction at `rip` (R712). -/
def State.fetchOff (s : State) (k : Nat) : Word := s.ripWrap (s.rip + BitVec.ofNat 64 k)

/-- The linear address of byte `k` of the instruction at `rip` (R712, R111). -/
def State.fetchLin (s : State) (k : Nat) : Word := s.lin .cs (s.fetchOff k)

/-- Whether byte `k` may be fetched (R712): canonical in 64-bit mode; otherwise, under `SEG_CHECKS`, the
limit check of R209 step 3 on one byte of CS (log entry 23). -/
def State.fetchOk (s : State) (k : Nat) : Bool :=
  if s.is64 then canonical (s.fetchLin k)
  else !(s.cfg.segChecks && !s.segs.cs.inLimit (s.fetchOff k) 1)

/-- One byte of the instruction (R712). -/
def fetchByte (k : Nat) : M Byte := do
  let s ← get
  raiseIf (!s.fetchOk k) (.gp 0)
  let b ← linRead (s.fetchLin k) 1 .execute s.user
  pure (b.setWidth 8)

/-- What fetching and decoding ends with: the bytes fetched and the decoder's result. -/
structure Fetched where
  bytes : List Byte
  result : DecodeResult
  deriving DecidableEq, Repr

/-- `FetchAndDecode(mode)` (R712), with the bytes so far; `fuel` more bytes at most. The decoder does
not answer `Truncated` on 15 bytes, so 15 suffice. -/
def fetchDecode (m : DecodeMode) : Nat → List Byte → M Fetched
  | 0, bytes => pure ⟨bytes, decode m bytes⟩
  | fuel + 1, bytes =>
    match decode m bytes with
    | .truncated => do
      let b ← fetchByte bytes.length
      fetchDecode m fuel (bytes ++ [b])
    | r => pure ⟨bytes, r⟩

end Sys2Proof.Machine
end

