-- ==== Sys2Proof/Machine/Block.lean ====
section
/-! DEFINITION. The instruction step of R710 with the bookkeeping of `ExecuteBlock` around it (R700, R702,
R711, R713; log entry 1). -/

namespace Sys2Proof.Machine
open Sys2Proof

/-- A call of `ExecuteBlock` begins: its counters are 0 and it has no outcome yet (R700). -/
def State.beginBlock (s : State) : State := { s with retired := 0, nbytes := 0, outcome := none }

/-- The core is halted: nothing runs (R700, R702). -/
def reportHalted (s : State) : State := { s with outcome := some ⟨.halted, s.retired, s.rip⟩ }

/-- What the step does with the decoder's result (R713); `truncated` never comes here. -/
def runDecoded (f : Fetched) (s : State) : Result :=
  match f.result with
  | .decoded i => exec i s
  | .invalid i => exec i s
  | .unsupported => .next (unsupported f.bytes s)
  | .tooLong | .truncated => .next (takeFault (.gp 0) s)

/-- `Step` (R710) in a running block. -/
def stepBlock (s : State) : Result :=
  if s.halted then .next (reportHalted s)
  else if s.flags.vm then .next (unsupported [] s)
  else
    match fetchDecode s.decodeMode 15 [] s with
    | .ok f t => runDecoded f t
    | .error f t => .next (takeFault f t)

/-- One step: where the last block has ended, a new call of `ExecuteBlock` begins. -/
def stepMachine (s : State) : Result :=
  match s.outcome with
  | none => stepBlock s
  | some _ => stepBlock s.beginBlock

end Sys2Proof.Machine
end

