-- ==== Sys2Proof/Machine/Load.lean ====
section
/-! DEFINITION. Placing an instruction where the next step fetches it (log entry 17): the load from
outside the machine that `State.withFetchWord` stands for. -/

namespace Sys2Proof.Machine
open Sys2Proof

/-- Whether the decoder gives a byte string a meaning in a mode. -/
def decodesIn (m : DecodeMode) (bytes : List Byte) : Bool := (decode m bytes).instr?.isSome

/-- RAM with bytes stored from a physical address up, and nothing else changed. -/
def State.poke (s : State) (pa : Nat) (bs : List Byte) : State := s.withMs (s.ms.storeBytes pa bs)

/-- The smallest change that puts the machine into 64-bit mode: long mode with paging, a 64-bit code
segment, the low 2 MiB mapped to themselves through tables at `0x10000` (the environment E64 of
`95_test_vectors.md`, with user-accessible pages), and `rip` at `0x1000`. -/
def State.enter64 (s : State) : State :=
  (((({ s with
        cr0 := 0x80000011
        cr3 := 0x10000
        cr4 := 0x20
        efer := 0x500
        rip := 0x1000
        tlbSalt := s.tlbSalt + 1
        segs := { s.segs with cs := { s.segs.cs with l := true, db := false } } } : State).poke
      0x10000 (leBytes 8 0x11027)).poke 0x11000 (leBytes 8 0x12027)).poke 0x12000 (leBytes 8 0xE7))

/-- Stores bytes at the physical addresses from which bytes `k`, `k + 1`, … of the next instruction are
fetched; a byte whose address does not translate is left out. -/
def placeBytes : Nat → List Byte → State → State
  | _, [], s => s
  | k, b :: bs, s =>
    match translate (s.fetchLin k) .execute s.user s with
    | .ok pa _ => placeBytes (k + 1) bs (s.poke pa [b])
    | .error _ _ => placeBytes (k + 1) bs s

/-- The state whose next step fetches and runs the instruction of a table word: not halted, not in
virtual-8086 mode, in 64-bit mode if the word means nothing in the current one, the bytes in place. -/
def placeWord (s : State) (nbits w : Nat) : State :=
  let bytes := tableBytes nbits w
  let t : State := { s with halted := false, flags := { s.flags with vm := false } }
  let u := if !decodesIn t.decodeMode bytes && decodesIn .m64 bytes then t.enter64 else t
  placeBytes 0 bytes u

end Sys2Proof.Machine
end

