-- ==== Sys2Proof/Machine/Step.lean ====
section
/-! DEFINITION. The step of the machine, and how the host places an instruction to be run (log entry
17). -/

namespace Sys2Proof.Machine
open Sys2Proof

/-- One instruction step (R710; log entry 1). -/
def step (s : State) : Host.Outcome State Fault Refusal := stepMachine s

/-- The state with an instruction placed where `step` fetches next (log entry 17). -/
def State.withFetchWord (s : State) (nbits w : Nat) : State := placeWord s nbits w

end Sys2Proof.Machine
end

