-- ==== Sys2Proof/Machine/Caller.lean ====
section
/-! DEFINITION. `ExecuteBlock` as one call (R700), and what the other agents of R11 may do between two
calls (R233, R280, R849, R900, R921): operations on the state that `step` never performs (log entry
24). -/

namespace Sys2Proof.Machine
open Sys2Proof

/-- The steps of a running block up to its outcome, at most `fuel` of them. -/
def runBlock : Nat → State → State
  | 0, s => s
  | fuel + 1, s =>
    match step s with
    | .next t => if t.outcome.isSome then t else runBlock fuel t
    | .fault _ | .refused _ => s

/-- `ExecuteBlock()` (R700): its counters start at 0, and it runs at most `MAX_BLOCK_INSTRS`
instructions (R703). -/
def executeBlock (s : State) : State := runBlock (max 1 s.cfg.maxBlockInstrs) s.beginBlock

/-- `Reset()` (R900, R901): everything but memory, the page versions and the parameters. -/
def Caller.reset (s : State) : State :=
  State.resetOf s.cfg s.ms.mem s.ms.pageVersion s.ms.busOps

/-- A write to RAM by another agent, with the `OnGuestWrite` it owes (R233, R921 row 1). -/
def Caller.externalWrite (s : State) (pa : Nat) (bs : List Byte) : State :=
  s.withMs ((s.ms.storeBytes pa bs).onGuestWrite pa bs.length)

/-- Leaving the halted state (R702, R849). -/
def Caller.wake (s : State) : State := { s with halted := false }

/-- `BumpSalt()` after the caller changed a control register (R921 row 3). -/
def Caller.bumpSalt (s : State) : State := s.bumpSalt

/-- The caller goes on at another address, as after it has dealt with a `SoftInt` or an `Unsupported`
(R921 row 5). -/
def Caller.skipTo (s : State) (rip : Word) : State := { s with rip := s.ripWrap rip }

/-- Other policy limits for the next call (R921 row 8). -/
def Caller.setLimits (s : State) (instrs bytes : Nat) : State :=
  { s with cfg := { s.cfg with maxBlockInstrs := instrs, maxBlockBytes := bytes } }

/-- The version of a physical page (R155). -/
def MemSys.version (m : MemSys) (ppn : Nat) : Nat := sparseGet 0 m.pageVersion ppn

/-- Whether a compiled-block handle, a snapshot of the versions of its pages, is stale (R236). -/
def handleStale (m : MemSys) (snapshot : List (Nat × Nat)) : Bool :=
  snapshot.any fun e => m.version e.1 != e.2

end Sys2Proof.Machine
end

