-- ==== Sys2Proof/Safety.lean ====
section
/-! DEFINITION. What the claims speak of: the canonical form of memory, the invariant of R160 with that of
the model's own representation, and the arithmetic meaning of results and flags (R12, R116, R452). -/

namespace Sys2Proof.Machine
open Sys2Proof

/-! ### Canonical form and invariant -/

/-- The canonical form of memory: addresses strictly rising, no entry equal to what an unlisted address
reads as. -/
def Memory.wf (m : List Host.Cell) : Bool := sparseWf 0 m

/-- The canonical form of everything `MemSys` holds. -/
def MemSys.wf (m : MemSys) : Bool :=
  Memory.wf m.mem && sparseWf 0 m.pageVersion && sparseWf TlbEntry.empty m.tlb

/-- No cached translation carries a salt from the future (R253, R280). -/
def State.saltsOk (s : State) : Bool := s.ms.tlb.all fun e => decide (e.2.salt ≤ s.tlbSalt)

/-- The predicates of R160, in order (1: the mask selects bits 1, 3, 5, 15 and 63:22). -/
structure State.Consistent (s : State) : Prop where
  rflags_fixed : s.flags.image &&& 0xFFFFFFFFFFC0802A = 2
  lma : s.lma = (s.lme && s.pg)
  pg_pe : s.pg = true → s.pe = true
  lma_pae : s.lma = true → s.pae = true
  cr0_high : field s.cr0 63 32 = 0
  cr0_et : bit s.cr0 4 = true
  cr4_supported : s.cr4 &&& ~~~cr4Supported = 0
  efer_writable : s.efer &&& ~~~(eferWritable ||| 0x400) = 0
  rip_high : s.is64 = false → field s.rip 63 32 = 0
  real_cpl : s.opMode = .real → s.cpl = 0
  vm : s.flags.vm = false

/-- The invariant: R160, the parameters' constraints (R10), the canonical forms. -/
structure State.Inv (s : State) : Prop where
  consistent : s.Consistent
  cfg : s.cfg.ok = true
  ms : s.ms.wf = true
  msrs : sparseWf 0 s.msrExtra = true
  salts : s.saltsOk = true

/-- What is left of a state without the block bookkeeping and its limits (R722): two states are alike
outside the bookkeeping when they agree after `forget`. -/
def State.forget (s : State) : State :=
  { s with
    retired := 0
    nbytes := 0
    outcome := none
    cfg := { s.cfg with maxBlockInstrs := 1, maxBlockBytes := 15 } }

/-! ### The arithmetic meaning of results and flags -/

/-- The status flags a `w`-bit result fixes (R116). -/
structure ResultFlags (w : Width) (r : Word) (f : SFlags) : Prop where
  zf : f.zf = true ↔ r.toNat = 0
  sf : f.sf = true ↔ 2 ^ (w.bits - 1) ≤ r.toNat
  pf : f.pf = true ↔ (List.range 8).countP (fun i => bit r i) % 2 = 0

/-- Addition with carry-in (R452), in numbers: the result modulo `2^w`, CF the carry out, OF a signed
sum outside the width, AF the carry out of the low digit. -/
structure AddMeans (w : Width) (a b : Word) (c : Bool) (fl : Flags) (r : Computed) : Prop where
  value : r.value.toNat = (a.toNat + b.toNat + c.toNat) % 2 ^ w.bits
  cf : r.flags.st.cf = true ↔ 2 ^ w.bits ≤ a.toNat + b.toNat + c.toNat
  of : r.flags.st.of = true ↔
    (sint w a + sint w b + c.toNat < -(2 ^ (w.bits - 1) : Int) ∨
      (2 ^ (w.bits - 1) : Int) ≤ sint w a + sint w b + c.toNat)
  af : r.flags.st.af = true ↔ 16 ≤ a.toNat % 16 + b.toNat % 16 + c.toNat
  rest : ResultFlags w r.value r.flags.st
  others : r.flags = fl.withSt r.flags.st

/-- Subtraction with borrow-in (R452), in numbers. -/
structure SubMeans (w : Width) (a b : Word) (c : Bool) (fl : Flags) (r : Computed) : Prop where
  value : (r.value.toNat : Int) = (a.toNat - b.toNat - c.toNat : Int) % 2 ^ w.bits
  cf : r.flags.st.cf = true ↔ a.toNat < b.toNat + c.toNat
  of : r.flags.st.of = true ↔
    (sint w a - sint w b - c.toNat < -(2 ^ (w.bits - 1) : Int) ∨
      (2 ^ (w.bits - 1) : Int) ≤ sint w a - sint w b - c.toNat)
  af : r.flags.st.af = true ↔ a.toNat % 16 < b.toNat % 16 + c.toNat
  rest : ResultFlags w r.value r.flags.st
  others : r.flags = fl.withSt r.flags.st

/-- A logical operation (R452): CF and OF cleared, AF free. -/
structure LogicMeans (w : Width) (v : Word) (fl : Flags) (r : Computed) : Prop where
  value : r.value = v
  cf : r.flags.st.cf = false
  of : r.flags.st.of = false
  rest : ResultFlags w r.value r.flags.st
  others : r.flags = fl.withSt r.flags.st

/-- INC (R463), in numbers. -/
structure IncMeans (w : Width) (a : Word) (fl : Flags) (r : Computed) : Prop where
  value : r.value.toNat = (a.toNat + 1) % 2 ^ w.bits
  cf : r.flags.st.cf = fl.st.cf
  of : r.flags.st.of = true ↔ sint w a + 1 = 2 ^ (w.bits - 1)
  af : r.flags.st.af = true ↔ a.toNat % 16 = 15
  rest : ResultFlags w r.value r.flags.st
  others : r.flags = fl.withSt r.flags.st

/-- DEC (R464), in numbers. -/
structure DecMeans (w : Width) (a : Word) (fl : Flags) (r : Computed) : Prop where
  value : (r.value.toNat : Int) = (a.toNat - 1 : Int) % 2 ^ w.bits
  cf : r.flags.st.cf = fl.st.cf
  of : r.flags.st.of = true ↔ sint w a = -(2 ^ (w.bits - 1) : Int)
  af : r.flags.st.af = true ↔ a.toNat % 16 = 0
  rest : ResultFlags w r.value r.flags.st
  others : r.flags = fl.withSt r.flags.st

/-- What SHL, SHR and SAR share (R500 to R503): nothing happens to the flags with a masked count of 0;
else ZF, SF, PF follow the result, CF is the last bit shifted out where `cfRule` gives it, OF is fixed
for a count of 1 only, and the rest is left free. -/
structure ShiftMeans (w : Width) (cnt : Nat) (value : Int) (cfRule : Option Bool) (of1 : Bool → Bool)
    (fl : Flags) (r : Computed) : Prop where
  value : (r.value.toNat : Int) = value % 2 ^ w.bits
  zero : cnt = 0 → r.flags = fl
  rest : cnt ≠ 0 → ResultFlags w r.value r.flags.st
  cf : cnt ≠ 0 → ∀ b, cfRule = some b → r.flags.st.cf = b
  of : cnt = 1 → r.flags.st.of = of1 r.flags.st.cf
  others : r.flags = fl.withSt r.flags.st

/-- What ROL and ROR share (R504, R505): a masked count of 0 changes no flag; else only CF, and OF,
which is fixed for a count of 1 only. -/
structure RotateMeans (cnt : Nat) (cf of1 : Bool) (fl : Flags) (r : Computed) : Prop where
  zero : cnt = 0 → r.flags = fl
  cf : cnt ≠ 0 → r.flags.st.cf = cf
  of : cnt = 1 → r.flags.st.of = of1
  others : r.flags = fl.withSt { fl.st with cf := r.flags.st.cf, of := r.flags.st.of }

/-! ### How an instruction ends -/

/-- The flags of a state replaced. -/
def State.withFlags (s : State) (f : Flags) : State := { s with flags := f }

/-- An instruction that started in `s` completes with the effects of `t` and leaves `rip` to `next_rip`. -/
def State.done (s : State) (h : Hdr) (t : State) : Result :=
  .next (complete s h.len false false (s.nextRip h.len) t)

/-- The same for an instruction of the system class, which ends the block (R600, R704). -/
def State.doneSystem (s : State) (h : Hdr) (shadow : Bool) (t : State) : Result :=
  .next (complete s h.len true shadow (s.nextRip h.len) t)

/-- A control transfer that started in `s` completes with the effects of `t` at the target `rip`. -/
def State.jumped (s : State) (h : Hdr) (rip : Word) (t : State) : Result :=
  .next (complete s h.len true false rip t)

/-- The instruction raises: its outcome is the fault, over the state `s` reached. -/
def State.faults (s : State) (f : FaultRec) : Result := .next (takeFault f s)

/-! ### Operands as the claims see them -/

/-- The checks and translations of an access, without the access (R207, R209 to R211). -/
def openAccess (seg : SReg) (off : Word) (n : Nat) (kind : Access) : M Span := do
  let s ← get
  raiseIf (!s.segOk seg off n kind) (segFault seg)
  raiseIf (!s.canonOk (s.lin seg off) n) (segFault seg)
  translateSpan (s.lin seg off) n kind s.user

/-- The state after the write half of an access that has been translated (R211). -/
def State.stored (s : State) (p : Span) (n : Nat) (v : Word) : State :=
  match spanWrite p n v s with
  | .ok _ t => t
  | .error _ t => t

/-- A destination that is not read, made ready: nothing for a register, the checks and translations for
memory. -/
def destOpen (h : Hdr) (w : Width) (o : RM) : M Span :=
  match o with
  | .reg _ => pure ⟨0, 0, 0, false⟩
  | .mem m => do
    let s ← get
    openAccess m.seg (s.ea h m) w.bytes .write

/-- A destination that is also read (R214, R336): its old value, and where it is. -/
def destRead (h : Hdr) (w : Width) (o : RM) : M (Word × Span) :=
  match o with
  | .reg r => do
    let s ← get
    pure (s.regRead w r, ⟨0, 0, 0, false⟩)
  | .mem m => do
    let s ← get
    rmwBegin m.seg (s.ea h m) w.bytes

/-- A destination written. -/
def State.destWrite (s : State) (w : Width) (o : RM) (p : Span) (v : Word) : State :=
  match o with
  | .reg r => s.regWrite w r v
  | .mem _ => s.stored p w.bytes v

/-- The operands of a two-operand operation (R453). -/
structure AluOperands where
  w : Width
  a : Word
  b : Word
  dst : RM
  span : Span
  deriving DecidableEq, Repr

/-- The operands of the five forms, the destination made ready for its write. -/
def aluOperands (h : Hdr) (f : AluForm) : M AluOperands :=
  match f with
  | .mr w dst src => do
    let r ← destRead h w dst
    let s ← get
    pure ⟨w, r.1, s.regRead w src, dst, r.2⟩
  | .rm w dst src => do
    let b ← readRM h w src
    let s ← get
    pure ⟨w, s.regRead w dst, b, .reg dst, ⟨0, 0, 0, false⟩⟩
  | .acc w imm => do
    let s ← get
    pure ⟨w, s.regRead w rAX, imm, .reg rAX, ⟨0, 0, 0, false⟩⟩
  | .mi w dst imm => do
    let r ← destRead h w dst
    pure ⟨w, r.1, imm, dst, r.2⟩
  | .mis w dst imm => do
    let r ← destRead h w dst
    pure ⟨w, r.1, imm, dst, r.2⟩

/-- Result and flags committed to the destination. -/
def State.commit (s : State) (w : Width) (dst : RM) (p : Span) (c : Computed) : State :=
  (s.destWrite w dst p c.value).withFlags c.flags

/-- The operands of the five forms when both are only read (CMP, R461). -/
def cmpOperands (h : Hdr) (f : AluForm) : M (Width × Word × Word) :=
  match f with
  | .mr w dst src => do
    let a ← readRM h w dst
    let s ← get
    pure (w, a, s.regRead w src)
  | .rm w dst src => do
    let b ← readRM h w src
    let s ← get
    pure (w, s.regRead w dst, b)
  | .acc w imm => do
    let s ← get
    pure (w, s.regRead w rAX, imm)
  | .mi w dst imm => do
    let a ← readRM h w dst
    pure (w, a, imm)
  | .mis w dst imm => do
    let a ← readRM h w dst
    pure (w, a, imm)

/-- The operands of TEST (R462). -/
def testOperands (h : Hdr) (f : TestForm) : M (Width × Word × Word) :=
  match f with
  | .mr w x y => do
    let a ← readRM h w x
    let s ← get
    pure (w, a, s.regRead w y)
  | .acc w imm => do
    let s ← get
    pure (w, s.regRead w rAX, imm)
  | .mi w x imm => do
    let a ← readRM h w x
    pure (w, a, imm)

/-- The destination and width of INC and DEC. -/
def incOperand (f : IncForm) : Width × RM :=
  match f with
  | .rm w dst => (w, dst)
  | .short w r => (w, .reg r)

/-! ### What an instruction may change -/

/-- The register of an operand, if it is one. -/
def rmRegs (o : RM) : List RegNum :=
  match o with
  | .reg r => [r.num]
  | .mem _ => []

/-- The destination registers of the five forms. -/
def aluRegs (f : AluForm) : List RegNum :=
  match f with
  | .mr _ dst _ | .mi _ dst _ | .mis _ dst _ => rmRegs dst
  | .rm _ dst _ => [dst.num]
  | .acc _ _ => [0]

/-- RCX, where a repeat prefix counts it down (R561). -/
def repRegs (h : Hdr) : List RegNum := if h.rep == .none then [] else [1]

/-- The general registers an instruction may write: its destinations, and those its rule updates beside
them (RSP of the stack instructions, RCX of LOOP and REP, RSI and RDI of the strings, RAX and RDX of
MUL and DIV). -/
def destRegs (i : Instr) : List RegNum :=
  match i with
  | .add _ f | .or _ f | .adc _ f | .sbb _ f | .and _ f | .sub _ f | .xor _ f => aluRegs f
  | .cmp _ _ | .test _ _ => []
  | .not _ _ dst | .neg _ _ dst => rmRegs dst
  | .mul _ w _ | .imul1 _ w _ | .div _ w _ | .idiv _ w _ => if w == .w8 then [0] else [0, 2]
  | .inc _ f | .dec _ f => rmRegs (incOperand f).2
  | .imul2 _ _ dst _ | .imul3 _ _ dst _ _ _ => [dst.num]
  | .cmpxchg _ _ dst _ => 0 :: rmRegs dst
  | .xadd _ _ dst src => src.num :: rmRegs dst
  | .rol _ _ dst _ | .ror _ _ dst _ | .shl _ _ dst _ | .shr _ _ dst _ | .sar _ _ dst _ => rmRegs dst
  | .mov _ (.mr _ dst _) | .mov _ (.mi _ dst _) => rmRegs dst
  | .mov _ (.rm _ dst _) | .mov _ (.ri _ dst _) => [dst.num]
  | .mov _ (.fromMoffs _ _) => [0]
  | .mov _ (.toMoffs _ _) => []
  | .movFromSeg _ _ dst _ => rmRegs dst
  | .movToSeg _ _ _ => []
  | .movFromCr _ _ dst _ => [dst]
  | .movToCr _ _ _ _ => []
  | .movzx _ _ dst _ _ | .movsx _ _ dst _ _ | .movsxd _ _ dst _ | .lea _ _ dst _ => [dst.num]
  | .xchg _ (.mr _ dst src) => src.num :: rmRegs dst
  | .xchg _ (.acc _ r) => [0, r.num]
  | .push _ _ | .pushf _ _ | .popf _ _ => [4]
  | .pop _ (.reg _ r) => [4, r.num]
  | .pop _ (.rm _ dst) => 4 :: rmRegs dst
  | .cmovcc _ _ _ dst _ => [dst.num]
  | .setcc _ _ dst => rmRegs dst
  | .cbw _ _ | .lahf _ => [0]
  | .cwd _ _ => [2]
  | .sahf _ => []
  | .leave _ _ => [4, 5]
  | .jmpRel _ _ _ _ | .jmpInd _ _ _ | .jcc _ _ _ _ _ | .jrcxz _ _ _ => []
  | .callRel _ _ _ | .callInd _ _ _ | .ret _ _ | .retImm _ _ _ => [4]
  | .loop _ _ _ | .loope _ _ _ | .loopne _ _ _ => [1]
  | .int3 _ | .intn _ _ | .into _ | .ud2 | .invalid => []
  | .movs h _ | .cmps h _ => 6 :: 7 :: repRegs h
  | .stos h _ | .scas h _ => 7 :: repRegs h
  | .lods h _ => 0 :: 6 :: repRegs h
  | .nop _ | .pause _ | .nopRm _ _ _ | .hlt _ | .cmc _ | .clc _ | .stc _ | .cli _ | .sti _ | .cld _
  | .std _ | .lfence _ | .mfence _ | .sfence _ | .lgdt _ _ _ | .lidt _ _ _ | .invlpg _ _
  | .swapgs _ | .wrmsr _ => []
  | .rdmsr _ => [0, 2]
  | .cpuid _ => [0, 3, 1, 2]

/-- The six status flags by name. -/
inductive StatusFlag where
  | cf | pf | af | zf | sf | of
  deriving DecidableEq, Repr

/-- A status flag by name. -/
def SFlags.get (f : SFlags) : StatusFlag → Bool
  | .cf => f.cf
  | .pf => f.pf
  | .af => f.af
  | .zf => f.zf
  | .sf => f.sf
  | .of => f.of

/-- The status flags an instruction may change (the rows of R451 and the rules of the rest). -/
def statusWritten (i : Instr) : List StatusFlag :=
  match i with
  | .add _ _ | .or _ _ | .adc _ _ | .sbb _ _ | .and _ _ | .sub _ _ | .xor _ _ | .cmp _ _ | .test _ _
  | .neg _ _ _ | .mul _ _ _ | .imul1 _ _ _ | .div _ _ _ | .idiv _ _ _ | .imul2 _ _ _ _
  | .imul3 _ _ _ _ _ _ | .cmpxchg _ _ _ _ | .xadd _ _ _ _ | .shl _ _ _ _ | .shr _ _ _ _
  | .sar _ _ _ _ | .movFromCr _ _ _ _ | .movToCr _ _ _ _ | .popf _ _ | .cmps _ _ | .scas _ _ =>
    [.cf, .pf, .af, .zf, .sf, .of]
  | .inc _ _ | .dec _ _ => [.pf, .af, .zf, .sf, .of]
  | .rol _ _ _ _ | .ror _ _ _ _ => [.cf, .of]
  | .sahf _ => [.cf, .pf, .af, .zf, .sf]
  | .clc _ | .stc _ | .cmc _ => [.cf]
  | .not _ _ _ | .mov _ _ | .movFromSeg _ _ _ _ | .movToSeg _ _ _ | .movzx _ _ _ _ _
  | .movsx _ _ _ _ _ | .movsxd _ _ _ _ | .lea _ _ _ _ | .xchg _ _ | .push _ _ | .pop _ _
  | .cmovcc _ _ _ _ _ | .setcc _ _ _ | .cbw _ _ | .cwd _ _ | .lahf _ | .pushf _ _ | .leave _ _
  | .jmpRel _ _ _ _ | .jmpInd _ _ _ | .jcc _ _ _ _ _ | .callRel _ _ _ | .callInd _ _ _ | .ret _ _
  | .retImm _ _ _ | .loop _ _ _ | .loope _ _ _ | .loopne _ _ _ | .jrcxz _ _ _ | .int3 _ | .intn _ _
  | .into _ | .ud2 | .movs _ _ | .stos _ _ | .lods _ _ | .nop _ | .pause _ | .nopRm _ _ _ | .hlt _
  | .cli _ | .sti _ | .cld _ | .std _ | .lfence _ | .mfence _ | .sfence _ | .lgdt _ _ _ | .lidt _ _ _
  | .invlpg _ _ | .swapgs _ | .wrmsr _ | .rdmsr _ | .cpuid _ | .invalid => []

/-- A byte that differs from another at most by bits set under a mask: accessed and dirty bits are `0x60`
(R275). -/
def Marked (mask a b : Byte) : Prop := ∃ k : Byte, k &&& ~~~mask = 0 ∧ b = a ||| k

/-- The physical addresses of a store of `n` bytes at an offset of a segment. -/
def spanOf (seg : SReg) (off : Word) (n : Nat) : M (List Nat) := do
  let s ← get
  let p ← translateSpan (s.lin seg off) n .write s.user
  pure (p.addrs n)

/-- The bytes of a memory destination. -/
def rmSpan (h : Hdr) (w : Width) (o : RM) : M (List Nat) :=
  match o with
  | .reg _ => pure []
  | .mem m => do
    let s ← get
    spanOf m.seg (s.ea h m) w.bytes

/-- The bytes a push of `n` bytes stores to (R420). -/
def pushSpan (n : Nat) : M (List Nat) := do
  let s ← get
  spanOf .ss (s.spMinus n) n

/-- The byte of a descriptor that holds its accessed bit (R618), after the descriptor has been read. -/
def descriptorSpan (sel : BitVec 16) : M (List Nat) := do
  let s ← get
  if s.opMode == .real || sel.toNat / 4 == 0 then pure []
  else do
    let base := if sel.getLsbD 2 then s.ldtr.base else s.gdtr.base
    let _ ← sysRead (base + BitVec.ofNat 64 (sel.toNat / 8 * 8)) 8
    let p ← translateSpan (base + BitVec.ofNat 64 (sel.toNat / 8 * 8) + 5) 1 .write false
    pure (p.addrs 1)

/-- The physical addresses an instruction stores to, computed as its rule does, after the reads that come
before the store; of MOVS and STOS, those of one element. -/
def storeAddrs (i : Instr) : M (List Nat) :=
  match i with
  | .add h (.mr w dst _) | .or h (.mr w dst _) | .adc h (.mr w dst _) | .sbb h (.mr w dst _)
  | .and h (.mr w dst _) | .sub h (.mr w dst _) | .xor h (.mr w dst _) => rmSpan h w dst
  | .add h (.mi w dst _) | .or h (.mi w dst _) | .adc h (.mi w dst _) | .sbb h (.mi w dst _)
  | .and h (.mi w dst _) | .sub h (.mi w dst _) | .xor h (.mi w dst _) => rmSpan h w dst
  | .add h (.mis w dst _) | .or h (.mis w dst _) | .adc h (.mis w dst _) | .sbb h (.mis w dst _)
  | .and h (.mis w dst _) | .sub h (.mis w dst _) | .xor h (.mis w dst _) => rmSpan h w dst
  | .not h w dst | .neg h w dst => rmSpan h w dst
  | .inc h (.rm w dst) | .dec h (.rm w dst) => rmSpan h w dst
  | .cmpxchg h w dst _ | .xadd h w dst _ => rmSpan h w dst
  | .rol h w dst _ | .ror h w dst _ | .shl h w dst _ | .shr h w dst _ | .sar h w dst _ => rmSpan h w dst
  | .mov h (.mr w dst _) | .mov h (.mi w dst _) => rmSpan h w dst
  | .mov h (.toMoffs w m) => rmSpan h w (.mem m)
  | .movFromSeg h _ dst _ => rmSpan h .w16 dst
  | .movToSeg h _ src => do
    let sel ← readRM h .w16 src
    descriptorSpan (sel.setWidth 16)
  | .xchg h (.mr w dst _) => rmSpan h w dst
  | .setcc h _ dst => rmSpan h .w8 dst
  | .push _ (.reg w _) | .push _ (.immz w _) | .push _ (.imm8 w _) => pushSpan w.bytes
  | .push h (.rm w src) => do
    let _ ← readRM h w src
    pushSpan w.bytes
  | .pop h (.rm w (.mem m)) => do
    let s ← get
    let _ ← memRead .ss s.sp w.bytes
    spanOf m.seg (s.popEa h w m) w.bytes
  | .pushf _ w => pushSpan w.bytes
  | .callRel _ w _ => pushSpan w.bytes
  | .callInd h w src => do
    let _ ← readRM h w src
    pushSpan w.bytes
  | .movs h w => do
    let s ← get
    let _ ← memRead (srcSeg h) (s.regRead h.a rSI) w.bytes
    spanOf .es (s.regRead h.a rDI) w.bytes
  | .stos h w => do
    let s ← get
    spanOf .es (s.regRead h.a rDI) w.bytes
  | .add _ (.rm _ _ _) | .or _ (.rm _ _ _) | .adc _ (.rm _ _ _) | .sbb _ (.rm _ _ _)
  | .and _ (.rm _ _ _) | .sub _ (.rm _ _ _) | .xor _ (.rm _ _ _)
  | .add _ (.acc _ _) | .or _ (.acc _ _) | .adc _ (.acc _ _) | .sbb _ (.acc _ _) | .and _ (.acc _ _)
  | .sub _ (.acc _ _) | .xor _ (.acc _ _)
  | .cmp _ _ | .test _ _ | .mul _ _ _ | .imul1 _ _ _ | .div _ _ _ | .idiv _ _ _
  | .inc _ (.short _ _) | .dec _ (.short _ _) | .imul2 _ _ _ _ | .imul3 _ _ _ _ _ _
  | .mov _ (.rm _ _ _) | .mov _ (.ri _ _ _) | .mov _ (.fromMoffs _ _)
  | .movFromCr _ _ _ _ | .movToCr _ _ _ _ | .movzx _ _ _ _ _ | .movsx _ _ _ _ _ | .movsxd _ _ _ _
  | .lea _ _ _ _ | .xchg _ (.acc _ _) | .pop _ (.reg _ _) | .pop _ (.rm _ (.reg _))
  | .cmovcc _ _ _ _ _ | .cbw _ _ | .cwd _ _ | .sahf _ | .lahf _ | .popf _ _ | .leave _ _
  | .jmpRel _ _ _ _ | .jmpInd _ _ _ | .jcc _ _ _ _ _ | .ret _ _ | .retImm _ _ _ | .loop _ _ _
  | .loope _ _ _ | .loopne _ _ _ | .jrcxz _ _ _ | .int3 _ | .intn _ _ | .into _ | .ud2 | .lods _ _
  | .cmps _ _ | .scas _ _ | .nop _ | .pause _ | .nopRm _ _ _ | .hlt _ | .cmc _ | .clc _ | .stc _
  | .cli _ | .sti _ | .cld _ | .std _ | .lfence _ | .mfence _ | .sfence _ | .lgdt _ _ _ | .lidt _ _ _
  | .invlpg _ _ | .swapgs _ | .wrmsr _ | .rdmsr _ | .cpuid _ | .invalid => pure []

/-- The addresses of `storeAddrs` in a state: none where the instruction faults before its store. -/
def State.storesOnce (s : State) (i : Instr) : List Nat :=
  match storeAddrs i s with
  | .ok as _ => as
  | .error _ _ => []

/-- The addresses that up to `c` elements store to (R561), one element after the other: those of the
elements that complete. -/
def elementStores (i : Instr) (a : Width) (elem : M Unit) : Nat → State → List Nat
  | 0, _ => []
  | c + 1, s =>
    match elem s with
    | .ok _ t => s.storesOnce i ++ elementStores i a elem c (t.regWrite a rCX (BitVec.ofNat 64 c))
    | .error _ _ => []

/-- The addresses a MOVS or STOS stores to, with or without a repeat prefix. -/
def State.stringStores (s : State) (i : Instr) (h : Hdr) (elem : M Unit) : List Nat :=
  if h.rep = .none then s.storesOnce i else elementStores i h.a elem (s.regRead h.a rCX).toNat s

/-- The physical addresses an instruction stores to in a state. -/
def State.storesTo (s : State) (i : Instr) : List Nat :=
  match i with
  | .movs h w => s.stringStores i h (movsElem h w)
  | .stos h w => s.stringStores i h (stosElem h w)
  | _ => s.storesOnce i

/-- Whether an instruction repeats (R561). -/
def repeats (i : Instr) : Bool :=
  match i with
  | .movs h _ | .stos h _ | .lods h _ | .cmps h _ | .scas h _ => h.rep != .none
  | _ => false

/-! ### Repetition, element by element (R561)

A repeated string instruction is so many executions of the same instruction without the repeat prefix,
each followed by the count in rCX going down by 1. -/

/-- The five string operations (R560). -/
inductive StringOp where
  | movs | stos | lods | cmps | scas
  deriving DecidableEq, Repr

/-- The instruction of a string operation. -/
def StringOp.instr (o : StringOp) (h : Hdr) (w : Width) : Instr :=
  match o with
  | .movs => .movs h w
  | .stos => .stos h w
  | .lods => .lods h w
  | .cmps => .cmps h w
  | .scas => .scas h w

/-- It moves rSI (R562 to R566). -/
def StringOp.usesSrc : StringOp → Bool
  | .movs | .lods | .cmps => true
  | .stos | .scas => false

/-- It moves rDI. -/
def StringOp.usesDst : StringOp → Bool
  | .movs | .stos | .cmps | .scas => true
  | .lods => false

/-- It compares, and the zero flag can end its repetition (R561). -/
def StringOp.compares : StringOp → Bool
  | .cmps | .scas => true
  | .movs | .stos | .lods => false

/-- The header of one element: no repeat prefix. -/
def elementHdr (h : Hdr) : Hdr := { h with rep := .none }

/-- The zero flag ends the repetition after an element that left `s`. -/
def RepEnds (o : StringOp) (h : Hdr) (s : State) : Prop :=
  o.compares = true ∧
    ((h.rep = .rep ∧ s.flags.st.zf = false) ∨ (h.rep = .repne ∧ s.flags.st.zf = true))

/-- One element done, from `s` to `t`: the instruction without its repeat prefix completes, `t` being what
its element left (before the completion's own commits of `rip`, RF, shadow and outcome), with the count
reduced. -/
def ElementDone (o : StringOp) (h : Hdr) (w : Width) (s t : State) : Prop :=
  ∃ u, exec (o.instr (elementHdr h) w) s = s.done h u ∧ u.rip = s.rip ∧ u.flags.rf = s.flags.rf ∧
    u.interruptShadow = s.interruptShadow ∧ u.outcome = s.outcome ∧
    t = u.regWrite h.a rCX (s.regRead h.a rCX - 1)

/-- `k` elements done, from `s` to `t`, no element but the last ending the repetition. -/
def ElementsDone (o : StringOp) (h : Hdr) (w : Width) : Nat → State → State → Prop
  | 0, s, t => t = s
  | k + 1, s, t =>
    ∃ u, ElementDone o h w s u ∧ (k = 0 ∨ ¬RepEnds o h u) ∧ ElementsDone o h w k u t

/-- An index register after `k` elements of `d` bytes (R560). -/
def State.indexAfter (s : State) (h : Hdr) (w : Width) (r : Gpr) (k : Nat) : Word :=
  trunc h.a (if s.flags.df then s.regRead h.a r - BitVec.ofNat 64 (k * w.bytes)
    else s.regRead h.a r + BitVec.ofNat 64 (k * w.bytes))

/-! ### Refused accesses (R207, R209) -/

/-- `n` bytes at an offset leave the segment: R209 step 3. -/
def SegReg.LimitRefuses (r : SegReg) (off n : Nat) : Prop :=
  if r.type.getLsbD 3 = false ∧ r.type.getLsbD 2 = true then
    off ≤ r.limit.toNat ∨ (if r.db = true then 0xFFFFFFFF else 0xFFFF) < off + n - 1
  else r.limit.toNat < off + n - 1

/-- The segment's type refuses the kind of access: R209 step 2. -/
def SegReg.TypeRefuses (r : SegReg) (kind : Access) : Prop :=
  (kind = .write ∧ (r.type.getLsbD 3 = true ∨ r.type.getLsbD 1 = false)) ∨
  (kind = .read ∧ r.type.getLsbD 3 = true ∧ r.type.getLsbD 1 = false)

/-- R209 refuses an access. -/
def State.SegRefuses (s : State) (seg : SReg) (off : Word) (n : Nat) (kind : Access) : Prop :=
  s.cfg.segChecks = true ∧ s.decodeMode ≠ .m64 ∧
    ((s.segs.get seg).unusable = true ∨
      (s.opMode ≠ .real ∧ (s.segs.get seg).TypeRefuses kind) ∨
      (s.segs.get seg).LimitRefuses off.toNat n)

/-- R207 refuses an access: its first or its last byte is not canonical. -/
def State.CanonRefuses (s : State) (lin : Word) (n : Nat) : Prop :=
  s.decodeMode = .m64 ∧ ∃ i, (i = 0 ∨ i = n - 1) ∧
    2 ^ 47 ≤ (lin + BitVec.ofNat 64 i).toNat ∧ (lin + BitVec.ofNat 64 i).toNat < 2 ^ 64 - 2 ^ 47

/-! ### The path of a walk (R256 to R260)

The entries a walk can read for a linear address, root first. What follows an entry that is not present or
has a reserved bit set means nothing. -/

/-- An entry: where it is, what it holds, whether one of its reserved bits is set. -/
structure PathEntry where
  addr : Nat
  word : Word
  rsvd : Bool
  deriving DecidableEq, Repr

/-- The `size` bytes of an entry in RAM. -/
def State.ramEntry (s : State) (pa size : Nat) : Word := BitVec.ofNat 64 (leNat (s.ms.bytes pa size))

/-- The page directory and the page table of the 8-byte formats (R258, R259). -/
def State.lowerPath (s : State) (lin : Word) (base : Nat) (pae : Bool) : List PathEntry :=
  let pdeAddr := base * 4096 + field lin 29 21 * 8
  let pde := s.ramEntry pdeAddr 8
  let pteAddr := s.entryBase pde * 4096 + field lin 20 12 * 8
  let pte := s.ramEntry pteAddr 8
  ⟨pdeAddr, pde, s.rsvd8 pde pae (bit pde 7)⟩ ::
    if bit pde 7 then [] else [⟨pteAddr, pte, s.rsvd8 pte pae false⟩]

/-- The path in the paging mode of a state. -/
def State.path (s : State) (lin : Word) : List PathEntry :=
  match s.pagingMode with
  | .none => []
  | .legacy2 =>
    let pdeAddr := field s.cr3 31 12 * 4096 + field lin 31 22 * 4
    let pde := s.ramEntry pdeAddr 4
    let pteAddr := field pde 31 12 * 4096 + field lin 21 12 * 4
    ⟨pdeAddr, pde, false⟩ ::
      if bit pde 7 && s.pse then [] else [⟨pteAddr, s.ramEntry pteAddr 4, false⟩]
  | .pae3 =>
    let pdpteAddr := field s.cr3 31 5 * 32 + field lin 31 30 * 8
    let pdpte := s.ramEntry pdpteAddr 8
    ⟨pdpteAddr, pdpte,
        field pdpte 2 1 != 0 || field pdpte 8 5 != 0 || field pdpte 63 s.cfg.physBits != 0⟩ ::
      s.lowerPath lin (s.entryBase pdpte) true
  | .long4 =>
    let pml4eAddr := s.entryBase s.cr3 * 4096 + field lin 47 39 * 8
    let pml4e := s.ramEntry pml4eAddr 8
    let pdpteAddr := s.entryBase pml4e * 4096 + field lin 38 30 * 8
    let pdpte := s.ramEntry pdpteAddr 8
    ⟨pml4eAddr, pml4e, bit pml4e 7 || s.rsvd8 pml4e false false⟩ ::
      ⟨pdpteAddr, pdpte, bit pdpte 7 || s.rsvd8 pdpte false false⟩ ::
      s.lowerPath lin (s.entryBase pdpte) false

/-- The first entry of a path that stops the walk (R274), and whether it is its reserved bits that do. -/
def pathStop : List PathEntry → Option Bool
  | [] => none
  | e :: rest =>
    if !bit e.word 0 then some false
    else if e.rsvd then some true
    else pathStop rest

/-- `levels` of a walk: the entries with permissions and an accessed bit, all of the path but the
page-directory-pointer entry of the PAE format (R256, R258, R259, R275). -/
def State.levels (s : State) (lin : Word) : List PathEntry :=
  if s.pagingMode = .pae3 then (s.path lin).drop 1 else s.path lin

/-- The bytes of an entry. -/
def State.entrySize (s : State) : Nat := if s.pagingMode = .legacy2 then 4 else 8

/-- The accessed and dirty bits a walk sets in an entry (R275): the dirty bit in the leaf of a write only,
which may be an entry of an upper level too where the tables refer to themselves. -/
def State.entryMarks (s : State) (lin : Word) (kind : Access) (e : PathEntry) : Word :=
  if kind = .write ∧ (s.levels lin).getLast?.map PathEntry.addr = some e.addr then 0x60 else 0x20

/-! ### The classes Invalid and Unsupported (R316, R345, R346) -/

/-- A prefix byte (R311, R312). -/
def isPrefixByte (m : DecodeMode) (b : Byte) : Bool :=
  [0xF0, 0xF2, 0xF3, 0x26, 0x2E, 0x36, 0x3E, 0x64, 0x65, 0x66, 0x67].contains b.toNat ||
    (m == .m64 && b.toNat / 16 == 4)

/-- REX.R of the REX prefix directly before the opcode, as bit 3 of a register number (R312). -/
def rexRBit (m : DecodeMode) (ps : List Byte) : Nat :=
  match ps.getLast? with
  | some b => if m = .m64 ∧ b.toNat / 16 = 4 then b.toNat / 4 % 2 * 8 else 0
  | none => 0

/-- The lines of R345 but the last: what the bytes from the opcode on, after the prefixes `ps`, are named,
and how many of them decide it. -/
def illegal (m : DecodeMode) (ps bs : List Byte) : Option (Instr × Nat) :=
  match bs.map BitVec.toNat with
  | 0x0F :: 0x0B :: _ => some (.ud2, 2)
  | 0x0F :: 0xB9 :: _ | 0x0F :: 0xFF :: _ => some (.invalid, 2)
  | 0x0F :: op :: mr :: _ =>
    if (op = 0x20 ∨ op = 0x22) ∧
        [1, 5, 6, 7, 9, 10, 11, 12, 13, 14, 15].contains (rexRBit m ps + mr / 8 % 8) = true
      then some (.invalid, 3) else none
  | op :: rest =>
    if m = .m64 ∧ [0x06, 0x07, 0x0E, 0x16, 0x17, 0x1E, 0x1F, 0x27, 0x2F, 0x37, 0x3F, 0x60, 0x61, 0x82,
        0x9A, 0xCE, 0xD4, 0xD5, 0xD6, 0xEA].contains op = true then some (.invalid, 1)
    else
      match rest with
      | mr :: _ =>
        let reg := mr / 8 % 8
        if (op = 0x8D ∧ mr / 64 = 3) ∨ (op = 0x8E ∧ (reg = 1 ∨ reg = 6 ∨ reg = 7)) ∨
            (op = 0x8C ∧ (reg = 6 ∨ reg = 7)) ∨ (op = 0xFE ∧ 2 ≤ reg) ∨ (op = 0xFF ∧ reg = 7)
          then some (.invalid, 2) else none
      | [] => none
  | [] => none

/-- The groups R346 names: how many of the bytes from the opcode on say that they are `Unsupported`. -/
def unlisted (m : DecodeMode) (ps bs : List Byte) : Option Nat :=
  match bs.map BitVec.toNat with
  | 0x0F :: op :: rest =>
    if [0x38, 0x3A, 0x00, 0x05, 0x07, 0x34, 0x35, 0x06, 0x08, 0x09, 0x21, 0x23, 0x31, 0xA0, 0xA1, 0xA8,
        0xA9, 0xB2, 0xB4, 0xB5, 0xA3, 0xAB, 0xB3, 0xBB, 0xBA, 0xA4, 0xA5, 0xAC, 0xAD, 0xBC, 0xBD,
        0xC7].contains op = true ∨ op / 8 = 0xC8 / 8 then some 2
    else
      match rest with
      | mr :: _ =>
        let reg := mr / 8 % 8
        if (op = 0x01 ∧ mr ≠ 0xF8 ∧ (mr / 64 = 3 ∨ reg = 0 ∨ reg = 1 ∨ reg = 4 ∨ reg = 5 ∨ reg = 6)) ∨
            ((op = 0x20 ∨ op = 0x22) ∧ rexRBit m ps + reg = 8) then some 3 else none
      | [] => none
  | op :: rest =>
    if [0xCA, 0xCB, 0xCF, 0xC4, 0xC5, 0x62, 0x6C, 0x6D, 0x6E, 0x6F, 0xE4, 0xE5, 0xE6, 0xE7, 0xEC, 0xED,
        0xEE, 0xEF, 0x9B, 0xC8, 0xD7, 0xF1].contains op = true ∨ op / 8 = 0xD8 / 8 then some 1
    else if m ≠ .m64 ∧ [0x9A, 0xEA, 0x06, 0x07, 0x0E, 0x16, 0x17, 0x1E, 0x1F, 0x27, 0x2F, 0x37, 0x3F,
        0xD4, 0xD5, 0xD6, 0x60, 0x61, 0x63, 0x82].contains op = true then some 1
    else
      match rest with
      | mr :: _ =>
        let reg := mr / 8 % 8
        if (op = 0xFF ∧ (reg = 3 ∨ reg = 5)) ∨ ((op = 0x8F ∨ op = 0xC6 ∨ op = 0xC7) ∧ reg ≠ 0) ∨
            ((op = 0xF6 ∨ op = 0xF7) ∧ reg = 1) ∨
            ((op = 0xC0 ∨ op = 0xC1 ∨ op / 4 = 0xD0 / 4) ∧ (reg = 2 ∨ reg = 3 ∨ reg = 6))
          then some 2 else none
      | [] => none
  | [] => none

/-- Another prefix in the place of LOCK: like LOCK it drops a REX before it, and it selects nothing that
LOCK does not. -/
def unlock (ps : List Byte) : List Byte := ps.map fun b => if b = 0xF0 then 0x3E else b

/-- The row of the instruction admits LOCK, and its destination is memory (R316). -/
def lockAllowed (i : Instr) : Bool :=
  match i with
  | .add _ (.mr _ dst _) | .or _ (.mr _ dst _) | .adc _ (.mr _ dst _) | .sbb _ (.mr _ dst _)
  | .and _ (.mr _ dst _) | .sub _ (.mr _ dst _) | .xor _ (.mr _ dst _)
  | .add _ (.mi _ dst _) | .or _ (.mi _ dst _) | .adc _ (.mi _ dst _) | .sbb _ (.mi _ dst _)
  | .and _ (.mi _ dst _) | .sub _ (.mi _ dst _) | .xor _ (.mi _ dst _)
  | .add _ (.mis _ dst _) | .or _ (.mis _ dst _) | .adc _ (.mis _ dst _) | .sbb _ (.mis _ dst _)
  | .and _ (.mis _ dst _) | .sub _ (.mis _ dst _) | .xor _ (.mis _ dst _)
  | .not _ _ dst | .neg _ _ dst | .inc _ (.rm _ dst) | .dec _ (.rm _ dst)
  | .cmpxchg _ _ dst _ | .xadd _ _ dst _ | .xchg _ (.mr _ dst _) => dst.isMem
  | .add _ (.rm _ _ _) | .or _ (.rm _ _ _) | .adc _ (.rm _ _ _) | .sbb _ (.rm _ _ _)
  | .and _ (.rm _ _ _) | .sub _ (.rm _ _ _) | .xor _ (.rm _ _ _)
  | .add _ (.acc _ _) | .or _ (.acc _ _) | .adc _ (.acc _ _) | .sbb _ (.acc _ _) | .and _ (.acc _ _)
  | .sub _ (.acc _ _) | .xor _ (.acc _ _)
  | .cmp _ _ | .test _ _ | .mul _ _ _ | .imul1 _ _ _ | .div _ _ _ | .idiv _ _ _
  | .inc _ (.short _ _) | .dec _ (.short _ _) | .imul2 _ _ _ _ | .imul3 _ _ _ _ _ _
  | .rol _ _ _ _ | .ror _ _ _ _ | .shl _ _ _ _ | .shr _ _ _ _ | .sar _ _ _ _ | .mov _ _
  | .movFromSeg _ _ _ _ | .movToSeg _ _ _
  | .movFromCr _ _ _ _ | .movToCr _ _ _ _ | .movzx _ _ _ _ _ | .movsx _ _ _ _ _ | .movsxd _ _ _ _
  | .lea _ _ _ _ | .xchg _ (.acc _ _) | .push _ _ | .pop _ _ | .cmovcc _ _ _ _ _ | .setcc _ _ _
  | .cbw _ _ | .cwd _ _ | .sahf _ | .lahf _ | .pushf _ _ | .popf _ _ | .leave _ _
  | .jmpRel _ _ _ _ | .jmpInd _ _ _ | .jcc _ _ _ _ _ | .callRel _ _ _ | .callInd _ _ _ | .ret _ _
  | .retImm _ _ _ | .loop _ _ _ | .loope _ _ _ | .loopne _ _ _ | .jrcxz _ _ _ | .int3 _ | .intn _ _
  | .into _ | .ud2 | .movs _ _ | .stos _ _ | .lods _ _ | .cmps _ _ | .scas _ _ | .nop _ | .pause _
  | .nopRm _ _ _ | .hlt _ | .cmc _ | .clc _ | .stc _
  | .cli _ | .sti _ | .cld _ | .std _ | .lfence _ | .mfence _ | .sfence _ | .lgdt _ _ _ | .lidt _ _ _
  | .invlpg _ _ | .swapgs _ | .wrmsr _ | .rdmsr _ | .cpuid _ | .invalid => false

/-! ### Plain memory -/

/-- Every data access succeeds: no paging, no segment checks, not in 64-bit mode (R209, R250). -/
structure State.Flat (s : State) : Prop where
  paging : s.pagingMode = .none
  mode : s.is64 = false
  segs : s.cfg.segChecks = false

/-- Every page is RAM (R205). -/
abbrev State.AllRam (s : State) : Prop := s.cfg.nonRam = []

/-- The physical address of byte `i` of a flat access: the linear address wraps at 4 GiB (R206, R210). -/
def State.flatAddr (s : State) (seg : SReg) (off : Word) (i : Nat) : Nat :=
  ((s.segs.get seg).base.toNat + off.toNat + i) % 2 ^ 32

/-- The fetch of `n` bytes of the instruction at `rip` from byte `k` on, in order (R712). -/
def fetchFrom : Nat → Nat → M (List Byte)
  | _, 0 => pure []
  | k, n + 1 => do
    let b ← fetchByte k
    let bs ← fetchFrom (k + 1) n
    pure (b :: bs)

end Sys2Proof.Machine
end

