-- ==== Sys2Proof/Certificates/Slice0/Obligations.lean ====
section
/-! DEFINITION. The statements for the provers, in the order of the spec: reset, the decoder, the step and
the block, exceptions, what instructions leave alone, memory and paging, and the result of every
instruction. -/

open Sys2Proof Sys2Proof.Machine

/-! ### Reset -/

/-- R900 to R902: what a reset leaves, whatever the parameters, memory and page versions; the model's own
representation (an empty translation cache, log entry 11) is not part of it. -/
def Obligations.ResetValues : Prop :=
  ∀ s : State, let t := Caller.reset s
    t.x 2 = s.cfg.resetEdx.setWidth 64 ∧ (∀ i : RegNum, i ≠ 2 → t.x i = 0) ∧
    t.rip = 0xFFF0 ∧ t.flags.image = 2 ∧
    t.segs.cs = ⟨0xF000, 0xFFFF0000, 0xFFFF, 0b1011, true, 0, true, false, false, false, false, false⟩ ∧
    (∀ r : SReg, r ≠ .cs →
      t.segs.get r = ⟨0, 0, 0xFFFF, 0b0011, true, 0, true, false, false, false, false, false⟩) ∧
    t.ldtr = ⟨0, 0, 0xFFFF, 0b0010, false, 0, true, false, false, false, false, false⟩ ∧
    t.tr = ⟨0, 0, 0xFFFF, 0b1011, false, 0, true, false, false, false, false, false⟩ ∧
    t.gdtr = ⟨0, 0xFFFF⟩ ∧ t.idtr = ⟨0, 0xFFFF⟩ ∧ t.cpl = 0 ∧
    t.cr0 = 0x60000010 ∧ t.cr2 = 0 ∧ t.cr3 = 0 ∧ t.cr4 = 0 ∧ t.efer = 0 ∧ t.kernelGsBase = 0 ∧
    (∀ i, t.msrRead (.extra i) = 0) ∧ t.halted = false ∧ t.interruptShadow = false ∧
    (∀ i, (t.tlbEntry i).valid = false) ∧ t.tlbSalt = 0 ∧
    t.opMode = .real ∧ t.decodeMode = .m16 ∧ t.stackSize = .w16 ∧ t.pagingMode = .none ∧
    -- R900: the page versions and memory stay
    t.ms.pageVersion = s.ms.pageVersion ∧ t.ms.mem = s.ms.mem ∧
    -- R901: the all-zero map on a fresh machine
    (∀ p, State.reset.ms.version p = 0) ∧
    -- R902: the first byte is fetched at `0xFFFF_FFF0`
    (s.AllRam → fetchByte 0 t = .ok (s.ms.byte 0xFFFFFFF0) t)

/-- R160, R901: the state after a reset satisfies the invariant (its clauses on the model's own
representation included). -/
def Obligations.ResetSatisfiesInv : Prop :=
  State.reset.Inv ∧ ∀ s : State, s.cfg.ok = true → s.ms.wf = true → (Caller.reset s).Inv

/-! ### The decoder -/

/-- Words written out from the encoding tables of `30_encoding.md` (R311 to R342, R360). -/
def Obligations.DecodeWords : Prop :=
  -- 48 83 E9 01 in mode 64: SUB rcx, 1
  decode .m64 [0x48, 0x83, 0xE9, 0x01] =
    .decoded (.sub ⟨.w64, false, .none, none, false, false, some 8, 4⟩ (.mis .w64 (.reg ⟨1, false⟩) 1)) ∧
  -- 75 FA in mode 64: JNE -6
  decode .m64 [0x75, 0xFA] =
    .decoded (.jcc ⟨.w64, false, .none, none, false, false, none, 2⟩ .ne .w64 .rel8 (-6)) ∧
  -- 88 E0 in mode 32: MOV al, ah
  decode .m32 [0x88, 0xE0] =
    .decoded (.mov ⟨.w32, false, .none, none, false, false, none, 2⟩
      (.mr .w8 (.reg ⟨0, false⟩) ⟨0, true⟩)) ∧
  -- 8B 44 24 08 in mode 32: MOV eax, [esp+8]
  decode .m32 [0x8B, 0x44, 0x24, 0x08] =
    .decoded (.mov ⟨.w32, false, .none, none, false, false, none, 4⟩
      (.rm .w32 ⟨0, false⟩ (.mem ⟨.ss, some 4, none, 0, 8, false⟩))) ∧
  -- F3 66 A5 in mode 32: REP MOVSW
  decode .m32 [0xF3, 0x66, 0xA5] =
    .decoded (.movs ⟨.w32, false, .rep, none, true, false, none, 3⟩ .w16) ∧
  -- D3 F8 in mode 16: SAR ax, cl
  decode .m16 [0xD3, 0xF8] =
    .decoded (.sar ⟨.w16, false, .none, none, false, false, none, 2⟩ .w16 (.reg ⟨0, false⟩) .cl) ∧
  -- 0F 22 D8 in mode 64: MOV cr3, rax
  decode .m64 [0x0F, 0x22, 0xD8] =
    .decoded (.movToCr ⟨.w64, false, .none, none, false, false, none, 3⟩ .w64 .cr3 0) ∧
  -- 0F 0B: UD2; 06 in mode 64: invalid; C4 in mode 32: unsupported
  decode .m64 [0x0F, 0x0B] = .invalid .ud2 ∧ decode .m64 [0x06] = .invalid .invalid ∧
  decode .m32 [0xCF] = .unsupported

/-- Decoding what the encoder writes gives every well-formed instruction back, in every mode, whatever
bytes follow it (R303, R342, R355). -/
def Obligations.DecodeOfEncode : Prop :=
  ∀ (m : DecodeMode) (i : Instr) (h : Hdr) (rest : List Byte),
    i.wf m = true → i.hdr = some h → h.len = (encode m i).length →
    decode m (encode m i ++ rest) = .decoded i

/-- Every decoded instruction is well-formed in its mode (sizes, registers and prefixes as R311 to R333
allow them) and consumes between 1 and 15 of the bytes given (R300). -/
def Obligations.DecodedIsWellFormed : Prop :=
  ∀ (m : DecodeMode) (bytes : List Byte) (i : Instr), decode m bytes = .decoded i →
    i.wf m = true ∧ ∃ h, i.hdr = some h ∧ 1 ≤ h.len ∧ h.len ≤ 15 ∧ h.len ≤ bytes.length

/-- R303: a result other than `Truncated` does not change when bytes are appended; a decoded instruction is
decided by the bytes it consumes, and by no fewer (R300); `Truncated` and `TooLong` mean what R302
says. -/
def Obligations.DecodingReadsItsBytesOnly : Prop :=
  ∀ (m : DecodeMode) (bytes more : List Byte),
    (decode m bytes ≠ .truncated → decode m (bytes ++ more) = decode m bytes) ∧
    (decode m bytes = .truncated → bytes.length < 15) ∧
    (decode m bytes = .tooLong → 15 ≤ bytes.length) ∧
    ∀ (i : Instr) (h : Hdr), decode m bytes = .decoded i → i.hdr = some h →
      decode m (bytes.take h.len) = .decoded i ∧
      ∀ k, k < h.len → decode m (bytes.take k) = .truncated

/-- R342, R343: no two rows of the opcode table claim the same opcode and ModRM byte under the same prefixes.
R345, R316, R346: after any prefixes, whatever bytes follow, the encodings R345 lists are `Invalid`, and
nothing else is but an illegal LOCK: where another prefix in LOCK's place gives an instruction that does not
admit LOCK. What no row matches, the groups R346 names among it, is `Unsupported`. -/
def Obligations.OpcodeRowsAreDisjoint : Prop :=
  (∀ (m : DecodeMode) (p : Pfx) (map : OpMap) (op mr : Nat) (i j : Fin rows.length),
    op < 256 → mr < 256 →
    rows[i].matchesOpcode m p map op = true → (rows[i].hasModRM = true → rows[i].matchesModRM mr = true) →
    rows[j].matchesOpcode m p map op = true → (rows[j].hasModRM = true → rows[j].matchesModRM mr = true) →
    i = j) ∧
  (∀ (m : DecodeMode) (ps bs : List Byte), (∀ b ∈ ps, isPrefixByte m b = true) →
    (∀ i k, illegal m ps bs = some (i, k) → ps.length + k ≤ 15 → decode m (ps ++ bs) = .invalid i) ∧
    (∀ i, 0xF0 ∉ ps → (∀ b, bs.head? = some b → isPrefixByte m b = false) →
      decode m (ps ++ bs) = .invalid i → ∃ k, illegal m ps bs = some (i, k) ∧ ps.length + k ≤ 15) ∧
    (0xF0 ∈ ps →
      match decode m (unlock ps ++ bs) with
      | .decoded i =>
        if lockAllowed i = true
        then ∃ j h, decode m (ps ++ bs) = .decoded j ∧ j.hdr = some h ∧ h.lock = true
        else decode m (ps ++ bs) = .invalid .invalid
      | other => decode m (ps ++ bs) = other) ∧
    (∀ k, unlisted m ps bs = some k → ps.length + k ≤ 15 → decode m (ps ++ bs) = .unsupported) ∧
    (∀ (map : OpMap) (op : Byte) (rest : List Byte) (n : Nat),
      (map = .m1 ∧ n = 1 ∧ bs = op :: rest ∧ op ≠ 0x0F ∧ isPrefixByte m op = false) ∨
        (map = .m0F ∧ n = 2 ∧ bs = 0x0F :: op :: rest) →
      illegal m ps bs = none →
      (ps.length + n ≤ 15 → (∀ r ∈ rows, ∀ p, r.matchesOpcode m p map op.toNat = false) →
        decode m (ps ++ bs) = .unsupported) ∧
      (∀ mr tail, rest = mr :: tail → ps.length + n + 1 ≤ 15 →
        (∀ r ∈ rows, ∀ p, r.matchesOpcode m p map op.toNat = true →
          r.hasModRM = true ∧ r.matchesModRM mr.toNat = false) →
        decode m (ps ++ bs) = .unsupported)))

/-! ### The step and the block -/

/-- R710, R712: when the bytes at `rip` can be fetched one after the other and decode to an instruction of
exactly that length, the step is that instruction, run in the state the fetch left. -/
def Obligations.StepRunsTheDecodedInstruction : Prop :=
  ∀ (s t : State) (bytes : List Byte) (i : Instr) (h : Hdr),
    s.halted = false → s.flags.vm = false →
    decode s.decodeMode bytes = .decoded i → i.hdr = some h → h.len = bytes.length →
    fetchFrom 0 bytes.length (if s.outcome.isSome then s.beginBlock else s) = .ok bytes t →
    step s = exec i t

/-- The same where fetching changes nothing: no paging, RAM, not in 64-bit mode. The bytes are those at
the linear addresses from CS:rip up (R206, R712), and the step is the instruction at the state itself. -/
def Obligations.StepFetchesFromMemory : Prop :=
  ∀ (s : State) (bytes : List Byte) (i : Instr) (h : Hdr),
    s.Flat → s.AllRam → s.halted = false → s.flags.vm = false → s.outcome = none →
    decode s.decodeMode bytes = .decoded i → i.hdr = some h → h.len = bytes.length →
    (∀ k (hk : k < bytes.length),
      s.ms.byte ((s.segs.cs.base.toNat + (s.rip.toNat + k) % 2 ^ 32) % 2 ^ 32) = bytes[k]) →
    step s = exec i s

/-- R702, R711 to R713: a halted core and a state with VM set fetch nothing; a fetch that raises ends the step
with that fault; the decoder results other than an instruction end it with `#UD`, with `#GP(0)`, or with
`Unsupported` and the bytes fetched. Nothing but the record of the call changes beside what the fetch
did. -/
def Obligations.StepReportsWhatItCannotRun : Prop :=
  ∀ (s t : State) (bytes : List Byte),
    (s.halted = true → executeBlock s =
      { s with retired := 0, nbytes := 0, outcome := some ⟨.halted, 0, s.rip⟩ }) ∧
    (s.outcome = none →
      (s.halted = true →
        step s = .next { s with outcome := some ⟨.halted, s.retired, s.rip⟩ }) ∧
      (s.halted = false → s.flags.vm = true →
        step s = .next { s with outcome := some ⟨.unsupported [], s.retired, s.rip⟩ }) ∧
      (s.halted = false → s.flags.vm = false →
        (∀ k, k < bytes.length → decode s.decodeMode (bytes.take k) = .truncated) →
        fetchFrom 0 bytes.length s = .ok bytes t →
        (∀ i, decode s.decodeMode bytes = .invalid i →
          step s = .next { t with outcome := some ⟨.fault ⟨6, none, none⟩, t.retired, t.rip⟩ }) ∧
        (decode s.decodeMode bytes = .unsupported →
          step s = .next { t with outcome := some ⟨.unsupported bytes, t.retired, t.rip⟩ }) ∧
        (decode s.decodeMode bytes = .tooLong →
          step s = .next { t with outcome := some ⟨.fault ⟨13, some 0, none⟩, t.retired, t.rip⟩ }) ∧
        (decode s.decodeMode bytes = .truncated →
          ∀ f u, fetchByte bytes.length t = .error f u → step s = .next (takeFault f u))))

/-- What completing an instruction commits beside its own effect: `rip` (R110), RF (R715), the interrupt
shadow (R714), the counters (R705), and the end of the block in the order of R700. -/
def Obligations.CompletionBookkeeping : Prop :=
  ∀ (s0 t : State) (len : Nat) (ends shadow : Bool) (rip : Word),
    let u := complete s0 len ends shadow rip t
    u.rip = (if s0.is64 then rip else trunc .w32 rip) ∧
    u.flags = { t.flags with rf := false } ∧ u.interruptShadow = shadow ∧
    u.retired = t.retired + 1 ∧ u.nbytes = t.nbytes + len ∧
    { u with rip := t.rip, flags := t.flags, interruptShadow := t.interruptShadow,
             retired := t.retired, nbytes := t.nbytes, outcome := t.outcome } = t ∧
    (t.halted = true → u.outcome = some ⟨.halted, u.retired, u.rip⟩) ∧
    (t.halted = false → s0.flags.tf = true → u.outcome = some ⟨.trap 1, u.retired, u.rip⟩) ∧
    (t.halted = false → s0.flags.tf = false → ends = true →
      u.outcome = some ⟨.blockEnd, u.retired, u.rip⟩) ∧
    (t.halted = false → s0.flags.tf = false → ends = false →
      ((u.cfg.maxBlockInstrs ≤ u.retired ∨ u.cfg.maxBlockBytes < u.nbytes + 15) →
        u.outcome = some ⟨.limit, u.retired, u.rip⟩) ∧
      (u.retired < u.cfg.maxBlockInstrs → u.nbytes + 15 ≤ u.cfg.maxBlockBytes → u.outcome = none))

/-- R700, R703: a call of `ExecuteBlock` always returns an outcome, whose `next_rip` and `retired` are the
state's, after at most `MAX_BLOCK_INSTRS` instructions and `MAX_BLOCK_BYTES` bytes. -/
def Obligations.ExecuteBlockReturns : Prop :=
  ∀ s : State, s.cfg.ok = true →
    ∃ o, (executeBlock s).outcome = some o ∧ o.nextRip = (executeBlock s).rip ∧
      o.retired = (executeBlock s).retired ∧
      (executeBlock s).retired ≤ s.cfg.maxBlockInstrs ∧
      (executeBlock s).nbytes ≤ s.cfg.maxBlockBytes ∧
      (executeBlock s).cfg = s.cfg

/-- R722: where blocks are split does not matter. Two states that differ only in the block bookkeeping and
in `MAX_BLOCK_INSTRS` and `MAX_BLOCK_BYTES` stay so over any number of steps. -/
def Obligations.BlockSplittingDoesNotMatter : Prop :=
  ∀ (n : Nat) (s t : State), s.forget = t.forget →
    ∃ s' t', Host.Core.run Sys2Proof.core n s = .next s' ∧ Host.Core.run Sys2Proof.core n t = .next t' ∧
      State.forget s' = State.forget t'

/-- R160: every step keeps the invariant, from every state that satisfies it. -/
def Obligations.StepKeepsInv : Prop :=
  ∀ s t : State, s.Inv → step s = .next t → t.Inv

/-- R160, R921 row 4: the caller's own moves keep the invariant, and so does a whole call of
`ExecuteBlock`. -/
def Obligations.CallerMovesKeepInv : Prop :=
  ∀ s : State, s.Inv →
    (∀ pa bs, (Caller.externalWrite s pa bs).Inv) ∧ (Caller.wake s).Inv ∧ (Caller.bumpSalt s).Inv ∧
    (∀ v, (Caller.skipTo s v).Inv) ∧ (executeBlock s).Inv

/-! ### Exceptions -/

/-- R801, R812, R835: taking an exception writes `cr2` for a `#PF` only (outside 64-bit mode the address
zero-extended from 32 bits), records the outcome with `rip` at the instruction, and changes nothing
else. -/
def Obligations.TakingAnException : Prop :=
  ∀ (s : State) (code : BitVec 32) (lin : Word),
    let a : Word := if s.decodeMode = .m64 then lin else BitVec.ofNat 64 (lin.toNat % 2 ^ 32)
    takeFault (.pf code lin) s =
      { s with cr2 := a, outcome := some ⟨.fault ⟨14, some code, some a⟩, s.retired, s.rip⟩ } ∧
    ∀ f : FaultRec, f.addr = none →
      takeFault f s = { s with outcome := some ⟨.fault f, s.retired, s.rip⟩ }

/-- R802: on a `Fault` outcome `rip` is at the instruction and no register, flag or segment register shows
an effect of it; what may have changed is memory's own bookkeeping, `cr2`, and, for a repeated string
instruction, what its completed iterations changed. -/
def Obligations.FaultsArePrecise : Prop :=
  ∀ (i : Instr) (s t : State) (f : FaultRec) (r : Nat) (a : Word),
    exec i s = .next t → t.outcome = some ⟨.fault f, r, a⟩ →
    r = s.retired ∧ a = s.rip ∧
    t = { s with
          regs := t.regs
          flags := t.flags
          ms := t.ms
          cr2 := f.addr.getD s.cr2
          outcome := t.outcome } ∧
    (repeats i = false → t.regs = s.regs ∧ t.flags = s.flags) ∧
    (s.pagingMode = .none → repeats i = false → ∀ pa, t.ms.byte pa = s.ms.byte pa)

/-- R810, R811: the exceptions a step can report are `#DE`, `#UD`, `#NP`, `#SS`, `#GP` and `#PF`; the last
four have an error code, only `#PF` has an address, and that address is in `cr2` (within 32 bits outside
64-bit mode: R812). R207, R209, R212 to R214: when an access or a fetch is refused before its translation,
with `#SS(0)` through SS and `#GP(0)` otherwise, nothing changed; and what an access that is not refused
goes on to do. That the limit check of a fetch is step 3 of R209 for an expand-down type in CS too, where
R712's pseudocode has `off > seg[CS].limit` only, is the model's reading (log entry 23). -/
def Obligations.FaultRecords : Prop :=
  (∀ (s t : State) (f : FaultRec) (r : Nat) (a : Word),
    step s = .next t → t.outcome = some ⟨.fault f, r, a⟩ →
    (f.vector = 0 ∨ f.vector = 6 ∨ f.vector = 11 ∨ f.vector = 12 ∨ f.vector = 13 ∨ f.vector = 14) ∧
    (f.code.isSome = true ↔ 11 ≤ f.vector) ∧ (f.addr.isSome = true ↔ f.vector = 14) ∧
    (∀ x, f.addr = some x → t.cr2 = x ∧ (s.decodeMode ≠ .m64 → x.toNat < 2 ^ 32)) ∧
    a = t.rip ∧ t.rip = s.rip) ∧
  (∀ (s : State) (seg : SReg) (off v : Word) (n : Nat), 1 ≤ n → n ≤ 8 →
    let refusal : FaultRec := ⟨if seg = .ss then 12 else 13, some 0, none⟩
    let lin := s.lin seg off
    let user : Bool := s.cpl == 3
    let refused : Access → Prop := fun kind => s.SegRefuses seg off n kind ∨ s.CanonRefuses lin n
    (refused .read → memRead seg off n s = .error refusal s) ∧
    (¬refused .read → memRead seg off n s = linRead lin n .read user s) ∧
    (refused .write → memWrite seg off n v s = .error refusal s) ∧
    (¬refused .write → memWrite seg off n v s = linWrite lin n v user s) ∧
    (refused .write ∨ refused .read → rmwBegin seg off n s = .error refusal s) ∧
    (¬(refused .write ∨ refused .read) → rmwBegin seg off n s = (do
      let p ← translateSpan lin n .write user
      let old ← spanRead p n
      pure (old, p) : M (Word × Span)) s) ∧
    (∀ kind, (refused kind → openAccess seg off n kind s = .error refusal s) ∧
      (¬refused kind → openAccess seg off n kind s = translateSpan lin n kind user s))) ∧
  (∀ (s : State) (k : Nat),
    let off : Word := if s.decodeMode = .m64 then s.rip + BitVec.ofNat 64 k
      else BitVec.ofNat 64 ((s.rip + BitVec.ofNat 64 k).toNat % 2 ^ 32)
    let refused := (s.cfg.segChecks = true ∧ s.decodeMode ≠ .m64 ∧ s.segs.cs.LimitRefuses off.toNat 1) ∨
      s.CanonRefuses (s.lin .cs off) 1
    (refused → fetchByte k s = .error ⟨13, some 0, none⟩ s) ∧
    (¬refused → fetchByte k s = (do
      let b ← linRead (s.lin .cs off) 1 .execute (s.cpl == 3)
      pure (b.setWidth 8) : M Byte) s))

/-- R561, R570, R802: a repeated string instruction that faults leaves the state as its finished elements
left it and the faulting element found it, but for what a single element may leave when it faults: the
fault is that of the instruction without its prefix in the state `u` after `k` elements. RCX counts the
elements left, RSI and RDI are past the elements done, the flags are those of the last one. Conversely,
where the elements go so, the instruction faults so; and going on from any of those states gives what the
whole instruction gives. -/
def Obligations.RepeatedStringFaultsAtAnElement : Prop :=
  ∀ (o : StringOp) (h : Hdr) (w : Width) (s t : State) (f : FaultRec) (r : Nat) (a : Word),
    h.rep ≠ .none → h.a ≠ .w8 →
    (t.outcome = some ⟨.fault f, r, a⟩ → exec (o.instr h w) s = .next t → ∃ k u,
      k < (s.regRead h.a rCX).toNat ∧ ElementsDone o h w k s u ∧ (k = 0 ∨ ¬RepEnds o h u) ∧
      exec (o.instr (elementHdr h) w) u = .next t ∧
      (t.regRead h.a rCX).toNat = (s.regRead h.a rCX).toNat - k ∧
      t.regRead h.a rSI = (if o.usesSrc then s.indexAfter h w rSI k else s.regRead h.a rSI) ∧
      t.regRead h.a rDI = (if o.usesDst then s.indexAfter h w rDI k else s.regRead h.a rDI) ∧
      t.flags = u.flags ∧ (o.compares = false → t.flags = s.flags) ∧ (o ≠ .lods → t.x 0 = s.x 0)) ∧
    (∀ k u, k < (s.regRead h.a rCX).toNat → ElementsDone o h w k s u → (k = 0 ∨ ¬RepEnds o h u) →
      t.outcome = some ⟨.fault f, r, a⟩ → exec (o.instr (elementHdr h) w) u = .next t →
      exec (o.instr h w) s = .next t) ∧
    (∀ k u, k ≤ (s.regRead h.a rCX).toNat → ElementsDone o h w k s u → (k = 0 ∨ ¬RepEnds o h u) →
      exec (o.instr h w) u = exec (o.instr h w) s)

/-- R600, R813: below privilege level 0 every privileged instruction raises `#GP(0)` and does nothing
else. -/
def Obligations.PrivilegedInstructionsFault : Prop :=
  ∀ (h : Hdr) (w : Width) (m : MemOp) (c : CReg) (r : RegNum) (s : State), s.cpl ≠ 0 →
    exec (.hlt h) s = s.faults (.gp 0) ∧ exec (.movFromCr h w r c) s = s.faults (.gp 0) ∧
    exec (.movToCr h w c r) s = s.faults (.gp 0) ∧ exec (.lgdt h w m) s = s.faults (.gp 0) ∧
    exec (.lidt h w m) s = s.faults (.gp 0) ∧ exec (.invlpg h m) s = s.faults (.gp 0) ∧
    exec (.swapgs h) s = s.faults (.gp 0) ∧ exec (.rdmsr h) s = s.faults (.gp 0) ∧
    exec (.wrmsr h) s = s.faults (.gp 0)

/-- R840: no instruction step at privilege level 1, 2 or 3 changes the control registers (but `cr2`, by a
page fault), EFER, the MSRs, the descriptor-table registers, the salt or the halted state, or IOPL; and
none above IOPL changes IF. -/
def Obligations.UnprivilegedStepsKeepSystemState : Prop :=
  ∀ s t : State, s.Consistent → s.cpl ≠ 0 → step s = .next t →
    t.cr0 = s.cr0 ∧ t.cr3 = s.cr3 ∧ t.cr4 = s.cr4 ∧ t.efer = s.efer ∧
    t.kernelGsBase = s.kernelGsBase ∧ t.msrExtra = s.msrExtra ∧ t.gdtr = s.gdtr ∧ t.idtr = s.idtr ∧
    t.tlbSalt = s.tlbSalt ∧ t.halted = s.halted ∧ t.cpl = s.cpl ∧ t.flags.iopl = s.flags.iopl ∧
    (s.flags.iopl < s.cpl → t.flags.ie = s.flags.ie)

/-! ### What instructions leave alone -/

/-- R922: nothing writes `ldtr`, `tr`, `cpl`, CS or `fpu_sse`; every other special register is written
only by the instructions whose rule writes it. -/
def Obligations.SystemStateFrame : Prop :=
  ∀ (i : Instr) (s t : State), exec i s = .next t →
    t.ldtr = s.ldtr ∧ t.tr = s.tr ∧ t.cpl = s.cpl ∧ t.segs.cs = s.segs.cs ∧ t.fpuSse = s.fpuSse ∧
    t.cfg = s.cfg ∧
    (t.gdtr ≠ s.gdtr → ∃ h w m, i = .lgdt h w m) ∧
    (t.idtr ≠ s.idtr → ∃ h w m, i = .lidt h w m) ∧
    (t.msrExtra ≠ s.msrExtra → ∃ h, i = .wrmsr h) ∧
    (t.kernelGsBase ≠ s.kernelGsBase → ∃ h, i = .wrmsr h ∨ i = .swapgs h) ∧
    (t.segs.fs.base ≠ s.segs.fs.base → ∃ h m, i = .wrmsr h ∨ i = .movToSeg h .fs m) ∧
    (∀ r, t.segs.get r ≠ s.segs.get r →
      ∃ h m, i = .movToSeg h r m ∨ ((i = .wrmsr h ∨ i = .swapgs h) ∧ (r = .fs ∨ r = .gs))) ∧
    (t.cr0 ≠ s.cr0 → ∃ h w r, i = .movToCr h w .cr0 r) ∧
    (t.cr3 ≠ s.cr3 → ∃ h w r, i = .movToCr h w .cr3 r) ∧
    (t.cr4 ≠ s.cr4 → ∃ h w r, i = .movToCr h w .cr4 r) ∧
    (t.cr2 ≠ s.cr2 → (∃ h w r, i = .movToCr h w .cr2 r) ∨
      ∃ f k a, t.outcome = some ⟨.fault f, k, a⟩ ∧ f.vector = 14) ∧
    (t.efer ≠ s.efer → ∃ h, i = .wrmsr h ∨ ∃ w r, i = .movToCr h w .cr0 r) ∧
    (t.tlbSalt ≠ s.tlbSalt → ∃ h, i = .wrmsr h ∨ (∃ m, i = .invlpg h m) ∨
      ∃ w c r, i = .movToCr h w c r ∧ c ≠ .cr2) ∧
    (t.halted ≠ s.halted → ∃ h, i = .hlt h) ∧
    (t.interruptShadow = true → s.interruptShadow = true ∨
      ∃ h, i = .sti h ∨ ∃ m, i = .movToSeg h .ss m)

/-- An instruction writes no general register but its destinations and those its rule updates beside them
(`destRegs`). -/
def Obligations.RegisterFrame : Prop :=
  ∀ (i : Instr) (s t : State) (r : RegNum), exec i s = .next t → r ∉ destRegs i → t.x r = s.x r

/-- R451 and the rules of the other instructions: a status flag changes only where they say so, and a
control flag only by POPF, CLI, STI, CLD and STD (RF: cleared by every completed step). -/
def Obligations.FlagFrame : Prop :=
  ∀ (i : Instr) (s t : State), exec i s = .next t →
    (∀ fl, fl ∉ statusWritten i → t.flags.st.get fl = s.flags.st.get fl) ∧
    t.flags.vm = s.flags.vm ∧ t.flags.vif = s.flags.vif ∧ t.flags.vip = s.flags.vip ∧
    (t.flags.rf = s.flags.rf ∨ t.flags.rf = false) ∧
    (t.flags.tf ≠ s.flags.tf ∨ t.flags.iopl ≠ s.flags.iopl ∨ t.flags.nt ≠ s.flags.nt ∨
      t.flags.ac ≠ s.flags.ac ∨ t.flags.id ≠ s.flags.id → ∃ h w, i = .popf h w) ∧
    (t.flags.ie ≠ s.flags.ie → ∃ h w, i = .popf h w ∨ i = .cli h ∨ i = .sti h) ∧
    (t.flags.df ≠ s.flags.df → ∃ h w, i = .popf h w ∨ i = .cld h ∨ i = .std h)

/-- Every byte of memory keeps its value, except the bytes an instruction stores to (`State.storesTo`
computes them; of a repeated MOVS or STOS, those of each element that completes) and the accessed and
dirty bits that its translations set (R275); without paging nothing else changes at all. -/
def Obligations.MemoryFrame : Prop :=
  ∀ (i : Instr) (s t : State) (pa : Nat), s.ms.wf = true → exec i s = .next t → pa ∉ s.storesTo i →
    Marked 0x60 (s.ms.byte pa) (t.ms.byte pa) ∧
    (s.pagingMode = .none → t.ms.byte pa = s.ms.byte pa)

/-- R230, R234, R922: a step never lowers a page version, and raises the version of every page in which it
changes a byte. -/
def Obligations.PageVersionsFollowStores : Prop :=
  ∀ (s t : State), step s = .next t →
    (∀ p, s.ms.version p ≤ t.ms.version p) ∧
    (∀ pa, t.ms.byte pa ≠ s.ms.byte pa → s.ms.version (pa / 4096) < t.ms.version (pa / 4096))

/-- R232, R233, R236: after a write by another agent with the `OnGuestWrite` it owes (one move of the caller:
log entry 24), every handle whose snapshot was current and covers a page written to is stale, and no other
is. -/
def Obligations.ExternalWritesStaleHandles : Prop :=
  ∀ (s : State) (pa : Nat) (bs : List Byte) (snapshot : List (Nat × Nat)),
    handleStale s.ms snapshot = false →
    (handleStale (Caller.externalWrite s pa bs).ms snapshot = true ↔
      ∃ e ∈ snapshot, ∃ k, k < bs.length ∧ (pa + k) / 4096 = e.1)

/-! ### Memory -/

/-- R201, R206, R210 to R213: without paging, in RAM, a read gives the little-endian value of the bytes at
consecutive linear addresses and changes nothing; a write puts the value's bytes there, changes no other
byte, raises the version of each page written by 1 and no other (R232), and changes nothing else. -/
def Obligations.FlatMemory : Prop :=
  ∀ (s : State) (seg : SReg) (off v : Word) (n : Nat), s.Flat → s.AllRam → s.ms.wf = true →
    1 ≤ n → n ≤ 8 →
    memRead seg off n s =
      .ok (BitVec.ofNat 64 (leNat ((List.range n).map fun i => s.ms.byte (s.flatAddr seg off i)))) s ∧
    ∃ m, memWrite seg off n v s = .ok () (s.withMs m) ∧ m.tlb = s.ms.tlb ∧ m.busOps = s.ms.busOps ∧
      (∀ i, i < n → m.byte (s.flatAddr seg off i) = BitVec.ofNat 8 (v.toNat / 256 ^ i)) ∧
      (∀ a, (∀ i, i < n → a ≠ s.flatAddr seg off i) → m.byte a = s.ms.byte a) ∧
      (∀ i, i < n →
        m.version (s.flatAddr seg off i / 4096) = s.ms.version (s.flatAddr seg off i / 4096) + 1) ∧
      (∀ q, (∀ i, i < n → q ≠ s.flatAddr seg off i / 4096) → m.version q = s.ms.version q)

/-- R201, R204, R210, R211, R214: the write half of an access that has been translated puts the value's bytes,
least significant first, at the addresses its translation gave, whichever way they were obtained, and
changes no other byte and nothing outside memory and the page versions. -/
def Obligations.StoresPutTheirBytes : Prop :=
  ∀ (s s1 : State) (lin v : Word) (n : Nat) (kind : Access) (user : Bool) (p : Span),
    s.AllRam → s.ms.wf = true → 1 ≤ n → n ≤ 8 → translateSpan lin n kind user s = .ok p s1 →
    (∀ i, i < n → (s1.stored p n v).ms.byte (p.addr i) = BitVec.ofNat 8 (v.toNat / 256 ^ i)) ∧
    (∀ a, a ∉ p.addrs n → (s1.stored p n v).ms.byte a = s1.ms.byte a) ∧
    (∀ i, i < n → s1.ms.version (p.addr i / 4096) < (s1.stored p n v).ms.version (p.addr i / 4096)) ∧
    s1.stored p n v =
      s1.withMs { s1.ms with
        mem := (s1.stored p n v).ms.mem, pageVersion := (s1.stored p n v).ms.pageVersion }

/-- A read of what was just written gives the value written, in every mode, for an access within a page of
RAM: through the translation cache when paging is on (R205, R252, R253). -/
def Obligations.ReadAfterWrite : Prop :=
  ∀ (s t : State) (seg : SReg) (off v : Word) (n : Nat), s.cfg.ok = true → s.AllRam →
    s.ms.wf = true → 1 ≤ n → n ≤ 8 →
    (s.lin seg off).toNat % 4096 + n ≤ 4096 → memWrite seg off n v s = .ok () t →
    memRead seg off n t = .ok (BitVec.ofNat 64 (v.toNat % 256 ^ n)) t

/-- R102, R103: a register read gives the field of the register; a write of 8 or 16 bits keeps the other
bits, one of 32 bits clears the upper half, and no other register changes. -/
def Obligations.RegisterWriteRules : Prop :=
  ∀ (s : State) (r : RegNum) (v : Word),
    (s.regWrite .w8 ⟨r, true⟩ v).x r =
      (s.x r).extractLsb' 16 48 ++ v.extractLsb' 0 8 ++ (s.x r).extractLsb' 0 8 ∧
    (s.regWrite .w8 ⟨r, false⟩ v).x r = (s.x r).extractLsb' 8 56 ++ v.extractLsb' 0 8 ∧
    (∀ b, (s.regWrite .w16 ⟨r, b⟩ v).x r = (s.x r).extractLsb' 16 48 ++ v.extractLsb' 0 16) ∧
    (∀ b, (s.regWrite .w32 ⟨r, b⟩ v).x r = 0#32 ++ v.extractLsb' 0 32) ∧
    (∀ b, (s.regWrite .w64 ⟨r, b⟩ v).x r = v) ∧
    s.regRead .w8 ⟨r, true⟩ = ((s.x r).extractLsb' 8 8).setWidth 64 ∧
    s.regRead .w8 ⟨r, false⟩ = ((s.x r).extractLsb' 0 8).setWidth 64 ∧
    (∀ b, s.regRead .w16 ⟨r, b⟩ = ((s.x r).extractLsb' 0 16).setWidth 64) ∧
    (∀ b, s.regRead .w32 ⟨r, b⟩ = ((s.x r).extractLsb' 0 32).setWidth 64) ∧
    (∀ b, s.regRead .w64 ⟨r, b⟩ = s.x r) ∧
    ∀ w g (q : RegNum), q ≠ g.num → (s.regWrite w g v).x q = s.x q

/-! ### Paging -/

/-- R252, R253, R280, R282: a translation that succeeded is answered from the cache the next time, alike and
without any further change; after the salt is bumped no entry hits, whatever the access. -/
def Obligations.TranslationCache : Prop :=
  ∀ (s : State) (lin : Word) (kind : Access) (user : Bool),
    (∀ pa t, s.cfg.ok = true → translate lin kind user s = .ok pa t →
      translate lin kind user t = .ok pa t) ∧
    (s.saltsOk = true → ∀ i,
      s.bumpSalt.tlbHit (s.bumpSalt.tlbEntry i) lin kind user = false)

/-- R273, R274: a translation raises nothing but `#PF` at the address translated, with the error code's bits
as the table gives them. With the paging structures in RAM the first entry of the path (R256 to R260) that
is not present or has a reserved bit set (R262) decides: P = 0; P = 1 and RSVD = 1; if there is none, it is
the permission check, with P = 1 and RSVD = 0. A path with such an entry does raise, unless the cache
answers. -/
def Obligations.PageFaultRecord : Prop :=
  ∀ (s t : State) (lin : Word) (kind : Access) (user : Bool) (f : FaultRec),
    (s.AllRam → s.pagingMode ≠ .none →
      s.tlbHit (s.tlbEntry (s.tlbIndex lin)) lin kind user = false → pathStop (s.path lin) ≠ none →
      ∃ g u, translate lin kind user s = .error g u) ∧
    (∀ (e : Word) (pae large : Bool), s.rsvd8 e pae large = true ↔
      (e.toNat / 2 ^ s.cfg.physBits % 2 ^ (52 - s.cfg.physBits) ≠ 0 ∨
        (pae = true ∧ e.toNat / 2 ^ 52 % 2 ^ 11 ≠ 0) ∨ (s.nxe = false ∧ 2 ^ 63 ≤ e.toNat) ∨
        (large = true ∧ e.toNat / 2 ^ 13 % 2 ^ 8 ≠ 0))) ∧
    (translate lin kind user s = .error f t →
    f.vector = 14 ∧ f.addr = some lin ∧ ∃ code : BitVec 32, f.code = some code ∧
      (code.getLsbD 1 = true ↔ kind = .write) ∧ (code.getLsbD 2 = true ↔ user = true) ∧
      (code.getLsbD 3 = true → code.getLsbD 0 = true) ∧
      (code.getLsbD 4 = true ↔ kind = .execute ∧ s.pae = true ∧ s.nxe = true) ∧
      code.toNat < 32 ∧ t.ms.mem = s.ms.mem ∧ t.ms.tlb = s.ms.tlb ∧
      (s.AllRam → (code.getLsbD 0, code.getLsbD 3) =
        (match pathStop (s.path lin) with
         | some false => (false, false)
         | some true => (true, true)
         | none => (true, false))))

/-- R270, R271: a walk that succeeds for a user access went through user entries only; for a write by the
user, or with WP, through writable entries only; for a fetch with NXE, through no entry with the
execute-disable bit (in the 8-byte formats). -/
def Obligations.WalksRespectPermissions : Prop :=
  ∀ (s t : State) (lin : Word) (kind : Access) (user : Bool) (r : Walked),
    walk lin kind user s = .ok r t →
    (user = true → ∀ e ∈ r.levels, bit e.2 2 = true) ∧
    (kind = .write → user = true ∨ s.wp = true → ∀ e ∈ r.levels, bit e.2 1 = true) ∧
    (kind = .execute → s.nxe = true → r.size = 8 → ∀ e ∈ r.levels, bit e.2 63 = false) ∧
    (∀ e ∈ r.levels, bit e.2 0 = true) ∧ r.levels ≠ []

/-- R256 to R259, R262, R270 to R272: the accesses each format of the paging structures permits, and the
address it gives, for a 4 KiB page and for a large one. Present entries with no reserved bit set translate
an access to the page frame in the last with the offset of the linear address exactly when its permissions
allow it: a user access needs user entries only; a write needs writable ones, unless it is a supervisor's
with WP clear; a fetch with NXE needs ones that are not execute-disabled; and nothing else is needed. A
system access is a supervisor's at every privilege level. -/
def Obligations.FourLevelTranslation : Prop :=
  ∀ (s : State) (lin : Word) (kind : Access) (user : Bool) (e4 e3 e2 e1 : Nat),
    s.AllRam → s.cfg.ok = true →
    s.tlbHit (s.tlbEntry (s.tlbIndex lin)) lin kind user = false →
    let bits := s.cfg.physBits
    let frame (e : Nat) : Nat := e / 4096 % 2 ^ (bits - 12) * 4096
    let word (size pa : Nat) : Nat := leNat (s.ms.bytes pa size)
    let large (e : Nat) : Prop := e / 128 % 2 = 1
    -- an 8-byte entry that is present and has no reserved bit set
    let valid (pae leaf2M : Prop) (e : Nat) : Prop :=
      e % 2 = 1 ∧ e / 2 ^ bits % 2 ^ (52 - bits) = 0 ∧ (pae → e / 2 ^ 52 % 2 ^ 11 = 0) ∧
      (s.nxe = false → e < 2 ^ 63) ∧ (leaf2M → e / 2 ^ 13 % 2 ^ 8 = 0)
    let permitted (es : List Nat) : Prop :=
      (user = true → ∀ e ∈ es, e / 4 % 2 = 1) ∧
      (kind = .write → (user = false ∧ s.wp = false) ∨ ∀ e ∈ es, e / 2 % 2 = 1) ∧
      (kind = .execute → s.nxe = true → ∀ e ∈ es, e < 2 ^ 63)
    let gives (pa : Nat) (es : List Nat) : Prop :=
      (permitted es → ∃ t, translate lin kind user s = .ok pa t) ∧
      (¬permitted es → ∃ f t, translate lin kind user s = .error f t)
    (s.pagingMode = .long4 →
      word 8 (frame s.cr3.toNat + field lin 47 39 * 8) = e4 → valid False False e4 → ¬large e4 →
      word 8 (frame e4 + field lin 38 30 * 8) = e3 → valid False False e3 → ¬large e3 →
      word 8 (frame e3 + field lin 29 21 * 8) = e2 → valid False (large e2) e2 →
      -- a 2 MiB page
      (large e2 → gives (e2 / 2 ^ 21 % 2 ^ (bits - 21) * 2 ^ 21 + lin.toNat % 2 ^ 21) [e4, e3, e2]) ∧
      -- a 4 KiB page
      (¬large e2 → word 8 (frame e2 + field lin 20 12 * 8) = e1 → valid False False e1 →
        gives (frame e1 + lin.toNat % 2 ^ 12) [e4, e3, e2, e1])) ∧
    (s.pagingMode = .pae3 →
      word 8 (s.cr3.toNat / 32 % 2 ^ 27 * 32 + field lin 31 30 * 8) = e3 →
      -- the page-directory-pointer entry: P, no reserved bit, no permissions
      e3 % 8 = 1 → e3 / 32 % 16 = 0 → e3 < 2 ^ bits →
      word 8 (frame e3 + field lin 29 21 * 8) = e2 → valid True (large e2) e2 →
      (large e2 → gives (e2 / 2 ^ 21 % 2 ^ (bits - 21) * 2 ^ 21 + lin.toNat % 2 ^ 21) [e2]) ∧
      (¬large e2 → word 8 (frame e2 + field lin 20 12 * 8) = e1 → valid True False e1 →
        gives (frame e1 + lin.toNat % 2 ^ 12) [e2, e1])) ∧
    (s.pagingMode = .legacy2 →
      word 4 (s.cr3.toNat / 2 ^ 12 % 2 ^ 20 * 2 ^ 12 + field lin 31 22 * 4) = e2 → e2 % 2 = 1 →
      -- a 4 MiB page
      (large e2 → s.pse = true → gives (e2 / 2 ^ 22 * 2 ^ 22 + lin.toNat % 2 ^ 22) [e2]) ∧
      (¬large e2 ∨ s.pse = false →
        word 4 (e2 / 2 ^ 12 * 2 ^ 12 + field lin 21 12 * 4) = e1 → e1 % 2 = 1 →
        gives (e1 / 2 ^ 12 * 2 ^ 12 + lin.toNat % 2 ^ 12) [e2, e1])) ∧
    -- system accesses: `user` is false whatever `cpl` is
    (∀ (n pa : Nat) (t : State), 1 ≤ n → n ≤ 8 → lin.toNat % 4096 + n ≤ 4096 →
      (translate lin .read false s = .ok pa t →
        sysRead lin n s = .ok (BitVec.ofNat 64 (leNat (t.ms.bytes pa n))) t) ∧
      (translate lin .write false s = .ok pa t → ∀ v,
        sysWrite lin n v s = .ok () (t.stored ⟨pa, 0, n, false⟩ n v)))

/-- R275, R234: a translation changes memory only by setting accessed and dirty bits, and sets no dirty bit
but for a write. One that walks sets the accessed bit in every entry with permissions and, for a write, the
dirty bit in the leaf; every other byte stays; the versions of the pages of the entries that changed rise,
and no other does. One that the cache answers, or without paging, changes nothing. -/
def Obligations.TranslationOnlyMarks : Prop :=
  ∀ (s t : State) (lin : Word) (kind : Access) (user : Bool) (pa : Nat),
    s.ms.wf = true → translate lin kind user s = .ok pa t →
    let hit := s.tlbHit (s.tlbEntry (s.tlbIndex lin)) lin kind user
    let entry (u : State) (e : PathEntry) : Word := u.ramEntry e.addr s.entrySize
    (∀ a, Marked (if kind = .write then 0x60 else 0x20) (s.ms.byte a) (t.ms.byte a)) ∧
    t = s.withMs t.ms ∧
    (s.pagingMode = .none ∨ hit = true → t = s) ∧
    (s.AllRam → s.pagingMode ≠ .none → hit = false →
      (∀ e ∈ s.levels lin, entry t e = entry s e ||| s.entryMarks lin kind e) ∧
      (∀ a, (∀ e ∈ s.levels lin, a < e.addr ∨ e.addr + s.entrySize ≤ a) → t.ms.byte a = s.ms.byte a) ∧
      (∀ e ∈ s.levels lin, entry t e ≠ entry s e →
        s.ms.version (e.addr / 4096) < t.ms.version (e.addr / 4096)) ∧
      (∀ p, (∀ e ∈ s.levels lin, e.addr / 4096 = p → entry t e = entry s e) →
        t.ms.version p = s.ms.version p))

/-! ### Results: arithmetic and logic

Each statement gives the state an instruction completes in, for operands that can be read (and, for a
destination in memory, written). The arithmetic meaning of the result and the flags is that of
`AddMeans`, `SubMeans` and the like. -/

/-- R452 to R454, R456, R457, R459: ADD, ADC, SUB and SBB, in every form. -/
def Obligations.AddAndSubtract : Prop :=
  ∀ (m : DecodeMode) (h : Hdr) (f : AluForm) (s s1 : State) (o : AluOperands),
    f.wf m h true = true → aluOperands h f s = .ok o s1 →
    (∃ c, AddMeans o.w o.a o.b false s.flags c ∧
      exec (.add h f) s = s.done h (s1.commit o.w o.dst o.span c)) ∧
    (∃ c, AddMeans o.w o.a o.b s.flags.st.cf s.flags c ∧
      exec (.adc h f) s = s.done h (s1.commit o.w o.dst o.span c)) ∧
    (∃ c, SubMeans o.w o.a o.b false s.flags c ∧
      exec (.sub h f) s = s.done h (s1.commit o.w o.dst o.span c)) ∧
    (∃ c, SubMeans o.w o.a o.b s.flags.st.cf s.flags c ∧
      exec (.sbb h f) s = s.done h (s1.commit o.w o.dst o.span c))

/-- R452, R453, R455, R458, R460: AND, OR and XOR, in every form; AF is left free. -/
def Obligations.LogicOperations : Prop :=
  ∀ (m : DecodeMode) (h : Hdr) (f : AluForm) (s s1 : State) (o : AluOperands),
    f.wf m h true = true → aluOperands h f s = .ok o s1 →
    (∃ c, LogicMeans o.w (o.a &&& o.b) s.flags c ∧
      exec (.and h f) s = s.done h (s1.commit o.w o.dst o.span c)) ∧
    (∃ c, LogicMeans o.w (o.a ||| o.b) s.flags c ∧
      exec (.or h f) s = s.done h (s1.commit o.w o.dst o.span c)) ∧
    (∃ c, LogicMeans o.w (o.a ^^^ o.b) s.flags c ∧
      exec (.xor h f) s = s.done h (s1.commit o.w o.dst o.span c))

/-- R461, R462: CMP sets the flags of SUB, TEST those of AND; neither writes an operand. -/
def Obligations.CmpAndTest : Prop :=
  ∀ (m : DecodeMode) (h : Hdr) (s s1 : State) (w : Width) (a b : Word),
    (∀ f : AluForm, f.wf m h false = true → cmpOperands h f s = .ok (w, a, b) s1 →
      ∃ c, SubMeans w a b false s.flags c ∧ exec (.cmp h f) s = s.done h (s1.withFlags c.flags)) ∧
    (∀ f : TestForm, (Instr.test h f).wf m = true → testOperands h f s = .ok (w, a, b) s1 →
      ∃ c, LogicMeans w (a &&& b) s.flags c ∧
        exec (.test h f) s = s.done h (s1.withFlags c.flags))

/-- R463 to R466: INC and DEC leave CF alone, NEG has the flags of a subtraction from 0, NOT has none. -/
def Obligations.OneOperandArithmetic : Prop :=
  ∀ (h : Hdr) (s s1 : State) (w : Width) (dst : RM) (a : Word) (p : Span),
    destRead h w dst s = .ok (a, p) s1 →
    (∀ f, incOperand f = (w, dst) →
      (∃ c, IncMeans w a s.flags c ∧ exec (.inc h f) s = s.done h (s1.commit w dst p c)) ∧
      (∃ c, DecMeans w a s.flags c ∧ exec (.dec h f) s = s.done h (s1.commit w dst p c))) ∧
    (∃ c, SubMeans w 0 a false s.flags c ∧
      exec (.neg h w dst) s = s.done h (s1.commit w dst p c)) ∧
    (∃ v : Word, v.toNat = 2 ^ w.bits - 1 - a.toNat ∧
      exec (.not h w dst) s = s.done h (s1.commit w dst p ⟨v, s.flags⟩))

/-- R467 to R469: the product in double width, or its low half; CF and OF say whether the high half
matters, the other status flags are left free. -/
def Obligations.Multiply : Prop :=
  ∀ (h : Hdr) (w : Width) (src : RM) (s s1 : State) (b : Word), readRM h w src s = .ok b s1 →
    (∃ (hi lo : Word) (g : SFlags),
      hi.toNat * 2 ^ w.bits + lo.toNat = (s.regRead w rAX).toNat * b.toNat ∧
      lo.toNat < 2 ^ w.bits ∧ (g.cf = true ↔ hi.toNat ≠ 0) ∧ g.of = g.cf ∧
      exec (.mul h w src) s = s.done h ((s1.setPair w hi lo).withFlags (s.flags.withSt g))) ∧
    (∃ (hi lo : Word) (g : SFlags),
      sint w hi * 2 ^ w.bits + lo.toNat = sint w (s.regRead w rAX) * sint w b ∧
      hi.toNat < 2 ^ w.bits ∧ lo.toNat < 2 ^ w.bits ∧
      (g.cf = true ↔ sint w lo ≠ sint w (s.regRead w rAX) * sint w b) ∧ g.of = g.cf ∧
      exec (.imul1 h w src) s = s.done h ((s1.setPair w hi lo).withFlags (s.flags.withSt g))) ∧
    (∀ dst : Gpr, ∃ (v : Word) (g : SFlags),
      (v.toNat : Int) = sint w (s.regRead w dst) * sint w b % 2 ^ w.bits ∧
      (g.cf = true ↔ sint w v ≠ sint w (s.regRead w dst) * sint w b) ∧ g.of = g.cf ∧
      exec (.imul2 h w dst src) s =
        s.done h ((s1.regWrite w dst v).withFlags (s.flags.withSt g))) ∧
    (∀ (dst : Gpr) (imm : Word) (z : ImmSize), ∃ (v : Word) (g : SFlags),
      (v.toNat : Int) = sint w b * sint w imm % 2 ^ w.bits ∧
      (g.cf = true ↔ sint w v ≠ sint w b * sint w imm) ∧ g.of = g.cf ∧
      exec (.imul3 h w dst src imm z) s =
        s.done h ((s1.regWrite w dst v).withFlags (s.flags.withSt g)))

/-- R470, R471: quotient and remainder, unsigned and signed (the quotient rounded toward zero, the remainder
with the sign of the dividend), the status flags left free; `#DE` for a zero divisor and for a quotient
that does not fit, with no register or flag changed. -/
def Obligations.Divide : Prop :=
  ∀ (h : Hdr) (w : Width) (src : RM) (s s1 : State) (d : Word), readRM h w src s = .ok d s1 →
    (∀ q r : Nat, s.pair w = q * d.toNat + r → r < d.toNat → q < 2 ^ w.bits →
      ∃ g, exec (.div h w src) s =
        s.done h ((s1.setPair w (BitVec.ofNat 64 r) (BitVec.ofNat 64 q)).withFlags
          (s.flags.withSt g))) ∧
    (d.toNat * 2 ^ w.bits ≤ s.pair w → exec (.div h w src) s = s1.faults .de) ∧
    (d = 0 → exec (.idiv h w src) s = s1.faults .de) ∧
    (∀ q r : Int, signedPair w (s.pair w) = q * sint w d + r → r.natAbs < (sint w d).natAbs →
      (r = 0 ∨ (0 < r ↔ 0 < signedPair w (s.pair w))) →
      (-(2 ^ (w.bits - 1) : Int) ≤ q ∧ q < 2 ^ (w.bits - 1) →
        ∃ g, exec (.idiv h w src) s =
          s.done h ((s1.setPair w (ofIntW w r) (ofIntW w q)).withFlags (s.flags.withSt g))) ∧
      (q < -(2 ^ (w.bits - 1) : Int) ∨ (2 ^ (w.bits - 1) : Int) ≤ q →
        exec (.idiv h w src) s = s1.faults .de))

/-- R472, R473: CMPXCHG compares the accumulator and stores the source or loads the accumulator; its
memory form writes memory in either case. XADD writes the sum to the destination and its old value to the
source. -/
def Obligations.CmpxchgAndXadd : Prop :=
  ∀ (h : Hdr) (w : Width) (dst : RM) (src : Gpr) (s s1 : State) (a : Word) (p : Span),
    destRead h w dst s = .ok (a, p) s1 →
    (∃ c, SubMeans w (s.regRead w rAX) a false s.flags c ∧
      (s.regRead w rAX = a → exec (.cmpxchg h w dst src) s =
        s.done h ((s1.destWrite w dst p (s.regRead w src)).withFlags c.flags)) ∧
      (s.regRead w rAX ≠ a → ∀ r, dst = .reg r → exec (.cmpxchg h w dst src) s =
        s.done h ((s1.regWrite w rAX a).withFlags c.flags)) ∧
      (s.regRead w rAX ≠ a → ∀ mo, dst = .mem mo → exec (.cmpxchg h w dst src) s =
        s.done h (((s1.destWrite w dst p a).regWrite w rAX a).withFlags c.flags))) ∧
    (∃ c, AddMeans w a (s.regRead w src) false s.flags c ∧
      (∀ r, dst = .reg r → exec (.xadd h w dst src) s =
        s.done h (((s1.regWrite w src a).regWrite w r c.value).withFlags c.flags)) ∧
      (∀ mo, dst = .mem mo → exec (.xadd h w dst src) s =
        s.done h (((s1.destWrite w dst p c.value).regWrite w src a).withFlags c.flags)))

/-- R500 to R503: SHL, SHR and SAR by the masked count. -/
def Obligations.Shifts : Prop :=
  ∀ (h : Hdr) (w : Width) (dst : RM) (k : ShiftCount) (s s1 : State) (a : Word) (p : Span),
    destRead h w dst s = .ok (a, p) s1 →
    let raw := match k with
      | .imm b => b.toNat
      | .one => 1
      | .cl => (s.x 1).toNat % 256
    let cnt := if w = .w64 then raw % 64 else raw % 32
    (∃ c, ShiftMeans w cnt (a.toNat * 2 ^ cnt : Nat)
        (if cnt < w.bits then some (bit a (w.bits - cnt)) else none)
        (fun cf => msb w c.value ^^ cf) s.flags c ∧
      exec (.shl h w dst k) s = s.done h (s1.commit w dst p c)) ∧
    (∃ c, ShiftMeans w cnt (a.toNat / 2 ^ cnt : Nat)
        (if cnt < w.bits then some (bit a (cnt - 1)) else none)
        (fun _ => msb w a) s.flags c ∧
      exec (.shr h w dst k) s = s.done h (s1.commit w dst p c)) ∧
    (∃ c, ShiftMeans w cnt (sint w a / 2 ^ cnt)
        (some (if cnt < w.bits then bit a (cnt - 1) else msb w a))
        (fun _ => false) s.flags c ∧
      exec (.sar h w dst k) s = s.done h (s1.commit w dst p c))

/-- R500, R504, R505: ROL and ROR, bit by bit; only CF, and OF, change. -/
def Obligations.Rotates : Prop :=
  ∀ (h : Hdr) (w : Width) (dst : RM) (k : ShiftCount) (s s1 : State) (a : Word) (p : Span),
    destRead h w dst s = .ok (a, p) s1 →
    let raw := match k with
      | .imm b => b.toNat
      | .one => 1
      | .cl => (s.x 1).toNat % 256
    let cnt := if w = .w64 then raw % 64 else raw % 32
    (∃ c, (∀ i, i < w.bits → bit c.value ((i + cnt) % w.bits) = bit a i) ∧
      c.value.toNat < 2 ^ w.bits ∧
      RotateMeans cnt (bit c.value 0) (msb w c.value ^^ bit c.value 0) s.flags c ∧
      exec (.rol h w dst k) s = s.done h (s1.commit w dst p c)) ∧
    (∃ c, (∀ i, i < w.bits → bit c.value i = bit a ((i + cnt) % w.bits)) ∧
      c.value.toNat < 2 ^ w.bits ∧
      RotateMeans cnt (msb w c.value) (msb w c.value ^^ bit c.value (w.bits - 2)) s.flags c ∧
      exec (.ror h w dst k) s = s.done h (s1.commit w dst p c))

/-! ### Results: data movement -/

/-- R401 to R404: the general forms of MOV. -/
def Obligations.Moves : Prop :=
  ∀ (h : Hdr) (w : Width) (s s1 : State) (o : RM) (r : Gpr) (mo : MemOp) (v : Word) (p : Span),
    (destOpen h w o s = .ok p s1 →
      exec (.mov h (.mr w o r)) s = s.done h (s1.destWrite w o p (s.regRead w r)) ∧
      exec (.mov h (.mi w o v)) s = s.done h (s1.destWrite w o p v)) ∧
    (readRM h w o s = .ok v s1 → exec (.mov h (.rm w r o)) s = s.done h (s1.regWrite w r v)) ∧
    exec (.mov h (.ri w r v)) s = s.done h (s.regWrite w r v) ∧
    (readRM h w (.mem mo) s = .ok v s1 →
      exec (.mov h (.fromMoffs w mo)) s = s.done h (s1.regWrite w rAX v)) ∧
    (destOpen h w (.mem mo) s = .ok p s1 →
      exec (.mov h (.toMoffs w mo)) s = s.done h (s1.destWrite w (.mem mo) p (s.regRead w rAX)))

/-- R405 to R408, R412, R413: zero and sign extension by value, the address of LEA (R330), and the sign
extensions of the accumulator. -/
def Obligations.ExtensionsAndLea : Prop :=
  ∀ (h : Hdr) (w sw : Width) (s s1 : State) (o : RM) (r : Gpr) (mo : MemOp) (v : Word),
    (readRM h sw o s = .ok v s1 →
      exec (.movzx h w r sw o) s = s.done h (s1.regWrite w r v) ∧
      ∃ u, sint .w64 u = sint sw v ∧ exec (.movsx h w r sw o) s = s.done h (s1.regWrite w r u)) ∧
    (readRM h (if w = .w16 then .w16 else .w32) o s = .ok v s1 →
      ∃ u, sint .w64 u = sint (if w = .w16 then .w16 else .w32) v ∧
        exec (.movsxd h w r o) s = s.done h (s1.regWrite w r u)) ∧
    (∃ off : Word,
      off.toNat = (((mo.base.map fun b => (s.x b).toNat % 2 ^ h.a.bits).getD 0) +
        ((mo.index.map fun x => (s.x x).toNat % 2 ^ h.a.bits).getD 0) * 2 ^ mo.scale.val +
        mo.disp.toNat + (if mo.ripRel then (s.nextRip h.len).toNat else 0)) % 2 ^ h.a.bits ∧
      exec (.lea h w r mo) s = s.done h (s.regWrite w r off)) ∧
    (∀ half, 2 * half.bits = w.bits →
      ∃ u, sint .w64 u = sint half (s.x 0) ∧ exec (.cbw h w) s = s.done h (s.regWrite w rAX u)) ∧
    (exec (.cwd h w) s =
      s.done h (s.regWrite w rDX (if sint w (s.x 0) < 0 then BitVec.allOnes 64 else 0)))

/-- R409 to R411, R414, R415: exchange, conditional move and set, LAHF and SAHF. -/
def Obligations.ExchangesAndConditions : Prop :=
  ∀ (h : Hdr) (w : Width) (s s1 : State) (o : RM) (r d : Gpr) (mo : MemOp) (cc : CC) (v : Word)
    (p : Span),
    exec (.xchg h (.mr w (.reg d) r)) s =
      s.done h ((s.regWrite w d (s.regRead w r)).regWrite w r (s.regRead w d)) ∧
    exec (.xchg h (.acc w r)) s =
      s.done h ((s.regWrite w rAX (s.regRead w r)).regWrite w r (s.regRead w rAX)) ∧
    (destRead h w (.mem mo) s = .ok (v, p) s1 → exec (.xchg h (.mr w (.mem mo) r)) s =
      s.done h ((s1.destWrite w (.mem mo) p (s.regRead w r)).regWrite w r v)) ∧
    (readRM h w o s = .ok v s1 → exec (.cmovcc h cc w d o) s =
      s.done h (s1.regWrite w d (if s.flags.st.cond cc then v else s.regRead w d))) ∧
    (destOpen h .w8 o s = .ok p s1 → exec (.setcc h cc o) s =
      s.done h (s1.destWrite .w8 o p (if s.flags.st.cond cc then 1 else 0))) ∧
    exec (.lahf h) s = s.done h (s.regWrite .w8 ⟨0, true⟩ (s.flags.image &&& 0xFF)) ∧
    exec (.sahf h) s = s.done h (s.withFlags (s.flags.withSt
      { s.flags.st with
        sf := bit (s.x 0) 15, zf := bit (s.x 0) 14, af := bit (s.x 0) 12
        pf := bit (s.x 0) 10, cf := bit (s.x 0) 8 }))

/-- R338: the sixteen conditions, in pairs of opposites. -/
def Obligations.ConditionCodes : Prop :=
  ∀ f : SFlags,
    (f.cond .o = f.of ∧ f.cond .no = !f.of) ∧ (f.cond .b = f.cf ∧ f.cond .ae = !f.cf) ∧
    (f.cond .e = f.zf ∧ f.cond .ne = !f.zf) ∧ (f.cond .s = f.sf ∧ f.cond .ns = !f.sf) ∧
    (f.cond .p = f.pf ∧ f.cond .np = !f.pf) ∧
    (f.cond .be = (f.cf || f.zf) ∧ f.cond .a = !f.cond .be) ∧
    (f.cond .l = (f.sf != f.of) ∧ f.cond .ge = !f.cond .l) ∧
    (f.cond .le = (f.zf || f.cond .l) ∧ f.cond .g = !f.cond .le) ∧
    -- after a comparison: the order of the operands
    ∀ (w : Width) (a b : Word) (fl : Flags) (c : Computed), SubMeans w a b false fl c →
      a.toNat < 2 ^ w.bits → b.toNat < 2 ^ w.bits →
      (c.flags.st.cond .b = true ↔ a.toNat < b.toNat) ∧
      (c.flags.st.cond .e = true ↔ a.toNat = b.toNat) ∧
      (c.flags.st.cond .l = true ↔ sint w a < sint w b)

/-- R420 to R426: pushes store below the stack pointer and then move it (PUSHF with RF and VM as 0); POP, POPF
(with the mask its privilege gives) and LEAVE read at the stack pointer or at rBP; the address of POP to
memory has the incremented pointer for rSP. -/
def Obligations.StackInstructions : Prop :=
  ∀ (h : Hdr) (w : Width) (s s1 s2 : State) (v : Word) (p : Span),
    (openAccess .ss (s.spMinus w.bytes) w.bytes .write s = .ok p s1 →
      (∀ r, exec (.push h (.reg w r)) s =
        s.done h ((s1.stored p w.bytes (s.regRead w r)).setSp (s.spMinus w.bytes))) ∧
      exec (.push h (.immz w v)) s = s.done h ((s1.stored p w.bytes v).setSp (s.spMinus w.bytes)) ∧
      exec (.push h (.imm8 w v)) s = s.done h ((s1.stored p w.bytes v).setSp (s.spMinus w.bytes)) ∧
      exec (.pushf h w) s = s.done h
        ((s1.stored p w.bytes (trunc w (s.flags.image &&& 0xFCFFFF))).setSp (s.spMinus w.bytes))) ∧
    (∀ o, readRM h w o s = .ok v s1 →
      openAccess .ss (s.spMinus w.bytes) w.bytes .write s1 = .ok p s2 →
      exec (.push h (.rm w o)) s = s.done h ((s2.stored p w.bytes v).setSp (s.spMinus w.bytes))) ∧
    (memRead .ss s.sp w.bytes s = .ok v s1 →
      (∀ r, exec (.pop h (.reg w r)) s =
        s.done h ((s1.setSp (s.spPlus w.bytes)).regWrite w r v)) ∧
      (∀ r, exec (.pop h (.rm w (.reg r))) s =
        s.done h ((s1.setSp (s.spPlus w.bytes)).regWrite w r v)) ∧
      (∀ mo,
        openAccess mo.seg ((s.setX 4 (s.spPlus w.bytes)).ea h mo) w.bytes .write s1 = .ok p s2 →
        exec (.pop h (.rm w (.mem mo))) s =
          s.done h ((s2.stored p w.bytes v).setSp (s.spPlus w.bytes))) ∧
      (∃ f : Flags,
        exec (.popf h w) s =
          s.doneSystem h false ((s1.setSp (s.spPlus w.bytes)).withFlags f) ∧
        f.image =
          (let mask : Word := 0x7FD5 ||| (if 32 ≤ w.bits then 0x240000 else 0)
           let mask := if 0 < s.cpl then mask &&& ~~~0x3000 else mask
           let mask := if s.flags.iopl < s.cpl then mask &&& ~~~0x200 else mask
           ((s.flags.image &&& ~~~mask) ||| (v &&& mask)) &&& ~~~0x10000))) ∧
    (memRead .ss (s.regRead s.stackSize rBP) w.bytes s = .ok v s1 →
      exec (.leave h w) s = s.done h
        ((s1.setSp (trunc s.stackSize (s.regRead s.stackSize rBP + BitVec.ofNat 64 w.bytes))).regWrite
          w rBP v))

/-! ### Results: control transfer -/

/-- R520 to R523, R528 to R531: jumps, conditional jumps and loops, taken with a target that passes its
check (canonical in 64-bit mode, else within the CS limit where segments are checked), not taken, or
refused with `#GP(0)` before anything is committed. -/
def Obligations.JumpsAndLoops : Prop :=
  ∀ (h : Hdr) (w : Width) (z : RelSize) (rel : Word) (s s1 : State) (o : RM) (v : Word),
    let t := trunc w (s.nextRip h.len + rel)
    let c := trunc h.a (s.regRead h.a rCX - 1)
    (s.branchOk t = true →
      exec (.jmpRel h w z rel) s = s.jumped h t s ∧
      (∀ cc, s.flags.st.cond cc = true → exec (.jcc h cc w z rel) s = s.jumped h t s) ∧
      (s.regRead h.a rCX = 0 → exec (.jrcxz h w rel) s = s.jumped h t s) ∧
      (c ≠ 0 → exec (.loop h w rel) s = s.jumped h t (s.regWrite h.a rCX c) ∧
        (s.flags.st.zf = true → exec (.loope h w rel) s = s.jumped h t (s.regWrite h.a rCX c)) ∧
        (s.flags.st.zf = false → exec (.loopne h w rel) s = s.jumped h t (s.regWrite h.a rCX c)))) ∧
    (∀ cc, s.flags.st.cond cc = false → exec (.jcc h cc w z rel) s = s.jumped h (s.nextRip h.len) s) ∧
    (s.regRead h.a rCX ≠ 0 → exec (.jrcxz h w rel) s = s.jumped h (s.nextRip h.len) s) ∧
    (c = 0 → exec (.loop h w rel) s = s.jumped h (s.nextRip h.len) (s.regWrite h.a rCX c)) ∧
    (c = 0 ∨ s.flags.st.zf = false →
      exec (.loope h w rel) s = s.jumped h (s.nextRip h.len) (s.regWrite h.a rCX c)) ∧
    (c = 0 ∨ s.flags.st.zf = true →
      exec (.loopne h w rel) s = s.jumped h (s.nextRip h.len) (s.regWrite h.a rCX c)) ∧
    (readRM h w o s = .ok v s1 →
      (s.branchOk v = true → exec (.jmpInd h w o) s = s.jumped h v s1) ∧
      (s.branchOk v = false → exec (.jmpInd h w o) s = s1.faults (.gp 0))) ∧
    (s.branchOk t = false →
      exec (.jmpRel h w z rel) s = s.faults (.gp 0) ∧ exec (.callRel h w rel) s = s.faults (.gp 0) ∧
      (∀ cc, s.flags.st.cond cc = true → exec (.jcc h cc w z rel) s = s.faults (.gp 0)) ∧
      (c ≠ 0 → exec (.loop h w rel) s = s.faults (.gp 0) ∧
        (s.flags.st.zf = true → exec (.loope h w rel) s = s.faults (.gp 0)) ∧
        (s.flags.st.zf = false → exec (.loopne h w rel) s = s.faults (.gp 0))) ∧
      (s.regRead h.a rCX = 0 → exec (.jrcxz h w rel) s = s.faults (.gp 0))) ∧
    (∀ u, s.branchOk u = true ↔
      if s.decodeMode = .m64 then (u.toNat < 2 ^ 47 ∨ 2 ^ 64 - 2 ^ 47 ≤ u.toNat)
      else (s.cfg.segChecks = true → u.toNat ≤ s.segs.cs.limit.toNat))

/-- R524 to R527: calls push the address after them; returns pop it, RET imm16 releasing `imm` more bytes.
A target that fails its check (R520) raises `#GP(0)` with nothing pushed and the stack pointer where it
was. -/
def Obligations.CallsAndReturns : Prop :=
  ∀ (h : Hdr) (w : Width) (s s1 s2 : State) (rel v : Word) (p : Span) (imm : BitVec 16),
    let back := trunc w (s.nextRip h.len)
    let t := trunc w (s.nextRip h.len + rel)
    (s.branchOk t = true → openAccess .ss (s.spMinus w.bytes) w.bytes .write s = .ok p s2 →
      exec (.callRel h w rel) s =
        s.jumped h t ((s2.stored p w.bytes back).setSp (s.spMinus w.bytes))) ∧
    (∀ o, readRM h w o s = .ok v s1 → s.branchOk v = true →
      openAccess .ss (s.spMinus w.bytes) w.bytes .write s1 = .ok p s2 →
      exec (.callInd h w o) s =
        s.jumped h v ((s2.stored p w.bytes back).setSp (s.spMinus w.bytes))) ∧
    (memRead .ss s.sp w.bytes s = .ok v s1 → s.branchOk v = true →
      exec (.ret h w) s = s.jumped h v (s1.setSp (s.spPlus w.bytes)) ∧
      exec (.retImm h w imm) s = s.jumped h v (s1.setSp (s.spPlus (w.bytes + imm.toNat)))) ∧
    (s.branchOk t = false → exec (.callRel h w rel) s = s.faults (.gp 0)) ∧
    (∀ o, readRM h w o s = .ok v s1 → s.branchOk v = false →
      exec (.callInd h w o) s = s1.faults (.gp 0)) ∧
    (memRead .ss s.sp w.bytes s = .ok v s1 → s.branchOk v = false →
      exec (.ret h w) s = s1.faults (.gp 0) ∧ exec (.retImm h w imm) s = s1.faults (.gp 0))

/-- R532 to R535, R713: software interrupts are reported with nothing changed and nothing retired, INT3 with
a length of 1, INT n and a taken INTO with the decoded length; INTO without overflow completes; UD2 and the
invalid encodings raise `#UD`. -/
def Obligations.SoftwareInterruptsAndInvalid : Prop :=
  ∀ (h : Hdr) (vec : BitVec 8) (s : State),
    exec (.int3 h) s =
      .next { s with outcome := some ⟨.softInt 3 .int3 1, s.retired, s.rip⟩ } ∧
    exec (.intn h vec) s =
      .next { s with outcome := some ⟨.softInt vec .intN h.len, s.retired, s.rip⟩ } ∧
    (s.flags.st.of = true → exec (.into h) s =
      .next { s with outcome := some ⟨.softInt 4 .into h.len, s.retired, s.rip⟩ }) ∧
    (s.flags.st.of = false → exec (.into h) s = s.jumped h (s.nextRip h.len) s) ∧
    exec .ud2 s = .next { s with outcome := some ⟨.fault ⟨6, none, none⟩, s.retired, s.rip⟩ } ∧
    exec .invalid s = .next { s with outcome := some ⟨.fault ⟨6, none, none⟩, s.retired, s.rip⟩ }

/-! ### Results: strings -/

/-- R560, R562 to R566: one element, without a repeat prefix. -/
def Obligations.StringElements : Prop :=
  ∀ (h : Hdr) (w : Width) (s s1 s2 : State) (v y : Word) (p : Span), h.rep = .none →
    let si := s.regRead h.a rSI
    let di := s.regRead h.a rDI
    let next : Word → Word := fun r =>
      if s.flags.df then r - BitVec.ofNat 64 w.bytes else r + BitVec.ofNat 64 w.bytes
    (memRead (h.segOv.getD .ds) si w.bytes s = .ok v s1 →
      (openAccess .es di w.bytes .write s1 = .ok p s2 → exec (.movs h w) s = s.done h
        (((s2.stored p w.bytes v).regWrite h.a rSI (next si)).regWrite h.a rDI (next di))) ∧
      exec (.lods h w) s = s.done h ((s1.regWrite w rAX v).regWrite h.a rSI (next si)) ∧
      (memRead .es di w.bytes s1 = .ok y s2 → ∃ c, SubMeans w v y false s.flags c ∧
        exec (.cmps h w) s = s.done h
          (((s2.withFlags c.flags).regWrite h.a rSI (next si)).regWrite h.a rDI (next di)))) ∧
    (openAccess .es di w.bytes .write s = .ok p s1 → exec (.stos h w) s = s.done h
      ((s1.stored p w.bytes (s.regRead w rAX)).regWrite h.a rDI (next di))) ∧
    (memRead .es di w.bytes s = .ok y s1 → ∃ c, SubMeans w (s.regRead w rAX) y false s.flags c ∧
      exec (.scas h w) s = s.done h ((s1.withFlags c.flags).regWrite h.a rDI (next di)))

/-- R560 to R564, R570: a repeated string instruction runs its elements until the count is 0 or, for CMPS and
SCAS, the zero flag ends it; it completes where they do, and is retired once. Where no access can fault it
does: RCX has gone down by the elements done, RSI and RDI are past them, the flags change by CMPS and SCAS
only. In RAM REP STOS fills its elements with the accumulator, in either direction; REP MOVS copies when
source and destination do not overlap; REP LODS leaves the last element in the accumulator. (That no
element's bytes overlap another's is a count of elements that fits the address size.) -/
def Obligations.RepeatedStringsComplete : Prop :=
  ∀ (o : StringOp) (h : Hdr) (w : Width) (s : State), h.rep ≠ .none → h.a ≠ .w8 →
    let n := (s.regRead h.a rCX).toNat
    let src : Nat → Nat → Nat := fun k j => s.flatAddr (h.segOv.getD .ds) (s.indexAfter h w rSI k) j
    let dst : Nat → Nat → Nat := fun k j => s.flatAddr .es (s.indexAfter h w rDI k) j
    (∀ k t, ElementsDone o h w k s t → (k = n ∨ (0 < k ∧ k ≤ n ∧ RepEnds o h t)) →
      exec (o.instr h w) s = s.done h t) ∧
    (n = 0 → exec (o.instr h w) s = s.done h s) ∧
    (s.Flat → ∃ k t, k ≤ n ∧ ElementsDone o h w k s t ∧ exec (o.instr h w) s = s.done h t ∧
      (k = n ∨ (0 < k ∧ RepEnds o h t)) ∧ (t.regRead h.a rCX).toNat = n - k ∧
      t.regRead h.a rSI = (if o.usesSrc then s.indexAfter h w rSI k else s.regRead h.a rSI) ∧
      t.regRead h.a rDI = (if o.usesDst then s.indexAfter h w rDI k else s.regRead h.a rDI) ∧
      (o.compares = false → t.flags = s.flags) ∧ (o ≠ .lods → t.x 0 = s.x 0)) ∧
    (s.Flat → s.AllRam → s.ms.wf = true → h.a ≠ .w64 → n * w.bytes ≤ 2 ^ h.a.bits →
      (∃ t, exec (.stos h w) s = s.done h t ∧
        (∀ k j, k < n → j < w.bytes → t.ms.byte (dst k j) = BitVec.ofNat 8 ((s.x 0).toNat / 256 ^ j)) ∧
        (∀ pa, (∀ k j, k < n → j < w.bytes → pa ≠ dst k j) → t.ms.byte pa = s.ms.byte pa)) ∧
      ((∀ k j k' j', k < n → j < w.bytes → k' < n → j' < w.bytes → src k j ≠ dst k' j') →
        ∃ t, exec (.movs h w) s = s.done h t ∧
          (∀ k j, k < n → j < w.bytes → t.ms.byte (dst k j) = s.ms.byte (src k j)) ∧
          (∀ pa, (∀ k j, k < n → j < w.bytes → pa ≠ dst k j) → t.ms.byte pa = s.ms.byte pa))) ∧
    (s.Flat → s.AllRam → ∃ t, exec (.lods h w) s = s.done h t ∧ t.ms = s.ms ∧
      (0 < n → t.x 0 = (s.regWrite w rAX
        (BitVec.ofNat 64 (leNat ((List.range w.bytes).map fun j => s.ms.byte (src (n - 1) j))))).x 0))

/-! ### Results: system instructions -/

/-- R601 to R607: the no-operations and fences change nothing but `rip`; HLT, CLI and STI check their
privilege; the flag instructions change one flag each. -/
def Obligations.NoOperationsAndFlagControl : Prop :=
  ∀ (h : Hdr) (w : Width) (o : RM) (s : State),
    exec (.nop h) s = s.done h s ∧ exec (.pause h) s = s.done h s ∧
    exec (.nopRm h w o) s = s.done h s ∧ exec (.lfence h) s = s.done h s ∧
    exec (.mfence h) s = s.done h s ∧ exec (.sfence h) s = s.done h s ∧
    exec (.clc h) s = s.done h (s.withFlags (s.flags.withSt { s.flags.st with cf := false })) ∧
    exec (.stc h) s = s.done h (s.withFlags (s.flags.withSt { s.flags.st with cf := true })) ∧
    exec (.cmc h) s = s.done h (s.withFlags (s.flags.withSt { s.flags.st with cf := !s.flags.st.cf })) ∧
    exec (.cld h) s = s.done h (s.withFlags { s.flags with df := false }) ∧
    exec (.std h) s = s.done h (s.withFlags { s.flags with df := true }) ∧
    (s.cpl = 0 → exec (.hlt h) s = s.doneSystem h false { s with halted := true }) ∧
    (s.opMode = .real ∨ s.cpl ≤ s.flags.iopl →
      exec (.cli h) s = s.doneSystem h false (s.withFlags { s.flags with ie := false }) ∧
      exec (.sti h) s = s.doneSystem h (!s.flags.ie) (s.withFlags { s.flags with ie := true })) ∧
    (¬(s.opMode = .real ∨ s.cpl ≤ s.flags.iopl) →
      exec (.cli h) s = s.faults (.gp 0) ∧ exec (.sti h) s = s.faults (.gp 0))

/-- R610 to R613: MOV to and from the control registers at level 0, the status flags left free; the values
a control register refuses, each with `#GP(0)` and nothing changed. -/
def Obligations.ControlRegisterMoves : Prop :=
  ∀ (h : Hdr) (w : Width) (r : RegNum) (s : State), s.cpl = 0 →
    let v := s.regRead w (gpr r)
    (∀ c, ∃ g, exec (.movFromCr h w r c) s =
      s.doneSystem h false ((s.regWrite w (gpr r) (trunc w (s.cr c))).withFlags (s.flags.withSt g))) ∧
    (field v 63 32 = 0 → (bit v 31 = true → bit v 0 = true) → (bit v 29 = true → bit v 30 = true) →
      (bit v 31 = true → s.pg = false → s.lme = true → s.pae = true ∧ s.segs.cs.l = false) →
      (bit v 31 = false → s.pg = true → s.decodeMode ≠ .m64) →
      ∃ g, exec (.movToCr h w .cr0 r) s = s.doneSystem h false
        (({ s with
            cr0 := (v &&& 0xE005003F) ||| 0x10
            efer := if s.lme && bit v 31 then s.efer ||| 0x400 else s.efer &&& ~~~0x400
            tlbSalt := s.tlbSalt + 1 } : State).withFlags (s.flags.withSt g))) ∧
    (∃ g, exec (.movToCr h w .cr2 r) s =
      s.doneSystem h false (({ s with cr2 := v } : State).withFlags (s.flags.withSt g))) ∧
    (s.cfg.ok = true → v.toNat < 2 ^ s.cfg.physBits → ∃ g, exec (.movToCr h w .cr3 r) s =
      s.doneSystem h false
        (({ s with cr3 := v, tlbSalt := s.tlbSalt + 1 } : State).withFlags (s.flags.withSt g))) ∧
    (v.toNat < 2 ^ 11 → (s.lma = true → bit v 5 = true) → ∃ g, exec (.movToCr h w .cr4 r) s =
      s.doneSystem h false
        (({ s with cr4 := v, tlbSalt := s.tlbSalt + 1 } : State).withFlags (s.flags.withSt g))) ∧
    ((field v 63 32 ≠ 0 ∨ (bit v 31 = true ∧ bit v 0 = false) ∨ (bit v 29 = true ∧ bit v 30 = false) ∨
        (bit v 31 = true ∧ s.pg = false ∧ s.lme = true ∧ (s.pae = false ∨ s.segs.cs.l = true)) ∨
        (bit v 31 = false ∧ s.pg = true ∧ s.decodeMode = .m64)) →
      exec (.movToCr h w .cr0 r) s = s.faults (.gp 0)) ∧
    (s.cfg.ok = true → 2 ^ s.cfg.physBits ≤ v.toNat →
      exec (.movToCr h w .cr3 r) s = s.faults (.gp 0)) ∧
    ((2 ^ 11 ≤ v.toNat ∨ (s.lma = true ∧ bit v 5 = false)) →
      exec (.movToCr h w .cr4 r) s = s.faults (.gp 0))

/-- R616 to R619: segment moves. In real mode a load writes selector and base; a null selector makes a
register unusable where that is allowed; any other selects a descriptor of the GDT or, by its TI bit, the
LDT, which is refused by the table, by its type, its S bit or its privilege, or as not present, and is
else loaded, its accessed bit set in memory first where it is clear. -/
def Obligations.SegmentMoves : Prop :=
  ∀ (h : Hdr) (w : Width) (r : SReg) (o : RM) (s s1 : State) (v : Word) (p : Span),
    (∀ g, exec (.movFromSeg h w (.reg g) r) s =
      s.done h (s.regWrite w g ((s.segs.get r).selector.setWidth 64))) ∧
    (∀ mo, destOpen h .w16 (.mem mo) s = .ok p s1 → exec (.movFromSeg h w (.mem mo) r) s =
      s.done h (s1.destWrite .w16 (.mem mo) p ((s.segs.get r).selector.setWidth 64))) ∧
    (exec (.movToSeg h .cs o) s = s.faults .ud) ∧
    (r ≠ .cs → readRM h .w16 o s = .ok v s1 →
      let sel := v.toNat % 2 ^ 16
      let rpl := sel % 4
      let err := BitVec.ofNat 32 (sel / 4 * 4)
      let cpl := s.cpl.toNat
      let ldt := bit v 2 = true
      let table := if ldt then s.ldtr.base else s.gdtr.base
      let limit := if ldt then s.ldtr.limit.toNat else s.gdtr.limit.toNat
      let lin := table + BitVec.ofNat 64 (sel / 8 * 8)
      let loads (t : State) (g : SegReg) : Prop :=
        exec (.movToSeg h r o) s = s.doneSystem h (decide (r = .ss)) (t.setSeg r g)
      let raises (t : State) (f : FaultRec) : Prop := exec (.movToSeg h r o) s = t.faults f
      (s.opMode = .real → loads s1 { s.segs.get r with
        selector := v.setWidth 16, base := BitVec.ofNat 64 (sel * 16) }) ∧
      (s.opMode ≠ .real → sel < 4 →
        (r ≠ .ss ∨ (s.decodeMode = .m64 ∧ cpl ≠ 3 ∧ rpl = cpl) →
          loads s1 ⟨v.setWidth 16, 0, 0, 0, false, 0, false, false, false, false, false, true⟩) ∧
        (r = .ss → ¬(s.decodeMode = .m64 ∧ cpl ≠ 3 ∧ rpl = cpl) → raises s1 (.gp 0))) ∧
      (s.opMode ≠ .real → 4 ≤ sel →
        (ldt → s.ldtr.unusable = true ∨ s.ldtr.selector.toNat < 4 → raises s1 (.gp err)) ∧
        ((ldt → s.ldtr.unusable = false ∧ 4 ≤ s.ldtr.selector.toNat) →
          (limit < sel / 8 * 8 + 7 → raises s1 (.gp err)) ∧
          (sel / 8 * 8 + 7 ≤ limit →
            (∀ f u, sysRead lin 8 s1 = .error f u → raises u f) ∧
            ∀ raw s2, sysRead lin 8 s1 = .ok raw s2 →
              let code := bit raw 43 = true
              let conforming := bit raw 42 = true
              -- writable data, readable code
              let open' := bit raw 41 = true
              let dpl := field raw 46 45
              let wrong := if r = .ss then
                  rpl ≠ cpl ∨ bit raw 44 = false ∨ code ∨ ¬open' ∨ dpl ≠ cpl
                else
                  bit raw 44 = false ∨ (code ∧ ¬open') ∨
                    ((¬code ∨ ¬conforming) ∧ (dpl < rpl ∨ dpl < cpl))
              let present := bit raw 47 = true
              let seg : SegReg :=
                { selector := v.setWidth 16
                  base := BitVec.ofNat 64 (field raw 39 16 + field raw 63 56 * 2 ^ 24)
                  limit := BitVec.ofNat 32 (if bit raw 55
                    then (field raw 15 0 + field raw 51 48 * 2 ^ 16) * 4096 + 4095
                    else field raw 15 0 + field raw 51 48 * 2 ^ 16)
                  type := BitVec.ofNat 4 (field raw 43 40) ||| 1
                  s := true
                  dpl := BitVec.ofNat 2 dpl
                  p := true
                  avl := bit raw 52
                  l := bit raw 53
                  db := bit raw 54
                  g := bit raw 55
                  unusable := false }
              -- byte 5 of the descriptor with the accessed bit set
              let mark : M Unit := sysWrite (lin + 5) 1 (BitVec.ofNat 64 (field raw 47 40) ||| 1)
              (wrong → raises s2 (.gp err)) ∧
              (¬wrong → ¬present → raises s2 (if r = .ss then .ss err else .np err)) ∧
              (¬wrong → present → bit raw 40 = true → loads s2 seg) ∧
              (¬wrong → present → bit raw 40 = false →
                (∀ s3, mark s2 = .ok () s3 → loads s3 seg) ∧
                (∀ f u, mark s2 = .error f u → raises u f))))))

/-- R620 to R622, R627: the table registers, INVLPG, SWAPGS at level 0. -/
def Obligations.TablesInvlpgSwapgs : Prop :=
  ∀ (h : Hdr) (w : Width) (mo : MemOp) (s s1 s2 : State) (lim base : Word), s.cpl = 0 →
    (memRead mo.seg (s.ea h mo) 2 s = .ok lim s1 →
      memRead mo.seg (trunc h.a (s.ea h mo + 2)) (if s.decodeMode = .m64 then 8 else 4) s1 =
        .ok base s2 →
      ((s.decodeMode = .m64 → canonical base = true) →
        let v := if s.decodeMode ≠ .m64 ∧ w = .w16 then BitVec.ofNat 64 (base.toNat % 2 ^ 24) else base
        exec (.lgdt h w mo) s = s.doneSystem h false { s2 with gdtr := ⟨v, lim.setWidth 16⟩ } ∧
        exec (.lidt h w mo) s = s.doneSystem h false { s2 with idtr := ⟨v, lim.setWidth 16⟩ }) ∧
      (s.decodeMode = .m64 → canonical base = false →
        exec (.lgdt h w mo) s = s2.faults (.gp 0) ∧ exec (.lidt h w mo) s = s2.faults (.gp 0))) ∧
    exec (.invlpg h mo) s = s.doneSystem h false { s with tlbSalt := s.tlbSalt + 1 } ∧
    exec (.swapgs h) s = s.doneSystem h false
      { s with
        segs := { s.segs with gs := { s.segs.gs with base := s.kernelGsBase } }
        kernelGsBase := s.segs.gs.base }

/-- R623 to R626, R628: RDMSR and WRMSR by the MSR map at level 0, and CPUID by the configuration's
table. -/
def Obligations.MsrsAndCpuid : Prop :=
  ∀ (h : Hdr) (s : State),
    let idx := (s.x 1).toNat % 2 ^ 32
    let v := BitVec.ofNat 64 ((s.x 2).toNat % 2 ^ 32 * 2 ^ 32 + (s.x 0).toNat % 2 ^ 32)
    let extra := ∃ e ∈ s.cfg.msrExtra, e.toNat = idx
    let read : Word → Prop := fun u => exec (.rdmsr h) s = s.doneSystem h false
      ((s.regWrite .w32 rAX (BitVec.ofNat 64 (u.toNat % 2 ^ 32))).regWrite .w32 rDX
        (BitVec.ofNat 64 (u.toNat / 2 ^ 32)))
    let named := idx = 0xC0000080 ∨ idx = 0xC0000100 ∨ idx = 0xC0000101 ∨ idx = 0xC0000102
    (s.cpl = 0 →
      (idx = 0xC0000080 → read s.efer ∧
        (v &&& ~~~0xD01 = 0 → (s.pg = true → bit v 8 = s.lme) → exec (.wrmsr h) s =
          s.doneSystem h false { s with
            efer := (v &&& 0x901) ||| (s.efer &&& 0x400), tlbSalt := s.tlbSalt + 1 }) ∧
        (v &&& ~~~0xD01 ≠ 0 ∨ (s.pg = true ∧ bit v 8 ≠ s.lme) →
          exec (.wrmsr h) s = s.faults (.gp 0))) ∧
      (idx = 0xC0000100 → read s.segs.fs.base ∧ (canonical v = true → exec (.wrmsr h) s =
        s.doneSystem h false { s with segs := { s.segs with fs := { s.segs.fs with base := v } } })) ∧
      (idx = 0xC0000101 → read s.segs.gs.base ∧ (canonical v = true → exec (.wrmsr h) s =
        s.doneSystem h false { s with segs := { s.segs with gs := { s.segs.gs with base := v } } })) ∧
      (idx = 0xC0000102 → read s.kernelGsBase ∧ (canonical v = true → exec (.wrmsr h) s =
        s.doneSystem h false { s with kernelGsBase := v })) ∧
      (¬named → extra → read (s.msrRead (.extra idx)) ∧ (sparseWf 0 s.msrExtra = true → ∃ l,
        exec (.wrmsr h) s = s.doneSystem h false { s with msrExtra := l } ∧
        ∀ k, sparseGet 0 l k = if k = idx then v else sparseGet 0 s.msrExtra k)) ∧
      (¬named → ¬extra → exec (.rdmsr h) s = s.faults (.gp 0) ∧ exec (.wrmsr h) s = s.faults (.gp 0)) ∧
      (named → idx ≠ 0xC0000080 → canonical v = false → exec (.wrmsr h) s = s.faults (.gp 0))) ∧
    (let c := cpuidTable ((s.x 0).setWidth 32) ((s.x 1).setWidth 32)
     exec (.cpuid h) s = s.doneSystem h false
      ((((s.regWrite .w32 rAX (c.eax.setWidth 64)).regWrite .w32 rBX (c.ebx.setWidth 64)).regWrite
        .w32 rCX (c.ecx.setWidth 64)).regWrite .w32 rDX (c.edx.setWidth 64)))
end

