-- ==== Sys2Proof/Laws/State.lean ====
section
/-! SUPPORT. One lemma per field per update of the state, each true by computation: what a named update sets,
and that it leaves every other field alone. Then the same for the functions that are derived from the
state (modes, control bits, registers). -/

namespace Sys2Proof.Machine
open Sys2Proof

/-! `setX` -/

@[simp] theorem setX_regs (s : State) (i : RegNum) (v : Word) :
    (s.setX i v).regs = s.regs.set i v := rfl
@[simp] theorem setX_rip (s : State) (i : RegNum) (v : Word) : (s.setX i v).rip = s.rip := rfl
@[simp] theorem setX_flags (s : State) (i : RegNum) (v : Word) : (s.setX i v).flags = s.flags := rfl
@[simp] theorem setX_segs (s : State) (i : RegNum) (v : Word) : (s.setX i v).segs = s.segs := rfl
@[simp] theorem setX_ldtr (s : State) (i : RegNum) (v : Word) : (s.setX i v).ldtr = s.ldtr := rfl
@[simp] theorem setX_tr (s : State) (i : RegNum) (v : Word) : (s.setX i v).tr = s.tr := rfl
@[simp] theorem setX_gdtr (s : State) (i : RegNum) (v : Word) : (s.setX i v).gdtr = s.gdtr := rfl
@[simp] theorem setX_idtr (s : State) (i : RegNum) (v : Word) : (s.setX i v).idtr = s.idtr := rfl
@[simp] theorem setX_cpl (s : State) (i : RegNum) (v : Word) : (s.setX i v).cpl = s.cpl := rfl
@[simp] theorem setX_cr0 (s : State) (i : RegNum) (v : Word) : (s.setX i v).cr0 = s.cr0 := rfl
@[simp] theorem setX_cr2 (s : State) (i : RegNum) (v : Word) : (s.setX i v).cr2 = s.cr2 := rfl
@[simp] theorem setX_cr3 (s : State) (i : RegNum) (v : Word) : (s.setX i v).cr3 = s.cr3 := rfl
@[simp] theorem setX_cr4 (s : State) (i : RegNum) (v : Word) : (s.setX i v).cr4 = s.cr4 := rfl
@[simp] theorem setX_efer (s : State) (i : RegNum) (v : Word) : (s.setX i v).efer = s.efer := rfl
@[simp] theorem setX_kernelGsBase (s : State) (i : RegNum) (v : Word) :
    (s.setX i v).kernelGsBase = s.kernelGsBase := rfl
@[simp] theorem setX_msrExtra (s : State) (i : RegNum) (v : Word) :
    (s.setX i v).msrExtra = s.msrExtra := rfl
@[simp] theorem setX_fpuSse (s : State) (i : RegNum) (v : Word) :
    (s.setX i v).fpuSse = s.fpuSse := rfl
@[simp] theorem setX_halted (s : State) (i : RegNum) (v : Word) :
    (s.setX i v).halted = s.halted := rfl
@[simp] theorem setX_interruptShadow (s : State) (i : RegNum) (v : Word) :
    (s.setX i v).interruptShadow = s.interruptShadow := rfl
@[simp] theorem setX_tlbSalt (s : State) (i : RegNum) (v : Word) :
    (s.setX i v).tlbSalt = s.tlbSalt := rfl
@[simp] theorem setX_ms (s : State) (i : RegNum) (v : Word) : (s.setX i v).ms = s.ms := rfl
@[simp] theorem setX_retired (s : State) (i : RegNum) (v : Word) :
    (s.setX i v).retired = s.retired := rfl
@[simp] theorem setX_nbytes (s : State) (i : RegNum) (v : Word) :
    (s.setX i v).nbytes = s.nbytes := rfl
@[simp] theorem setX_outcome (s : State) (i : RegNum) (v : Word) :
    (s.setX i v).outcome = s.outcome := rfl
@[simp] theorem setX_cfg (s : State) (i : RegNum) (v : Word) : (s.setX i v).cfg = s.cfg := rfl

/-! `regWrite` -/

@[simp] theorem regWrite_regs (s : State) (w : Width) (r : Gpr) (v : Word) :
    (s.regWrite w r v).regs = s.regs.set r.num (mergeReg w r.high8 (s.x r.num) v) := rfl
@[simp] theorem regWrite_rip (s : State) (w : Width) (r : Gpr) (v : Word) :
    (s.regWrite w r v).rip = s.rip := rfl
@[simp] theorem regWrite_flags (s : State) (w : Width) (r : Gpr) (v : Word) :
    (s.regWrite w r v).flags = s.flags := rfl
@[simp] theorem regWrite_segs (s : State) (w : Width) (r : Gpr) (v : Word) :
    (s.regWrite w r v).segs = s.segs := rfl
@[simp] theorem regWrite_ldtr (s : State) (w : Width) (r : Gpr) (v : Word) :
    (s.regWrite w r v).ldtr = s.ldtr := rfl
@[simp] theorem regWrite_tr (s : State) (w : Width) (r : Gpr) (v : Word) :
    (s.regWrite w r v).tr = s.tr := rfl
@[simp] theorem regWrite_gdtr (s : State) (w : Width) (r : Gpr) (v : Word) :
    (s.regWrite w r v).gdtr = s.gdtr := rfl
@[simp] theorem regWrite_idtr (s : State) (w : Width) (r : Gpr) (v : Word) :
    (s.regWrite w r v).idtr = s.idtr := rfl
@[simp] theorem regWrite_cpl (s : State) (w : Width) (r : Gpr) (v : Word) :
    (s.regWrite w r v).cpl = s.cpl := rfl
@[simp] theorem regWrite_cr0 (s : State) (w : Width) (r : Gpr) (v : Word) :
    (s.regWrite w r v).cr0 = s.cr0 := rfl
@[simp] theorem regWrite_cr2 (s : State) (w : Width) (r : Gpr) (v : Word) :
    (s.regWrite w r v).cr2 = s.cr2 := rfl
@[simp] theorem regWrite_cr3 (s : State) (w : Width) (r : Gpr) (v : Word) :
    (s.regWrite w r v).cr3 = s.cr3 := rfl
@[simp] theorem regWrite_cr4 (s : State) (w : Width) (r : Gpr) (v : Word) :
    (s.regWrite w r v).cr4 = s.cr4 := rfl
@[simp] theorem regWrite_efer (s : State) (w : Width) (r : Gpr) (v : Word) :
    (s.regWrite w r v).efer = s.efer := rfl
@[simp] theorem regWrite_kernelGsBase (s : State) (w : Width) (r : Gpr) (v : Word) :
    (s.regWrite w r v).kernelGsBase = s.kernelGsBase := rfl
@[simp] theorem regWrite_msrExtra (s : State) (w : Width) (r : Gpr) (v : Word) :
    (s.regWrite w r v).msrExtra = s.msrExtra := rfl
@[simp] theorem regWrite_fpuSse (s : State) (w : Width) (r : Gpr) (v : Word) :
    (s.regWrite w r v).fpuSse = s.fpuSse := rfl
@[simp] theorem regWrite_halted (s : State) (w : Width) (r : Gpr) (v : Word) :
    (s.regWrite w r v).halted = s.halted := rfl
@[simp] theorem regWrite_interruptShadow (s : State) (w : Width) (r : Gpr) (v : Word) :
    (s.regWrite w r v).interruptShadow = s.interruptShadow := rfl
@[simp] theorem regWrite_tlbSalt (s : State) (w : Width) (r : Gpr) (v : Word) :
    (s.regWrite w r v).tlbSalt = s.tlbSalt := rfl
@[simp] theorem regWrite_ms (s : State) (w : Width) (r : Gpr) (v : Word) :
    (s.regWrite w r v).ms = s.ms := rfl
@[simp] theorem regWrite_retired (s : State) (w : Width) (r : Gpr) (v : Word) :
    (s.regWrite w r v).retired = s.retired := rfl
@[simp] theorem regWrite_nbytes (s : State) (w : Width) (r : Gpr) (v : Word) :
    (s.regWrite w r v).nbytes = s.nbytes := rfl
@[simp] theorem regWrite_outcome (s : State) (w : Width) (r : Gpr) (v : Word) :
    (s.regWrite w r v).outcome = s.outcome := rfl
@[simp] theorem regWrite_cfg (s : State) (w : Width) (r : Gpr) (v : Word) :
    (s.regWrite w r v).cfg = s.cfg := rfl

/-! `setSp` -/

@[simp] theorem setSp_regs (s : State) (v : Word) :
    (s.setSp v).regs = s.regs.set (4 : RegNum) (mergeReg s.stackSize false (s.x 4) v) := rfl
@[simp] theorem setSp_rip (s : State) (v : Word) : (s.setSp v).rip = s.rip := rfl
@[simp] theorem setSp_flags (s : State) (v : Word) : (s.setSp v).flags = s.flags := rfl
@[simp] theorem setSp_segs (s : State) (v : Word) : (s.setSp v).segs = s.segs := rfl
@[simp] theorem setSp_ldtr (s : State) (v : Word) : (s.setSp v).ldtr = s.ldtr := rfl
@[simp] theorem setSp_tr (s : State) (v : Word) : (s.setSp v).tr = s.tr := rfl
@[simp] theorem setSp_gdtr (s : State) (v : Word) : (s.setSp v).gdtr = s.gdtr := rfl
@[simp] theorem setSp_idtr (s : State) (v : Word) : (s.setSp v).idtr = s.idtr := rfl
@[simp] theorem setSp_cpl (s : State) (v : Word) : (s.setSp v).cpl = s.cpl := rfl
@[simp] theorem setSp_cr0 (s : State) (v : Word) : (s.setSp v).cr0 = s.cr0 := rfl
@[simp] theorem setSp_cr2 (s : State) (v : Word) : (s.setSp v).cr2 = s.cr2 := rfl
@[simp] theorem setSp_cr3 (s : State) (v : Word) : (s.setSp v).cr3 = s.cr3 := rfl
@[simp] theorem setSp_cr4 (s : State) (v : Word) : (s.setSp v).cr4 = s.cr4 := rfl
@[simp] theorem setSp_efer (s : State) (v : Word) : (s.setSp v).efer = s.efer := rfl
@[simp] theorem setSp_kernelGsBase (s : State) (v : Word) :
    (s.setSp v).kernelGsBase = s.kernelGsBase := rfl
@[simp] theorem setSp_msrExtra (s : State) (v : Word) : (s.setSp v).msrExtra = s.msrExtra := rfl
@[simp] theorem setSp_fpuSse (s : State) (v : Word) : (s.setSp v).fpuSse = s.fpuSse := rfl
@[simp] theorem setSp_halted (s : State) (v : Word) : (s.setSp v).halted = s.halted := rfl
@[simp] theorem setSp_interruptShadow (s : State) (v : Word) :
    (s.setSp v).interruptShadow = s.interruptShadow := rfl
@[simp] theorem setSp_tlbSalt (s : State) (v : Word) : (s.setSp v).tlbSalt = s.tlbSalt := rfl
@[simp] theorem setSp_ms (s : State) (v : Word) : (s.setSp v).ms = s.ms := rfl
@[simp] theorem setSp_retired (s : State) (v : Word) : (s.setSp v).retired = s.retired := rfl
@[simp] theorem setSp_nbytes (s : State) (v : Word) : (s.setSp v).nbytes = s.nbytes := rfl
@[simp] theorem setSp_outcome (s : State) (v : Word) : (s.setSp v).outcome = s.outcome := rfl
@[simp] theorem setSp_cfg (s : State) (v : Word) : (s.setSp v).cfg = s.cfg := rfl

/-! `setPair` -/

@[simp] theorem setPair_rip (s : State) (w : Width) (hi lo : Word) :
    (s.setPair w hi lo).rip = s.rip := by cases w <;> rfl
@[simp] theorem setPair_flags (s : State) (w : Width) (hi lo : Word) :
    (s.setPair w hi lo).flags = s.flags := by cases w <;> rfl
@[simp] theorem setPair_segs (s : State) (w : Width) (hi lo : Word) :
    (s.setPair w hi lo).segs = s.segs := by cases w <;> rfl
@[simp] theorem setPair_ldtr (s : State) (w : Width) (hi lo : Word) :
    (s.setPair w hi lo).ldtr = s.ldtr := by cases w <;> rfl
@[simp] theorem setPair_tr (s : State) (w : Width) (hi lo : Word) :
    (s.setPair w hi lo).tr = s.tr := by cases w <;> rfl
@[simp] theorem setPair_gdtr (s : State) (w : Width) (hi lo : Word) :
    (s.setPair w hi lo).gdtr = s.gdtr := by cases w <;> rfl
@[simp] theorem setPair_idtr (s : State) (w : Width) (hi lo : Word) :
    (s.setPair w hi lo).idtr = s.idtr := by cases w <;> rfl
@[simp] theorem setPair_cpl (s : State) (w : Width) (hi lo : Word) :
    (s.setPair w hi lo).cpl = s.cpl := by cases w <;> rfl
@[simp] theorem setPair_cr0 (s : State) (w : Width) (hi lo : Word) :
    (s.setPair w hi lo).cr0 = s.cr0 := by cases w <;> rfl
@[simp] theorem setPair_cr2 (s : State) (w : Width) (hi lo : Word) :
    (s.setPair w hi lo).cr2 = s.cr2 := by cases w <;> rfl
@[simp] theorem setPair_cr3 (s : State) (w : Width) (hi lo : Word) :
    (s.setPair w hi lo).cr3 = s.cr3 := by cases w <;> rfl
@[simp] theorem setPair_cr4 (s : State) (w : Width) (hi lo : Word) :
    (s.setPair w hi lo).cr4 = s.cr4 := by cases w <;> rfl
@[simp] theorem setPair_efer (s : State) (w : Width) (hi lo : Word) :
    (s.setPair w hi lo).efer = s.efer := by cases w <;> rfl
@[simp] theorem setPair_kernelGsBase (s : State) (w : Width) (hi lo : Word) :
    (s.setPair w hi lo).kernelGsBase = s.kernelGsBase := by cases w <;> rfl
@[simp] theorem setPair_msrExtra (s : State) (w : Width) (hi lo : Word) :
    (s.setPair w hi lo).msrExtra = s.msrExtra := by cases w <;> rfl
@[simp] theorem setPair_fpuSse (s : State) (w : Width) (hi lo : Word) :
    (s.setPair w hi lo).fpuSse = s.fpuSse := by cases w <;> rfl
@[simp] theorem setPair_halted (s : State) (w : Width) (hi lo : Word) :
    (s.setPair w hi lo).halted = s.halted := by cases w <;> rfl
@[simp] theorem setPair_interruptShadow (s : State) (w : Width) (hi lo : Word) :
    (s.setPair w hi lo).interruptShadow = s.interruptShadow := by cases w <;> rfl
@[simp] theorem setPair_tlbSalt (s : State) (w : Width) (hi lo : Word) :
    (s.setPair w hi lo).tlbSalt = s.tlbSalt := by cases w <;> rfl
@[simp] theorem setPair_ms (s : State) (w : Width) (hi lo : Word) :
    (s.setPair w hi lo).ms = s.ms := by cases w <;> rfl
@[simp] theorem setPair_retired (s : State) (w : Width) (hi lo : Word) :
    (s.setPair w hi lo).retired = s.retired := by cases w <;> rfl
@[simp] theorem setPair_nbytes (s : State) (w : Width) (hi lo : Word) :
    (s.setPair w hi lo).nbytes = s.nbytes := by cases w <;> rfl
@[simp] theorem setPair_outcome (s : State) (w : Width) (hi lo : Word) :
    (s.setPair w hi lo).outcome = s.outcome := by cases w <;> rfl
@[simp] theorem setPair_cfg (s : State) (w : Width) (hi lo : Word) :
    (s.setPair w hi lo).cfg = s.cfg := by cases w <;> rfl

/-! `withMs` -/

@[simp] theorem withMs_regs (s : State) (m : MemSys) : (s.withMs m).regs = s.regs := rfl
@[simp] theorem withMs_rip (s : State) (m : MemSys) : (s.withMs m).rip = s.rip := rfl
@[simp] theorem withMs_flags (s : State) (m : MemSys) : (s.withMs m).flags = s.flags := rfl
@[simp] theorem withMs_segs (s : State) (m : MemSys) : (s.withMs m).segs = s.segs := rfl
@[simp] theorem withMs_ldtr (s : State) (m : MemSys) : (s.withMs m).ldtr = s.ldtr := rfl
@[simp] theorem withMs_tr (s : State) (m : MemSys) : (s.withMs m).tr = s.tr := rfl
@[simp] theorem withMs_gdtr (s : State) (m : MemSys) : (s.withMs m).gdtr = s.gdtr := rfl
@[simp] theorem withMs_idtr (s : State) (m : MemSys) : (s.withMs m).idtr = s.idtr := rfl
@[simp] theorem withMs_cpl (s : State) (m : MemSys) : (s.withMs m).cpl = s.cpl := rfl
@[simp] theorem withMs_cr0 (s : State) (m : MemSys) : (s.withMs m).cr0 = s.cr0 := rfl
@[simp] theorem withMs_cr2 (s : State) (m : MemSys) : (s.withMs m).cr2 = s.cr2 := rfl
@[simp] theorem withMs_cr3 (s : State) (m : MemSys) : (s.withMs m).cr3 = s.cr3 := rfl
@[simp] theorem withMs_cr4 (s : State) (m : MemSys) : (s.withMs m).cr4 = s.cr4 := rfl
@[simp] theorem withMs_efer (s : State) (m : MemSys) : (s.withMs m).efer = s.efer := rfl
@[simp] theorem withMs_kernelGsBase (s : State) (m : MemSys) :
    (s.withMs m).kernelGsBase = s.kernelGsBase := rfl
@[simp] theorem withMs_msrExtra (s : State) (m : MemSys) : (s.withMs m).msrExtra = s.msrExtra := rfl
@[simp] theorem withMs_fpuSse (s : State) (m : MemSys) : (s.withMs m).fpuSse = s.fpuSse := rfl
@[simp] theorem withMs_halted (s : State) (m : MemSys) : (s.withMs m).halted = s.halted := rfl
@[simp] theorem withMs_interruptShadow (s : State) (m : MemSys) :
    (s.withMs m).interruptShadow = s.interruptShadow := rfl
@[simp] theorem withMs_tlbSalt (s : State) (m : MemSys) : (s.withMs m).tlbSalt = s.tlbSalt := rfl
@[simp] theorem withMs_ms (s : State) (m : MemSys) : (s.withMs m).ms = m := rfl
@[simp] theorem withMs_retired (s : State) (m : MemSys) : (s.withMs m).retired = s.retired := rfl
@[simp] theorem withMs_nbytes (s : State) (m : MemSys) : (s.withMs m).nbytes = s.nbytes := rfl
@[simp] theorem withMs_outcome (s : State) (m : MemSys) : (s.withMs m).outcome = s.outcome := rfl
@[simp] theorem withMs_cfg (s : State) (m : MemSys) : (s.withMs m).cfg = s.cfg := rfl

/-! `withFlags` -/

@[simp] theorem withFlags_regs (s : State) (f : Flags) : (s.withFlags f).regs = s.regs := rfl
@[simp] theorem withFlags_rip (s : State) (f : Flags) : (s.withFlags f).rip = s.rip := rfl
@[simp] theorem withFlags_flags (s : State) (f : Flags) : (s.withFlags f).flags = f := rfl
@[simp] theorem withFlags_segs (s : State) (f : Flags) : (s.withFlags f).segs = s.segs := rfl
@[simp] theorem withFlags_ldtr (s : State) (f : Flags) : (s.withFlags f).ldtr = s.ldtr := rfl
@[simp] theorem withFlags_tr (s : State) (f : Flags) : (s.withFlags f).tr = s.tr := rfl
@[simp] theorem withFlags_gdtr (s : State) (f : Flags) : (s.withFlags f).gdtr = s.gdtr := rfl
@[simp] theorem withFlags_idtr (s : State) (f : Flags) : (s.withFlags f).idtr = s.idtr := rfl
@[simp] theorem withFlags_cpl (s : State) (f : Flags) : (s.withFlags f).cpl = s.cpl := rfl
@[simp] theorem withFlags_cr0 (s : State) (f : Flags) : (s.withFlags f).cr0 = s.cr0 := rfl
@[simp] theorem withFlags_cr2 (s : State) (f : Flags) : (s.withFlags f).cr2 = s.cr2 := rfl
@[simp] theorem withFlags_cr3 (s : State) (f : Flags) : (s.withFlags f).cr3 = s.cr3 := rfl
@[simp] theorem withFlags_cr4 (s : State) (f : Flags) : (s.withFlags f).cr4 = s.cr4 := rfl
@[simp] theorem withFlags_efer (s : State) (f : Flags) : (s.withFlags f).efer = s.efer := rfl
@[simp] theorem withFlags_kernelGsBase (s : State) (f : Flags) :
    (s.withFlags f).kernelGsBase = s.kernelGsBase := rfl
@[simp] theorem withFlags_msrExtra (s : State) (f : Flags) :
    (s.withFlags f).msrExtra = s.msrExtra := rfl
@[simp] theorem withFlags_fpuSse (s : State) (f : Flags) : (s.withFlags f).fpuSse = s.fpuSse := rfl
@[simp] theorem withFlags_halted (s : State) (f : Flags) : (s.withFlags f).halted = s.halted := rfl
@[simp] theorem withFlags_interruptShadow (s : State) (f : Flags) :
    (s.withFlags f).interruptShadow = s.interruptShadow := rfl
@[simp] theorem withFlags_tlbSalt (s : State) (f : Flags) :
    (s.withFlags f).tlbSalt = s.tlbSalt := rfl
@[simp] theorem withFlags_ms (s : State) (f : Flags) : (s.withFlags f).ms = s.ms := rfl
@[simp] theorem withFlags_retired (s : State) (f : Flags) :
    (s.withFlags f).retired = s.retired := rfl
@[simp] theorem withFlags_nbytes (s : State) (f : Flags) : (s.withFlags f).nbytes = s.nbytes := rfl
@[simp] theorem withFlags_outcome (s : State) (f : Flags) :
    (s.withFlags f).outcome = s.outcome := rfl
@[simp] theorem withFlags_cfg (s : State) (f : Flags) : (s.withFlags f).cfg = s.cfg := rfl

/-! `bumpSalt` -/

@[simp] theorem bumpSalt_regs (s : State) : (s.bumpSalt).regs = s.regs := rfl
@[simp] theorem bumpSalt_rip (s : State) : (s.bumpSalt).rip = s.rip := rfl
@[simp] theorem bumpSalt_flags (s : State) : (s.bumpSalt).flags = s.flags := rfl
@[simp] theorem bumpSalt_segs (s : State) : (s.bumpSalt).segs = s.segs := rfl
@[simp] theorem bumpSalt_ldtr (s : State) : (s.bumpSalt).ldtr = s.ldtr := rfl
@[simp] theorem bumpSalt_tr (s : State) : (s.bumpSalt).tr = s.tr := rfl
@[simp] theorem bumpSalt_gdtr (s : State) : (s.bumpSalt).gdtr = s.gdtr := rfl
@[simp] theorem bumpSalt_idtr (s : State) : (s.bumpSalt).idtr = s.idtr := rfl
@[simp] theorem bumpSalt_cpl (s : State) : (s.bumpSalt).cpl = s.cpl := rfl
@[simp] theorem bumpSalt_cr0 (s : State) : (s.bumpSalt).cr0 = s.cr0 := rfl
@[simp] theorem bumpSalt_cr2 (s : State) : (s.bumpSalt).cr2 = s.cr2 := rfl
@[simp] theorem bumpSalt_cr3 (s : State) : (s.bumpSalt).cr3 = s.cr3 := rfl
@[simp] theorem bumpSalt_cr4 (s : State) : (s.bumpSalt).cr4 = s.cr4 := rfl
@[simp] theorem bumpSalt_efer (s : State) : (s.bumpSalt).efer = s.efer := rfl
@[simp] theorem bumpSalt_kernelGsBase (s : State) :
    (s.bumpSalt).kernelGsBase = s.kernelGsBase := rfl
@[simp] theorem bumpSalt_msrExtra (s : State) : (s.bumpSalt).msrExtra = s.msrExtra := rfl
@[simp] theorem bumpSalt_fpuSse (s : State) : (s.bumpSalt).fpuSse = s.fpuSse := rfl
@[simp] theorem bumpSalt_halted (s : State) : (s.bumpSalt).halted = s.halted := rfl
@[simp] theorem bumpSalt_interruptShadow (s : State) :
    (s.bumpSalt).interruptShadow = s.interruptShadow := rfl
@[simp] theorem bumpSalt_tlbSalt (s : State) : (s.bumpSalt).tlbSalt = s.tlbSalt + 1 := rfl
@[simp] theorem bumpSalt_ms (s : State) : (s.bumpSalt).ms = s.ms := rfl
@[simp] theorem bumpSalt_retired (s : State) : (s.bumpSalt).retired = s.retired := rfl
@[simp] theorem bumpSalt_nbytes (s : State) : (s.bumpSalt).nbytes = s.nbytes := rfl
@[simp] theorem bumpSalt_outcome (s : State) : (s.bumpSalt).outcome = s.outcome := rfl
@[simp] theorem bumpSalt_cfg (s : State) : (s.bumpSalt).cfg = s.cfg := rfl

/-! `setSeg` -/

@[simp] theorem setSeg_regs (s : State) (r : SReg) (v : SegReg) :
    (s.setSeg r v).regs = s.regs := rfl
@[simp] theorem setSeg_rip (s : State) (r : SReg) (v : SegReg) : (s.setSeg r v).rip = s.rip := rfl
@[simp] theorem setSeg_flags (s : State) (r : SReg) (v : SegReg) :
    (s.setSeg r v).flags = s.flags := rfl
@[simp] theorem setSeg_segs (s : State) (r : SReg) (v : SegReg) :
    (s.setSeg r v).segs = s.segs.set r v := rfl
@[simp] theorem setSeg_ldtr (s : State) (r : SReg) (v : SegReg) :
    (s.setSeg r v).ldtr = s.ldtr := rfl
@[simp] theorem setSeg_tr (s : State) (r : SReg) (v : SegReg) : (s.setSeg r v).tr = s.tr := rfl
@[simp] theorem setSeg_gdtr (s : State) (r : SReg) (v : SegReg) :
    (s.setSeg r v).gdtr = s.gdtr := rfl
@[simp] theorem setSeg_idtr (s : State) (r : SReg) (v : SegReg) :
    (s.setSeg r v).idtr = s.idtr := rfl
@[simp] theorem setSeg_cpl (s : State) (r : SReg) (v : SegReg) : (s.setSeg r v).cpl = s.cpl := rfl
@[simp] theorem setSeg_cr0 (s : State) (r : SReg) (v : SegReg) : (s.setSeg r v).cr0 = s.cr0 := rfl
@[simp] theorem setSeg_cr2 (s : State) (r : SReg) (v : SegReg) : (s.setSeg r v).cr2 = s.cr2 := rfl
@[simp] theorem setSeg_cr3 (s : State) (r : SReg) (v : SegReg) : (s.setSeg r v).cr3 = s.cr3 := rfl
@[simp] theorem setSeg_cr4 (s : State) (r : SReg) (v : SegReg) : (s.setSeg r v).cr4 = s.cr4 := rfl
@[simp] theorem setSeg_efer (s : State) (r : SReg) (v : SegReg) :
    (s.setSeg r v).efer = s.efer := rfl
@[simp] theorem setSeg_kernelGsBase (s : State) (r : SReg) (v : SegReg) :
    (s.setSeg r v).kernelGsBase = s.kernelGsBase := rfl
@[simp] theorem setSeg_msrExtra (s : State) (r : SReg) (v : SegReg) :
    (s.setSeg r v).msrExtra = s.msrExtra := rfl
@[simp] theorem setSeg_fpuSse (s : State) (r : SReg) (v : SegReg) :
    (s.setSeg r v).fpuSse = s.fpuSse := rfl
@[simp] theorem setSeg_halted (s : State) (r : SReg) (v : SegReg) :
    (s.setSeg r v).halted = s.halted := rfl
@[simp] theorem setSeg_interruptShadow (s : State) (r : SReg) (v : SegReg) :
    (s.setSeg r v).interruptShadow = s.interruptShadow := rfl
@[simp] theorem setSeg_tlbSalt (s : State) (r : SReg) (v : SegReg) :
    (s.setSeg r v).tlbSalt = s.tlbSalt := rfl
@[simp] theorem setSeg_ms (s : State) (r : SReg) (v : SegReg) : (s.setSeg r v).ms = s.ms := rfl
@[simp] theorem setSeg_retired (s : State) (r : SReg) (v : SegReg) :
    (s.setSeg r v).retired = s.retired := rfl
@[simp] theorem setSeg_nbytes (s : State) (r : SReg) (v : SegReg) :
    (s.setSeg r v).nbytes = s.nbytes := rfl
@[simp] theorem setSeg_outcome (s : State) (r : SReg) (v : SegReg) :
    (s.setSeg r v).outcome = s.outcome := rfl
@[simp] theorem setSeg_cfg (s : State) (r : SReg) (v : SegReg) : (s.setSeg r v).cfg = s.cfg := rfl

/-! `beginBlock` -/

@[simp] theorem beginBlock_regs (s : State) : (s.beginBlock).regs = s.regs := rfl
@[simp] theorem beginBlock_rip (s : State) : (s.beginBlock).rip = s.rip := rfl
@[simp] theorem beginBlock_flags (s : State) : (s.beginBlock).flags = s.flags := rfl
@[simp] theorem beginBlock_segs (s : State) : (s.beginBlock).segs = s.segs := rfl
@[simp] theorem beginBlock_ldtr (s : State) : (s.beginBlock).ldtr = s.ldtr := rfl
@[simp] theorem beginBlock_tr (s : State) : (s.beginBlock).tr = s.tr := rfl
@[simp] theorem beginBlock_gdtr (s : State) : (s.beginBlock).gdtr = s.gdtr := rfl
@[simp] theorem beginBlock_idtr (s : State) : (s.beginBlock).idtr = s.idtr := rfl
@[simp] theorem beginBlock_cpl (s : State) : (s.beginBlock).cpl = s.cpl := rfl
@[simp] theorem beginBlock_cr0 (s : State) : (s.beginBlock).cr0 = s.cr0 := rfl
@[simp] theorem beginBlock_cr2 (s : State) : (s.beginBlock).cr2 = s.cr2 := rfl
@[simp] theorem beginBlock_cr3 (s : State) : (s.beginBlock).cr3 = s.cr3 := rfl
@[simp] theorem beginBlock_cr4 (s : State) : (s.beginBlock).cr4 = s.cr4 := rfl
@[simp] theorem beginBlock_efer (s : State) : (s.beginBlock).efer = s.efer := rfl
@[simp] theorem beginBlock_kernelGsBase (s : State) :
    (s.beginBlock).kernelGsBase = s.kernelGsBase := rfl
@[simp] theorem beginBlock_msrExtra (s : State) : (s.beginBlock).msrExtra = s.msrExtra := rfl
@[simp] theorem beginBlock_fpuSse (s : State) : (s.beginBlock).fpuSse = s.fpuSse := rfl
@[simp] theorem beginBlock_halted (s : State) : (s.beginBlock).halted = s.halted := rfl
@[simp] theorem beginBlock_interruptShadow (s : State) :
    (s.beginBlock).interruptShadow = s.interruptShadow := rfl
@[simp] theorem beginBlock_tlbSalt (s : State) : (s.beginBlock).tlbSalt = s.tlbSalt := rfl
@[simp] theorem beginBlock_ms (s : State) : (s.beginBlock).ms = s.ms := rfl
@[simp] theorem beginBlock_retired (s : State) : (s.beginBlock).retired = 0 := rfl
@[simp] theorem beginBlock_nbytes (s : State) : (s.beginBlock).nbytes = 0 := rfl
@[simp] theorem beginBlock_outcome (s : State) : (s.beginBlock).outcome = none := rfl
@[simp] theorem beginBlock_cfg (s : State) : (s.beginBlock).cfg = s.cfg := rfl

/-! `reportHalted` -/

@[simp] theorem reportHalted_regs (s : State) : (reportHalted s).regs = s.regs := rfl
@[simp] theorem reportHalted_rip (s : State) : (reportHalted s).rip = s.rip := rfl
@[simp] theorem reportHalted_flags (s : State) : (reportHalted s).flags = s.flags := rfl
@[simp] theorem reportHalted_segs (s : State) : (reportHalted s).segs = s.segs := rfl
@[simp] theorem reportHalted_ldtr (s : State) : (reportHalted s).ldtr = s.ldtr := rfl
@[simp] theorem reportHalted_tr (s : State) : (reportHalted s).tr = s.tr := rfl
@[simp] theorem reportHalted_gdtr (s : State) : (reportHalted s).gdtr = s.gdtr := rfl
@[simp] theorem reportHalted_idtr (s : State) : (reportHalted s).idtr = s.idtr := rfl
@[simp] theorem reportHalted_cpl (s : State) : (reportHalted s).cpl = s.cpl := rfl
@[simp] theorem reportHalted_cr0 (s : State) : (reportHalted s).cr0 = s.cr0 := rfl
@[simp] theorem reportHalted_cr2 (s : State) : (reportHalted s).cr2 = s.cr2 := rfl
@[simp] theorem reportHalted_cr3 (s : State) : (reportHalted s).cr3 = s.cr3 := rfl
@[simp] theorem reportHalted_cr4 (s : State) : (reportHalted s).cr4 = s.cr4 := rfl
@[simp] theorem reportHalted_efer (s : State) : (reportHalted s).efer = s.efer := rfl
@[simp] theorem reportHalted_kernelGsBase (s : State) :
    (reportHalted s).kernelGsBase = s.kernelGsBase := rfl
@[simp] theorem reportHalted_msrExtra (s : State) : (reportHalted s).msrExtra = s.msrExtra := rfl
@[simp] theorem reportHalted_fpuSse (s : State) : (reportHalted s).fpuSse = s.fpuSse := rfl
@[simp] theorem reportHalted_halted (s : State) : (reportHalted s).halted = s.halted := rfl
@[simp] theorem reportHalted_interruptShadow (s : State) :
    (reportHalted s).interruptShadow = s.interruptShadow := rfl
@[simp] theorem reportHalted_tlbSalt (s : State) : (reportHalted s).tlbSalt = s.tlbSalt := rfl
@[simp] theorem reportHalted_ms (s : State) : (reportHalted s).ms = s.ms := rfl
@[simp] theorem reportHalted_retired (s : State) : (reportHalted s).retired = s.retired := rfl
@[simp] theorem reportHalted_nbytes (s : State) : (reportHalted s).nbytes = s.nbytes := rfl
@[simp] theorem reportHalted_outcome (s : State) :
    (reportHalted s).outcome = some ⟨.halted, s.retired, s.rip⟩ := rfl
@[simp] theorem reportHalted_cfg (s : State) : (reportHalted s).cfg = s.cfg := rfl

/-! `reported` -/

@[simp] theorem reported_vector (f : FaultRec) (s : State) : (s.reported f).vector = f.vector := rfl
@[simp] theorem reported_code (f : FaultRec) (s : State) : (s.reported f).code = f.code := rfl
@[simp] theorem reported_addr (f : FaultRec) (s : State) :
    (s.reported f).addr = f.addr.map s.reportedAddr := rfl

/-- Only the address of a page fault is adjusted. -/
theorem reported_of_addr_none {f : FaultRec} {s : State} (h : f.addr = none) : s.reported f = f := by
  cases f; cases h; rfl

/-- In 64-bit mode the address is reported as it is. -/
theorem reportedAddr_of_is64 {s : State} {lin : Word} (h : s.is64 = true) :
    s.reportedAddr lin = lin := if_pos h

/-- Outside it, its low 32 bits. -/
theorem reportedAddr_of_not_is64 {s : State} {lin : Word} (h : s.is64 = false) :
    s.reportedAddr lin = trunc .w32 lin := if_neg (by simp [h])

/-! `takeFault` -/

@[simp] theorem takeFault_regs (f : FaultRec) (s : State) : (takeFault f s).regs = s.regs := rfl
@[simp] theorem takeFault_rip (f : FaultRec) (s : State) : (takeFault f s).rip = s.rip := rfl
@[simp] theorem takeFault_flags (f : FaultRec) (s : State) : (takeFault f s).flags = s.flags := rfl
@[simp] theorem takeFault_segs (f : FaultRec) (s : State) : (takeFault f s).segs = s.segs := rfl
@[simp] theorem takeFault_ldtr (f : FaultRec) (s : State) : (takeFault f s).ldtr = s.ldtr := rfl
@[simp] theorem takeFault_tr (f : FaultRec) (s : State) : (takeFault f s).tr = s.tr := rfl
@[simp] theorem takeFault_gdtr (f : FaultRec) (s : State) : (takeFault f s).gdtr = s.gdtr := rfl
@[simp] theorem takeFault_idtr (f : FaultRec) (s : State) : (takeFault f s).idtr = s.idtr := rfl
@[simp] theorem takeFault_cpl (f : FaultRec) (s : State) : (takeFault f s).cpl = s.cpl := rfl
@[simp] theorem takeFault_cr0 (f : FaultRec) (s : State) : (takeFault f s).cr0 = s.cr0 := rfl
@[simp] theorem takeFault_cr2 (f : FaultRec) (s : State) :
    (takeFault f s).cr2 = (s.reported f).addr.getD s.cr2 := rfl
@[simp] theorem takeFault_cr3 (f : FaultRec) (s : State) : (takeFault f s).cr3 = s.cr3 := rfl
@[simp] theorem takeFault_cr4 (f : FaultRec) (s : State) : (takeFault f s).cr4 = s.cr4 := rfl
@[simp] theorem takeFault_efer (f : FaultRec) (s : State) : (takeFault f s).efer = s.efer := rfl
@[simp] theorem takeFault_kernelGsBase (f : FaultRec) (s : State) :
    (takeFault f s).kernelGsBase = s.kernelGsBase := rfl
@[simp] theorem takeFault_msrExtra (f : FaultRec) (s : State) :
    (takeFault f s).msrExtra = s.msrExtra := rfl
@[simp] theorem takeFault_fpuSse (f : FaultRec) (s : State) :
    (takeFault f s).fpuSse = s.fpuSse := rfl
@[simp] theorem takeFault_halted (f : FaultRec) (s : State) :
    (takeFault f s).halted = s.halted := rfl
@[simp] theorem takeFault_interruptShadow (f : FaultRec) (s : State) :
    (takeFault f s).interruptShadow = s.interruptShadow := rfl
@[simp] theorem takeFault_tlbSalt (f : FaultRec) (s : State) :
    (takeFault f s).tlbSalt = s.tlbSalt := rfl
@[simp] theorem takeFault_ms (f : FaultRec) (s : State) : (takeFault f s).ms = s.ms := rfl
@[simp] theorem takeFault_retired (f : FaultRec) (s : State) :
    (takeFault f s).retired = s.retired := rfl
@[simp] theorem takeFault_nbytes (f : FaultRec) (s : State) :
    (takeFault f s).nbytes = s.nbytes := rfl
@[simp] theorem takeFault_outcome (f : FaultRec) (s : State) :
    (takeFault f s).outcome = some ⟨.fault (s.reported f), s.retired, s.rip⟩ := rfl
@[simp] theorem takeFault_cfg (f : FaultRec) (s : State) : (takeFault f s).cfg = s.cfg := rfl

/-! `softInt` -/

@[simp] theorem softInt_regs (vec : BitVec 8) (k : SoftIntKind) (len : Nat) (s : State) :
    (softInt vec k len s).regs = s.regs := rfl
@[simp] theorem softInt_rip (vec : BitVec 8) (k : SoftIntKind) (len : Nat) (s : State) :
    (softInt vec k len s).rip = s.rip := rfl
@[simp] theorem softInt_flags (vec : BitVec 8) (k : SoftIntKind) (len : Nat) (s : State) :
    (softInt vec k len s).flags = s.flags := rfl
@[simp] theorem softInt_segs (vec : BitVec 8) (k : SoftIntKind) (len : Nat) (s : State) :
    (softInt vec k len s).segs = s.segs := rfl
@[simp] theorem softInt_ldtr (vec : BitVec 8) (k : SoftIntKind) (len : Nat) (s : State) :
    (softInt vec k len s).ldtr = s.ldtr := rfl
@[simp] theorem softInt_tr (vec : BitVec 8) (k : SoftIntKind) (len : Nat) (s : State) :
    (softInt vec k len s).tr = s.tr := rfl
@[simp] theorem softInt_gdtr (vec : BitVec 8) (k : SoftIntKind) (len : Nat) (s : State) :
    (softInt vec k len s).gdtr = s.gdtr := rfl
@[simp] theorem softInt_idtr (vec : BitVec 8) (k : SoftIntKind) (len : Nat) (s : State) :
    (softInt vec k len s).idtr = s.idtr := rfl
@[simp] theorem softInt_cpl (vec : BitVec 8) (k : SoftIntKind) (len : Nat) (s : State) :
    (softInt vec k len s).cpl = s.cpl := rfl
@[simp] theorem softInt_cr0 (vec : BitVec 8) (k : SoftIntKind) (len : Nat) (s : State) :
    (softInt vec k len s).cr0 = s.cr0 := rfl
@[simp] theorem softInt_cr2 (vec : BitVec 8) (k : SoftIntKind) (len : Nat) (s : State) :
    (softInt vec k len s).cr2 = s.cr2 := rfl
@[simp] theorem softInt_cr3 (vec : BitVec 8) (k : SoftIntKind) (len : Nat) (s : State) :
    (softInt vec k len s).cr3 = s.cr3 := rfl
@[simp] theorem softInt_cr4 (vec : BitVec 8) (k : SoftIntKind) (len : Nat) (s : State) :
    (softInt vec k len s).cr4 = s.cr4 := rfl
@[simp] theorem softInt_efer (vec : BitVec 8) (k : SoftIntKind) (len : Nat) (s : State) :
    (softInt vec k len s).efer = s.efer := rfl
@[simp] theorem softInt_kernelGsBase (vec : BitVec 8) (k : SoftIntKind) (len : Nat) (s : State) :
    (softInt vec k len s).kernelGsBase = s.kernelGsBase := rfl
@[simp] theorem softInt_msrExtra (vec : BitVec 8) (k : SoftIntKind) (len : Nat) (s : State) :
    (softInt vec k len s).msrExtra = s.msrExtra := rfl
@[simp] theorem softInt_fpuSse (vec : BitVec 8) (k : SoftIntKind) (len : Nat) (s : State) :
    (softInt vec k len s).fpuSse = s.fpuSse := rfl
@[simp] theorem softInt_halted (vec : BitVec 8) (k : SoftIntKind) (len : Nat) (s : State) :
    (softInt vec k len s).halted = s.halted := rfl
@[simp] theorem softInt_interruptShadow (vec : BitVec 8) (k : SoftIntKind) (len : Nat) (s : State) :
    (softInt vec k len s).interruptShadow = s.interruptShadow := rfl
@[simp] theorem softInt_tlbSalt (vec : BitVec 8) (k : SoftIntKind) (len : Nat) (s : State) :
    (softInt vec k len s).tlbSalt = s.tlbSalt := rfl
@[simp] theorem softInt_ms (vec : BitVec 8) (k : SoftIntKind) (len : Nat) (s : State) :
    (softInt vec k len s).ms = s.ms := rfl
@[simp] theorem softInt_retired (vec : BitVec 8) (k : SoftIntKind) (len : Nat) (s : State) :
    (softInt vec k len s).retired = s.retired := rfl
@[simp] theorem softInt_nbytes (vec : BitVec 8) (k : SoftIntKind) (len : Nat) (s : State) :
    (softInt vec k len s).nbytes = s.nbytes := rfl
@[simp] theorem softInt_outcome (vec : BitVec 8) (k : SoftIntKind) (len : Nat) (s : State) :
    (softInt vec k len s).outcome = some ⟨.softInt vec k len, s.retired, s.rip⟩ := rfl
@[simp] theorem softInt_cfg (vec : BitVec 8) (k : SoftIntKind) (len : Nat) (s : State) :
    (softInt vec k len s).cfg = s.cfg := rfl

/-! `unsupported` -/

@[simp] theorem unsupported_regs (bs : List Byte) (s : State) :
    (unsupported bs s).regs = s.regs := rfl
@[simp] theorem unsupported_rip (bs : List Byte) (s : State) : (unsupported bs s).rip = s.rip := rfl
@[simp] theorem unsupported_flags (bs : List Byte) (s : State) :
    (unsupported bs s).flags = s.flags := rfl
@[simp] theorem unsupported_segs (bs : List Byte) (s : State) :
    (unsupported bs s).segs = s.segs := rfl
@[simp] theorem unsupported_ldtr (bs : List Byte) (s : State) :
    (unsupported bs s).ldtr = s.ldtr := rfl
@[simp] theorem unsupported_tr (bs : List Byte) (s : State) : (unsupported bs s).tr = s.tr := rfl
@[simp] theorem unsupported_gdtr (bs : List Byte) (s : State) :
    (unsupported bs s).gdtr = s.gdtr := rfl
@[simp] theorem unsupported_idtr (bs : List Byte) (s : State) :
    (unsupported bs s).idtr = s.idtr := rfl
@[simp] theorem unsupported_cpl (bs : List Byte) (s : State) : (unsupported bs s).cpl = s.cpl := rfl
@[simp] theorem unsupported_cr0 (bs : List Byte) (s : State) : (unsupported bs s).cr0 = s.cr0 := rfl
@[simp] theorem unsupported_cr2 (bs : List Byte) (s : State) : (unsupported bs s).cr2 = s.cr2 := rfl
@[simp] theorem unsupported_cr3 (bs : List Byte) (s : State) : (unsupported bs s).cr3 = s.cr3 := rfl
@[simp] theorem unsupported_cr4 (bs : List Byte) (s : State) : (unsupported bs s).cr4 = s.cr4 := rfl
@[simp] theorem unsupported_efer (bs : List Byte) (s : State) :
    (unsupported bs s).efer = s.efer := rfl
@[simp] theorem unsupported_kernelGsBase (bs : List Byte) (s : State) :
    (unsupported bs s).kernelGsBase = s.kernelGsBase := rfl
@[simp] theorem unsupported_msrExtra (bs : List Byte) (s : State) :
    (unsupported bs s).msrExtra = s.msrExtra := rfl
@[simp] theorem unsupported_fpuSse (bs : List Byte) (s : State) :
    (unsupported bs s).fpuSse = s.fpuSse := rfl
@[simp] theorem unsupported_halted (bs : List Byte) (s : State) :
    (unsupported bs s).halted = s.halted := rfl
@[simp] theorem unsupported_interruptShadow (bs : List Byte) (s : State) :
    (unsupported bs s).interruptShadow = s.interruptShadow := rfl
@[simp] theorem unsupported_tlbSalt (bs : List Byte) (s : State) :
    (unsupported bs s).tlbSalt = s.tlbSalt := rfl
@[simp] theorem unsupported_ms (bs : List Byte) (s : State) : (unsupported bs s).ms = s.ms := rfl
@[simp] theorem unsupported_retired (bs : List Byte) (s : State) :
    (unsupported bs s).retired = s.retired := rfl
@[simp] theorem unsupported_nbytes (bs : List Byte) (s : State) :
    (unsupported bs s).nbytes = s.nbytes := rfl
@[simp] theorem unsupported_outcome (bs : List Byte) (s : State) :
    (unsupported bs s).outcome = some ⟨.unsupported bs, s.retired, s.rip⟩ := rfl
@[simp] theorem unsupported_cfg (bs : List Byte) (s : State) : (unsupported bs s).cfg = s.cfg := rfl

/-! `complete` -/

@[simp] theorem complete_regs (s0 : State) (len : Nat) (ends shadow : Bool) (rip : Word) (s : State) :
    (complete s0 len ends shadow rip s).regs = s.regs := rfl
@[simp] theorem complete_rip (s0 : State) (len : Nat) (ends shadow : Bool) (rip : Word) (s : State) :
    (complete s0 len ends shadow rip s).rip = s0.ripWrap rip := rfl
@[simp] theorem complete_flags (s0 : State) (len : Nat) (ends shadow : Bool) (rip : Word) (s : State) :
    (complete s0 len ends shadow rip s).flags = { s.flags with rf := false } := rfl
@[simp] theorem complete_segs (s0 : State) (len : Nat) (ends shadow : Bool) (rip : Word) (s : State) :
    (complete s0 len ends shadow rip s).segs = s.segs := rfl
@[simp] theorem complete_ldtr (s0 : State) (len : Nat) (ends shadow : Bool) (rip : Word) (s : State) :
    (complete s0 len ends shadow rip s).ldtr = s.ldtr := rfl
@[simp] theorem complete_tr (s0 : State) (len : Nat) (ends shadow : Bool) (rip : Word) (s : State) :
    (complete s0 len ends shadow rip s).tr = s.tr := rfl
@[simp] theorem complete_gdtr (s0 : State) (len : Nat) (ends shadow : Bool) (rip : Word) (s : State) :
    (complete s0 len ends shadow rip s).gdtr = s.gdtr := rfl
@[simp] theorem complete_idtr (s0 : State) (len : Nat) (ends shadow : Bool) (rip : Word) (s : State) :
    (complete s0 len ends shadow rip s).idtr = s.idtr := rfl
@[simp] theorem complete_cpl (s0 : State) (len : Nat) (ends shadow : Bool) (rip : Word) (s : State) :
    (complete s0 len ends shadow rip s).cpl = s.cpl := rfl
@[simp] theorem complete_cr0 (s0 : State) (len : Nat) (ends shadow : Bool) (rip : Word) (s : State) :
    (complete s0 len ends shadow rip s).cr0 = s.cr0 := rfl
@[simp] theorem complete_cr2 (s0 : State) (len : Nat) (ends shadow : Bool) (rip : Word) (s : State) :
    (complete s0 len ends shadow rip s).cr2 = s.cr2 := rfl
@[simp] theorem complete_cr3 (s0 : State) (len : Nat) (ends shadow : Bool) (rip : Word) (s : State) :
    (complete s0 len ends shadow rip s).cr3 = s.cr3 := rfl
@[simp] theorem complete_cr4 (s0 : State) (len : Nat) (ends shadow : Bool) (rip : Word) (s : State) :
    (complete s0 len ends shadow rip s).cr4 = s.cr4 := rfl
@[simp] theorem complete_efer (s0 : State) (len : Nat) (ends shadow : Bool) (rip : Word) (s : State) :
    (complete s0 len ends shadow rip s).efer = s.efer := rfl
@[simp] theorem complete_kernelGsBase (s0 : State) (len : Nat) (ends shadow : Bool) (rip : Word) (s : State) :
    (complete s0 len ends shadow rip s).kernelGsBase = s.kernelGsBase := rfl
@[simp] theorem complete_msrExtra (s0 : State) (len : Nat) (ends shadow : Bool) (rip : Word) (s : State) :
    (complete s0 len ends shadow rip s).msrExtra = s.msrExtra := rfl
@[simp] theorem complete_fpuSse (s0 : State) (len : Nat) (ends shadow : Bool) (rip : Word) (s : State) :
    (complete s0 len ends shadow rip s).fpuSse = s.fpuSse := rfl
@[simp] theorem complete_halted (s0 : State) (len : Nat) (ends shadow : Bool) (rip : Word) (s : State) :
    (complete s0 len ends shadow rip s).halted = s.halted := rfl
@[simp] theorem complete_interruptShadow (s0 : State) (len : Nat) (ends shadow : Bool) (rip : Word) (s : State) :
    (complete s0 len ends shadow rip s).interruptShadow = shadow := rfl
@[simp] theorem complete_tlbSalt (s0 : State) (len : Nat) (ends shadow : Bool) (rip : Word) (s : State) :
    (complete s0 len ends shadow rip s).tlbSalt = s.tlbSalt := rfl
@[simp] theorem complete_ms (s0 : State) (len : Nat) (ends shadow : Bool) (rip : Word) (s : State) :
    (complete s0 len ends shadow rip s).ms = s.ms := rfl
@[simp] theorem complete_retired (s0 : State) (len : Nat) (ends shadow : Bool) (rip : Word) (s : State) :
    (complete s0 len ends shadow rip s).retired = s.retired + 1 := rfl
@[simp] theorem complete_nbytes (s0 : State) (len : Nat) (ends shadow : Bool) (rip : Word) (s : State) :
    (complete s0 len ends shadow rip s).nbytes = s.nbytes + len := rfl
@[simp] theorem complete_cfg (s0 : State) (len : Nat) (ends shadow : Bool) (rip : Word) (s : State) :
    (complete s0 len ends shadow rip s).cfg = s.cfg := rfl

/-! What is derived from a state, after an update that leaves it alone. -/

@[simp] theorem withMs_pe (s : State) (m : MemSys) : (s.withMs m).pe = s.pe := rfl
@[simp] theorem withMs_wp (s : State) (m : MemSys) : (s.withMs m).wp = s.wp := rfl
@[simp] theorem withMs_pg (s : State) (m : MemSys) : (s.withMs m).pg = s.pg := rfl
@[simp] theorem withMs_pse (s : State) (m : MemSys) : (s.withMs m).pse = s.pse := rfl
@[simp] theorem withMs_pae (s : State) (m : MemSys) : (s.withMs m).pae = s.pae := rfl
@[simp] theorem withMs_lme (s : State) (m : MemSys) : (s.withMs m).lme = s.lme := rfl
@[simp] theorem withMs_lma (s : State) (m : MemSys) : (s.withMs m).lma = s.lma := rfl
@[simp] theorem withMs_nxe (s : State) (m : MemSys) : (s.withMs m).nxe = s.nxe := rfl
@[simp] theorem withMs_opMode (s : State) (m : MemSys) : (s.withMs m).opMode = s.opMode := rfl
@[simp] theorem withMs_pagingMode (s : State) (m : MemSys) :
    (s.withMs m).pagingMode = s.pagingMode := rfl
@[simp] theorem withMs_decodeMode (s : State) (m : MemSys) :
    (s.withMs m).decodeMode = s.decodeMode := rfl
@[simp] theorem withMs_is64 (s : State) (m : MemSys) : (s.withMs m).is64 = s.is64 := rfl
@[simp] theorem withMs_stackSize (s : State) (m : MemSys) :
    (s.withMs m).stackSize = s.stackSize := rfl
@[simp] theorem withMs_user (s : State) (m : MemSys) : (s.withMs m).user = s.user := rfl

@[simp] theorem withFlags_pe (s : State) (f : Flags) : (s.withFlags f).pe = s.pe := rfl
@[simp] theorem withFlags_wp (s : State) (f : Flags) : (s.withFlags f).wp = s.wp := rfl
@[simp] theorem withFlags_pg (s : State) (f : Flags) : (s.withFlags f).pg = s.pg := rfl
@[simp] theorem withFlags_pse (s : State) (f : Flags) : (s.withFlags f).pse = s.pse := rfl
@[simp] theorem withFlags_pae (s : State) (f : Flags) : (s.withFlags f).pae = s.pae := rfl
@[simp] theorem withFlags_lme (s : State) (f : Flags) : (s.withFlags f).lme = s.lme := rfl
@[simp] theorem withFlags_lma (s : State) (f : Flags) : (s.withFlags f).lma = s.lma := rfl
@[simp] theorem withFlags_nxe (s : State) (f : Flags) : (s.withFlags f).nxe = s.nxe := rfl
@[simp] theorem withFlags_opMode (s : State) (f : Flags) : (s.withFlags f).opMode = s.opMode := rfl
@[simp] theorem withFlags_pagingMode (s : State) (f : Flags) :
    (s.withFlags f).pagingMode = s.pagingMode := rfl
@[simp] theorem withFlags_decodeMode (s : State) (f : Flags) :
    (s.withFlags f).decodeMode = s.decodeMode := rfl
@[simp] theorem withFlags_is64 (s : State) (f : Flags) : (s.withFlags f).is64 = s.is64 := rfl
@[simp] theorem withFlags_stackSize (s : State) (f : Flags) :
    (s.withFlags f).stackSize = s.stackSize := rfl
@[simp] theorem withFlags_user (s : State) (f : Flags) : (s.withFlags f).user = s.user := rfl

@[simp] theorem setX_pe (s : State) (i : RegNum) (v : Word) : (s.setX i v).pe = s.pe := rfl
@[simp] theorem setX_wp (s : State) (i : RegNum) (v : Word) : (s.setX i v).wp = s.wp := rfl
@[simp] theorem setX_pg (s : State) (i : RegNum) (v : Word) : (s.setX i v).pg = s.pg := rfl
@[simp] theorem setX_pse (s : State) (i : RegNum) (v : Word) : (s.setX i v).pse = s.pse := rfl
@[simp] theorem setX_pae (s : State) (i : RegNum) (v : Word) : (s.setX i v).pae = s.pae := rfl
@[simp] theorem setX_lme (s : State) (i : RegNum) (v : Word) : (s.setX i v).lme = s.lme := rfl
@[simp] theorem setX_lma (s : State) (i : RegNum) (v : Word) : (s.setX i v).lma = s.lma := rfl
@[simp] theorem setX_nxe (s : State) (i : RegNum) (v : Word) : (s.setX i v).nxe = s.nxe := rfl
@[simp] theorem setX_opMode (s : State) (i : RegNum) (v : Word) :
    (s.setX i v).opMode = s.opMode := rfl
@[simp] theorem setX_pagingMode (s : State) (i : RegNum) (v : Word) :
    (s.setX i v).pagingMode = s.pagingMode := rfl
@[simp] theorem setX_decodeMode (s : State) (i : RegNum) (v : Word) :
    (s.setX i v).decodeMode = s.decodeMode := rfl
@[simp] theorem setX_is64 (s : State) (i : RegNum) (v : Word) : (s.setX i v).is64 = s.is64 := rfl
@[simp] theorem setX_stackSize (s : State) (i : RegNum) (v : Word) :
    (s.setX i v).stackSize = s.stackSize := rfl
@[simp] theorem setX_user (s : State) (i : RegNum) (v : Word) : (s.setX i v).user = s.user := rfl

@[simp] theorem regWrite_pe (s : State) (w : Width) (r : Gpr) (v : Word) :
    (s.regWrite w r v).pe = s.pe := rfl
@[simp] theorem regWrite_wp (s : State) (w : Width) (r : Gpr) (v : Word) :
    (s.regWrite w r v).wp = s.wp := rfl
@[simp] theorem regWrite_pg (s : State) (w : Width) (r : Gpr) (v : Word) :
    (s.regWrite w r v).pg = s.pg := rfl
@[simp] theorem regWrite_pse (s : State) (w : Width) (r : Gpr) (v : Word) :
    (s.regWrite w r v).pse = s.pse := rfl
@[simp] theorem regWrite_pae (s : State) (w : Width) (r : Gpr) (v : Word) :
    (s.regWrite w r v).pae = s.pae := rfl
@[simp] theorem regWrite_lme (s : State) (w : Width) (r : Gpr) (v : Word) :
    (s.regWrite w r v).lme = s.lme := rfl
@[simp] theorem regWrite_lma (s : State) (w : Width) (r : Gpr) (v : Word) :
    (s.regWrite w r v).lma = s.lma := rfl
@[simp] theorem regWrite_nxe (s : State) (w : Width) (r : Gpr) (v : Word) :
    (s.regWrite w r v).nxe = s.nxe := rfl
@[simp] theorem regWrite_opMode (s : State) (w : Width) (r : Gpr) (v : Word) :
    (s.regWrite w r v).opMode = s.opMode := rfl
@[simp] theorem regWrite_pagingMode (s : State) (w : Width) (r : Gpr) (v : Word) :
    (s.regWrite w r v).pagingMode = s.pagingMode := rfl
@[simp] theorem regWrite_decodeMode (s : State) (w : Width) (r : Gpr) (v : Word) :
    (s.regWrite w r v).decodeMode = s.decodeMode := rfl
@[simp] theorem regWrite_is64 (s : State) (w : Width) (r : Gpr) (v : Word) :
    (s.regWrite w r v).is64 = s.is64 := rfl
@[simp] theorem regWrite_stackSize (s : State) (w : Width) (r : Gpr) (v : Word) :
    (s.regWrite w r v).stackSize = s.stackSize := rfl
@[simp] theorem regWrite_user (s : State) (w : Width) (r : Gpr) (v : Word) :
    (s.regWrite w r v).user = s.user := rfl

@[simp] theorem setSp_pe (s : State) (v : Word) : (s.setSp v).pe = s.pe := rfl
@[simp] theorem setSp_wp (s : State) (v : Word) : (s.setSp v).wp = s.wp := rfl
@[simp] theorem setSp_pg (s : State) (v : Word) : (s.setSp v).pg = s.pg := rfl
@[simp] theorem setSp_pse (s : State) (v : Word) : (s.setSp v).pse = s.pse := rfl
@[simp] theorem setSp_pae (s : State) (v : Word) : (s.setSp v).pae = s.pae := rfl
@[simp] theorem setSp_lme (s : State) (v : Word) : (s.setSp v).lme = s.lme := rfl
@[simp] theorem setSp_lma (s : State) (v : Word) : (s.setSp v).lma = s.lma := rfl
@[simp] theorem setSp_nxe (s : State) (v : Word) : (s.setSp v).nxe = s.nxe := rfl
@[simp] theorem setSp_opMode (s : State) (v : Word) : (s.setSp v).opMode = s.opMode := rfl
@[simp] theorem setSp_pagingMode (s : State) (v : Word) :
    (s.setSp v).pagingMode = s.pagingMode := rfl
@[simp] theorem setSp_decodeMode (s : State) (v : Word) :
    (s.setSp v).decodeMode = s.decodeMode := rfl
@[simp] theorem setSp_is64 (s : State) (v : Word) : (s.setSp v).is64 = s.is64 := rfl
@[simp] theorem setSp_stackSize (s : State) (v : Word) : (s.setSp v).stackSize = s.stackSize := rfl
@[simp] theorem setSp_user (s : State) (v : Word) : (s.setSp v).user = s.user := rfl

@[simp] theorem bumpSalt_pe (s : State) : (s.bumpSalt).pe = s.pe := rfl
@[simp] theorem bumpSalt_wp (s : State) : (s.bumpSalt).wp = s.wp := rfl
@[simp] theorem bumpSalt_pg (s : State) : (s.bumpSalt).pg = s.pg := rfl
@[simp] theorem bumpSalt_pse (s : State) : (s.bumpSalt).pse = s.pse := rfl
@[simp] theorem bumpSalt_pae (s : State) : (s.bumpSalt).pae = s.pae := rfl
@[simp] theorem bumpSalt_lme (s : State) : (s.bumpSalt).lme = s.lme := rfl
@[simp] theorem bumpSalt_lma (s : State) : (s.bumpSalt).lma = s.lma := rfl
@[simp] theorem bumpSalt_nxe (s : State) : (s.bumpSalt).nxe = s.nxe := rfl
@[simp] theorem bumpSalt_opMode (s : State) : (s.bumpSalt).opMode = s.opMode := rfl
@[simp] theorem bumpSalt_pagingMode (s : State) : (s.bumpSalt).pagingMode = s.pagingMode := rfl
@[simp] theorem bumpSalt_decodeMode (s : State) : (s.bumpSalt).decodeMode = s.decodeMode := rfl
@[simp] theorem bumpSalt_is64 (s : State) : (s.bumpSalt).is64 = s.is64 := rfl
@[simp] theorem bumpSalt_stackSize (s : State) : (s.bumpSalt).stackSize = s.stackSize := rfl
@[simp] theorem bumpSalt_user (s : State) : (s.bumpSalt).user = s.user := rfl

@[simp] theorem beginBlock_pe (s : State) : (s.beginBlock).pe = s.pe := rfl
@[simp] theorem beginBlock_wp (s : State) : (s.beginBlock).wp = s.wp := rfl
@[simp] theorem beginBlock_pg (s : State) : (s.beginBlock).pg = s.pg := rfl
@[simp] theorem beginBlock_pse (s : State) : (s.beginBlock).pse = s.pse := rfl
@[simp] theorem beginBlock_pae (s : State) : (s.beginBlock).pae = s.pae := rfl
@[simp] theorem beginBlock_lme (s : State) : (s.beginBlock).lme = s.lme := rfl
@[simp] theorem beginBlock_lma (s : State) : (s.beginBlock).lma = s.lma := rfl
@[simp] theorem beginBlock_nxe (s : State) : (s.beginBlock).nxe = s.nxe := rfl
@[simp] theorem beginBlock_opMode (s : State) : (s.beginBlock).opMode = s.opMode := rfl
@[simp] theorem beginBlock_pagingMode (s : State) : (s.beginBlock).pagingMode = s.pagingMode := rfl
@[simp] theorem beginBlock_decodeMode (s : State) : (s.beginBlock).decodeMode = s.decodeMode := rfl
@[simp] theorem beginBlock_is64 (s : State) : (s.beginBlock).is64 = s.is64 := rfl
@[simp] theorem beginBlock_stackSize (s : State) : (s.beginBlock).stackSize = s.stackSize := rfl
@[simp] theorem beginBlock_user (s : State) : (s.beginBlock).user = s.user := rfl

@[simp] theorem withMs_x (s : State) (m : MemSys) (i : RegNum) : (s.withMs m).x i = s.x i := rfl
@[simp] theorem withMs_regRead (s : State) (m : MemSys) (w : Width) (r : Gpr) :
    (s.withMs m).regRead w r = s.regRead w r := rfl
@[simp] theorem withFlags_x (s : State) (f : Flags) (i : RegNum) : (s.withFlags f).x i = s.x i := rfl
@[simp] theorem withFlags_regRead (s : State) (f : Flags) (w : Width) (r : Gpr) :
    (s.withFlags f).regRead w r = s.regRead w r := rfl
@[simp] theorem setSeg_x (s : State) (q : SReg) (v : SegReg) (i : RegNum) : (s.setSeg q v).x i = s.x i := rfl
@[simp] theorem setSeg_regRead (s : State) (q : SReg) (v : SegReg) (w : Width) (r : Gpr) :
    (s.setSeg q v).regRead w r = s.regRead w r := rfl
@[simp] theorem bumpSalt_x (s : State) (i : RegNum) : (s.bumpSalt).x i = s.x i := rfl
@[simp] theorem bumpSalt_regRead (s : State) (w : Width) (r : Gpr) :
    (s.bumpSalt).regRead w r = s.regRead w r := rfl
@[simp] theorem beginBlock_x (s : State) (i : RegNum) : (s.beginBlock).x i = s.x i := rfl
@[simp] theorem beginBlock_regRead (s : State) (w : Width) (r : Gpr) :
    (s.beginBlock).regRead w r = s.regRead w r := rfl
@[simp] theorem withMs_lin (s : State) (m : MemSys) (seg : SReg) (off : Word) :
    (s.withMs m).lin seg off = s.lin seg off := rfl
@[simp] theorem withMs_segOk (s : State) (m : MemSys) (seg : SReg) (off : Word) (n : Nat) (k : Access) :
    (s.withMs m).segOk seg off n k = s.segOk seg off n k := rfl
@[simp] theorem withMs_canonOk (s : State) (m : MemSys) (a : Word) (n : Nat) :
    (s.withMs m).canonOk a n = s.canonOk a n := rfl
@[simp] theorem withMs_linAdd (s : State) (m : MemSys) (a : Word) (n : Nat) :
    (s.withMs m).linAdd a n = s.linAdd a n := rfl
@[simp] theorem withMs_nextRip (s : State) (m : MemSys) (n : Nat) :
    (s.withMs m).nextRip n = s.nextRip n := rfl
@[simp] theorem withFlags_lin (s : State) (f : Flags) (seg : SReg) (off : Word) :
    (s.withFlags f).lin seg off = s.lin seg off := rfl
@[simp] theorem withFlags_segOk (s : State) (f : Flags) (seg : SReg) (off : Word) (n : Nat) (k : Access) :
    (s.withFlags f).segOk seg off n k = s.segOk seg off n k := rfl
@[simp] theorem withFlags_canonOk (s : State) (f : Flags) (a : Word) (n : Nat) :
    (s.withFlags f).canonOk a n = s.canonOk a n := rfl
@[simp] theorem withFlags_linAdd (s : State) (f : Flags) (a : Word) (n : Nat) :
    (s.withFlags f).linAdd a n = s.linAdd a n := rfl
@[simp] theorem withFlags_nextRip (s : State) (f : Flags) (n : Nat) :
    (s.withFlags f).nextRip n = s.nextRip n := rfl
@[simp] theorem setX_lin (s : State) (i : RegNum) (u : Word) (seg : SReg) (off : Word) :
    (s.setX i u).lin seg off = s.lin seg off := rfl
@[simp] theorem setX_segOk (s : State) (i : RegNum) (u : Word) (seg : SReg) (off : Word) (n : Nat) (k : Access) :
    (s.setX i u).segOk seg off n k = s.segOk seg off n k := rfl
@[simp] theorem setX_canonOk (s : State) (i : RegNum) (u : Word) (a : Word) (n : Nat) :
    (s.setX i u).canonOk a n = s.canonOk a n := rfl
@[simp] theorem setX_linAdd (s : State) (i : RegNum) (u : Word) (a : Word) (n : Nat) :
    (s.setX i u).linAdd a n = s.linAdd a n := rfl
@[simp] theorem setX_nextRip (s : State) (i : RegNum) (u : Word) (n : Nat) :
    (s.setX i u).nextRip n = s.nextRip n := rfl
@[simp] theorem regWrite_lin (s : State) (w : Width) (r : Gpr) (u : Word) (seg : SReg) (off : Word) :
    (s.regWrite w r u).lin seg off = s.lin seg off := rfl
@[simp] theorem regWrite_segOk (s : State) (w : Width) (r : Gpr) (u : Word) (seg : SReg) (off : Word) (n : Nat) (k : Access) :
    (s.regWrite w r u).segOk seg off n k = s.segOk seg off n k := rfl
@[simp] theorem regWrite_canonOk (s : State) (w : Width) (r : Gpr) (u : Word) (a : Word) (n : Nat) :
    (s.regWrite w r u).canonOk a n = s.canonOk a n := rfl
@[simp] theorem regWrite_linAdd (s : State) (w : Width) (r : Gpr) (u : Word) (a : Word) (n : Nat) :
    (s.regWrite w r u).linAdd a n = s.linAdd a n := rfl
@[simp] theorem regWrite_nextRip (s : State) (w : Width) (r : Gpr) (u : Word) (n : Nat) :
    (s.regWrite w r u).nextRip n = s.nextRip n := rfl
@[simp] theorem withMs_ea (s : State) (m : MemSys) (h : Hdr) (o : MemOp) : (s.withMs m).ea h o = s.ea h o := rfl
@[simp] theorem withFlags_ea (s : State) (f : Flags) (h : Hdr) (o : MemOp) :
    (s.withFlags f).ea h o = s.ea h o := rfl
@[simp] theorem withMs_sp (s : State) (m : MemSys) : (s.withMs m).sp = s.sp := rfl
@[simp] theorem withMs_spPlus (s : State) (m : MemSys) (n : Nat) : (s.withMs m).spPlus n = s.spPlus n := rfl
@[simp] theorem withMs_spMinus (s : State) (m : MemSys) (n : Nat) : (s.withMs m).spMinus n = s.spMinus n := rfl
@[simp] theorem withMs_branchOk (s : State) (m : MemSys) (v : Word) : (s.withMs m).branchOk v = s.branchOk v := rfl
@[simp] theorem withMs_permits (s : State) (m : MemSys) (w u x : Bool) (k : Access) (user : Bool) :
    (s.withMs m).permits w u x k user = s.permits w u x k user := rfl
@[simp] theorem withMs_pfCode (s : State) (m : MemSys) (k : Access) (user p r : Bool) :
    (s.withMs m).pfCode k user p r = s.pfCode k user p r := rfl
@[simp] theorem withMs_withMs (s : State) (m n : MemSys) : (s.withMs m).withMs n = s.withMs n := rfl
@[simp] theorem withMs_self (s : State) : s.withMs s.ms = s := rfl
@[simp] theorem withFlags_withFlags (s : State) (f g : Flags) : (s.withFlags f).withFlags g = s.withFlags g := rfl
@[simp] theorem withFlags_self (s : State) : s.withFlags s.flags = s := rfl

/-- A register after a write to a register: the new value, or the old one of another (R100). -/
theorem setX_x (s : State) (i j : RegNum) (v : Word) : (s.setX i v).x j = if i = j then v else s.x j := by
  simp only [State.x, State.setX, Fin.getElem_fin, Vector.getElem_set, Fin.ext_iff]

@[simp] theorem setX_x_same (s : State) (i : RegNum) (v : Word) : (s.setX i v).x i = v := by
  simp [setX_x]

theorem setX_x_other (s : State) (i j : RegNum) (v : Word) (h : j ≠ i) : (s.setX i v).x j = s.x j := by
  simp [setX_x, Ne.symm h]

@[simp] theorem regWrite_x_same (s : State) (w : Width) (r : Gpr) (v : Word) :
    (s.regWrite w r v).x r.num = mergeReg w r.high8 (s.x r.num) v := setX_x_same _ _ _

theorem regWrite_x_other (s : State) (w : Width) (r : Gpr) (v : Word) (j : RegNum) (h : j ≠ r.num) :
    (s.regWrite w r v).x j = s.x j := setX_x_other _ _ _ _ h

@[simp] theorem segs_get_set_same (g : Segs) (r : SReg) (v : SegReg) : (g.set r v).get r = v := by
  cases r <;> rfl

theorem segs_get_set_other (g : Segs) (r q : SReg) (v : SegReg) (h : q ≠ r) : (g.set r v).get q = g.get q := by
  cases r <;> cases q <;> first | rfl | exact absurd rfl h

end Sys2Proof.Machine
end

