-- ==== Sys2Proof/Laws/Monad.lean ====
section
/-! SUPPORT. Running a body: what each of its parts does to a state, how a composed body can end, and the
packaging of "every state a body can end in is related so to the state it began in". -/

namespace Sys2Proof.Machine
open Sys2Proof

variable {α β : Type}

/-! ### Running the parts of a body -/

@[simp] theorem pure_run (a : α) (s : State) : (pure a : M α) s = .ok a s := rfl

theorem bind_run (x : M α) (f : α → M β) (s : State) :
    (x >>= f) s = (match x s with
      | .ok a t => f a t
      | .error e t => .error e t) := by
  show EStateM.bind x f s = _
  unfold EStateM.bind
  cases x s <;> rfl

@[simp] theorem get_run (s : State) : (get : M State) s = .ok s s := rfl

@[simp] theorem get_bind_run (f : State → M β) (s : State) : ((get : M State) >>= f) s = f s s := rfl

@[simp] theorem modify_run (f : State → State) (s : State) : (modify f : M PUnit) s = .ok ⟨⟩ (f s) := rfl

@[simp] theorem raise_run (f : FaultRec) (s : State) : (raise f : M α) s = .error f s := rfl

@[simp] theorem raiseIf_true (f : FaultRec) : raiseIf true f = raise f := rfl

@[simp] theorem raiseIf_false (f : FaultRec) : raiseIf false f = pure () := rfl

@[simp] theorem setReg_run (w : Width) (r : Gpr) (v : Word) (s : State) :
    setReg w r v s = .ok () (s.regWrite w r v) := rfl

@[simp] theorem setFlags_run (f : Flags) (s : State) : setFlags f s = .ok () (s.withFlags f) := rfl

@[simp] theorem readReg_run (w : Width) (r : Gpr) (s : State) : readReg w r s = .ok (s.regRead w r) s := rfl

theorem raiseIf_run (c : Bool) (f : FaultRec) (s : State) :
    raiseIf c f s = if c then .error f s else .ok () s := by
  cases c <;> rfl

/-- Running a bind whose first part is known to succeed. -/
theorem bind_run_ok {x : M α} {f : α → M β} {s t : State} {a : α} (h : x s = .ok a t) :
    (x >>= f) s = f a t := by
  rw [bind_run, h]

/-- Running a bind whose first part is known to raise. -/
theorem bind_run_error {x : M α} {f : α → M β} {s t : State} {e : FaultRec} (h : x s = .error e t) :
    (x >>= f) s = .error e t := by
  rw [bind_run, h]

/-- How a composed body can succeed. -/
theorem bind_ok {x : M α} {f : α → M β} {s u : State} {b : β} :
    (x >>= f) s = .ok b u ↔ ∃ a t, x s = .ok a t ∧ f a t = .ok b u := by
  rw [bind_run]
  cases hx : x s with
  | ok a t =>
    constructor
    · intro h; exact ⟨a, t, rfl, h⟩
    · rintro ⟨a', t', h1, h2⟩; cases h1; exact h2
  | error e t =>
    constructor
    · intro h; cases h
    · rintro ⟨a', t', h1, -⟩; cases h1

/-- How a composed body can raise. -/
theorem bind_error {x : M α} {f : α → M β} {s u : State} {e : FaultRec} :
    (x >>= f) s = .error e u ↔ x s = .error e u ∨ ∃ a t, x s = .ok a t ∧ f a t = .error e u := by
  rw [bind_run]
  cases hx : x s with
  | ok a t =>
    constructor
    · intro h; exact .inr ⟨a, t, rfl, h⟩
    · rintro (h | ⟨a', t', h1, h2⟩)
      · cases h
      · cases h1; exact h2
  | error e' t =>
    constructor
    · intro h; cases h; exact .inl rfl
    · rintro (h | ⟨a', t', h1, -⟩)
      · cases h; rfl
      · cases h1

/-! ### Relations that a body keeps -/

/-- The state a body ends in, whichever way it ends. -/
def endState (x : M α) (s : State) : State :=
  match x s with
  | .ok _ t => t
  | .error _ t => t

/-- Every state in which the body can end is related to the state in which it began. -/
def Keeps (R : State → State → Prop) (x : M α) : Prop := ∀ s, R s (endState x s)

/-- A relation that holds of doing nothing and of doing two things in turn. -/
structure FrameRel (R : State → State → Prop) : Prop where
  refl : ∀ s, R s s
  trans : ∀ s t u, R s t → R t u → R s u

theorem Keeps.ok {R : State → State → Prop} {x : M α} (h : Keeps R x) {s t : State} {a : α}
    (hx : x s = .ok a t) : R s t := by
  have := h s
  simpa [endState, hx] using this

theorem Keeps.error {R : State → State → Prop} {x : M α} (h : Keeps R x) {s t : State} {e : FaultRec}
    (hx : x s = .error e t) : R s t := by
  have := h s
  simpa [endState, hx] using this

theorem keeps_of {R : State → State → Prop} {x : M α} (hok : ∀ s t a, x s = .ok a t → R s t)
    (herr : ∀ s t e, x s = .error e t → R s t) : Keeps R x := by
  intro s
  unfold endState
  cases hx : x s with
  | ok a t => exact hok s t a hx
  | error e t => exact herr s t e hx

theorem keeps_mono {R Q : State → State → Prop} {x : M α} (h : Keeps R x) (hRQ : ∀ s t, R s t → Q s t) :
    Keeps Q x := fun s => hRQ _ _ (h s)

section
variable {R : State → State → Prop} (hR : FrameRel R)
include hR

theorem keeps_pure (a : α) : Keeps R (pure a : M α) := fun s => hR.refl s

theorem keeps_get : Keeps R (get : M State) := fun s => hR.refl s

theorem keeps_raise (f : FaultRec) : Keeps R (raise f : M α) := fun s => hR.refl s

theorem keeps_raiseIf (c : Bool) (f : FaultRec) : Keeps R (raiseIf c f) := by
  cases c
  · exact fun s => hR.refl s
  · exact fun s => hR.refl s

theorem keeps_bind {x : M α} {f : α → M β} (hx : Keeps R x) (hf : ∀ a, Keeps R (f a)) :
    Keeps R (x >>= f) := by
  intro s
  unfold endState
  rw [bind_run]
  cases h : x s with
  | ok a t => exact hR.trans _ _ _ (hx.ok h) (hf a t)
  | error e t => exact hx.error h

end

/-- After reading the state, the rest of a body may be considered at that state only. -/
theorem keeps_get_bind {R : State → State → Prop} {f : State → M β}
    (hf : ∀ s, R s (endState (f s) s)) : Keeps R ((get : M State) >>= f) := hf

theorem keeps_modify {R : State → State → Prop} {f : State → State} (h : ∀ s, R s (f s)) :
    Keeps R (modify f : M PUnit) := h

/-! ### A body that changes memory, page versions and the translation cache only -/

/-- Nothing but `ms` differs. -/
def OnlyMs (s t : State) : Prop := t = s.withMs t.ms

theorem onlyMs_frame : FrameRel OnlyMs where
  refl _ := rfl
  trans s t u h1 h2 := by
    unfold OnlyMs at *
    rw [h2, h1]
    rfl

theorem OnlyMs.elim {s t : State} (h : OnlyMs s t) : ∃ m, t = s.withMs m := ⟨t.ms, h⟩

end Sys2Proof.Machine
end

