-- ==== Sys2Proof/Laws/Sparse.lean ====
section
/-! SUPPORT. The finite maps in canonical form: reads after writes, and that a write keeps the form. -/

namespace Sys2Proof.Machine

variable {β : Type} [DecidableEq β] {d : β}

/-- In canonical form: the head's value is not the default, its key is below every other, and the rest is in
canonical form. -/
theorem sparseWf_cons {a : Nat} {b : β} {t : List (Nat × β)} :
    sparseWf d ((a, b) :: t) = true ↔ b ≠ d ∧ (∀ e ∈ t, a < e.1) ∧ sparseWf d t = true := by
  simp [sparseWf, and_assoc]

omit [DecidableEq β] in
/-- A key below every listed one reads as the default. -/
theorem sparseGet_below {t : List (Nat × β)} {k : Nat} (h : ∀ e ∈ t, k < e.1) : sparseGet d t k = d := by
  induction t with
  | nil => rfl
  | cons e t ih =>
    have he : k ≠ e.1 := Nat.ne_of_lt (h e (List.mem_cons_self ..))
    simp only [sparseGet, he, if_false]
    exact ih fun x hx => h x (List.mem_cons_of_mem _ hx)

/-- A write leaves every other key alone, whatever the list. -/
theorem sparseGet_set_other (t : List (Nat × β)) (k j : Nat) (v : β) (h : j ≠ k) :
    sparseGet d (sparseSet d t k v) j = sparseGet d t j := by
  induction t with
  | nil => by_cases hv : v = d <;> simp [sparseSet, sparseGet, hv, h]
  | cons e t ih =>
    obtain ⟨a, b⟩ := e
    by_cases hlt : k < a
    · by_cases hv : v = d <;> simp [sparseSet, sparseGet, hlt, hv, h]
    · by_cases hka : k = a
      · subst hka
        by_cases hv : v = d <;> simp [sparseSet, sparseGet, hv, h]
      · by_cases hja : j = a <;> simp [sparseSet, sparseGet, hlt, hka, hja, ih]

/-- In canonical form a key reads as it was written. -/
theorem sparseGet_set_same (t : List (Nat × β)) (k : Nat) (v : β) (h : sparseWf d t = true) :
    sparseGet d (sparseSet d t k v) k = v := by
  induction t with
  | nil => by_cases hv : v = d <;> simp [sparseSet, sparseGet, hv]
  | cons e t ih =>
    obtain ⟨a, b⟩ := e
    obtain ⟨hb, hlow, ht⟩ := sparseWf_cons.mp h
    by_cases hlt : k < a
    · by_cases hv : v = d
      · have hbelow : ∀ e ∈ (a, b) :: t, k < e.1 := by
          intro e he
          rcases List.mem_cons.mp he with rfl | he
          · exact hlt
          · exact Nat.lt_trans hlt (hlow e he)
        simp only [sparseSet, hlt, hv, if_true]
        exact sparseGet_below hbelow
      · simp [sparseSet, sparseGet, hlt, hv]
    · by_cases hka : k = a
      · subst hka
        by_cases hv : v = d
        · simp only [sparseSet, hv, if_true, Nat.lt_irrefl, if_false]
          exact sparseGet_below hlow
        · simp [sparseSet, sparseGet, hv]
      · simp [sparseSet, sparseGet, hlt, hka, ih ht]

/-- A read after a write, in canonical form. -/
theorem sparseGet_set (t : List (Nat × β)) (k j : Nat) (v : β) (h : sparseWf d t = true) :
    sparseGet d (sparseSet d t k v) j = if j = k then v else sparseGet d t j := by
  by_cases hj : j = k
  · subst hj; simp [sparseGet_set_same _ _ _ h]
  · simp [hj, sparseGet_set_other _ _ _ _ hj]

/-- A value other than the default is read back whatever the list. -/
theorem sparseGet_set_same_of_ne (t : List (Nat × β)) (k : Nat) (v : β) (h : v ≠ d) :
    sparseGet d (sparseSet d t k v) k = v := by
  induction t with
  | nil => simp [sparseSet, sparseGet, h]
  | cons e t ih =>
    obtain ⟨a, b⟩ := e
    by_cases hlt : k < a
    · simp [sparseSet, sparseGet, hlt, h]
    · by_cases hka : k = a <;> simp [sparseSet, sparseGet, hlt, hka, h, ih]

/-- The keys of a list after a write are among the old ones and the one written. -/
theorem sparseSet_mem {t : List (Nat × β)} {k : Nat} {v : β} {e : Nat × β}
    (h : e ∈ sparseSet d t k v) : e ∈ t ∨ e = (k, v) := by
  induction t with
  | nil => by_cases hv : v = d <;> simp_all [sparseSet]
  | cons x t ih =>
    obtain ⟨a, b⟩ := x
    by_cases hlt : k < a
    · by_cases hv : v = d
      · rw [sparseSet, if_pos hlt, if_pos hv] at h
        exact .inl h
      · rw [sparseSet, if_pos hlt, if_neg hv] at h
        exact (List.mem_cons.mp h).symm
    · by_cases hka : k = a
      · by_cases hv : v = d
        · rw [sparseSet, if_neg hlt, if_pos hka, if_pos hv] at h
          exact .inl (List.mem_cons_of_mem _ h)
        · rw [sparseSet, if_neg hlt, if_pos hka, if_neg hv] at h
          exact (List.mem_cons.mp h).symm.imp (List.mem_cons_of_mem _) id
      · rw [sparseSet, if_neg hlt, if_neg hka] at h
        rcases List.mem_cons.mp h with h | h
        · exact .inl (h ▸ List.mem_cons_self ..)
        · exact (ih h).imp (List.mem_cons_of_mem _) id

/-- A write keeps the canonical form. -/
theorem sparseWf_set (t : List (Nat × β)) (k : Nat) (v : β) (h : sparseWf d t = true) :
    sparseWf d (sparseSet d t k v) = true := by
  induction t with
  | nil => by_cases hv : v = d <;> simp [sparseSet, sparseWf, hv]
  | cons e t ih =>
    obtain ⟨a, b⟩ := e
    obtain ⟨hb, hlow, ht⟩ := sparseWf_cons.mp h
    by_cases hlt : k < a
    · by_cases hv : v = d
      · simpa [sparseSet, hlt, hv] using h
      · simp only [sparseSet, hlt, hv, if_true, if_false]
        refine sparseWf_cons.mpr ⟨hv, fun e he => ?_, h⟩
        rcases List.mem_cons.mp he with rfl | he
        · exact hlt
        · exact Nat.lt_trans hlt (hlow e he)
    · by_cases hka : k = a
      · subst hka
        by_cases hv : v = d
        · simpa [sparseSet, hv] using ht
        · simp only [sparseSet, hv, if_false, if_true, Nat.lt_irrefl]
          exact sparseWf_cons.mpr ⟨hv, hlow, ht⟩
      · simp only [sparseSet, hlt, hka, if_false]
        refine sparseWf_cons.mpr ⟨hb, fun e he => ?_, ih ht⟩
        rcases sparseSet_mem he with he | rfl
        · exact hlow e he
        · exact Nat.lt_of_le_of_ne (Nat.not_lt.mp hlt) (Ne.symm hka)

/-- Lists in canonical form that read alike are equal. -/
theorem sparse_ext {s t : List (Nat × β)} (hs : sparseWf d s = true) (ht : sparseWf d t = true)
    (h : ∀ k, sparseGet d s k = sparseGet d t k) : s = t := by
  induction s generalizing t with
  | nil =>
    cases t with
    | nil => rfl
    | cons e t =>
      obtain ⟨hb, -, -⟩ := sparseWf_cons.mp ht
      exact absurd (h e.1).symm (by simpa [sparseGet] using hb)
  | cons e s ih =>
    obtain ⟨a, b⟩ := e
    obtain ⟨hb, hlow, hs'⟩ := sparseWf_cons.mp hs
    cases t with
    | nil => exact absurd (h a) (by simpa [sparseGet] using hb)
    | cons x t =>
      obtain ⟨a', b'⟩ := x
      obtain ⟨hb', hlow', ht'⟩ := sparseWf_cons.mp ht
      have haa : a = a' := by
        rcases Nat.lt_trichotomy a a' with hlt | heq | hgt
        · have h1 : sparseGet d ((a', b') :: t) a = d := sparseGet_below fun e he => by
            rcases List.mem_cons.mp he with rfl | he
            · exact hlt
            · exact Nat.lt_trans hlt (hlow' e he)
          exact absurd ((h a).trans h1) (by simpa [sparseGet] using hb)
        · exact heq
        · have h1 : sparseGet d ((a, b) :: s) a' = d := sparseGet_below fun e he => by
            rcases List.mem_cons.mp he with rfl | he
            · exact hgt
            · exact Nat.lt_trans hgt (hlow e he)
          exact absurd ((h a').symm.trans h1) (by simpa [sparseGet] using hb')
      subst haa
      have hbb : b = b' := by simpa [sparseGet] using h a
      subst hbb
      congr 1
      refine ih hs' ht' fun k => ?_
      by_cases hk : k = a
      · subst hk
        rw [sparseGet_below hlow, sparseGet_below hlow']
      · simpa [sparseGet, hk] using h k

end Sys2Proof.Machine
end

