-- ==== Sys2Proof/Laws/Memory.lean ====
section
/-! SUPPORT. What the memory operations can do: a translation, a read and a write change only memory, page
versions and the translation cache, and they keep the canonical forms. Stated once for every relation
that the few primitive changes keep, so that a later invariant needs those few facts only. -/

namespace Sys2Proof.Machine
open Sys2Proof

/-- The primitive changes of a memory access, each related by `R`: an access to a page that is not RAM, a
write with the page-version bump that follows it, a fill of the translation cache. -/
structure AccessRel (R : State → State → Prop) : Prop extends FrameRel R where
  busOp : ∀ s : State, R s (s.withMs s.ms.countBusOp)
  write : ∀ (s : State) (pa : Nat) (bs : List Byte), R s (s.withMs (s.ms.physWrite s.cfg pa bs))
  bump : ∀ (s : State) (pa n : Nat), R s (s.withMs (s.ms.onGuestWrite pa n))
  fill : ∀ (s : State) (i : Nat) (lin : Word) (k : Access) (r : Walked),
    R s (s.setTlb i (s.tlbFill lin k r))

section
variable {R : State → State → Prop} (hR : AccessRel R)
include hR

theorem keeps_physRead (pa n : Nat) : Keeps R (physRead pa n) := by
  intro s
  unfold endState physRead
  by_cases h : isRam s.cfg (pa / 4096) = true
  · simp only [h, if_true]; exact hR.refl s
  · simp only [h]; exact hR.busOp s

theorem keeps_physWrite (pa n : Nat) (v : Word) : Keeps R (physWrite pa n v) :=
  fun s => hR.write s pa _

theorem keeps_onGuestWrite (pa n : Nat) : Keeps R (onGuestWrite pa n) := fun s => hR.bump s pa n

theorem keeps_pfIf (c : Bool) (lin : Word) (k : Access) (user p r : Bool) :
    Keeps R (pfIf c lin k user p r) :=
  keeps_bind hR.toFrameRel (keeps_get hR.toFrameRel) fun _ => keeps_raiseIf hR.toFrameRel _ _

theorem keeps_readEntry (pa size : Nat) (lin : Word) (k : Access) (user : Bool) :
    Keeps R (readEntry pa size lin k user) :=
  keeps_bind hR.toFrameRel (keeps_physRead hR _ _) fun _ =>
    keeps_bind hR.toFrameRel (keeps_pfIf hR _ _ _ _ _ _) fun _ => keeps_pure hR.toFrameRel _

theorem keeps_walkLegacy2 (lin : Word) (k : Access) (user : Bool) :
    Keeps R (walkLegacy2 lin k user) := by
  refine keeps_bind hR.toFrameRel (keeps_get hR.toFrameRel) fun s => ?_
  refine keeps_bind hR.toFrameRel (keeps_readEntry hR _ _ _ _ _) fun pde => ?_
  split
  · exact keeps_pure hR.toFrameRel _
  · exact keeps_bind hR.toFrameRel (keeps_readEntry hR _ _ _ _ _) fun _ => keeps_pure hR.toFrameRel _

theorem keeps_walkPd (base : Nat) (above : List (Nat × Word)) (w u xd pae : Bool) (lin : Word)
    (k : Access) (user : Bool) : Keeps R (walkPd base above w u xd pae lin k user) := by
  refine keeps_bind hR.toFrameRel (keeps_get hR.toFrameRel) fun s => ?_
  refine keeps_bind hR.toFrameRel (keeps_readEntry hR _ _ _ _ _) fun pde => ?_
  refine keeps_bind hR.toFrameRel (keeps_pfIf hR _ _ _ _ _ _) fun _ => ?_
  split
  · exact keeps_pure hR.toFrameRel _
  · refine keeps_bind hR.toFrameRel (keeps_readEntry hR _ _ _ _ _) fun _ => ?_
    exact keeps_bind hR.toFrameRel (keeps_pfIf hR _ _ _ _ _ _) fun _ => keeps_pure hR.toFrameRel _

theorem keeps_walkPae3 (lin : Word) (k : Access) (user : Bool) : Keeps R (walkPae3 lin k user) := by
  refine keeps_bind hR.toFrameRel (keeps_get hR.toFrameRel) fun s => ?_
  refine keeps_bind hR.toFrameRel (keeps_readEntry hR _ _ _ _ _) fun _ => ?_
  exact keeps_bind hR.toFrameRel (keeps_pfIf hR _ _ _ _ _ _) fun _ => keeps_walkPd hR _ _ _ _ _ _ _ _ _

theorem keeps_walkLong4 (lin : Word) (k : Access) (user : Bool) : Keeps R (walkLong4 lin k user) := by
  refine keeps_bind hR.toFrameRel (keeps_get hR.toFrameRel) fun s => ?_
  refine keeps_bind hR.toFrameRel (keeps_readEntry hR _ _ _ _ _) fun _ => ?_
  refine keeps_bind hR.toFrameRel (keeps_pfIf hR _ _ _ _ _ _) fun _ => ?_
  refine keeps_bind hR.toFrameRel (keeps_readEntry hR _ _ _ _ _) fun _ => ?_
  exact keeps_bind hR.toFrameRel (keeps_pfIf hR _ _ _ _ _ _) fun _ => keeps_walkPd hR _ _ _ _ _ _ _ _ _

theorem keeps_writeEntry (pa size : Nat) (old new : Word) : Keeps R (writeEntry pa size old new) := by
  unfold writeEntry
  split
  · exact keeps_pure hR.toFrameRel _
  · exact keeps_bind hR.toFrameRel (keeps_physWrite hR _ _ _) fun _ => keeps_onGuestWrite hR _ _

theorem keeps_markLevels (size : Nat) (k : Access) (l : List (Nat × Word)) :
    Keeps R (markLevels size k l) := by
  induction l with
  | nil => exact keeps_pure hR.toFrameRel _
  | cons e rest ih => exact keeps_bind hR.toFrameRel (keeps_writeEntry hR _ _ _ _) fun _ => ih

theorem keeps_walkTables (mode : PagingMode) (lin : Word) (k : Access) (user : Bool) :
    Keeps R (walkTables mode lin k user) := by
  cases mode
  · exact keeps_walkLong4 hR _ _ _
  · exact keeps_walkLegacy2 hR _ _ _
  · exact keeps_walkPae3 hR _ _ _
  · exact keeps_walkLong4 hR _ _ _

theorem keeps_walk (lin : Word) (k : Access) (user : Bool) : Keeps R (walk lin k user) := by
  refine keeps_bind hR.toFrameRel (keeps_get hR.toFrameRel) fun s => ?_
  refine keeps_bind hR.toFrameRel (keeps_walkTables hR _ _ _ _) fun r => ?_
  refine keeps_bind hR.toFrameRel (keeps_pfIf hR _ _ _ _ _ _) fun _ => ?_
  exact keeps_bind hR.toFrameRel (keeps_markLevels hR _ _ _) fun _ => keeps_pure hR.toFrameRel _

theorem keeps_translate (lin : Word) (k : Access) (user : Bool) : Keeps R (translate lin k user) := by
  refine keeps_bind hR.toFrameRel (keeps_get hR.toFrameRel) fun s => ?_
  split
  · exact keeps_pure hR.toFrameRel _
  · split
    · exact keeps_pure hR.toFrameRel _
    · refine keeps_bind hR.toFrameRel (keeps_walk hR _ _ _) fun r => ?_
      exact keeps_bind hR.toFrameRel (keeps_modify fun t => hR.fill t _ _ _ _)
        fun _ => keeps_pure hR.toFrameRel _

theorem keeps_translateSpan (lin : Word) (n : Nat) (k : Access) (user : Bool) :
    Keeps R (translateSpan lin n k user) := by
  refine keeps_bind hR.toFrameRel (keeps_get hR.toFrameRel) fun s => ?_
  split
  · exact keeps_bind hR.toFrameRel (keeps_translate hR _ _ _) fun _ => keeps_pure hR.toFrameRel _
  · refine keeps_bind hR.toFrameRel (keeps_translate hR _ _ _) fun _ => ?_
    exact keeps_bind hR.toFrameRel (keeps_translate hR _ _ _) fun _ => keeps_pure hR.toFrameRel _

theorem keeps_readEach (l : List Nat) : Keeps R (readEach l) := by
  induction l with
  | nil => exact keeps_pure hR.toFrameRel _
  | cons a l ih =>
    exact keeps_bind hR.toFrameRel (keeps_physRead hR _ _) fun _ =>
      keeps_bind hR.toFrameRel ih fun _ => keeps_pure hR.toFrameRel _

theorem keeps_writeEach (l : List (Nat × Byte)) : Keeps R (writeEach l) := by
  induction l with
  | nil => exact keeps_pure hR.toFrameRel _
  | cons a l ih => exact keeps_bind hR.toFrameRel (keeps_physWrite hR _ _ _) fun _ => ih

theorem keeps_spanRead (p : Span) (n : Nat) : Keeps R (spanRead p n) := by
  unfold spanRead
  split
  · exact keeps_bind hR.toFrameRel (keeps_readEach hR _) fun _ => keeps_pure hR.toFrameRel _
  · exact keeps_physRead hR _ _

theorem keeps_spanWrite (p : Span) (n : Nat) (v : Word) : Keeps R (spanWrite p n v) := by
  unfold spanWrite
  split
  · refine keeps_bind hR.toFrameRel (keeps_writeEach hR _) fun _ => ?_
    exact keeps_bind hR.toFrameRel (keeps_onGuestWrite hR _ _) fun _ => keeps_onGuestWrite hR _ _
  · exact keeps_bind hR.toFrameRel (keeps_physWrite hR _ _ _) fun _ => keeps_onGuestWrite hR _ _

theorem keeps_linRead (lin : Word) (n : Nat) (k : Access) (user : Bool) :
    Keeps R (linRead lin n k user) :=
  keeps_bind hR.toFrameRel (keeps_translateSpan hR _ _ _ _) fun _ => keeps_spanRead hR _ _

theorem keeps_linWrite (lin : Word) (n : Nat) (v : Word) (user : Bool) :
    Keeps R (linWrite lin n v user) :=
  keeps_bind hR.toFrameRel (keeps_translateSpan hR _ _ _ _) fun _ => keeps_spanWrite hR _ _ _

theorem keeps_memRead (seg : SReg) (off : Word) (n : Nat) : Keeps R (memRead seg off n) := by
  refine keeps_bind hR.toFrameRel (keeps_get hR.toFrameRel) fun s => ?_
  refine keeps_bind hR.toFrameRel (keeps_raiseIf hR.toFrameRel _ _) fun _ => ?_
  exact keeps_bind hR.toFrameRel (keeps_raiseIf hR.toFrameRel _ _) fun _ => keeps_linRead hR _ _ _ _

theorem keeps_memWrite (seg : SReg) (off : Word) (n : Nat) (v : Word) :
    Keeps R (memWrite seg off n v) := by
  refine keeps_bind hR.toFrameRel (keeps_get hR.toFrameRel) fun s => ?_
  refine keeps_bind hR.toFrameRel (keeps_raiseIf hR.toFrameRel _ _) fun _ => ?_
  exact keeps_bind hR.toFrameRel (keeps_raiseIf hR.toFrameRel _ _) fun _ => keeps_linWrite hR _ _ _ _

theorem keeps_rmwBegin (seg : SReg) (off : Word) (n : Nat) : Keeps R (rmwBegin seg off n) := by
  refine keeps_bind hR.toFrameRel (keeps_get hR.toFrameRel) fun s => ?_
  refine keeps_bind hR.toFrameRel (keeps_raiseIf hR.toFrameRel _ _) fun _ => ?_
  refine keeps_bind hR.toFrameRel (keeps_raiseIf hR.toFrameRel _ _) fun _ => ?_
  refine keeps_bind hR.toFrameRel (keeps_raiseIf hR.toFrameRel _ _) fun _ => ?_
  refine keeps_bind hR.toFrameRel (keeps_translateSpan hR _ _ _ _) fun _ => ?_
  exact keeps_bind hR.toFrameRel (keeps_spanRead hR _ _) fun _ => keeps_pure hR.toFrameRel _

theorem keeps_openAccess (seg : SReg) (off : Word) (n : Nat) (k : Access) :
    Keeps R (openAccess seg off n k) := by
  refine keeps_bind hR.toFrameRel (keeps_get hR.toFrameRel) fun s => ?_
  refine keeps_bind hR.toFrameRel (keeps_raiseIf hR.toFrameRel _ _) fun _ => ?_
  exact keeps_bind hR.toFrameRel (keeps_raiseIf hR.toFrameRel _ _) fun _ =>
    keeps_translateSpan hR _ _ _ _

theorem keeps_readRM (h : Hdr) (w : Width) (o : RM) : Keeps R (readRM h w o) := by
  cases o with
  | reg r => exact keeps_bind hR.toFrameRel (keeps_get hR.toFrameRel) fun _ => keeps_pure hR.toFrameRel _
  | mem m => exact keeps_bind hR.toFrameRel (keeps_get hR.toFrameRel) fun _ => keeps_memRead hR _ _ _

theorem keeps_fetchByte (k : Nat) : Keeps R (fetchByte k) := by
  refine keeps_bind hR.toFrameRel (keeps_get hR.toFrameRel) fun s => ?_
  refine keeps_bind hR.toFrameRel (keeps_raiseIf hR.toFrameRel _ _) fun _ => ?_
  exact keeps_bind hR.toFrameRel (keeps_linRead hR _ _ _ _) fun _ => keeps_pure hR.toFrameRel _

theorem keeps_fetchFrom (k n : Nat) : Keeps R (fetchFrom k n) := by
  induction n generalizing k with
  | zero => exact keeps_pure hR.toFrameRel _
  | succ n ih =>
    exact keeps_bind hR.toFrameRel (keeps_fetchByte hR _) fun _ =>
      keeps_bind hR.toFrameRel (ih _) fun _ => keeps_pure hR.toFrameRel _

theorem keeps_fetchDecode (m : DecodeMode) (fuel : Nat) (bytes : List Byte) :
    Keeps R (fetchDecode m fuel bytes) := by
  induction fuel generalizing bytes with
  | zero => exact keeps_pure hR.toFrameRel _
  | succ n ih =>
    unfold fetchDecode
    split
    · exact keeps_bind hR.toFrameRel (keeps_fetchByte hR _) fun _ => ih _
    · exact keeps_pure hR.toFrameRel _

end

/-! ### Two such relations -/

/-- A memory access changes only `ms`. -/
theorem onlyMs_access : AccessRel OnlyMs where
  toFrameRel := onlyMs_frame
  busOp _ := rfl
  write _ _ _ := rfl
  bump _ _ _ := rfl
  fill _ _ _ _ _ := rfl

theorem storeBytes_pageVersion (m : MemSys) (pa : Nat) (bs : List Byte) :
    (m.storeBytes pa bs).pageVersion = m.pageVersion ∧ (m.storeBytes pa bs).tlb = m.tlb ∧
      (m.storeBytes pa bs).busOps = m.busOps := by
  induction bs generalizing m pa with
  | nil => exact ⟨rfl, rfl, rfl⟩
  | cons b bs ih => exact ih _ _

theorem bumpPages_mem (m : MemSys) (p n : Nat) :
    (m.bumpPages p n).mem = m.mem ∧ (m.bumpPages p n).tlb = m.tlb ∧
      (m.bumpPages p n).busOps = m.busOps := by
  induction n generalizing m p with
  | zero => exact ⟨rfl, rfl, rfl⟩
  | succ n ih => exact ih _ _

theorem onGuestWrite_mem (m : MemSys) (pa n : Nat) :
    (m.onGuestWrite pa n).mem = m.mem ∧ (m.onGuestWrite pa n).tlb = m.tlb ∧
      (m.onGuestWrite pa n).busOps = m.busOps := by
  unfold MemSys.onGuestWrite
  split
  · exact ⟨rfl, rfl, rfl⟩
  · exact bumpPages_mem _ _ _

theorem MemSys.wf_iff (m : MemSys) :
    m.wf = true ↔ Memory.wf m.mem = true ∧ sparseWf 0 m.pageVersion = true ∧
      sparseWf TlbEntry.empty m.tlb = true := by
  simp [MemSys.wf, and_assoc]

/-- Memory after a reset is in canonical form. -/
theorem reset_mem_wf : Memory.wf State.reset.ms.mem = true := rfl

/-- A store of bytes keeps memory's canonical form. -/
theorem storeBytes_wf (m : MemSys) (pa : Nat) (bs : List Byte) (h : Memory.wf m.mem = true) :
    Memory.wf (m.storeBytes pa bs).mem = true := by
  induction bs generalizing m pa with
  | nil => exact h
  | cons b bs ih => exact ih _ _ (sparseWf_set _ _ _ h)

theorem bumpPages_wf (m : MemSys) (p n : Nat) (h : sparseWf 0 m.pageVersion = true) :
    sparseWf 0 (m.bumpPages p n).pageVersion = true := by
  induction n generalizing m p with
  | zero => exact h
  | succ n ih => exact ih _ _ (sparseWf_set _ _ _ h)

/-- Every memory operation keeps the canonical forms of memory, page versions and translation cache. -/
theorem wf_access : AccessRel fun s t => s.ms.wf = true → t.ms.wf = true where
  refl _ h := h
  trans _ _ _ h1 h2 h := h2 (h1 h)
  busOp _ h := h
  write s pa bs h := by
    show (s.ms.physWrite s.cfg pa bs).wf = true
    unfold MemSys.physWrite
    split
    · obtain ⟨h1, h2, h3⟩ := (MemSys.wf_iff _).mp h
      obtain ⟨e1, e2, -⟩ := storeBytes_pageVersion s.ms pa bs
      exact (MemSys.wf_iff _).mpr ⟨storeBytes_wf _ _ _ h1, e1 ▸ h2, e2 ▸ h3⟩
    · exact h
  bump s pa n h := by
    show (s.ms.onGuestWrite pa n).wf = true
    obtain ⟨h1, h2, h3⟩ := (MemSys.wf_iff _).mp h
    obtain ⟨e1, e2, -⟩ := onGuestWrite_mem s.ms pa n
    refine (MemSys.wf_iff _).mpr ⟨e1 ▸ h1, ?_, e2 ▸ h3⟩
    unfold MemSys.onGuestWrite
    split
    · exact h2
    · exact bumpPages_wf _ _ _ h2
  fill s i lin k r h := by
    obtain ⟨h1, h2, h3⟩ := (MemSys.wf_iff _).mp h
    exact (MemSys.wf_iff _).mpr ⟨h1, h2, sparseWf_set _ _ _ h3⟩

/-! ### What a byte reads as -/

/-- A store leaves every byte outside it alone, whatever the form of the list. -/
theorem storeBytes_byte_other (m : MemSys) (pa : Nat) (bs : List Byte) (a : Nat)
    (h : a < pa ∨ pa + bs.length ≤ a) : (m.storeBytes pa bs).byte a = m.byte a := by
  induction bs generalizing m pa with
  | nil => rfl
  | cons b bs ih =>
    rw [List.length_cons] at h
    have h1 : (m.storeBytes pa (b :: bs)) =
        ({ m with mem := sparseSet 0 m.mem pa b } : MemSys).storeBytes (pa + 1) bs := rfl
    rw [h1, ih _ _ (by omega)]
    exact sparseGet_set_other _ _ _ _ (by omega)

/-- A store puts its bytes at consecutive addresses. -/
theorem storeBytes_byte (m : MemSys) (pa : Nat) (bs : List Byte) (i : Nat) (hi : i < bs.length)
    (h : Memory.wf m.mem = true) : (m.storeBytes pa bs).byte (pa + i) = bs[i] := by
  induction bs generalizing m pa i with
  | nil => exact absurd hi (Nat.not_lt_zero _)
  | cons b bs ih =>
    have h1 : (m.storeBytes pa (b :: bs)) =
        ({ m with mem := sparseSet 0 m.mem pa b } : MemSys).storeBytes (pa + 1) bs := rfl
    cases i with
    | zero =>
      rw [h1, storeBytes_byte_other _ _ _ _ (by omega)]
      exact sparseGet_set_same _ _ _ h
    | succ i =>
      have h2 := ih ({ m with mem := sparseSet 0 m.mem pa b } : MemSys) (pa + 1) i
        (by simpa using hi) (sparseWf_set _ _ _ h)
      rw [h1, show pa + (i + 1) = pa + 1 + i from by omega, h2]
      rfl

/-- The version of a page after a bump of `n` pages from page `p` up. -/
theorem bumpPages_version (m : MemSys) (p n q : Nat) :
    (m.bumpPages p n).version q = m.version q + (if p ≤ q ∧ q < p + n then 1 else 0) := by
  induction n generalizing m p with
  | zero => simp [MemSys.bumpPages]
  | succ n ih =>
    have h1 : m.bumpPages p (n + 1) =
        ({ m with pageVersion := sparseSet 0 m.pageVersion p (sparseGet 0 m.pageVersion p + 1) } :
          MemSys).bumpPages (p + 1) n := rfl
    rw [h1, ih]
    by_cases hq : q = p
    · subst hq
      have : sparseGet 0 (sparseSet 0 m.pageVersion q (sparseGet 0 m.pageVersion q + 1)) q =
          sparseGet 0 m.pageVersion q + 1 := sparseGet_set_same_of_ne _ _ _ (by omega)
      simp only [MemSys.version, this]
      rw [if_neg (by omega), if_pos (by omega)]
    · have : sparseGet 0 (sparseSet 0 m.pageVersion p (sparseGet 0 m.pageVersion p + 1)) q =
          sparseGet 0 m.pageVersion q := sparseGet_set_other _ _ _ _ hq
      simp only [MemSys.version, this]
      congr 1
      by_cases hc : p + 1 ≤ q ∧ q < p + 1 + n
      · rw [if_pos hc, if_pos (by omega)]
      · rw [if_neg hc, if_neg (by omega)]

end Sys2Proof.Machine
end

