-- ==== Sys2Proof/Laws/Bodies.lean ====
section
/-! SUPPORT. What an instruction can do. Every body that is not one of the few that write system state only
makes memory accesses and changes general registers and flags; every instruction ends by completing, by
raising, or by asking for a software interrupt. A relation that those changes keep is kept by every such
instruction: the frames and invariants are derived from that. -/

namespace Sys2Proof.Machine
open Sys2Proof

/-- The changes of a body that writes no system state. -/
structure BodyRel (R : State → State → Prop) : Prop extends AccessRel R where
  regs : ∀ (s : State) (v : Vector Word 16), R s { s with regs := v }
  flags : ∀ (s : State) (f : Flags), R s (s.withFlags f)

section
variable {R : State → State → Prop} (hR : BodyRel R)
include hR

theorem keeps_setReg (w : Width) (r : Gpr) (v : Word) : Keeps R (setReg w r v) := fun s => hR.regs s _

theorem keeps_setFlags (f : Flags) : Keeps R (setFlags f) := fun s => hR.flags s f

theorem keeps_modify_setSp (v : State → Word) : Keeps R (modify fun t => t.setSp (v t)) :=
  fun s => hR.regs s _

theorem keeps_modify_setPair (w : Width) (hi lo : Word) : Keeps R (modify fun t => t.setPair w hi lo) := by
  intro s
  cases w
  · exact hR.regs s _
  · exact hR.trans _ _ _ (hR.regs s _) (hR.regs _ _)
  · exact hR.trans _ _ _ (hR.regs s _) (hR.regs _ _)
  · exact hR.trans _ _ _ (hR.regs s _) (hR.regs _ _)

theorem keeps_readReg (w : Width) (r : Gpr) : Keeps R (readReg w r) := fun s => hR.refl s

theorem keeps_push (n : Nat) (v : Word) : Keeps R (push n v) := by
  refine keeps_bind hR.toFrameRel (keeps_get hR.toFrameRel) fun s => ?_
  exact keeps_bind hR.toFrameRel (keeps_memWrite hR.toAccessRel _ _ _ _) fun _ =>
    keeps_modify_setSp hR _

theorem keeps_pop (n : Nat) : Keeps R (pop n) := by
  refine keeps_bind hR.toFrameRel (keeps_get hR.toFrameRel) fun s => ?_
  refine keeps_bind hR.toFrameRel (keeps_memRead hR.toAccessRel _ _ _) fun _ => ?_
  exact keeps_bind hR.toFrameRel (keeps_modify_setSp hR _) fun _ => keeps_pure hR.toFrameRel _

theorem keeps_writeRM (h : Hdr) (w : Width) (o : RM) (v : Word) : Keeps R (writeRM h w o v) := by
  cases o with
  | reg r => exact keeps_setReg hR _ _ _
  | mem m => exact keeps_bind hR.toFrameRel (keeps_get hR.toFrameRel) fun _ =>
      keeps_memWrite hR.toAccessRel _ _ _ _

theorem keeps_rmwRM (h : Hdr) (w : Width) (o : RM) (f : Word → Flags → Computed) :
    Keeps R (rmwRM h w o f) := by
  cases o with
  | reg r =>
    refine keeps_bind hR.toFrameRel (keeps_get hR.toFrameRel) fun s => ?_
    exact keeps_bind hR.toFrameRel (keeps_setReg hR _ _ _) fun _ => keeps_setFlags hR _
  | mem m =>
    refine keeps_bind hR.toFrameRel (keeps_get hR.toFrameRel) fun s => ?_
    refine keeps_bind hR.toFrameRel (keeps_rmwBegin hR.toAccessRel _ _ _) fun r => ?_
    exact keeps_bind hR.toFrameRel (keeps_spanWrite hR.toAccessRel _ _ _) fun _ => keeps_setFlags hR _

theorem keeps_rmwReg (w : Width) (r : Gpr) (f : Word → Flags → Computed) : Keeps R (rmwReg w r f) := by
  refine keeps_bind hR.toFrameRel (keeps_get hR.toFrameRel) fun s => ?_
  exact keeps_bind hR.toFrameRel (keeps_setReg hR _ _ _) fun _ => keeps_setFlags hR _

theorem keeps_aluWrite (h : Hdr) (g : Width → Word → Word → Flags → Computed) (f : AluForm) :
    Keeps R (aluWrite h g f) := by
  cases f with
  | mr w dst src =>
    simp only [aluWrite]
    exact keeps_bind hR.toFrameRel (keeps_readReg hR _ _) fun _ => keeps_rmwRM hR _ _ _ _
  | rm w dst src =>
    simp only [aluWrite]
    exact keeps_bind hR.toFrameRel (keeps_readRM hR.toAccessRel _ _ _) fun _ => keeps_rmwReg hR _ _ _
  | acc w imm =>
    simp only [aluWrite]
    exact keeps_rmwReg hR _ _ _
  | mi w dst imm =>
    simp only [aluWrite]
    exact keeps_rmwRM hR _ _ _ _
  | mis w dst imm =>
    simp only [aluWrite]
    exact keeps_rmwRM hR _ _ _ _

theorem keeps_compareWith (a b : Word) (g : Word → Word → Flags → Computed) :
    Keeps R (compareWith a b g) :=
  keeps_bind hR.toFrameRel (keeps_get hR.toFrameRel) fun _ => keeps_setFlags hR _

theorem keeps_aluCompare (h : Hdr) (g : Width → Word → Word → Flags → Computed) (f : AluForm) :
    Keeps R (aluCompare h g f) := by
  cases f with
  | mr w dst src =>
    simp only [aluCompare]
    exact keeps_bind hR.toFrameRel (keeps_readRM hR.toAccessRel _ _ _) fun _ =>
      keeps_bind hR.toFrameRel (keeps_readReg hR _ _) fun _ => keeps_compareWith hR _ _ _
  | rm w dst src =>
    simp only [aluCompare]
    exact keeps_bind hR.toFrameRel (keeps_readReg hR _ _) fun _ =>
      keeps_bind hR.toFrameRel (keeps_readRM hR.toAccessRel _ _ _) fun _ => keeps_compareWith hR _ _ _
  | acc w imm =>
    simp only [aluCompare]
    exact keeps_bind hR.toFrameRel (keeps_readReg hR _ _) fun _ => keeps_compareWith hR _ _ _
  | mi w dst imm =>
    simp only [aluCompare]
    exact keeps_bind hR.toFrameRel (keeps_readRM hR.toAccessRel _ _ _) fun _ => keeps_compareWith hR _ _ _
  | mis w dst imm =>
    simp only [aluCompare]
    exact keeps_bind hR.toFrameRel (keeps_readRM hR.toAccessRel _ _ _) fun _ => keeps_compareWith hR _ _ _

theorem keeps_testBody (h : Hdr) (f : TestForm) : Keeps R (testBody h f) := by
  cases f with
  | mr w x y =>
    simp only [testBody]
    exact keeps_bind hR.toFrameRel (keeps_readRM hR.toAccessRel _ _ _) fun _ =>
      keeps_bind hR.toFrameRel (keeps_readReg hR _ _) fun _ => keeps_compareWith hR _ _ _
  | acc w imm =>
    simp only [testBody]
    exact keeps_bind hR.toFrameRel (keeps_readReg hR _ _) fun _ => keeps_compareWith hR _ _ _
  | mi w x imm =>
    simp only [testBody]
    exact keeps_bind hR.toFrameRel (keeps_readRM hR.toAccessRel _ _ _) fun _ => keeps_compareWith hR _ _ _

theorem keeps_incBody (h : Hdr) (g : Width → Word → Flags → Computed) (f : IncForm) :
    Keeps R (incBody h g f) := by
  cases f with
  | rm w dst =>
    simp only [incBody]
    exact keeps_rmwRM hR _ _ _ _
  | short w r =>
    simp only [incBody]
    exact keeps_rmwReg hR _ _ _

theorem keeps_mulBody (h : Hdr) (w : Width) (src : RM) : Keeps R (mulBody h w src) := by
  refine keeps_bind hR.toFrameRel (keeps_readRM hR.toAccessRel _ _ _) fun b => ?_
  refine keeps_bind hR.toFrameRel (keeps_get hR.toFrameRel) fun s => ?_
  exact keeps_bind hR.toFrameRel (keeps_modify_setPair hR _ _ _) fun _ => keeps_setFlags hR _

theorem keeps_imul1Body (h : Hdr) (w : Width) (src : RM) : Keeps R (imul1Body h w src) := by
  refine keeps_bind hR.toFrameRel (keeps_readRM hR.toAccessRel _ _ _) fun b => ?_
  refine keeps_bind hR.toFrameRel (keeps_get hR.toFrameRel) fun s => ?_
  exact keeps_bind hR.toFrameRel (keeps_modify_setPair hR _ _ _) fun _ => keeps_setFlags hR _

theorem keeps_imulInto (w : Width) (dst : Gpr) (a b : Word) : Keeps R (imulInto w dst a b) := by
  refine keeps_bind hR.toFrameRel (keeps_get hR.toFrameRel) fun s => ?_
  exact keeps_bind hR.toFrameRel (keeps_setReg hR _ _ _) fun _ => keeps_setFlags hR _

theorem keeps_divBody (h : Hdr) (w : Width) (src : RM) : Keeps R (divBody h w src) := by
  refine keeps_bind hR.toFrameRel (keeps_readRM hR.toAccessRel _ _ _) fun b => ?_
  refine keeps_bind hR.toFrameRel (keeps_get hR.toFrameRel) fun s => ?_
  refine keeps_bind hR.toFrameRel (keeps_raiseIf hR.toFrameRel _ _) fun _ => ?_
  refine keeps_bind hR.toFrameRel (keeps_raiseIf hR.toFrameRel _ _) fun _ => ?_
  exact keeps_bind hR.toFrameRel (keeps_modify_setPair hR _ _ _) fun _ => keeps_setFlags hR _

theorem keeps_idivBody (h : Hdr) (w : Width) (src : RM) : Keeps R (idivBody h w src) := by
  refine keeps_bind hR.toFrameRel (keeps_readRM hR.toAccessRel _ _ _) fun b => ?_
  refine keeps_bind hR.toFrameRel (keeps_get hR.toFrameRel) fun s => ?_
  refine keeps_bind hR.toFrameRel (keeps_raiseIf hR.toFrameRel _ _) fun _ => ?_
  refine keeps_bind hR.toFrameRel (keeps_raiseIf hR.toFrameRel _ _) fun _ => ?_
  exact keeps_bind hR.toFrameRel (keeps_modify_setPair hR _ _ _) fun _ => keeps_setFlags hR _

theorem keeps_cmpxchgBody (h : Hdr) (w : Width) (dst : RM) (src : Gpr) :
    Keeps R (cmpxchgBody h w dst src) := by
  refine keeps_bind hR.toFrameRel (keeps_get hR.toFrameRel) fun s => ?_
  cases dst with
  | reg r =>
    refine keeps_bind hR.toFrameRel ?_ fun _ => keeps_setFlags hR _
    split
    · exact keeps_setReg hR _ _ _
    · exact keeps_setReg hR _ _ _
  | mem m =>
    refine keeps_bind hR.toFrameRel (keeps_rmwBegin hR.toAccessRel _ _ _) fun o => ?_
    refine keeps_bind hR.toFrameRel ?_ fun _ => keeps_setFlags hR _
    split
    · exact keeps_spanWrite hR.toAccessRel _ _ _
    · exact keeps_bind hR.toFrameRel (keeps_spanWrite hR.toAccessRel _ _ _) fun _ => keeps_setReg hR _ _ _

theorem keeps_xaddBody (h : Hdr) (w : Width) (dst : RM) (src : Gpr) :
    Keeps R (xaddBody h w dst src) := by
  refine keeps_bind hR.toFrameRel (keeps_get hR.toFrameRel) fun s => ?_
  cases dst with
  | reg r =>
    refine keeps_bind hR.toFrameRel (keeps_setReg hR _ _ _) fun _ => ?_
    exact keeps_bind hR.toFrameRel (keeps_setReg hR _ _ _) fun _ => keeps_setFlags hR _
  | mem m =>
    refine keeps_bind hR.toFrameRel (keeps_rmwBegin hR.toAccessRel _ _ _) fun o => ?_
    refine keeps_bind hR.toFrameRel (keeps_spanWrite hR.toAccessRel _ _ _) fun _ => ?_
    exact keeps_bind hR.toFrameRel (keeps_setReg hR _ _ _) fun _ => keeps_setFlags hR _

theorem keeps_shiftBody (h : Hdr) (w : Width) (dst : RM) (c : ShiftCount)
    (f : Width → Word → Word → Flags → Computed) : Keeps R (shiftBody h w dst c f) :=
  keeps_bind hR.toFrameRel (keeps_get hR.toFrameRel) fun _ => keeps_rmwRM hR _ _ _ _

theorem keeps_movBody (h : Hdr) (f : MovForm) : Keeps R (movBody h f) := by
  cases f with
  | mr w dst src =>
    simp only [movBody]
    exact keeps_bind hR.toFrameRel (keeps_readReg hR _ _) fun _ => keeps_writeRM hR _ _ _ _
  | rm w dst src =>
    simp only [movBody]
    exact keeps_bind hR.toFrameRel (keeps_readRM hR.toAccessRel _ _ _) fun _ => keeps_setReg hR _ _ _
  | ri w dst imm =>
    simp only [movBody]
    exact keeps_setReg hR _ _ _
  | mi w dst imm =>
    simp only [movBody]
    exact keeps_writeRM hR _ _ _ _
  | fromMoffs w m =>
    simp only [movBody]
    exact keeps_bind hR.toFrameRel (keeps_readRM hR.toAccessRel _ _ _) fun _ => keeps_setReg hR _ _ _
  | toMoffs w m =>
    simp only [movBody]
    exact keeps_bind hR.toFrameRel (keeps_readReg hR _ _) fun _ => keeps_writeRM hR _ _ _ _

theorem keeps_xchgRegs (w : Width) (d r : Gpr) : Keeps R (xchgRegs w d r) := by
  refine keeps_bind hR.toFrameRel (keeps_readReg hR _ _) fun _ => ?_
  refine keeps_bind hR.toFrameRel (keeps_readReg hR _ _) fun _ => ?_
  exact keeps_bind hR.toFrameRel (keeps_setReg hR _ _ _) fun _ => keeps_setReg hR _ _ _

theorem keeps_xchgBody (h : Hdr) (f : XchgForm) : Keeps R (xchgBody h f) := by
  cases f with
  | mr w dst r =>
    cases dst with
    | reg d => exact keeps_xchgRegs hR _ _ _
    | mem m =>
      refine keeps_bind hR.toFrameRel (keeps_get hR.toFrameRel) fun s => ?_
      refine keeps_bind hR.toFrameRel (keeps_rmwBegin hR.toAccessRel _ _ _) fun o => ?_
      exact keeps_bind hR.toFrameRel (keeps_spanWrite hR.toAccessRel _ _ _) fun _ => keeps_setReg hR _ _ _
  | acc w r => exact keeps_xchgRegs hR _ _ _

theorem keeps_pushBody (h : Hdr) (f : PushForm) : Keeps R (pushBody h f) := by
  cases f with
  | reg w r =>
    simp only [pushBody]
    exact keeps_bind hR.toFrameRel (keeps_readReg hR _ _) fun _ => keeps_push hR _ _
  | immz w imm =>
    simp only [pushBody]
    exact keeps_push hR _ _
  | imm8 w imm =>
    simp only [pushBody]
    exact keeps_push hR _ _
  | rm w src =>
    simp only [pushBody]
    exact keeps_bind hR.toFrameRel (keeps_readRM hR.toAccessRel _ _ _) fun _ => keeps_push hR _ _

theorem keeps_popBody (h : Hdr) (f : PopForm) : Keeps R (popBody h f) := by
  cases f with
  | reg w r => exact keeps_bind hR.toFrameRel (keeps_pop hR _) fun _ => keeps_setReg hR _ _ _
  | rm w dst =>
    cases dst with
    | reg r => exact keeps_bind hR.toFrameRel (keeps_pop hR _) fun _ => keeps_setReg hR _ _ _
    | mem m =>
      refine keeps_bind hR.toFrameRel (keeps_get hR.toFrameRel) fun s => ?_
      refine keeps_bind hR.toFrameRel (keeps_memRead hR.toAccessRel _ _ _) fun v => ?_
      exact keeps_bind hR.toFrameRel (keeps_memWrite hR.toAccessRel _ _ _ _) fun _ =>
        keeps_modify_setSp hR _

theorem keeps_branchCheck (t : Word) : Keeps R (branchCheck t) :=
  keeps_bind hR.toFrameRel (keeps_get hR.toFrameRel) fun _ => keeps_raiseIf hR.toFrameRel _ _

theorem keeps_takeRel (h : Hdr) (w : Width) (rel : Word) : Keeps R (takeRel h w rel) :=
  keeps_bind hR.toFrameRel (keeps_get hR.toFrameRel) fun _ =>
    keeps_bind hR.toFrameRel (keeps_branchCheck hR _) fun _ => keeps_pure hR.toFrameRel _

theorem keeps_branchIf (taken : Bool) (h : Hdr) (w : Width) (rel : Word) :
    Keeps R (branchIf taken h w rel) := by
  cases taken
  · exact keeps_bind hR.toFrameRel (keeps_get hR.toFrameRel) fun _ => keeps_pure hR.toFrameRel _
  · exact keeps_takeRel hR _ _ _

theorem keeps_pushReturn (h : Hdr) (w : Width) : Keeps R (pushReturn h w) :=
  keeps_bind hR.toFrameRel (keeps_get hR.toFrameRel) fun _ => keeps_push hR _ _

theorem keeps_retBody (w : Width) (n : Nat) : Keeps R (retBody w n) := by
  refine keeps_bind hR.toFrameRel (keeps_get hR.toFrameRel) fun s => ?_
  refine keeps_bind hR.toFrameRel (keeps_memRead hR.toAccessRel _ _ _) fun v => ?_
  refine keeps_bind hR.toFrameRel (keeps_branchCheck hR _) fun _ => ?_
  exact keeps_bind hR.toFrameRel (keeps_modify_setSp hR _) fun _ => keeps_pure hR.toFrameRel _

theorem keeps_loopBody (h : Hdr) (w : Width) (rel : Word) (also : Bool) :
    Keeps R (loopBody h w rel also) := by
  refine keeps_bind hR.toFrameRel (keeps_get hR.toFrameRel) fun s => ?_
  refine keeps_bind hR.toFrameRel (keeps_branchIf hR _ _ _ _) fun _ => ?_
  exact keeps_bind hR.toFrameRel (keeps_setReg hR _ _ _) fun _ => keeps_pure hR.toFrameRel _

theorem keeps_advance (a : Width) (d : Nat) (r : Gpr) : Keeps R (advance a d r) :=
  keeps_bind hR.toFrameRel (keeps_get hR.toFrameRel) fun _ => keeps_setReg hR _ _ _

theorem keeps_repLoop (a : Width) (rp : Rep) (cmp : Bool) {body : M Unit} (hb : Keeps R body) (n : Nat) :
    Keeps R (repLoop a rp cmp body n) := by
  induction n with
  | zero => exact keeps_pure hR.toFrameRel _
  | succ n ih =>
    refine keeps_bind hR.toFrameRel hb fun _ => ?_
    refine keeps_bind hR.toFrameRel (keeps_setReg hR _ _ _) fun _ => ?_
    refine keeps_bind hR.toFrameRel (keeps_get hR.toFrameRel) fun s => ?_
    split
    · exact keeps_pure hR.toFrameRel _
    · exact ih

theorem keeps_stringBody (h : Hdr) (cmp : Bool) {body : M Unit} (hb : Keeps R body) :
    Keeps R (stringBody h cmp body) := by
  unfold stringBody
  split
  · exact hb
  · exact keeps_bind hR.toFrameRel (keeps_get hR.toFrameRel) fun _ => keeps_repLoop hR _ _ _ hb _
  · exact keeps_bind hR.toFrameRel (keeps_get hR.toFrameRel) fun _ => keeps_repLoop hR _ _ _ hb _

theorem keeps_movsElem (h : Hdr) (w : Width) : Keeps R (movsElem h w) := by
  refine keeps_bind hR.toFrameRel (keeps_get hR.toFrameRel) fun s => ?_
  refine keeps_bind hR.toFrameRel (keeps_memRead hR.toAccessRel _ _ _) fun v => ?_
  refine keeps_bind hR.toFrameRel (keeps_memWrite hR.toAccessRel _ _ _ _) fun _ => ?_
  exact keeps_bind hR.toFrameRel (keeps_advance hR _ _ _) fun _ => keeps_advance hR _ _ _

theorem keeps_stosElem (h : Hdr) (w : Width) : Keeps R (stosElem h w) := by
  refine keeps_bind hR.toFrameRel (keeps_get hR.toFrameRel) fun s => ?_
  exact keeps_bind hR.toFrameRel (keeps_memWrite hR.toAccessRel _ _ _ _) fun _ => keeps_advance hR _ _ _

theorem keeps_lodsElem (h : Hdr) (w : Width) : Keeps R (lodsElem h w) := by
  refine keeps_bind hR.toFrameRel (keeps_get hR.toFrameRel) fun s => ?_
  refine keeps_bind hR.toFrameRel (keeps_memRead hR.toAccessRel _ _ _) fun v => ?_
  exact keeps_bind hR.toFrameRel (keeps_setReg hR _ _ _) fun _ => keeps_advance hR _ _ _

theorem keeps_cmpElems (w : Width) (x y : Word) : Keeps R (cmpElems w x y) :=
  keeps_bind hR.toFrameRel (keeps_get hR.toFrameRel) fun _ => keeps_setFlags hR _

theorem keeps_cmpsElem (h : Hdr) (w : Width) : Keeps R (cmpsElem h w) := by
  refine keeps_bind hR.toFrameRel (keeps_get hR.toFrameRel) fun s => ?_
  refine keeps_bind hR.toFrameRel (keeps_memRead hR.toAccessRel _ _ _) fun x => ?_
  refine keeps_bind hR.toFrameRel (keeps_memRead hR.toAccessRel _ _ _) fun y => ?_
  refine keeps_bind hR.toFrameRel (keeps_cmpElems hR _ _ _) fun _ => ?_
  exact keeps_bind hR.toFrameRel (keeps_advance hR _ _ _) fun _ => keeps_advance hR _ _ _

theorem keeps_scasElem (h : Hdr) (w : Width) : Keeps R (scasElem h w) := by
  refine keeps_bind hR.toFrameRel (keeps_get hR.toFrameRel) fun s => ?_
  refine keeps_bind hR.toFrameRel (keeps_memRead hR.toAccessRel _ _ _) fun y => ?_
  exact keeps_bind hR.toFrameRel (keeps_cmpElems hR _ _ _) fun _ => keeps_advance hR _ _ _

theorem keeps_movFromSegBody (h : Hdr) (w : Width) (dst : RM) (sel : BitVec 16) :
    Keeps R (movFromSegBody h w dst sel) := by
  cases dst with
  | reg r => exact keeps_setReg hR _ _ _
  | mem m => exact keeps_writeRM hR h .w16 (.mem m) _

theorem keeps_privileged : Keeps R privileged :=
  keeps_bind hR.toFrameRel (keeps_get hR.toFrameRel) fun _ => keeps_raiseIf hR.toFrameRel _ _

theorem keeps_readTable (h : Hdr) (w : Width) (m : MemOp) : Keeps R (readTable h w m) := by
  refine keeps_bind hR.toFrameRel (keeps_get hR.toFrameRel) fun s => ?_
  refine keeps_bind hR.toFrameRel (keeps_memRead hR.toAccessRel _ _ _) fun lim => ?_
  refine keeps_bind hR.toFrameRel (keeps_memRead hR.toAccessRel _ _ _) fun base => ?_
  exact keeps_bind hR.toFrameRel (keeps_raiseIf hR.toFrameRel _ _) fun _ => keeps_pure hR.toFrameRel _

theorem keeps_markDescriptor (lin raw : Word) : Keeps R (markDescriptor lin raw) := by
  unfold markDescriptor
  split
  · exact keeps_pure hR.toFrameRel _
  · exact keeps_linWrite hR.toAccessRel _ _ _ _

end

/-! ### How an instruction ends -/

/-- How a step that began in `s` and whose body reached `u` ends in `t`. -/
inductive EndsFrom (s u t : State) : Prop where
  | completes (len : Nat) (ends shadow : Bool) (rip : Word) (h : t = complete s len ends shadow rip u)
  | raises (f : FaultRec) (h : t = takeFault f u)
  | asks (vec : BitVec 8) (k : SoftIntKind) (len : Nat) (h : t = softInt vec k len u)

/-- The instructions that write system state beside registers, flags and memory. -/
def writesSystem (i : Instr) : Bool :=
  match i with
  | .hlt _ | .movToSeg _ _ _ | .movToCr _ _ _ _ | .lgdt _ _ _ | .lidt _ _ _ | .invlpg _ _ | .swapgs _
  | .wrmsr _ => true
  | _ => false

theorem retire_ends {R : State → State → Prop} {h : Hdr} {ends : Bool} {body : M Unit} {s t : State}
    (hb : Keeps R body) (he : retire h ends body s = .next t) : ∃ u, R s u ∧ EndsFrom s u t := by
  unfold retire at he
  split at he
  next u hu => cases he; exact ⟨u, hb.ok hu, .completes _ _ _ _ rfl⟩
  next f u hu => cases he; exact ⟨u, hb.error hu, .raises f rfl⟩

theorem retireShadow_ends {R : State → State → Prop} {h : Hdr} {body : M Bool} {s t : State}
    (hb : Keeps R body) (he : retireShadow h body s = .next t) : ∃ u, R s u ∧ EndsFrom s u t := by
  unfold retireShadow at he
  split at he
  next b u hu => cases he; exact ⟨u, hb.ok hu, .completes _ _ _ _ rfl⟩
  next f u hu => cases he; exact ⟨u, hb.error hu, .raises f rfl⟩

theorem retireTo_ends {R : State → State → Prop} {h : Hdr} {body : M Word} {s t : State}
    (hb : Keeps R body) (he : retireTo h body s = .next t) : ∃ u, R s u ∧ EndsFrom s u t := by
  unfold retireTo at he
  split at he
  next r u hu => cases he; exact ⟨u, hb.ok hu, .completes _ _ _ _ rfl⟩
  next f u hu => cases he; exact ⟨u, hb.error hu, .raises f rfl⟩

/-- Every instruction ends in a next state. -/
theorem retire_next (h : Hdr) (ends : Bool) (body : M Unit) (s : State) :
    ∃ t, retire h ends body s = .next t := by
  unfold retire
  split <;> exact ⟨_, rfl⟩

theorem retireShadow_next (h : Hdr) (body : M Bool) (s : State) :
    ∃ t, retireShadow h body s = .next t := by
  unfold retireShadow
  split <;> exact ⟨_, rfl⟩

theorem retireTo_next (h : Hdr) (body : M Word) (s : State) : ∃ t, retireTo h body s = .next t := by
  unfold retireTo
  split <;> exact ⟨_, rfl⟩

/-- An instruction that writes no system state ends from a state that its registers, flags and memory
accesses alone have changed. -/
theorem exec_plain {R : State → State → Prop} (hR : BodyRel R) (i : Instr) (s t : State)
    (hp : writesSystem i = false) (he : exec i s = .next t) : ∃ u, R s u ∧ EndsFrom s u t := by
  have F := hR.toFrameRel
  have A := hR.toAccessRel
  cases i
  case add =>
    simp only [exec, execAdd] at he
    exact retire_ends (keeps_aluWrite hR _ _ _) he
  case or =>
    simp only [exec, execOr] at he
    exact retire_ends (keeps_aluWrite hR _ _ _) he
  case adc =>
    simp only [exec, execAdc] at he
    exact retire_ends (keeps_aluWrite hR _ _ _) he
  case sbb =>
    simp only [exec, execSbb] at he
    exact retire_ends (keeps_aluWrite hR _ _ _) he
  case and =>
    simp only [exec, execAnd] at he
    exact retire_ends (keeps_aluWrite hR _ _ _) he
  case sub =>
    simp only [exec, execSub] at he
    exact retire_ends (keeps_aluWrite hR _ _ _) he
  case xor =>
    simp only [exec, execXor] at he
    exact retire_ends (keeps_aluWrite hR _ _ _) he
  case cmp =>
    simp only [exec, execCmp] at he
    exact retire_ends (keeps_aluCompare hR _ _ _) he
  case test =>
    simp only [exec, execTest] at he
    exact retire_ends (keeps_testBody hR _ _) he
  case not =>
    simp only [exec, execNot] at he
    exact retire_ends (keeps_rmwRM hR _ _ _ _) he
  case neg =>
    simp only [exec, execNeg] at he
    exact retire_ends (keeps_rmwRM hR _ _ _ _) he
  case mul =>
    simp only [exec, execMul] at he
    exact retire_ends (keeps_mulBody hR _ _ _) he
  case imul1 =>
    simp only [exec, execImul1] at he
    exact retire_ends (keeps_imul1Body hR _ _ _) he
  case div =>
    simp only [exec, execDiv] at he
    exact retire_ends (keeps_divBody hR _ _ _) he
  case idiv =>
    simp only [exec, execIdiv] at he
    exact retire_ends (keeps_idivBody hR _ _ _) he
  case inc =>
    simp only [exec, execInc] at he
    exact retire_ends (keeps_incBody hR _ _ _) he
  case dec =>
    simp only [exec, execDec] at he
    exact retire_ends (keeps_incBody hR _ _ _) he
  case imul2 =>
    simp only [exec, execImul2] at he
    exact retire_ends (keeps_bind F (keeps_readRM A _ _ _) fun _ =>
      keeps_bind F (keeps_readReg hR _ _) fun _ => keeps_imulInto hR _ _ _ _) he
  case imul3 =>
    simp only [exec, execImul3] at he
    exact retire_ends (keeps_bind F (keeps_readRM A _ _ _) fun _ => keeps_imulInto hR _ _ _ _) he
  case cmpxchg =>
    simp only [exec, execCmpxchg] at he
    exact retire_ends (keeps_cmpxchgBody hR _ _ _ _) he
  case xadd =>
    simp only [exec, execXadd] at he
    exact retire_ends (keeps_xaddBody hR _ _ _ _) he
  case rol =>
    simp only [exec, execRol] at he
    exact retire_ends (keeps_shiftBody hR _ _ _ _ _) he
  case ror =>
    simp only [exec, execRor] at he
    exact retire_ends (keeps_shiftBody hR _ _ _ _ _) he
  case shl =>
    simp only [exec, execShl] at he
    exact retire_ends (keeps_shiftBody hR _ _ _ _ _) he
  case shr =>
    simp only [exec, execShr] at he
    exact retire_ends (keeps_shiftBody hR _ _ _ _ _) he
  case sar =>
    simp only [exec, execSar] at he
    exact retire_ends (keeps_shiftBody hR _ _ _ _ _) he
  case mov =>
    simp only [exec, execMov] at he
    exact retire_ends (keeps_movBody hR _ _) he
  case movFromSeg =>
    simp only [exec, execMovFromSeg] at he
    exact retire_ends (keeps_movFromSegBody hR _ _ _ _) he
  case movToSeg => cases hp
  case movFromCr =>
    simp only [exec, execMovFromCr] at he
    exact retire_ends (keeps_bind F (keeps_privileged hR) fun _ =>
      keeps_bind F (keeps_setReg hR _ _ _) fun _ => keeps_setFlags hR _) he
  case movToCr => cases hp
  case movzx =>
    simp only [exec, execMovzx] at he
    exact retire_ends (keeps_bind F (keeps_readRM A _ _ _) fun _ => keeps_setReg hR _ _ _) he
  case movsx =>
    simp only [exec, execMovsx] at he
    exact retire_ends (keeps_bind F (keeps_readRM A _ _ _) fun _ => keeps_setReg hR _ _ _) he
  case movsxd =>
    simp only [exec, execMovsxd] at he
    exact retire_ends (keeps_bind F (keeps_readRM A _ _ _) fun _ => keeps_setReg hR _ _ _) he
  case lea =>
    simp only [exec, execLea] at he
    exact retire_ends (keeps_bind F (keeps_get F) fun _ => keeps_setReg hR _ _ _) he
  case xchg =>
    simp only [exec, execXchg] at he
    exact retire_ends (keeps_xchgBody hR _ _) he
  case push =>
    simp only [exec, execPush] at he
    exact retire_ends (keeps_pushBody hR _ _) he
  case pop =>
    simp only [exec, execPop] at he
    exact retire_ends (keeps_popBody hR _ _) he
  case cmovcc =>
    simp only [exec, execCmovcc] at he
    exact retire_ends (keeps_bind F (keeps_readRM A _ _ _) fun _ =>
      keeps_bind F (keeps_get F) fun _ => keeps_setReg hR _ _ _) he
  case setcc =>
    simp only [exec, execSetcc] at he
    exact retire_ends (keeps_bind F (keeps_get F) fun _ => keeps_writeRM hR _ _ _ _) he
  case cbw =>
    simp only [exec, execCbw] at he
    exact retire_ends (keeps_bind F (keeps_readReg hR _ _) fun _ => keeps_setReg hR _ _ _) he
  case cwd =>
    simp only [exec, execCwd] at he
    exact retire_ends (keeps_bind F (keeps_readReg hR _ _) fun _ => keeps_setReg hR _ _ _) he
  case sahf =>
    simp only [exec, execSahf] at he
    exact retire_ends (keeps_bind F (keeps_get F) fun _ => keeps_setFlags hR _) he
  case lahf =>
    simp only [exec, execLahf] at he
    exact retire_ends (keeps_bind F (keeps_get F) fun _ => keeps_setReg hR _ _ _) he
  case pushf =>
    simp only [exec, execPushf] at he
    exact retire_ends (keeps_bind F (keeps_get F) fun _ => keeps_push hR _ _) he
  case popf =>
    simp only [exec, execPopf] at he
    exact retire_ends (keeps_bind F (keeps_pop hR _) fun _ =>
      keeps_bind F (keeps_get F) fun _ => keeps_setFlags hR _) he
  case leave =>
    simp only [exec, execLeave] at he
    exact retire_ends (keeps_bind F (keeps_get F) fun _ =>
      keeps_bind F (keeps_memRead A _ _ _) fun _ =>
        keeps_bind F (keeps_modify_setSp hR _) fun _ => keeps_setReg hR _ _ _) he
  case jmpRel =>
    simp only [exec, execJmpRel] at he
    exact retireTo_ends (keeps_takeRel hR _ _ _) he
  case jmpInd =>
    simp only [exec, execJmpInd] at he
    exact retireTo_ends (keeps_bind F (keeps_readRM A _ _ _) fun _ =>
      keeps_bind F (keeps_branchCheck hR _) fun _ => keeps_pure F _) he
  case jcc =>
    simp only [exec, execJcc] at he
    exact retireTo_ends (keeps_branchIf hR _ _ _ _) he
  case callRel =>
    simp only [exec, execCallRel] at he
    exact retireTo_ends (keeps_bind F (keeps_takeRel hR _ _ _) fun _ =>
      keeps_bind F (keeps_pushReturn hR _ _) fun _ => keeps_pure F _) he
  case callInd =>
    simp only [exec, execCallInd] at he
    exact retireTo_ends (keeps_bind F (keeps_readRM A _ _ _) fun _ =>
      keeps_bind F (keeps_branchCheck hR _) fun _ =>
        keeps_bind F (keeps_pushReturn hR _ _) fun _ => keeps_pure F _) he
  case ret =>
    simp only [exec, execRet] at he
    exact retireTo_ends (keeps_retBody hR _ _) he
  case retImm =>
    simp only [exec, execRetImm] at he
    exact retireTo_ends (keeps_retBody hR _ _) he
  case loop =>
    simp only [exec, execLoop] at he
    exact retireTo_ends (keeps_loopBody hR _ _ _ _) he
  case loope =>
    simp only [exec, execLoope] at he
    exact retireTo_ends (keeps_loopBody hR _ _ _ _) he
  case loopne =>
    simp only [exec, execLoopne] at he
    exact retireTo_ends (keeps_loopBody hR _ _ _ _) he
  case jrcxz =>
    simp only [exec, execJrcxz] at he
    exact retireTo_ends (keeps_branchIf hR _ _ _ _) he
  case int3 =>
    simp only [exec, execInt3] at he
    cases he; exact ⟨s, hR.refl s, .asks _ _ _ rfl⟩
  case intn =>
    simp only [exec, execIntn] at he
    cases he; exact ⟨s, hR.refl s, .asks _ _ _ rfl⟩
  case into =>
    simp only [exec, execInto] at he
    split at he
    · cases he; exact ⟨s, hR.refl s, .asks _ _ _ rfl⟩
    · exact retire_ends (keeps_pure F _) he
  case ud2 =>
    simp only [exec, execUd2] at he
    cases he; exact ⟨s, hR.refl s, .raises _ rfl⟩
  case movs =>
    simp only [exec, execMovs] at he
    exact retire_ends (keeps_stringBody hR _ _ (keeps_movsElem hR _ _)) he
  case stos =>
    simp only [exec, execStos] at he
    exact retire_ends (keeps_stringBody hR _ _ (keeps_stosElem hR _ _)) he
  case lods =>
    simp only [exec, execLods] at he
    exact retire_ends (keeps_stringBody hR _ _ (keeps_lodsElem hR _ _)) he
  case cmps =>
    simp only [exec, execCmps] at he
    exact retire_ends (keeps_stringBody hR _ _ (keeps_cmpsElem hR _ _)) he
  case scas =>
    simp only [exec, execScas] at he
    exact retire_ends (keeps_stringBody hR _ _ (keeps_scasElem hR _ _)) he
  case nop =>
    simp only [exec, execNop] at he
    exact retire_ends (keeps_pure F _) he
  case pause =>
    simp only [exec, execPause] at he
    exact retire_ends (keeps_pure F _) he
  case nopRm =>
    simp only [exec, execNopRm] at he
    exact retire_ends (keeps_pure F _) he
  case hlt => cases hp
  case cmc =>
    simp only [exec, execCmc] at he
    exact retire_ends (keeps_setFlags hR _) he
  case clc =>
    simp only [exec, execClc] at he
    exact retire_ends (keeps_setFlags hR _) he
  case stc =>
    simp only [exec, execStc] at he
    exact retire_ends (keeps_setFlags hR _) he
  case cli =>
    simp only [exec, execCli] at he
    exact retire_ends (keeps_bind F (keeps_raiseIf F _ _) fun _ => keeps_setFlags hR _) he
  case sti =>
    simp only [exec, execSti] at he
    exact retireShadow_ends (keeps_bind F (keeps_raiseIf F _ _) fun _ =>
      keeps_bind F (keeps_setFlags hR _) fun _ => keeps_pure F _) he
  case cld =>
    simp only [exec, execCld] at he
    exact retire_ends (keeps_setFlags hR _) he
  case std =>
    simp only [exec, execStd] at he
    exact retire_ends (keeps_setFlags hR _) he
  case lfence =>
    simp only [exec, execLfence] at he
    exact retire_ends (keeps_pure F _) he
  case mfence =>
    simp only [exec, execMfence] at he
    exact retire_ends (keeps_pure F _) he
  case sfence =>
    simp only [exec, execSfence] at he
    exact retire_ends (keeps_pure F _) he
  case lgdt => cases hp
  case lidt => cases hp
  case invlpg => cases hp
  case swapgs => cases hp
  case wrmsr => cases hp
  case rdmsr =>
    simp only [exec, execRdmsr] at he
    refine retire_ends (keeps_bind F (keeps_privileged hR) fun _ => ?_) he
    split
    · exact keeps_raise F _
    · exact keeps_bind F (keeps_setReg hR _ _ _) fun _ => keeps_setReg hR _ _ _
  case cpuid =>
    simp only [exec, execCpuid] at he
    exact retire_ends (keeps_bind F (keeps_setReg hR _ _ _) fun _ =>
      keeps_bind F (keeps_setReg hR _ _ _) fun _ =>
        keeps_bind F (keeps_setReg hR _ _ _) fun _ => keeps_setReg hR _ _ _) he
  case invalid =>
    simp only [exec, execInvalid] at he
    cases he; exact ⟨s, hR.refl s, .raises _ rfl⟩

end Sys2Proof.Machine
end

