-- ==== Sys2Proof/Laws/Decode.lean ====
section
/-! SUPPORT. The prefix loop of the decoder: what a prefix byte is, and that prefix bytes in front of any bytes
are scanned first. -/

namespace Sys2Proof.Machine
open Sys2Proof

/-- A prefix byte is a legacy prefix or REX. -/
theorem isPrefixByte_cases {m : DecodeMode} {b : Byte} (h : isPrefixByte m b = true) (p : Pfx) :
    (p.legacy m b.toNat).isSome = true ∨ isRex m b.toNat = true := by
  simp only [isPrefixByte, Bool.or_eq_true, List.contains_iff_mem, List.mem_cons, List.not_mem_nil,
    or_false] at h
  rcases h with h | h
  · left
    rcases h with h | h | h | h | h | h | h | h | h | h | h <;> rw [h] <;> rfl
  · exact .inr h

/-- Prefix bytes in front of any bytes are scanned first (R311, R312). -/
theorem scanPrefixes_append (m : DecodeMode) (ps bs : List Byte) (p : Pfx)
    (h : ∀ b ∈ ps, isPrefixByte m b = true) :
    scanPrefixes m p (ps ++ bs) = scanPrefixes m (scanPrefixes m p ps).1 bs := by
  induction ps generalizing p with
  | nil => rfl
  | cons b ps ih =>
    have hb := h b (List.mem_cons_self ..)
    have hps : ∀ c ∈ ps, isPrefixByte m c = true := fun c hc => h c (List.mem_cons_of_mem _ hc)
    simp only [List.cons_append, scanPrefixes]
    split
    · exact ih _ hps
    · rename_i hl
      split
      · exact ih _ hps
      · rename_i hr
        rcases isPrefixByte_cases hb p with h | h
        · simp [hl] at h
        · exact absurd h hr

end Sys2Proof.Machine
end

