-- ==== Sys2Proof/Laws/Flags.lean ====
section
/-! SUPPORT. The flags register as a word, and what each flag computation means in numbers: once per
computation, in the terms of `AddMeans`, `SubMeans` and the like. -/

namespace Sys2Proof.Machine
open Sys2Proof

/-! ### The image of rflags -/

/-- R115, predicate 1 of R160: the fixed bits of the image. -/
theorem Flags.image_fixed (f : Flags) : f.image &&& 0xFFFFFFFFFFC0802A = 2 := by
  have h : ∀ (b : Bool) (i : Nat), BitVec.ofNat 64 (2 ^ i) &&& (0xFFFFFFFFFFC0802A : Word) = 0 →
      flagAt b i &&& (0xFFFFFFFFFFC0802A : Word) = 0 := by
    intro b i hz; cases b <;> simp_all [flagAt]
  have hio : (f.iopl.setWidth 64 <<< 12) &&& (0xFFFFFFFFFFC0802A : Word) = 0 := by
    generalize f.iopl = x; revert x; decide
  simp only [Flags.image, BitVec.and_or_distrib_right, hio, h _ 0 (by decide), h _ 2 (by decide),
    h _ 4 (by decide), h _ 6 (by decide), h _ 7 (by decide), h _ 8 (by decide), h _ 9 (by decide),
    h _ 10 (by decide), h _ 11 (by decide), h _ 14 (by decide), h _ 16 (by decide),
    h _ 17 (by decide), h _ 18 (by decide), h _ 19 (by decide), h _ 20 (by decide),
    h _ 21 (by decide)]
  decide

/-! ### Bits and signs in numbers -/

theorem bit_iff (v : Word) (i : Nat) : bit v i = true ↔ v.toNat / 2 ^ i % 2 = 1 := by
  simp [bit, BitVec.getLsbD, Nat.testBit_eq_decide_div_mod_eq]

theorem msb_iff (w : Width) (v : Word) (h : v.toNat < 2 ^ w.bits) :
    msb w v = true ↔ 2 ^ (w.bits - 1) ≤ v.toNat := by
  rw [show msb w v = bit v (w.bits - 1) from rfl, bit_iff]
  cases w <;> simp only [Width.bits] at h ⊢ <;> omega

theorem sint_eq (w : Width) (v : Word) (h : v.toNat < 2 ^ w.bits) :
    sint w v = if v.toNat < 2 ^ (w.bits - 1) then (v.toNat : Int) else v.toNat - 2 ^ w.bits := by
  have hm : v.toNat % 2 ^ w.bits = v.toNat := Nat.mod_eq_of_lt h
  simp only [sint, BitVec.toInt_eq_toNat_cond, BitVec.toNat_setWidth, hm]
  by_cases h2 : 2 * v.toNat < 2 ^ w.bits
  · rw [if_pos h2, if_pos (by cases w <;> simp only [Width.bits] at h2 ⊢ <;> omega)]
  · rw [if_neg h2, if_neg (by cases w <;> simp only [Width.bits] at h2 ⊢ <;> omega)]
    cases w <;> rfl

theorem ofNatW_toNat (w : Width) (n : Nat) : (ofNatW w n).toNat = n % 2 ^ w.bits := by
  simp only [ofNatW, BitVec.toNat_ofNat]
  cases w <;> simp only [Width.bits] <;> omega

theorem ofNatW_lt (w : Width) (n : Nat) : (ofNatW w n).toNat < 2 ^ w.bits := by
  rw [ofNatW_toNat]; exact Nat.mod_lt _ (by cases w <;> decide)

/-- R12: `parity8` counts. -/
theorem parity8_iff (v : Word) :
    parity8 v = true ↔ (List.range 8).countP (fun i => bit v i) % 2 = 0 := by
  simp only [parity8, show List.range 8 = [0, 1, 2, 3, 4, 5, 6, 7] from rfl, List.countP_cons,
    List.countP_nil]
  generalize bit v 0 = b0; generalize bit v 1 = b1; generalize bit v 2 = b2
  generalize bit v 3 = b3; generalize bit v 4 = b4; generalize bit v 5 = b5
  generalize bit v 6 = b6; generalize bit v 7 = b7
  revert b0 b1 b2 b3 b4 b5 b6 b7; decide

/-- R116: ZF, SF and PF of a result. -/
theorem resultFlags (w : Width) (r : Word) (h : r.toNat < 2 ^ w.bits) (f : SFlags)
    (hz : f.zf = zfOf r) (hs : f.sf = msb w r) (hp : f.pf = parity8 r) : ResultFlags w r f where
  zf := by
    rw [hz, zfOf, beq_iff_eq]
    exact ⟨fun e => by simp [e], fun e => BitVec.eq_of_toNat_eq (by simpa using e)⟩
  sf := by rw [hs, msb_iff w r h]
  pf := by rw [hp, parity8_iff]

theorem afOf_iff (a b r : Word) :
    afOf a b r = true ↔ (a.toNat / 16 + b.toNat / 16 + r.toNat / 16) % 2 = 1 := by
  have h : afOf a b r = ((bit a 4 ^^ bit b 4) ^^ bit r 4) := by
    simp [afOf, bit]
  have ha := bit_iff a 4; have hb := bit_iff b 4; have hr := bit_iff r 4
  rw [h]
  revert ha hb hr
  cases bit a 4 <;> cases bit b 4 <;> cases bit r 4 <;> simp <;> omega

/-! ### The flag computations (R452, R463, R464) -/

/-- R452, in numbers. -/
theorem addFlags_means (w : Width) (a b : Word) (c : Bool) (fl : Flags)
    (ha : a.toNat < 2 ^ w.bits) (hb : b.toNat < 2 ^ w.bits) :
    AddMeans w a b c fl (addFlags w a b c fl) := by
  have hr := ofNatW_toNat w (a.toNat + b.toNat + c.toNat)
  have hlt := ofNatW_lt w (a.toNat + b.toNat + c.toNat)
  have ma := msb_iff w a ha; have mb := msb_iff w b hb; have mr := msb_iff w _ hlt
  have hc : c.toNat ≤ 1 := by cases c <;> decide
  refine ⟨hr, by simp [addFlags, Flags.withSt], ?_, ?_, resultFlags w _ hlt _ rfl rfl rfl, rfl⟩
  · rw [sint_eq w a ha, sint_eq w b hb]
    simp only [addFlags, Flags.withSt]
    revert ma mb mr
    cases msb w a <;> cases msb w b <;> cases msb w (ofNatW w (a.toNat + b.toNat + c.toNat)) <;>
      intro ma mb mr <;> rw [hr] at mr <;>
      cases w <;> simp only [Width.bits] at ha hb ma mb mr ⊢ <;> simp at ma mb mr ⊢ <;> omega
  · simp only [addFlags, Flags.withSt, afOf_iff, hr]
    cases w <;> simp only [Width.bits] at ha hb ⊢ <;> omega

/-- R452, in numbers. -/
theorem subFlags_means (w : Width) (a b : Word) (c : Bool) (fl : Flags)
    (ha : a.toNat < 2 ^ w.bits) (hb : b.toNat < 2 ^ w.bits) :
    SubMeans w a b c fl (subFlags w a b c fl) := by
  have hr := ofNatW_toNat w (a.toNat + 2 * 2 ^ w.bits - (b.toNat + c.toNat))
  have hlt := ofNatW_lt w (a.toNat + 2 * 2 ^ w.bits - (b.toNat + c.toNat))
  have ma := msb_iff w a ha; have mb := msb_iff w b hb; have mr := msb_iff w _ hlt
  have hc : c.toNat ≤ 1 := by cases c <;> decide
  refine ⟨?_, by simp [subFlags, Flags.withSt], ?_, ?_, resultFlags w _ hlt _ rfl rfl rfl, rfl⟩
  · simp only [subFlags, hr]
    cases w <;> simp only [Width.bits] at ha hb ⊢ <;> omega
  · rw [sint_eq w a ha, sint_eq w b hb]
    simp only [subFlags, Flags.withSt]
    revert ma mb mr
    cases msb w a <;> cases msb w b <;>
      cases msb w (ofNatW w (a.toNat + 2 * 2 ^ w.bits - (b.toNat + c.toNat))) <;>
      intro ma mb mr <;> rw [hr] at mr <;>
      cases w <;> simp only [Width.bits] at ha hb ma mb mr ⊢ <;> simp at ma mb mr ⊢ <;> omega
  · simp only [subFlags, Flags.withSt, afOf_iff, hr]
    cases w <;> simp only [Width.bits] at ha hb ⊢ <;> omega

/-- R452: the logical operations. -/
theorem logicFlags_means (tag : String) (w : Width) (a b r : Word) (fl : Flags)
    (hr : r.toNat < 2 ^ w.bits) : LogicMeans w r fl (logicFlags tag w a b r fl) :=
  ⟨rfl, rfl, rfl, resultFlags w _ hr _ rfl rfl rfl, rfl⟩

/-- R463, in numbers. -/
theorem incFlags_means (w : Width) (a : Word) (fl : Flags) (ha : a.toNat < 2 ^ w.bits) :
    IncMeans w a fl (incFlags w a fl) := by
  refine ⟨ofNatW_toNat w _, rfl, ?_, ?_, resultFlags w _ (ofNatW_lt w _) _ rfl rfl rfl, rfl⟩
  · rw [sint_eq w a ha]
    simp only [incFlags, Flags.withSt, beq_iff_eq]
    cases w <;> simp only [Width.bits] at ha ⊢ <;> simp <;> omega
  · simp [incFlags, Flags.withSt]

/-- R464, in numbers. -/
theorem decFlags_means (w : Width) (a : Word) (fl : Flags) (ha : a.toNat < 2 ^ w.bits) :
    DecMeans w a fl (decFlags w a fl) := by
  refine ⟨?_, rfl, ?_, ?_, resultFlags w _ (ofNatW_lt w _) _ rfl rfl rfl, rfl⟩
  · simp only [decFlags, ofNatW_toNat]
    cases w <;> simp only [Width.bits] at ha ⊢ <;> omega
  · rw [sint_eq w a ha]
    simp only [decFlags, Flags.withSt, beq_iff_eq]
    cases w <;> simp only [Width.bits] at ha ⊢ <;> simp <;> omega
  · simp [decFlags, Flags.withSt]

/-! ### Shifts and rotates (R501 to R505) -/

/-- What SHL, SHR and SAR share, whatever the value. -/
theorem shiftFlags_means (tag : String) (w : Width) (a raw r : Word) (cnt : Nat) (v : Int)
    (cf : Option Bool) (of1 : Bool → Bool) (fl : Flags) (hr : r.toNat < 2 ^ w.bits)
    (hv : (r.toNat : Int) = v % 2 ^ w.bits) :
    ShiftMeans w cnt v cf of1 fl
      (if cnt == 0 then ⟨r, fl⟩ else ⟨r, shiftFlags tag w a raw cnt r cf of1 fl⟩) := by
  by_cases h : cnt = 0
  · subst h
    exact ⟨hv, fun _ => rfl, fun h => absurd rfl h, fun h => absurd rfl h, fun h => absurd h (by decide),
      rfl⟩
  · have hb : (cnt == 0) = false := by simpa using h
    rw [hb]
    refine ⟨hv, fun e => absurd e h, fun _ => resultFlags w r hr _ rfl rfl rfl, fun _ b e => ?_,
      fun e => ?_, rfl⟩
    · subst e; rfl
    · subst e; rfl

theorem shlFlags_means (w : Width) (a raw : Word) (fl : Flags) :
    let cnt := shiftCnt w raw.toNat
    ShiftMeans w cnt (a.toNat * 2 ^ cnt : Nat)
      (if cnt < w.bits then some (bit a (w.bits - cnt)) else none)
      (fun cf => msb w (shlFlags w a raw fl).value ^^ cf) fl (shlFlags w a raw fl) := by
  have hv : (shlFlags w a raw fl).value = ofNatW w (a.toNat * 2 ^ shiftCnt w raw.toNat) := by
    simp only [shlFlags]; split <;> rfl
  intro cnt
  rw [hv]
  exact shiftFlags_means "SHL" w a raw _ _ _ _ _ fl (ofNatW_lt w _) (by rw [ofNatW_toNat]; norm_cast)

theorem shrFlags_means (w : Width) (a raw : Word) (fl : Flags) :
    let cnt := shiftCnt w raw.toNat
    ShiftMeans w cnt (a.toNat / 2 ^ cnt : Nat)
      (if cnt < w.bits then some (bit a (cnt - 1)) else none) (fun _ => msb w a) fl
      (shrFlags w a raw fl) :=
  shiftFlags_means "SHR" w a raw _ _ _ _ _ fl (ofNatW_lt w _) (by rw [ofNatW_toNat]; norm_cast)

theorem ofIntW_lt (w : Width) (n : Int) : (ofIntW w n).toNat < 2 ^ w.bits := by
  simp only [ofIntW, trunc, BitVec.toNat_setWidth]
  cases w <;> simp only [Width.bits] <;> omega

theorem ofIntW_toNat (w : Width) (n : Int) : ((ofIntW w n).toNat : Int) = n % 2 ^ w.bits := by
  simp only [ofIntW, trunc, BitVec.toNat_setWidth, BitVec.toNat_ofInt]
  cases w <;> simp only [Width.bits] <;> omega

/-- A sign-filled value shifted by more than its width is its sign. -/
theorem sint_div_min (w : Width) (a : Word) (cnt : Nat) (h : a.toNat < 2 ^ w.bits) :
    sint w a / (2 ^ min cnt w.bits : Nat) = sint w a / (2 ^ cnt : Nat) := by
  by_cases hc : cnt ≤ w.bits
  · rw [Nat.min_eq_left hc]
  · rw [Nat.min_eq_right (by omega)]
    have hp : 2 ^ w.bits ≤ 2 ^ cnt := Nat.pow_le_pow_right (by decide) (by omega)
    have hs : -(2 ^ w.bits : Nat) ≤ sint w a ∧ sint w a < (2 ^ w.bits : Nat) := by
      rw [sint_eq w a h]
      by_cases hn : a.toNat < 2 ^ (w.bits - 1)
      · rw [if_pos hn]
        cases w <;> simp only [Width.bits] at h ⊢ <;> omega
      · rw [if_neg hn]
        cases w <;> simp only [Width.bits] at h ⊢ <;> omega
    generalize sint w a = x at hs
    generalize 2 ^ w.bits = p at hs hp
    generalize 2 ^ cnt = q at hp
    by_cases hx : 0 ≤ x
    · rw [Int.ediv_eq_zero_of_lt hx (by omega), Int.ediv_eq_zero_of_lt hx (by omega)]
    · have e : ∀ m : Nat, p ≤ m → x / (m : Int) = -1 := by
        intro m hm
        rw [Int.ediv_eq_iff_of_pos (by omega)]
        constructor <;> omega
      rw [e p (Nat.le_refl _), e q hp]

theorem sarFlags_means (w : Width) (a raw : Word) (fl : Flags) (h : a.toNat < 2 ^ w.bits) :
    let cnt := shiftCnt w raw.toNat
    ShiftMeans w cnt (sint w a / (2 ^ cnt : Nat))
      (some (if cnt < w.bits then bit a (cnt - 1) else msb w a)) (fun _ => false) fl
      (sarFlags w a raw fl) := by
  intro cnt
  rw [← sint_div_min w a cnt h]
  exact shiftFlags_means "SAR" w a raw _ _ _ _ _ fl (ofIntW_lt w _) (ofIntW_toNat w _)

/-- What ROL and ROR share. -/
theorem rotFlags_means (tag : String) (w : Width) (a raw r : Word) (cnt : Nat) (cf of1 : Bool)
    (fl : Flags) :
    RotateMeans cnt cf of1 fl
      (if cnt == 0 then ⟨r, fl⟩ else ⟨r, rotFlags tag w a raw cnt cf of1 fl⟩) := by
  by_cases h : cnt = 0
  · subst h
    exact ⟨fun _ => rfl, fun h => absurd rfl h, fun h => absurd h (by decide), rfl⟩
  · have hb : (cnt == 0) = false := by simpa using h
    rw [hb]
    refine ⟨fun e => absurd e h, fun _ => rfl, fun e => ?_, rfl⟩
    subst e; rfl

end Sys2Proof.Machine
end

