-- ==== Sys2Proof/Laws/Operands.lean ====
section
/-! SUPPORT. What the shared operations give when their accesses succeed: one lemma per operation, in the terms
the claims use (`destRead`, `openAccess`, `State.stored`), and the width of every value read. -/

namespace Sys2Proof.Machine
open Sys2Proof

/-! ### How the ends of an instruction compute -/

theorem retire_ok {h : Hdr} {ends : Bool} {body : M Unit} {s t : State} (hb : body s = .ok () t) :
    retire h ends body s = .next (complete s h.len ends false (s.nextRip h.len) t) := by
  simp [retire, hb]

theorem retire_error {h : Hdr} {ends : Bool} {body : M Unit} {s t : State} {f : FaultRec}
    (hb : body s = .error f t) : retire h ends body s = t.faults f := by
  simp [retire, hb, State.faults]

theorem retireShadow_ok {h : Hdr} {body : M Bool} {s t : State} {b : Bool} (hb : body s = .ok b t) :
    retireShadow h body s = s.doneSystem h b t := by
  simp [retireShadow, hb, State.doneSystem]

theorem retireShadow_error {h : Hdr} {body : M Bool} {s t : State} {f : FaultRec}
    (hb : body s = .error f t) : retireShadow h body s = t.faults f := by
  simp [retireShadow, hb, State.faults]

theorem retireTo_ok {h : Hdr} {body : M Word} {s t : State} {rip : Word} (hb : body s = .ok rip t) :
    retireTo h body s = s.jumped h rip t := by
  simp [retireTo, hb, State.jumped]

theorem retireTo_error {h : Hdr} {body : M Word} {s t : State} {f : FaultRec}
    (hb : body s = .error f t) : retireTo h body s = t.faults f := by
  simp [retireTo, hb, State.faults]

/-! ### Accesses -/

/-- The writing half of an access never raises. -/
theorem physWrite_run (pa n : Nat) (v : Word) (s : State) :
    physWrite pa n v s = .ok () (s.withMs (s.ms.physWrite s.cfg pa (leBytes n v.toNat))) := rfl

theorem onGuestWrite_run (pa n : Nat) (s : State) :
    onGuestWrite pa n s = .ok () (s.withMs (s.ms.onGuestWrite pa n)) := rfl

theorem writeEach_ok (l : List (Nat × Byte)) (s : State) : ∃ t, writeEach l s = .ok () t := by
  induction l generalizing s with
  | nil => exact ⟨s, rfl⟩
  | cons a l ih =>
    obtain ⟨t, ht⟩ := ih (s.withMs (s.ms.physWrite s.cfg a.1 (leBytes 1 (a.2.setWidth 64 : Word).toNat)))
    exact ⟨t, by unfold writeEach; rw [bind_run_ok (physWrite_run _ _ _ _)]; exact ht⟩

theorem spanWrite_ok (p : Span) (n : Nat) (v : Word) (s : State) : ∃ t, spanWrite p n v s = .ok () t := by
  unfold spanWrite
  split
  · obtain ⟨t, ht⟩ := writeEach_ok ((p.addrs n).zip (leBytes n v.toNat)) s
    rw [bind_run_ok ht, bind_run_ok (onGuestWrite_run _ _ _), onGuestWrite_run]
    exact ⟨_, rfl⟩
  · rw [bind_run_ok (physWrite_run _ _ _ _), onGuestWrite_run]
    exact ⟨_, rfl⟩

theorem spanWrite_run (p : Span) (n : Nat) (v : Word) (s : State) :
    spanWrite p n v s = .ok () (s.stored p n v) := by
  obtain ⟨t, ht⟩ := spanWrite_ok p n v s
  simp [State.stored, ht]

theorem rmwEnd_run (p : Span) (n : Nat) (v : Word) (s : State) :
    rmwEnd p n v s = .ok () (s.stored p n v) := spanWrite_run p n v s

/-- A store changes `ms` only. -/
theorem stored_withMs (p : Span) (n : Nat) (v : Word) (s : State) :
    s.stored p n v = s.withMs (s.stored p n v).ms :=
  (keeps_spanWrite onlyMs_access p n v).ok (spanWrite_run p n v s)

theorem stored_flags (p : Span) (n : Nat) (v : Word) (s : State) : (s.stored p n v).flags = s.flags := by
  rw [stored_withMs]; rfl

theorem stored_regRead (p : Span) (n : Nat) (v : Word) (s : State) (w : Width) (r : Gpr) :
    (s.stored p n v).regRead w r = s.regRead w r := by
  rw [stored_withMs]; rfl

theorem openAccess_withMs {seg : SReg} {off : Word} {n : Nat} {k : Access} {s t : State} {p : Span}
    (h : openAccess seg off n k s = .ok p t) : t = s.withMs t.ms :=
  (keeps_openAccess onlyMs_access seg off n k).ok h

theorem memRead_withMs {seg : SReg} {off : Word} {n : Nat} {s t : State} {v : Word}
    (h : memRead seg off n s = .ok v t) : t = s.withMs t.ms :=
  (keeps_memRead onlyMs_access seg off n).ok h

theorem readRM_withMs {h : Hdr} {w : Width} {o : RM} {s t : State} {v : Word}
    (hr : readRM h w o s = .ok v t) : t = s.withMs t.ms :=
  (keeps_readRM onlyMs_access h w o).ok hr

theorem rmwBegin_withMs {seg : SReg} {off : Word} {n : Nat} {s t : State} {r : Word × Span}
    (h : rmwBegin seg off n s = .ok r t) : t = s.withMs t.ms :=
  (keeps_rmwBegin onlyMs_access seg off n).ok h

theorem sysRead_withMs {lin : Word} {n : Nat} {s t : State} {v : Word}
    (h : sysRead lin n s = .ok v t) : t = s.withMs t.ms :=
  (keeps_linRead onlyMs_access lin n .read false).ok h

/-- A write is its checks and translations, then the store. -/
theorem memWrite_eq (seg : SReg) (off : Word) (n : Nat) (v : Word) (s : State) :
    memWrite seg off n v s = (openAccess seg off n .write >>= fun p => spanWrite p n v) s := by
  unfold memWrite openAccess linWrite
  simp only [bind_run, get_run, raiseIf_run]
  cases !s.segOk seg off n .write <;> cases !s.canonOk (s.lin seg off) n <;> rfl

theorem memWrite_run {seg : SReg} {off : Word} {n : Nat} {v : Word} {s t : State} {p : Span}
    (h : openAccess seg off n .write s = .ok p t) :
    memWrite seg off n v s = .ok () (t.stored p n v) := by
  rw [memWrite_eq, bind_run_ok h, spanWrite_run]

/-! ### Widths of the values read -/

theorem trunc_lt (w : Width) (v : Word) : (trunc w v).toNat < 2 ^ w.bits := by
  unfold trunc
  rw [BitVec.toNat_setWidth]
  exact Nat.lt_of_le_of_lt (Nat.mod_le _ _) (BitVec.isLt _)

theorem regRead_lt (s : State) (w : Width) (r : Gpr) : (s.regRead w r).toNat < 2 ^ w.bits := by
  unfold State.regRead
  split
  · split <;> exact trunc_lt .w8 _
  · exact trunc_lt w _

theorem leNat_lt (bs : List Byte) : leNat bs < 256 ^ bs.length := by
  induction bs with
  | nil => simp [leNat]
  | cons b bs ih =>
    have hb : b.toNat < 256 := b.isLt
    rw [leNat, List.length_cons, Nat.pow_succ]
    omega

theorem bytes_length (m : MemSys) (pa n : Nat) : (m.bytes pa n).length = n := by
  induction n generalizing pa with
  | zero => rfl
  | succ n ih => simp [MemSys.bytes, ih]

theorem freeBytes_length (op pa n : Nat) : (freeBytes op pa n).length = n := by
  induction n generalizing pa with
  | zero => rfl
  | succ n ih => simp [freeBytes, ih]

theorem pow256 (n : Nat) : 256 ^ n = 2 ^ (8 * n) := by
  rw [Nat.pow_mul]

theorem ofNat_leNat_lt {n : Nat} (bs : List Byte) (hl : bs.length = n) :
    (BitVec.ofNat 64 (leNat bs)).toNat < 2 ^ (8 * n) := by
  have h := leNat_lt bs
  rw [hl, pow256] at h
  rw [BitVec.toNat_ofNat]
  exact Nat.lt_of_le_of_lt (Nat.mod_le _ _) h

theorem physRead_lt {pa n : Nat} {s t : State} {v : Word} (h : physRead pa n s = .ok v t) :
    v.toNat < 2 ^ (8 * n) := by
  unfold physRead at h
  split at h
  · cases h; exact ofNat_leNat_lt _ (bytes_length _ _ _)
  · cases h; exact ofNat_leNat_lt _ (freeBytes_length _ _ _)

theorem readEach_length {l : List Nat} {s t : State} {bs : List Byte} (h : readEach l s = .ok bs t) :
    bs.length = l.length := by
  induction l generalizing s bs t with
  | nil => cases h; rfl
  | cons a l ih =>
    obtain ⟨b, u, -, h⟩ := bind_ok.mp h
    obtain ⟨cs, v, h1, h⟩ := bind_ok.mp h
    cases h
    simp [ih h1]

theorem spanRead_lt {p : Span} {n : Nat} {s t : State} {v : Word} (h : spanRead p n s = .ok v t) :
    v.toNat < 2 ^ (8 * n) := by
  unfold spanRead at h
  split at h
  · obtain ⟨bs, u, h1, h⟩ := bind_ok.mp h
    cases h
    refine ofNat_leNat_lt _ ?_
    rw [readEach_length h1, Span.addrs, List.length_map, List.length_range]
  · exact physRead_lt h

theorem memRead_lt {seg : SReg} {off : Word} {n : Nat} {s t : State} {v : Word}
    (h : memRead seg off n s = .ok v t) : v.toNat < 2 ^ (8 * n) := by
  obtain ⟨s0, u0, h0, h⟩ := bind_ok.mp h
  obtain ⟨-, u1, -, h⟩ := bind_ok.mp h
  obtain ⟨-, u2, -, h⟩ := bind_ok.mp h
  obtain ⟨p, u3, -, h⟩ := bind_ok.mp h
  exact spanRead_lt h

theorem rmwBegin_lt {seg : SReg} {off : Word} {n : Nat} {s t : State} {r : Word × Span}
    (h : rmwBegin seg off n s = .ok r t) : r.1.toNat < 2 ^ (8 * n) := by
  obtain ⟨s0, u0, h0, h⟩ := bind_ok.mp h
  obtain ⟨-, u1, -, h⟩ := bind_ok.mp h
  obtain ⟨-, u2, -, h⟩ := bind_ok.mp h
  obtain ⟨-, u3, -, h⟩ := bind_ok.mp h
  obtain ⟨p, u4, -, h⟩ := bind_ok.mp h
  obtain ⟨v, u5, h5, h⟩ := bind_ok.mp h
  cases h
  exact spanRead_lt h5

theorem bits_eq (w : Width) : 8 * w.bytes = w.bits := by cases w <;> rfl

theorem readRM_lt {h : Hdr} {w : Width} {o : RM} {s t : State} {v : Word}
    (hr : readRM h w o s = .ok v t) : v.toNat < 2 ^ w.bits := by
  cases o with
  | reg r => cases hr; exact regRead_lt _ _ _
  | mem m => exact bits_eq w ▸ memRead_lt (n := w.bytes) hr

theorem destRead_lt {h : Hdr} {w : Width} {o : RM} {s t : State} {a : Word} {p : Span}
    (hr : destRead h w o s = .ok (a, p) t) : a.toNat < 2 ^ w.bits := by
  cases o with
  | reg r => cases hr; exact regRead_lt _ _ _
  | mem m => exact bits_eq w ▸ rmwBegin_lt (n := w.bytes) hr

theorem destRead_withMs {h : Hdr} {w : Width} {o : RM} {s t : State} {r : Word × Span}
    (hr : destRead h w o s = .ok r t) : t = s.withMs t.ms := by
  cases o with
  | reg r => cases hr; rfl
  | mem m => exact rmwBegin_withMs (n := w.bytes) hr

theorem destOpen_withMs {h : Hdr} {w : Width} {o : RM} {s t : State} {p : Span}
    (hr : destOpen h w o s = .ok p t) : t = s.withMs t.ms := by
  cases o with
  | reg r => cases hr; rfl
  | mem m => exact openAccess_withMs (n := w.bytes) hr

/-! ### Operand forms -/

/-- A write of an operand that is not read. -/
theorem writeRM_run {h : Hdr} {w : Width} {o : RM} {s t : State} {p : Span} (v : Word)
    (hd : destOpen h w o s = .ok p t) : writeRM h w o v s = .ok () (t.destWrite w o p v) := by
  cases o with
  | reg r => cases hd; rfl
  | mem m => exact memWrite_run (n := w.bytes) hd

/-- The read-modify-write of an operand. -/
theorem rmwRM_run {h : Hdr} {w : Width} {o : RM} {s t : State} {a : Word} {p : Span}
    (f : Word → Flags → Computed) (hd : destRead h w o s = .ok (a, p) t) :
    rmwRM h w o f s = .ok () (t.commit w o p (f a s.flags)) := by
  cases o with
  | reg r => cases hd; rfl
  | mem m =>
    have hd' : rmwBegin m.seg (s.ea h m) w.bytes s = .ok (a, p) t := hd
    simp only [rmwRM]
    rw [get_bind_run, bind_run_ok hd', bind_run_ok (rmwEnd_run _ _ _ _)]
    rfl

/-- The five forms of a two-operand operation that writes its destination. -/
theorem aluWrite_run {h : Hdr} {f : AluForm} {s t : State} {o : AluOperands}
    (g : Width → Word → Word → Flags → Computed) (hd : aluOperands h f s = .ok o t) :
    aluWrite h g f s = .ok () (t.commit o.w o.dst o.span (g o.w o.a o.b s.flags)) := by
  cases f with
  | mr w dst src =>
    obtain ⟨⟨a, p⟩, u, h1, h2⟩ := bind_ok.mp hd
    have hu := destRead_withMs h1
    cases h2
    have h3 := rmwRM_run (fun a fl => g w a (s.regRead w src) fl) h1
    simp only [aluWrite]
    rw [bind_run_ok (readReg_run _ _ _), h3, hu]
    rfl
  | rm w dst src =>
    obtain ⟨b, u, h1, h2⟩ := bind_ok.mp hd
    have hu := readRM_withMs h1
    cases h2
    simp only [aluWrite]
    rw [bind_run_ok h1, hu]
    rfl
  | acc w imm => cases hd; rfl
  | mi w dst imm =>
    obtain ⟨⟨a, p⟩, u, h1, h2⟩ := bind_ok.mp hd
    cases h2
    simp only [aluWrite]
    exact rmwRM_run (fun a fl => g w a imm fl) h1
  | mis w dst imm =>
    obtain ⟨⟨a, p⟩, u, h1, h2⟩ := bind_ok.mp hd
    cases h2
    simp only [aluWrite]
    exact rmwRM_run (fun a fl => g w a imm fl) h1

/-- The five forms of a comparison. -/
theorem aluCompare_run {h : Hdr} {f : AluForm} {s t : State} {w : Width} {a b : Word}
    (g : Width → Word → Word → Flags → Computed) (hd : cmpOperands h f s = .ok (w, a, b) t) :
    aluCompare h g f s = .ok () (t.withFlags (g w a b s.flags).flags) := by
  cases f with
  | mr w dst src =>
    obtain ⟨x, u, h1, h2⟩ := bind_ok.mp hd
    have hu := readRM_withMs h1
    cases h2
    simp only [aluCompare]
    rw [bind_run_ok h1, hu]
    rfl
  | rm w dst src =>
    obtain ⟨x, u, h1, h2⟩ := bind_ok.mp hd
    have hu := readRM_withMs h1
    cases h2
    simp only [aluCompare]
    rw [bind_run_ok (readReg_run _ _ _), bind_run_ok h1, hu]
    rfl
  | acc w imm => cases hd; rfl
  | mi w dst imm =>
    obtain ⟨x, u, h1, h2⟩ := bind_ok.mp hd
    have hu := readRM_withMs h1
    cases h2
    simp only [aluCompare]
    rw [bind_run_ok h1, hu]
    rfl
  | mis w dst imm =>
    obtain ⟨x, u, h1, h2⟩ := bind_ok.mp hd
    have hu := readRM_withMs h1
    cases h2
    simp only [aluCompare]
    rw [bind_run_ok h1, hu]
    rfl

/-! ### The stack -/

theorem push_run {n : Nat} {v : Word} {s t : State} {p : Span}
    (h : openAccess .ss (s.spMinus n) n .write s = .ok p t) :
    push n v s = .ok () ((t.stored p n v).setSp (s.spMinus n)) := by
  unfold push
  rw [get_bind_run, bind_run_ok (memWrite_run h)]
  rfl

theorem pop_run {n : Nat} {v : Word} {s t : State} (h : memRead .ss s.sp n s = .ok v t) :
    pop n s = .ok v (t.setSp (s.spPlus n)) := by
  unfold pop
  rw [get_bind_run, bind_run_ok h]
  rfl

/-! ### Refused accesses -/

/-- The limit check, as R209 step 3 words it. -/
theorem inLimit_iff (r : SegReg) (off : Word) (n : Nat) :
    r.inLimit off n = true ↔ ¬r.LimitRefuses off.toNat n := by
  unfold SegReg.inLimit SegReg.LimitRefuses
  cases r.type.getLsbD 3 <;> cases r.type.getLsbD 2 <;> simp

/-- The type check, as R209 step 2 words it. -/
theorem typeAllows_iff (r : SegReg) (kind : Access) :
    r.typeAllows kind = true ↔ ¬r.TypeRefuses kind := by
  unfold SegReg.typeAllows SegReg.TypeRefuses
  cases kind <;> cases r.type.getLsbD 3 <;> cases r.type.getLsbD 1 <;> simp

/-- The segment checks together. -/
theorem segOk_iff (s : State) (seg : SReg) (off : Word) (n : Nat) (kind : Access) :
    s.segOk seg off n kind = true ↔ ¬s.SegRefuses seg off n kind := by
  unfold State.segOk State.SegRefuses State.is64
  cases s.cfg.segChecks <;> cases hu : (s.segs.get seg).unusable <;>
    simp [hu, ← inLimit_iff, ← typeAllows_iff, Decidable.or_iff_not_imp_left]

/-- The canonical addresses, in numbers. -/
theorem canonical_iff (v : Word) :
    canonical v = true ↔ v.toNat < 2 ^ 47 ∨ 2 ^ 64 - 2 ^ 47 ≤ v.toNat := by
  have := v.isLt
  simp only [canonical, Bool.or_eq_true, beq_iff_eq]
  omega

/-- The canonical check of an access, on its first and its last byte (R207). -/
theorem canonOk_iff (s : State) (lin : Word) (n : Nat) :
    s.canonOk lin n = true ↔ ¬s.CanonRefuses lin n := by
  have first : lin + BitVec.ofNat 64 0 = lin := BitVec.add_zero lin
  simp only [State.canonOk, State.CanonRefuses, State.is64, Bool.or_eq_true, Bool.and_eq_true,
    canonical_iff, or_and_right, exists_or, exists_eq_left, first]
  by_cases h : s.decodeMode = .m64
  · simp only [h, beq_self_eq_true, Bool.not_true, Bool.false_eq_true, false_or, true_and]
    omega
  · simp [h]

/-- A reported address outside 64-bit mode has 32 bits (R812). -/
theorem reportedAddr_lt {s : State} (h : s.is64 = false) (lin : Word) :
    (s.reportedAddr lin).toNat < 2 ^ 32 := by
  rw [reportedAddr_of_not_is64 h]
  exact trunc_lt .w32 lin

/-! ### The ends of a translation that do not walk -/

/-- Without paging a translation gives the low 32 bits and changes nothing (R255). -/
theorem translate_of_no_paging {s : State} (h : s.pagingMode = .none) (lin : Word) (kind : Access)
    (user : Bool) : translate lin kind user s = .ok (field lin 31 0) s := by
  unfold translate
  rw [bind_run, get_run]
  simp only [h, beq_self_eq_true, if_true]
  rfl

/-- A translation that the cache answers gives the page of the entry and changes nothing (R252). -/
theorem translate_of_hit {s : State} {lin : Word} {kind : Access} {user : Bool} (h : s.pagingMode ≠ .none)
    (hit : s.tlbHit (s.tlbEntry (s.tlbIndex lin)) lin kind user = true) :
    translate lin kind user s =
      .ok ((s.tlbEntry (s.tlbIndex lin)).ppn.toNat * 4096 + lin.toNat % 4096) s := by
  unfold translate
  rw [bind_run, get_run]
  simp only [beq_iff_eq, h, if_false, hit, if_true]
  rfl

end Sys2Proof.Machine
end

