-- ==== Sys2Proof/Tests/Slice0.lean ====
section
/-! SUPPORT. Tests: the checks of WellFormed refuse ill-formed terms; for every constructor a word written out
from the encoding tables of `30_encoding.md` (or from R360 and the decoder vectors of
`95_test_vectors.md`) and one step of it; and a witness for the hypotheses of every obligation. Every
expected result is the spec's: the example of a rule, or a vector (VA, VC, VD, VH, VM, VT, VY). -/

-- one theorem after the other: each evaluates in the kernel on a large stack
set_option Elab.async false

namespace Sys2Proof.Tests
open Sys2Proof Sys2Proof.Machine

/-! ### Environments (`95_test_vectors.md` section 2) -/

def code32 : SegReg := ⟨8, 0, 0xFFFFFFFF, 0b1011, true, 0, true, false, false, true, true, false⟩
def data32 : SegReg := ⟨0x10, 0, 0xFFFFFFFF, 0b0011, true, 0, true, false, false, true, true, false⟩

/-- E16. -/
def E16 : State :=
  { State.reset with
    rip := 0x7C00
    segs := { State.reset.segs with cs := { SegReg.resetCs with selector := 0, base := 0 } } }

/-- E32. -/
def E32 : State :=
  { State.reset with
    cr0 := 0x11
    rip := 0x1000
    segs := ⟨data32, code32, data32, data32, data32, data32⟩
    ldtr := { SegReg.resetLdtr with unusable := true } }

/-- E64. -/
def E64 : State :=
  ((({ E32 with
      cr0 := 0x80000011
      cr4 := 0x20
      efer := 0x500
      cr3 := 0x10000
      segs := { E32.segs with cs := { code32 with l := true, db := false } } } : State).poke
    0x10000 [0x23, 0x10, 1]).poke 0x11000 [0x23, 0x20, 1]).poke 0x12000 [0xE3]

/-- E32 with the descriptor table of the example of R618. -/
def gdtState : State :=
  ({ E32 with gdtr := ⟨0x1000, 0x17⟩ } : State).poke 0x1010 [0xFF, 0xFF, 0, 0, 0, 0x92, 0xCF, 0]

/-- `rflags` = `0x8D7`. -/
def flags8D7 : Flags := Flags.reset.withSt ⟨true, true, true, true, true, true⟩

/-- `rflags` with CF alone. -/
def cf1 : Flags := Flags.reset.withSt ⟨true, false, false, false, false, false⟩

/-- The state a meaning ends in. -/
def after (i : Instr) (s : State) : State :=
  match exec i s with
  | .next t => t
  | .fault _ | .refused _ => s

/-- Headers without prefixes, by mode and length; with a REX prefix. -/
def h16 (n : Nat) : Hdr := ⟨.w16, false, .none, none, false, false, none, n⟩
def h32 (n : Nat) : Hdr := ⟨.w32, false, .none, none, false, false, none, n⟩
def h64 (n : Nat) : Hdr := ⟨.w64, false, .none, none, false, false, none, n⟩
def x64 (rex : BitVec 4) (n : Nat) : Hdr := ⟨.w64, false, .none, none, false, false, some rex, n⟩
def r (i : RegNum) : RM := .reg ⟨i, false⟩
def g (i : RegNum) : Gpr := ⟨i, false⟩

/-! ### Ill-formed terms, one for each check -/

theorem wf_refuses_headers :
    (Instr.hlt (h16 1)).wf .m32 = false ∧
    (Instr.hlt ⟨.w32, false, .none, none, false, false, some 0, 1⟩).wf .m32 = false ∧
    (Instr.hlt ⟨.w64, false, .none, some .es, false, false, none, 2⟩).wf .m64 = false ∧
    (Instr.hlt (h32 0)).wf .m32 = false ∧
    (Instr.hlt (h32 16)).wf .m32 = false := by decide +kernel

theorem wf_refuses_prefixes :
    (Instr.hlt ⟨.w32, true, .none, none, false, false, none, 2⟩).wf .m32 = false ∧
    (Instr.hlt ⟨.w32, false, .rep, none, false, false, none, 2⟩).wf .m32 = false ∧
    (Instr.cmp ⟨.w32, true, .none, none, false, false, none, 3⟩ (.mr .w32 (.mem ⟨.ds, some 3, none, 0, 0, false⟩) (g 0))).wf .m32 = false ∧
    (Instr.add ⟨.w32, true, .none, none, false, false, none, 3⟩ (.mr .w32 (r 3) (g 0))).wf .m32 = false ∧
    (Instr.add ⟨.w32, true, .none, none, false, false, none, 3⟩ (.rm .w32 (g 0) (.mem ⟨.ds, some 3, none, 0, 0, false⟩))).wf .m32 = false ∧
    (Instr.movs ⟨.w32, false, .repne, none, false, false, none, 2⟩ .w8).wf .m32 = false ∧
    (Instr.scas ⟨.w32, true, .none, none, false, false, none, 2⟩ .w8).wf .m32 = false := by decide +kernel

theorem wf_refuses_registers :
    (Instr.mov (h32 2) (.mr .w16 (r 0) ⟨0, true⟩)).wf .m32 = false ∧
    (Instr.mov (x64 0 3) (.mr .w8 (r 0) ⟨0, true⟩)).wf .m64 = false ∧
    (Instr.mov (h32 2) (.mr .w8 (r 0) ⟨4, true⟩)).wf .m32 = false ∧
    (Instr.mov (h64 2) (.mr .w32 (r 0) (g 8))).wf .m64 = false ∧
    (Instr.mov (h64 2) (.mr .w8 (r 0) (g 4))).wf .m64 = false ∧
    (Instr.mov (x64 1 3) (.mr .w32 (r 0) (g 0))).wf .m64 = false ∧
    (Instr.movFromCr (h64 3) .w64 8 .cr0).wf .m64 = false ∧
    (Instr.movFromCr (x64 4 4) .w64 0 .cr0).wf .m64 = false := by decide +kernel

theorem wf_refuses_addresses_of_16_bits :
    (Instr.lea (h16 2) .w16 (g 0) ⟨.ds, some 6, none, 1, 0, false⟩).wf .m16 = false ∧
    (Instr.lea (h16 2) .w16 (g 0) ⟨.ds, none, none, 0, 0, true⟩).wf .m16 = false ∧
    (Instr.lea (h16 2) .w16 (g 0) ⟨.ds, none, none, 0, 0x8000, false⟩).wf .m16 = false ∧
    (Instr.lea (h16 2) .w16 (g 0) ⟨.ds, some 0, none, 0, 0, false⟩).wf .m16 = false ∧
    (Instr.lea (h16 2) .w16 (g 0) ⟨.ds, some 3, some 3, 0, 0, false⟩).wf .m16 = false ∧
    (Instr.lea (h16 2) .w16 (g 0) ⟨.ds, none, some 6, 0, 0, false⟩).wf .m16 = false := by decide +kernel

theorem wf_refuses_addresses_of_32_bits :
    (Instr.lea (h32 2) .w32 (g 0) ⟨.ds, some 3, none, 0, 0x80000000, false⟩).wf .m32 = false ∧
    (Instr.lea (h32 2) .w32 (g 0) ⟨.ds, some 8, none, 0, 0, false⟩).wf .m32 = false ∧
    (Instr.lea (h64 7) .w32 (g 0) ⟨.ds, some 3, none, 0, 0, true⟩).wf .m64 = false ∧
    (Instr.lea (h32 3) .w32 (g 0) ⟨.ds, some 3, some 4, 0, 0, false⟩).wf .m32 = false ∧
    (Instr.lea (h64 3) .w32 (g 0) ⟨.ds, some 3, some 9, 0, 0, false⟩).wf .m64 = false ∧
    (Instr.lea (h64 7) .w32 (g 0) ⟨.ds, none, some 1, 0, 0, true⟩).wf .m64 = false ∧
    (Instr.lea (h32 2) .w32 (g 0) ⟨.ds, some 3, none, 1, 0, false⟩).wf .m32 = false ∧
    (Instr.lea (h32 6) .w32 (g 0) ⟨.ds, none, none, 0, 0, true⟩).wf .m32 = false ∧
    (Instr.lea (x64 2 8) .w32 (g 0) ⟨.ds, none, none, 0, 0, false⟩).wf .m64 = false ∧
    (Instr.lea (x64 2 4) .w32 (g 0) ⟨.ss, some 4, none, 0, 0, false⟩).wf .m64 = false := by decide +kernel

theorem wf_refuses_segments :
    (Instr.lea (h32 2) .w32 (g 0) ⟨.ds, some 5, none, 0, 0, false⟩).wf .m32 = false ∧
    (Instr.lea (h32 2) .w32 (g 0) ⟨.ss, some 3, none, 0, 0, false⟩).wf .m32 = false ∧
    (Instr.mov (h32 5) (.fromMoffs .w32 ⟨.ss, none, none, 0, 0, false⟩)).wf .m32 = false ∧
    (Instr.mov (h32 5) (.toMoffs .w32 ⟨.ds, none, none, 0, 0x100000000, false⟩)).wf .m32 = false := by decide +kernel

theorem wf_refuses_sizes :
    (Instr.push (h64 1) (.reg .w32 (g 0))).wf .m64 = false ∧
    (Instr.push (h32 1) (.reg .w8 (g 0))).wf .m32 = false ∧
    (Instr.add (h32 2) (.mr .w64 (r 0) (g 3))).wf .m32 = false ∧
    (Instr.add (h64 3) (.mr .w16 (r 0) (g 3))).wf .m64 = false ∧
    (Instr.ret ⟨.w64, false, .none, none, true, false, none, 2⟩ .w16).wf .m64 = false ∧
    (Instr.lgdt (h64 7) .w32 ⟨.ds, some 3, none, 0, 0, false⟩).wf .m64 = false ∧
    (Instr.movFromCr (h64 3) .w32 0 .cr0).wf .m64 = false ∧
    (Instr.movzx (h32 3) .w32 (g 0) .w32 (r 3)).wf .m32 = false ∧
    (Instr.movFromSeg (h32 2) .w32 (.mem ⟨.ds, some 3, none, 0, 0, false⟩) .es).wf .m32 = false := by decide +kernel

theorem wf_refuses_immediates :
    (Instr.add (h32 2) (.acc .w8 0x100)).wf .m32 = false ∧
    (Instr.add (x64 8 6) (.acc .w64 0x80000000)).wf .m64 = false ∧
    (Instr.add (h32 3) (.mis .w32 (r 0) 0x80)).wf .m32 = false ∧
    (Instr.push (h32 2) (.imm8 .w32 0x80)).wf .m32 = false ∧
    (Instr.push (h64 5) (.immz .w64 0x80000000)).wf .m64 = false ∧
    (Instr.mov (h32 5) (.ri .w32 (g 0) 0x100000000)).wf .m32 = false ∧
    (Instr.imul3 (h32 3) .w32 (g 0) (r 3) 0x80 .imm8).wf .m32 = false ∧
    (Instr.imul3 (h32 6) .w32 (g 0) (r 3) 0x100000000 .immz).wf .m32 = false ∧
    (Instr.jmpRel (h32 2) .w32 .rel8 0x80).wf .m32 = false ∧
    (Instr.jmpRel (h16 3) .w16 .relz 0x8000).wf .m16 = false ∧
    (Instr.callRel (h32 5) .w32 0x80000000).wf .m32 = false ∧
    (Instr.loop (h32 2) .w32 0x80).wf .m32 = false := by decide +kernel

theorem wf_refuses_modes :
    (Instr.inc (h64 1) (.short .w32 (g 0))).wf .m64 = false ∧
    (Instr.movsxd (h32 2) .w32 (g 0) (r 3)).wf .m32 = false ∧
    (Instr.into (h64 1)).wf .m64 = false ∧
    (Instr.swapgs (h32 3)).wf .m32 = false := by decide +kernel

theorem wf_refuses_single_rows :
    (Instr.movToSeg (h32 2) .cs (r 0)).wf .m32 = false ∧
    (Instr.xchg (h32 1) (.acc .w32 (g 0))).wf .m32 = false ∧
    (Instr.nop (x64 1 2)).wf .m64 = false ∧
    (Instr.pause (h32 2)).wf .m32 = false ∧
    (Instr.pause ⟨.w64, false, .rep, none, false, false, some 1, 3⟩).wf .m64 = false ∧
    (Instr.lfence ⟨.w32, false, .none, none, true, false, none, 4⟩).wf .m32 = false ∧
    (Instr.ud2).wf .m32 = false ∧
    (Instr.invalid).wf .m32 = false := by decide +kernel

/-- The well-formed neighbours of the terms above: the checks refuse no more than they should. -/
theorem wf_accepts_neighbours :
    (Instr.hlt (h32 15)).wf .m32 = true ∧
    (Instr.add ⟨.w32, true, .none, none, false, false, none, 3⟩
      (.mr .w32 (.mem ⟨.ds, some 3, none, 0, 0, false⟩) (g 0))).wf .m32 = true ∧
    (Instr.mov (x64 0 3) (.mr .w8 (r 0) (g 4))).wf .m64 = true ∧
    (Instr.lea (h16 4) .w16 (g 0) ⟨.ss, some 5, some 6, 0, 0x7FFF, false⟩).wf .m16 = true ∧
    (Instr.lea (x64 2 4) .w32 (g 0) ⟨.ss, some 4, some 12, 0, 0, false⟩).wf .m64 = true ∧
    (Instr.add (h32 3) (.mis .w32 (r 0) 0xFFFFFF80)).wf .m32 = true ∧
    (Instr.jmpRel (h32 2) .w32 .rel8 (-128)).wf .m32 = true := by decide +kernel

/-! ### Arithmetic and logic -/

theorem test_decode_add : decode .m32 [0x01, 0xD8] =
    .decoded (.add (h32 2) (.mr .w32 (r 0) (g 3))) := by decide +kernel

/-- VA1. -/
theorem test_add :
    let s := (E32.setX 0 5).setX 3 0xFFFFFFFF
    let t := after (.add (h32 2) (.mr .w32 (r 0) (g 3))) s
    t.x 0 = 4 ∧
      t.flags.st.cf = true ∧
      t.flags.st.pf = false ∧
      t.flags.st.af = true ∧
      t.flags.st.zf = false ∧
      t.flags.st.sf = false ∧
      t.flags.st.of = false ∧
      t.rip = 0x1002 ∧
      t.retired = 1 := by decide +kernel

theorem test_decode_add_lock : decode .m32 [0xF0, 0x01, 0x03] =
    .decoded (.add ⟨.w32, true, .none, none, false, false, none, 3⟩ (.mr .w32 (.mem ⟨.ds, some 3, none, 0, 0, false⟩) (g 0))) := by decide +kernel

/-- VA61. -/
theorem test_add_lock :
    let s := (E32.setX 0 4).setX 3 0x2000 |>.poke 0x2000 [0x0C, 0x20]
    let t := after (.add ⟨.w32, true, .none, none, false, false, none, 3⟩ (.mr .w32 (.mem ⟨.ds, some 3, none, 0, 0, false⟩) (g 0))) s
    t.ms.bytes 0x2000 4 = [0x10, 0x20, 0, 0] ∧
      t.ms.version 2 = 1 ∧
      t.flags.st.cf = false ∧
      t.flags.st.pf = false ∧
      t.flags.st.af = true ∧
      t.flags.st.zf = false ∧
      t.flags.st.sf = false ∧
      t.flags.st.of = false := by decide +kernel

theorem test_decode_or : decode .m32 [0x0C, 0x0F] =
    .decoded (.or (h32 2) (.acc .w8 0x0F)) := by decide +kernel

/-- VA22. -/
theorem test_or :
    let s := E32.setX 0 0xF0
    let t := after (.or (h32 2) (.acc .w8 0x0F)) s
    t.x 0 = 0xFF ∧
      t.flags.st.cf = false ∧
      t.flags.st.pf = true ∧
      t.flags.st.zf = false ∧
      t.flags.st.sf = true ∧
      t.flags.st.of = false := by decide +kernel

theorem test_decode_adc : decode .m32 [0x83, 0xD0, 0x00] =
    .decoded (.adc (h32 3) (.mis .w32 (r 0) 0)) := by decide +kernel

/-- The example of R456. -/
theorem test_adc :
    let s := (E32.setX 0 0xFFFFFFFF).withFlags cf1
    let t := after (.adc (h32 3) (.mis .w32 (r 0) 0)) s
    t.x 0 = 0 ∧
      t.flags.st.cf = true ∧
      t.flags.st.pf = true ∧
      t.flags.st.af = true ∧
      t.flags.st.zf = true ∧
      t.flags.st.sf = false ∧
      t.flags.st.of = false := by decide +kernel

theorem test_decode_sbb : decode .m32 [0x19, 0xC0] =
    .decoded (.sbb (h32 2) (.mr .w32 (r 0) (g 0))) := by decide +kernel

/-- VA14. -/
theorem test_sbb :
    let s := (E32.setX 0 7).withFlags cf1
    let t := after (.sbb (h32 2) (.mr .w32 (r 0) (g 0))) s
    t.x 0 = 0xFFFFFFFF ∧
      t.flags.st.cf = true ∧
      t.flags.st.pf = true ∧
      t.flags.st.af = true ∧
      t.flags.st.zf = false ∧
      t.flags.st.sf = true ∧
      t.flags.st.of = false := by decide +kernel

theorem test_decode_and : decode .m32 [0x24, 0x0F] =
    .decoded (.and (h32 2) (.acc .w8 0x0F)) := by decide +kernel

/-- VA24. -/
theorem test_and :
    let s := E32.setX 0 0x3C
    let t := after (.and (h32 2) (.acc .w8 0x0F)) s
    t.x 0 = 0x0C ∧
      t.flags.st.cf = false ∧
      t.flags.st.pf = true ∧
      t.flags.st.zf = false ∧
      t.flags.st.sf = false ∧
      t.flags.st.of = false := by decide +kernel

theorem test_decode_sub : decode .m64 [0x48, 0x83, 0xE9, 0x01] =
    .decoded (.sub (x64 8 4) (.mis .w64 (r 1) 1)) := by decide +kernel

/-- The example of R459 with RCX = 0. -/
theorem test_sub :
    let s := E64
    let t := after (.sub (x64 8 4) (.mis .w64 (r 1) 1)) s
    t.x 1 = 0xFFFFFFFFFFFFFFFF ∧
      t.flags.st.cf = true ∧
      t.flags.st.pf = true ∧
      t.flags.st.af = true ∧
      t.flags.st.zf = false ∧
      t.flags.st.sf = true ∧
      t.flags.st.of = false := by decide +kernel

theorem test_decode_xor : decode .m32 [0x31, 0xD8] =
    .decoded (.xor (h32 2) (.mr .w32 (r 0) (g 3))) := by decide +kernel

/-- VA23. -/
theorem test_xor :
    let s := (E32.setX 0 0x12345678).setX 3 0x12345678
    let t := after (.xor (h32 2) (.mr .w32 (r 0) (g 3))) s
    t.x 0 = 0 ∧
      t.flags.st.cf = false ∧
      t.flags.st.pf = true ∧
      t.flags.st.zf = true ∧
      t.flags.st.sf = false ∧
      t.flags.st.of = false := by decide +kernel

theorem test_decode_cmp : decode .m32 [0x39, 0xD8] =
    .decoded (.cmp (h32 2) (.mr .w32 (r 0) (g 3))) := by decide +kernel

/-- VA19. -/
theorem test_cmp :
    let s := (E32.setX 0 4).setX 3 5
    let t := after (.cmp (h32 2) (.mr .w32 (r 0) (g 3))) s
    t.x 0 = 4 ∧
      t.flags.st.cf = true ∧
      t.flags.st.pf = true ∧
      t.flags.st.af = true ∧
      t.flags.st.zf = false ∧
      t.flags.st.sf = true ∧
      t.flags.st.of = false := by decide +kernel

theorem test_decode_test : decode .m32 [0x85, 0xC0] =
    .decoded (.test (h32 2) (.mr .w32 (r 0) (g 0))) := by decide +kernel

/-- VA25. -/
theorem test_test :
    let s := E32.setX 0 0x80000000
    let t := after (.test (h32 2) (.mr .w32 (r 0) (g 0))) s
    t.x 0 = 0x80000000 ∧
      t.flags.st.cf = false ∧
      t.flags.st.pf = true ∧
      t.flags.st.zf = false ∧
      t.flags.st.sf = true ∧
      t.flags.st.of = false := by decide +kernel

theorem test_decode_not : decode .m32 [0xF7, 0xD0] =
    .decoded (.not (h32 2) .w32 (r 0)) := by decide +kernel

/-- VA38. -/
theorem test_not :
    let s := E32.withFlags flags8D7
    let t := after (.not (h32 2) .w32 (r 0)) s
    t.x 0 = 0xFFFFFFFF ∧
      t.flags = flags8D7 := by decide +kernel

theorem test_decode_neg : decode .m32 [0xF6, 0xD8] =
    .decoded (.neg (h32 2) .w8 (r 0)) := by decide +kernel

/-- VA37. -/
theorem test_neg :
    let s := E32.setX 0 0x80
    let t := after (.neg (h32 2) .w8 (r 0)) s
    t.x 0 = 0x80 ∧
      t.flags.st.cf = true ∧
      t.flags.st.pf = false ∧
      t.flags.st.af = false ∧
      t.flags.st.zf = false ∧
      t.flags.st.sf = true ∧
      t.flags.st.of = true := by decide +kernel

theorem test_decode_mul : decode .m32 [0xF7, 0xE3] =
    .decoded (.mul (h32 2) .w32 (r 3)) := by decide +kernel

/-- VA39. -/
theorem test_mul :
    let s := (E32.setX 0 0xFFFFFFFF).setX 3 0xFFFFFFFF
    let t := after (.mul (h32 2) .w32 (r 3)) s
    t.x 2 = 0xFFFFFFFE ∧
      t.x 0 = 1 ∧
      t.flags.st.cf = true ∧
      t.flags.st.of = true := by decide +kernel

theorem test_decode_imul1 : decode .m32 [0xF6, 0xEB] =
    .decoded (.imul1 (h32 2) .w8 (r 3)) := by decide +kernel

/-- VA44. -/
theorem test_imul1 :
    let s := (E32.setX 0 0x80).setX 3 0xFF
    let t := after (.imul1 (h32 2) .w8 (r 3)) s
    t.x 0 = 0x80 ∧
      t.flags.st.cf = true ∧
      t.flags.st.of = true := by decide +kernel

theorem test_decode_div : decode .m32 [0xF6, 0xF3] =
    .decoded (.div (h32 2) .w8 (r 3)) := by decide +kernel

/-- VA49. -/
theorem test_div :
    let s := (E32.setX 0 0x105).setX 3 0x10
    let t := after (.div (h32 2) .w8 (r 3)) s
    t.x 0 = 0x510 := by decide +kernel

/-- VA50. -/
theorem test_div_fault :
    let s := (E32.setX 0 0x1000).setX 3 0x10
    let t := after (.div (h32 2) .w8 (r 3)) s
    t.regs = s.regs ∧
      t.rip = 0x1000 ∧
      t.retired = 0 ∧
      t.outcome = some ⟨.fault ⟨0, none, none⟩, 0, 0x1000⟩ := by decide +kernel

theorem test_decode_idiv : decode .m32 [0x66, 0xF7, 0xFB] =
    .decoded (.idiv ⟨.w32, false, .none, none, true, false, none, 3⟩ .w16 (r 3)) := by decide +kernel

/-- VA54. -/
theorem test_idiv :
    let s := ((E32.setX 2 0xFFFF).setX 0 0xFFF9).setX 3 0xFFFE
    let t := after (.idiv ⟨.w32, false, .none, none, true, false, none, 3⟩ .w16 (r 3)) s
    t.x 0 = 3 ∧
      t.x 2 = 0xFFFF := by decide +kernel

/-- VA52. -/
theorem test_idiv_fault :
    let s := (E32.setX 0 0xFF80).setX 3 0xFF
    let t := after (.idiv (h32 2) .w8 (r 3)) s
    t.outcome = some ⟨.fault ⟨0, none, none⟩, 0, 0x1000⟩ := by decide +kernel

theorem test_decode_inc : decode .m32 [0x40] =
    .decoded (.inc (h32 1) (.short .w32 (g 0))) := by decide +kernel

/-- VA28. -/
theorem test_inc :
    let s := (E32.setX 0 0x7FFFFFFF).withFlags cf1
    let t := after (.inc (h32 1) (.short .w32 (g 0))) s
    t.x 0 = 0x80000000 ∧
      t.flags.st.cf = true ∧
      t.flags.st.pf = true ∧
      t.flags.st.af = true ∧
      t.flags.st.zf = false ∧
      t.flags.st.sf = true ∧
      t.flags.st.of = true := by decide +kernel

theorem test_decode_dec : decode .m32 [0xFE, 0xC8] =
    .decoded (.dec (h32 2) (.rm .w8 (r 0))) := by decide +kernel

/-- VA33. -/
theorem test_dec :
    let s := E32.withFlags cf1
    let t := after (.dec (h32 2) (.rm .w8 (r 0))) s
    t.x 0 = 0xFF ∧
      t.flags.st.cf = true ∧
      t.flags.st.pf = true ∧
      t.flags.st.af = true ∧
      t.flags.st.zf = false ∧
      t.flags.st.sf = true ∧
      t.flags.st.of = false := by decide +kernel

theorem test_decode_imul2 : decode .m64 [0x48, 0x0F, 0xAF, 0xC3] =
    .decoded (.imul2 (x64 8 4) .w64 (g 0) (r 3)) := by decide +kernel

/-- VA47. -/
theorem test_imul2 :
    let s := (E64.setX 0 0xFFFFFFFFFFFFFFFF).setX 3 5
    let t := after (.imul2 (x64 8 4) .w64 (g 0) (r 3)) s
    t.x 0 = 0xFFFFFFFFFFFFFFFB ∧
      t.flags.st.cf = false ∧
      t.flags.st.of = false := by decide +kernel

theorem test_decode_imul3 : decode .m32 [0x6B, 0xC3, 0x02] =
    .decoded (.imul3 (h32 3) .w32 (g 0) (r 3) 2 .imm8) := by decide +kernel

/-- VA46. -/
theorem test_imul3 :
    let s := E32.setX 3 0x7FFFFFFF
    let t := after (.imul3 (h32 3) .w32 (g 0) (r 3) 2 .imm8) s
    t.x 0 = 0xFFFFFFFE ∧
      t.flags.st.cf = true ∧
      t.flags.st.of = true := by decide +kernel

theorem test_decode_cmpxchg : decode .m32 [0x0F, 0xB1, 0x0B] =
    .decoded (.cmpxchg (h32 3) .w32 (.mem ⟨.ds, some 3, none, 0, 0, false⟩) (g 1)) := by decide +kernel

/-- VA55. -/
theorem test_cmpxchg :
    let s := ((E32.setX 0 5).setX 3 0x2000).setX 1 9 |>.poke 0x2000 [7]
    let t := after (.cmpxchg (h32 3) .w32 (.mem ⟨.ds, some 3, none, 0, 0, false⟩) (g 1)) s
    t.ms.bytes 0x2000 4 = [7, 0, 0, 0] ∧
      t.x 0 = 7 ∧
      t.ms.version 2 = 1 ∧
      t.flags.st.cf = true ∧
      t.flags.st.pf = false ∧
      t.flags.st.af = true ∧
      t.flags.st.zf = false ∧
      t.flags.st.sf = true ∧
      t.flags.st.of = false := by decide +kernel

/-- VA57. -/
theorem test_cmpxchg_register :
    let s := ((E64.setX 0 0xFFFFFFFF00000005).setX 3 0x1111111100000005).setX 1 9
    let t := after (.cmpxchg (h64 3) .w32 (r 3) (g 1)) s
    t.x 3 = 9 ∧
      t.x 0 = 0xFFFFFFFF00000005 := by decide +kernel

theorem test_decode_xadd : decode .m32 [0x0F, 0xC1, 0xC0] =
    .decoded (.xadd (h32 3) .w32 (r 0) (g 0)) := by decide +kernel

/-- VA59. -/
theorem test_xadd :
    let s := E32.setX 0 3
    let t := after (.xadd (h32 3) .w32 (r 0) (g 0)) s
    t.x 0 = 6 ∧
      t.flags.st.cf = false ∧
      t.flags.st.pf = true ∧
      t.flags.st.af = false ∧
      t.flags.st.zf = false ∧
      t.flags.st.sf = false ∧
      t.flags.st.of = false := by decide +kernel

/-! ### Shifts and rotates -/

theorem test_decode_rol : decode .m32 [0xC0, 0xC0, 0x08] =
    .decoded (.rol (h32 3) .w8 (r 0) (.imm 8)) := by decide +kernel

/-- VH11. -/
theorem test_rol :
    let s := E32.setX 0 0x81
    let t := after (.rol (h32 3) .w8 (r 0) (.imm 8)) s
    t.x 0 = 0x81 ∧
      t.flags.st.cf = true := by decide +kernel

theorem test_decode_ror : decode .m32 [0xD1, 0xC8] =
    .decoded (.ror (h32 2) .w32 (r 0) .one) := by decide +kernel

/-- VH15. -/
theorem test_ror :
    let s := E32.setX 0 3
    let t := after (.ror (h32 2) .w32 (r 0) .one) s
    t.x 0 = 0x80000001 ∧
      t.flags.st.cf = true ∧
      t.flags.st.of = true := by decide +kernel

theorem test_decode_shl : decode .m32 [0xD3, 0xE0] =
    .decoded (.shl (h32 2) .w32 (r 0) .cl) := by decide +kernel

/-- VH4. -/
theorem test_shl :
    let s := (E32.setX 0 1).setX 1 0x21
    let t := after (.shl (h32 2) .w32 (r 0) .cl) s
    t.x 0 = 2 ∧
      t.flags.st.cf = false ∧
      t.flags.st.pf = false ∧
      t.flags.st.zf = false ∧
      t.flags.st.sf = false ∧
      t.flags.st.of = false := by decide +kernel

theorem test_decode_shr : decode .m32 [0x66, 0xC1, 0xE8, 0x0F] =
    .decoded (.shr ⟨.w32, false, .none, none, true, false, none, 4⟩ .w16 (r 0) (.imm 15)) := by decide +kernel

/-- VH7. -/
theorem test_shr :
    let s := E32.setX 0 0x8000
    let t := after (.shr ⟨.w32, false, .none, none, true, false, none, 4⟩ .w16 (r 0) (.imm 15)) s
    t.x 0 = 1 ∧
      t.flags.st.cf = false ∧
      t.flags.st.pf = false ∧
      t.flags.st.zf = false ∧
      t.flags.st.sf = false := by decide +kernel

theorem test_decode_sar : decode .m32 [0xC0, 0xF8, 0x09] =
    .decoded (.sar (h32 3) .w8 (r 0) (.imm 9)) := by decide +kernel

/-- VH8. -/
theorem test_sar :
    let s := E32.setX 0 0x80
    let t := after (.sar (h32 3) .w8 (r 0) (.imm 9)) s
    t.x 0 = 0xFF ∧
      t.flags.st.cf = true ∧
      t.flags.st.pf = true ∧
      t.flags.st.zf = false ∧
      t.flags.st.sf = true := by decide +kernel

/-! ### Data movement -/

theorem test_decode_mov : decode .m32 [0x66, 0xB8, 0x34, 0x12] =
    .decoded (.mov ⟨.w32, false, .none, none, true, false, none, 4⟩ (.ri .w16 (g 0) 0x1234)) := by decide +kernel

/-- VM2. -/
theorem test_mov :
    let s := E32.setX 0 0xAABBCCDD
    let t := after (.mov ⟨.w32, false, .none, none, true, false, none, 4⟩ (.ri .w16 (g 0) 0x1234)) s
    t.x 0 = 0xAABB1234 := by decide +kernel

theorem test_decode_mov_rip : decode .m64 [0xC6, 0x05, 0x0B, 0x10, 0x00, 0x00, 0x2A] =
    .decoded (.mov (h64 7) (.mi .w8 (.mem ⟨.ds, none, none, 0, 0x100B, true⟩) 0x2A)) := by decide +kernel

/-- VM14. -/
theorem test_mov_rip :
    let s := E64
    let t := after (.mov (h64 7) (.mi .w8 (.mem ⟨.ds, none, none, 0, 0x100B, true⟩) 0x2A)) s
    t.ms.byte 0x2012 = 0x2A ∧
      t.ms.version 2 = 1 := by decide +kernel

theorem test_decode_mov_bp : decode .m16 [0x8B, 0x46, 0xFE] =
    .decoded (.mov (h16 3) (.rm .w16 (g 0) (.mem ⟨.ss, some 5, none, 0, -2, false⟩))) := by decide +kernel

theorem test_decode_mov_spl : decode .m64 [0x40, 0x88, 0xE0] =
    .decoded (.mov (x64 0 3) (.mr .w8 (r 0) (g 4))) := by decide +kernel

theorem test_decode_mov_moffs : decode .m64 [0xA1, 0x88, 0x77, 0x66, 0x55, 0x44, 0x33, 0x22, 0x11] =
    .decoded (.mov (h64 9) (.fromMoffs .w32 ⟨.ds, none, none, 0, 0x1122334455667788, false⟩)) := by decide +kernel

theorem test_decode_mov_r13 : decode .m64 [0x41, 0x8B, 0x45, 0x00] =
    .decoded (.mov (x64 1 4) (.rm .w32 (g 0) (.mem ⟨.ds, some 13, none, 0, 0, false⟩))) := by decide +kernel

theorem test_decode_mov_fs : decode .m32 [0x2E, 0x64, 0x8B, 0x00] =
    .decoded (.mov ⟨.w32, false, .none, some .fs, false, false, none, 4⟩ (.rm .w32 (g 0) (.mem ⟨.fs, some 0, none, 0, 0, false⟩))) := by decide +kernel

theorem test_decode_movFromSeg : decode .m32 [0x8C, 0xD8] =
    .decoded (.movFromSeg (h32 2) .w32 (r 0) .ds) := by decide +kernel

/-- The example of R617. -/
theorem test_movFromSeg :
    let s := E32.setX 0 0xFFFFFFFF
    let t := after (.movFromSeg (h32 2) .w32 (r 0) .ds) s
    t.x 0 = 0x10 := by decide +kernel

theorem test_decode_movToSeg : decode .m32 [0x8E, 0xD8] =
    .decoded (.movToSeg (h32 2) .ds (r 0)) := by decide +kernel

/-- The example of R618. -/
theorem test_movToSeg :
    let s := gdtState.setX 0 0x10
    let t := after (.movToSeg (h32 2) .ds (r 0)) s
    t.segs.ds = ⟨0x10, 0, 0xFFFFFFFF, 0b0011, true, 0, true, false, false, true, true, false⟩ ∧
      t.ms.byte 0x1015 = 0x93 ∧
      t.ms.version 1 = 1 ∧
      t.outcome = some ⟨.blockEnd, 1, 0x1002⟩ := by decide +kernel

/-- The example of R618 beyond the table. -/
theorem test_movToSeg_limit :
    let s := gdtState.setX 0 0x18
    let t := after (.movToSeg (h32 2) .ds (r 0)) s
    t.segs = s.segs ∧
      t.outcome = some ⟨.fault ⟨13, some 0x18, none⟩, 0, 0x1000⟩ := by decide +kernel

theorem test_decode_movFromCr : decode .m32 [0x0F, 0x20, 0xD0] =
    .decoded (.movFromCr (h32 3) .w32 0 .cr2) := by decide +kernel

/-- VY20. -/
theorem test_movFromCr :
    let s := ({ E32 with cr2 := 0x5020 } : State)
    let t := after (.movFromCr (h32 3) .w32 0 .cr2) s
    t.x 0 = 0x5020 := by decide +kernel

theorem test_decode_movToCr : decode .m64 [0x0F, 0x22, 0xD8] =
    .decoded (.movToCr (h64 3) .w64 .cr3 0) := by decide +kernel

/-- VY17. -/
theorem test_movToCr :
    let s := ({ E64.setX 0 0x10000 with tlbSalt := 5 } : State)
    let t := after (.movToCr (h64 3) .w64 .cr3 0) s
    t.cr3 = 0x10000 ∧
      t.tlbSalt = 6 := by decide +kernel

/-- VY9. -/
theorem test_movToCr_refused :
    let s := E32.setX 0 0x80000000
    let t := after (.movToCr (h32 3) .w32 .cr0 0) s
    t.cr0 = s.cr0 ∧
      t.tlbSalt = 0 ∧
      t.outcome = some ⟨.fault ⟨13, some 0, none⟩, 0, 0x1000⟩ := by decide +kernel

theorem test_decode_movzx : decode .m32 [0x0F, 0xB6, 0xC3] =
    .decoded (.movzx (h32 3) .w32 (g 0) .w8 (r 3)) := by decide +kernel

/-- The example of R405. -/
theorem test_movzx :
    let s := E32.setX 3 0x123456F0
    let t := after (.movzx (h32 3) .w32 (g 0) .w8 (r 3)) s
    t.x 0 = 0xF0 := by decide +kernel

theorem test_decode_movsx : decode .m64 [0x48, 0x0F, 0xBE, 0xC3] =
    .decoded (.movsx (x64 8 4) .w64 (g 0) .w8 (r 3)) := by decide +kernel

/-- VM7. -/
theorem test_movsx :
    let s := E64.setX 3 0x80
    let t := after (.movsx (x64 8 4) .w64 (g 0) .w8 (r 3)) s
    t.x 0 = 0xFFFFFFFFFFFFFF80 := by decide +kernel

theorem test_decode_movsxd : decode .m64 [0x48, 0x63, 0xC3] =
    .decoded (.movsxd (x64 8 3) .w64 (g 0) (r 3)) := by decide +kernel

/-- The example of R407. -/
theorem test_movsxd :
    let s := E64.setX 3 0x80000000
    let t := after (.movsxd (x64 8 3) .w64 (g 0) (r 3)) s
    t.x 0 = 0xFFFFFFFF80000000 := by decide +kernel

theorem test_decode_lea : decode .m32 [0x8D, 0x44, 0x88, 0x04] =
    .decoded (.lea (h32 4) .w32 (g 0) ⟨.ds, some 0, some 1, 2, 4, false⟩) := by decide +kernel

/-- The example of R408. -/
theorem test_lea :
    let s := (E32.setX 0 0x1000).setX 1 3
    let t := after (.lea (h32 4) .w32 (g 0) ⟨.ds, some 0, some 1, 2, 4, false⟩) s
    t.x 0 = 0x1010 := by decide +kernel

theorem test_decode_xchg : decode .m32 [0x86, 0xC4] =
    .decoded (.xchg (h32 2) (.mr .w8 (.reg ⟨0, true⟩) (g 0))) := by decide +kernel

/-- VM16. -/
theorem test_xchg :
    let s := E32.setX 0 0x1234
    let t := after (.xchg (h32 2) (.mr .w8 (.reg ⟨0, true⟩) (g 0))) s
    t.x 0 = 0x3412 := by decide +kernel

theorem test_decode_xchg_r8 : decode .m64 [0x41, 0x90] =
    .decoded (.xchg (x64 1 2) (.acc .w32 (g 8))) := by decide +kernel

theorem test_decode_push : decode .m32 [0x54] =
    .decoded (.push (h32 1) (.reg .w32 (g 4))) := by decide +kernel

/-- VM29. -/
theorem test_push :
    let s := E32.setX 4 0x8000
    let t := after (.push (h32 1) (.reg .w32 (g 4))) s
    t.ms.bytes 0x7FFC 4 = [0, 0x80, 0, 0] ∧
      t.x 4 = 0x7FFC ∧
      t.ms.version 7 = 1 := by decide +kernel

theorem test_decode_pop : decode .m64 [0x8F, 0x04, 0x24] =
    .decoded (.pop (h64 3) (.rm .w64 (.mem ⟨.ss, some 4, none, 0, 0, false⟩))) := by decide +kernel

/-- VM31. -/
theorem test_pop :
    let s := (E64.setX 4 0x7FF8).poke 0x7FF8 [0xAA]
    let t := after (.pop (h64 3) (.rm .w64 (.mem ⟨.ss, some 4, none, 0, 0, false⟩))) s
    t.ms.bytes 0x8000 8 = [0xAA, 0, 0, 0, 0, 0, 0, 0] ∧
      t.x 4 = 0x8000 ∧
      t.ms.version 8 = 1 := by decide +kernel

theorem test_decode_cmovcc : decode .m64 [0x0F, 0x42, 0xC3] =
    .decoded (.cmovcc (h64 3) .b .w32 (g 0) (r 3)) := by decide +kernel

/-- VM20. -/
theorem test_cmovcc :
    let s := (E64.setX 0 0xFFFFFFFF00000001).setX 3 9
    let t := after (.cmovcc (h64 3) .b .w32 (g 0) (r 3)) s
    t.x 0 = 1 := by decide +kernel

theorem test_decode_setcc : decode .m32 [0x0F, 0x95, 0x03] =
    .decoded (.setcc (h32 3) .ne (.mem ⟨.ds, some 3, none, 0, 0, false⟩)) := by decide +kernel

/-- VM22. -/
theorem test_setcc :
    let s := (E32.setX 3 0x2000).poke 0x2000 [0xFF]
    let t := after (.setcc (h32 3) .ne (.mem ⟨.ds, some 3, none, 0, 0, false⟩)) s
    t.ms.byte 0x2000 = 1 := by decide +kernel

theorem test_decode_cbw : decode .m32 [0x66, 0x98] =
    .decoded (.cbw ⟨.w32, false, .none, none, true, false, none, 2⟩ .w16) := by decide +kernel

/-- VM23. -/
theorem test_cbw :
    let s := E32.setX 0 0x12340080
    let t := after (.cbw ⟨.w32, false, .none, none, true, false, none, 2⟩ .w16) s
    t.x 0 = 0x1234FF80 := by decide +kernel

theorem test_decode_cwd : decode .m32 [0x66, 0x99] =
    .decoded (.cwd ⟨.w32, false, .none, none, true, false, none, 2⟩ .w16) := by decide +kernel

/-- VM25. -/
theorem test_cwd :
    let s := (E32.setX 0 0x8000).setX 2 0x12340000
    let t := after (.cwd ⟨.w32, false, .none, none, true, false, none, 2⟩ .w16) s
    t.x 2 = 0x1234FFFF := by decide +kernel

theorem test_decode_sahf : decode .m32 [0x9E] =
    .decoded (.sahf (h32 1)) := by decide +kernel

/-- VM28. -/
theorem test_sahf :
    let s := E32.withFlags flags8D7
    let t := after (.sahf (h32 1)) s
    t.flags.image = 0x802 := by decide +kernel

theorem test_decode_lahf : decode .m32 [0x9F] =
    .decoded (.lahf (h32 1)) := by decide +kernel

/-- VM27. -/
theorem test_lahf :
    let s := E32.withFlags flags8D7
    let t := after (.lahf (h32 1)) s
    t.x 0 = 0xD700 := by decide +kernel

theorem test_decode_pushf : decode .m32 [0x9C] =
    .decoded (.pushf (h32 1) .w32) := by decide +kernel

/-- VM37. -/
theorem test_pushf :
    let s := (E32.setX 4 0x8000).withFlags { Flags.reset with st := ⟨false, true, false, true, false, false⟩, ie := true, rf := true }
    let t := after (.pushf (h32 1) .w32) s
    t.ms.bytes 0x7FFC 4 = [0x46, 2, 0, 0] ∧
      t.flags.image = 0x246 := by decide +kernel

theorem test_decode_popf : decode .m32 [0x9D] =
    .decoded (.popf (h32 1) .w32) := by decide +kernel

/-- VM41. -/
theorem test_popf :
    let s := (({ E32.setX 4 0x8000 with cpl := 3 } : State).withFlags { Flags.reset with ie := true, iopl := 3 })
    let t := after (.popf (h32 1) .w32) s
    t.flags.image = 0x3002 ∧
      t.outcome = some ⟨.blockEnd, 1, 0x1001⟩ := by decide +kernel

theorem test_decode_leave : decode .m32 [0xC9] =
    .decoded (.leave (h32 1) .w32) := by decide +kernel

/-- VM43. -/
theorem test_leave :
    let s := (E32.setX 5 0x7FF0).poke 0x7FF0 [0, 0x80]
    let t := after (.leave (h32 1) .w32) s
    t.x 4 = 0x7FF4 ∧
      t.x 5 = 0x8000 := by decide +kernel

/-! ### Control transfer -/

theorem test_decode_jmpRel : decode .m16 [0xEB, 0x10] =
    .decoded (.jmpRel (h16 2) .w16 .rel8 0x10) := by decide +kernel

/-- The example of R521. -/
theorem test_jmpRel :
    let s := ({ E16 with rip := 0xFFF8 } : State)
    let t := after (.jmpRel (h16 2) .w16 .rel8 0x10) s
    t.rip = 0x000A ∧
      t.outcome = some ⟨.blockEnd, 1, 0x000A⟩ := by decide +kernel

theorem test_decode_jmpInd : decode .m64 [0xFF, 0xE0] =
    .decoded (.jmpInd (h64 2) .w64 (r 0)) := by decide +kernel

/-- The example of R522. -/
theorem test_jmpInd :
    let s := E64.setX 0 0x7FFF00001000
    let t := after (.jmpInd (h64 2) .w64 (r 0)) s
    t.rip = 0x7FFF00001000 := by decide +kernel

/-- The example of R522, not canonical. -/
theorem test_jmpInd_refused :
    let s := E64.setX 0 0x800000000000
    let t := after (.jmpInd (h64 2) .w64 (r 0)) s
    t.rip = 0x1000 ∧
      t.outcome = some ⟨.fault ⟨13, some 0, none⟩, 0, 0x1000⟩ := by decide +kernel

theorem test_decode_jcc : decode .m64 [0x75, 0xFA] =
    .decoded (.jcc (h64 2) .ne .w64 .rel8 (-6)) := by decide +kernel

/-- The example of R523. -/
theorem test_jcc :
    let s := ({ E64 with rip := 0x100B } : State)
    let t := after (.jcc (h64 2) .ne .w64 .rel8 (-6)) s
    t.rip = 0x1007 := by decide +kernel

theorem test_decode_callRel : decode .m64 [0xE8, 0x10, 0x00, 0x00, 0x00] =
    .decoded (.callRel (h64 5) .w64 0x10) := by decide +kernel

/-- The example of R524. -/
theorem test_callRel :
    let s := E64.setX 4 0x8000
    let t := after (.callRel (h64 5) .w64 0x10) s
    t.ms.bytes 0x7FF8 3 = [5, 0x10, 0] ∧
      t.x 4 = 0x7FF8 ∧
      t.rip = 0x1015 := by decide +kernel

theorem test_decode_callInd : decode .m32 [0xFF, 0x14, 0x24] =
    .decoded (.callInd (h32 3) .w32 (.mem ⟨.ss, some 4, none, 0, 0, false⟩)) := by decide +kernel

/-- VC10. -/
theorem test_callInd :
    let s := (E32.setX 4 0x8000).poke 0x8000 [0, 0x30]
    let t := after (.callInd (h32 3) .w32 (.mem ⟨.ss, some 4, none, 0, 0, false⟩)) s
    t.ms.bytes 0x7FFC 4 = [3, 0x10, 0, 0] ∧
      t.x 4 = 0x7FFC ∧
      t.rip = 0x3000 := by decide +kernel

theorem test_decode_ret : decode .m32 [0x66, 0xC3] =
    .decoded (.ret ⟨.w32, false, .none, none, true, false, none, 2⟩ .w16) := by decide +kernel

/-- VC12. -/
theorem test_ret :
    let s := ({ E32.setX 4 0x7FFE with rip := 0x11000 } : State).poke 0x7FFE [0x45, 0x23]
    let t := after (.ret ⟨.w32, false, .none, none, true, false, none, 2⟩ .w16) s
    t.rip = 0x2345 ∧
      t.x 4 = 0x8000 := by decide +kernel

theorem test_decode_retImm : decode .m32 [0xC2, 0x08, 0x00] =
    .decoded (.retImm (h32 3) .w32 8) := by decide +kernel

/-- VC11. -/
theorem test_retImm :
    let s := (E32.setX 4 0x7FFC).poke 0x7FFC [0x1D, 0x10]
    let t := after (.retImm (h32 3) .w32 8) s
    t.rip = 0x101D ∧
      t.x 4 = 0x8008 := by decide +kernel

theorem test_decode_loop : decode .m32 [0xE2, 0xFE] =
    .decoded (.loop (h32 2) .w32 (-2)) := by decide +kernel

/-- VC4. -/
theorem test_loop :
    let s := E32
    let t := after (.loop (h32 2) .w32 (-2)) s
    t.x 1 = 0xFFFFFFFF ∧
      t.rip = 0x1000 := by decide +kernel

theorem test_decode_loope : decode .m32 [0xE1, 0xFE] =
    .decoded (.loope (h32 2) .w32 (-2)) := by decide +kernel

/-- The example of R529. -/
theorem test_loope :
    let s := E32.setX 1 3
    let t := after (.loope (h32 2) .w32 (-2)) s
    t.x 1 = 2 ∧
      t.rip = 0x1002 := by decide +kernel

theorem test_decode_loopne : decode .m32 [0xE0, 0xFE] =
    .decoded (.loopne (h32 2) .w32 (-2)) := by decide +kernel

/-- The example of R530. -/
theorem test_loopne :
    let s := E32.setX 1 3
    let t := after (.loopne (h32 2) .w32 (-2)) s
    t.x 1 = 2 ∧
      t.rip = 0x1000 := by decide +kernel

theorem test_decode_jrcxz : decode .m16 [0xE3, 0x02] =
    .decoded (.jrcxz (h16 2) .w16 2) := by decide +kernel

/-- VC7. -/
theorem test_jrcxz :
    let s := E16.setX 1 0x10000
    let t := after (.jrcxz (h16 2) .w16 2) s
    t.rip = 0x7C04 ∧
      t.x 1 = 0x10000 := by decide +kernel

theorem test_decode_int3 : decode .m32 [0xCC] =
    .decoded (.int3 (h32 1)) := by decide +kernel

/-- VC15. -/
theorem test_int3 :
    let s := E32
    let t := after (.int3 (h32 1)) s
    t = { s with outcome := some ⟨.softInt 3 .int3 1, 0, 0x1000⟩ } := by decide +kernel

theorem test_decode_intn : decode .m32 [0xCD, 0x80] =
    .decoded (.intn (h32 2) 0x80) := by decide +kernel

/-- VC16. -/
theorem test_intn :
    let s := E32
    let t := after (.intn (h32 2) 0x80) s
    t = { s with outcome := some ⟨.softInt 0x80 .intN 2, 0, 0x1000⟩ } := by decide +kernel

theorem test_decode_into : decode .m32 [0xCE] =
    .decoded (.into (h32 1)) := by decide +kernel

/-- VC19. -/
theorem test_into :
    let s := E32
    let t := after (.into (h32 1)) s
    t.rip = 0x1001 ∧
      t.outcome = some ⟨.blockEnd, 1, 0x1001⟩ := by decide +kernel

/-- VC18. -/
theorem test_into_taken :
    let s := E32.withFlags flags8D7
    let t := after (.into (h32 1)) s
    t.outcome = some ⟨.softInt 4 .into 1, 0, 0x1000⟩ := by decide +kernel

theorem test_decode_ud2 : decode .m64 [0x0F, 0x0B] =
    .invalid .ud2 := by decide +kernel

/-- VC21. -/
theorem test_ud2 :
    let s := E64
    let t := after (.ud2) s
    t.outcome = some ⟨.fault ⟨6, none, none⟩, 0, 0x1000⟩ := by decide +kernel

theorem test_decode_invalid : decode .m64 [0x06] =
    .invalid .invalid := by decide +kernel

/-- R345, R713. -/
theorem test_invalid :
    let s := E64
    let t := after (.invalid) s
    t.outcome = some ⟨.fault ⟨6, none, none⟩, 0, 0x1000⟩ := by decide +kernel

/-! ### Strings -/

theorem test_decode_movs : decode .m32 [0xF3, 0x66, 0xA5] =
    .decoded (.movs ⟨.w32, false, .rep, none, true, false, none, 3⟩ .w16) := by decide +kernel

/-- VT2. -/
theorem test_movs :
    let s := (((E32.setX 1 2).setX 6 0x1002).setX 7 0x2002 |>.poke 0x1000 [0xAA, 0xAA, 0xBB, 0xBB]).withFlags { Flags.reset with df := true }
    let t := after (.movs ⟨.w32, false, .rep, none, true, false, none, 3⟩ .w16) s
    t.ms.bytes 0x2000 4 = [0xAA, 0xAA, 0xBB, 0xBB] ∧
      t.x 1 = 0 ∧
      t.x 6 = 0x0FFE ∧
      t.x 7 = 0x1FFE ∧
      t.ms.version 2 = 2 ∧
      t.retired = 1 := by decide +kernel

theorem test_decode_stos : decode .m32 [0x67, 0xAA] =
    .decoded (.stos ⟨.w16, false, .none, none, false, true, none, 2⟩ .w8) := by decide +kernel

/-- VT3. -/
theorem test_stos :
    let s := (E32.setX 7 0x1234FFFF).setX 0 0x55
    let t := after (.stos ⟨.w16, false, .none, none, false, true, none, 2⟩ .w8) s
    t.ms.byte 0xFFFF = 0x55 ∧
      t.x 7 = 0x12340000 := by decide +kernel

theorem test_decode_lods : decode .m32 [0x26, 0xAC] =
    .decoded (.lods ⟨.w32, false, .none, some .es, false, false, none, 2⟩ .w8) := by decide +kernel

/-- VT8. -/
theorem test_lods :
    let s := ((E32.setX 6 0x10).setSeg .es { data32 with base := 0x10000 }).poke 0x10010 [0x42]
    let t := after (.lods ⟨.w32, false, .none, some .es, false, false, none, 2⟩ .w8) s
    t.x 0 = 0x42 ∧
      t.x 6 = 0x11 := by decide +kernel

theorem test_decode_cmps : decode .m32 [0xF3, 0xA6] =
    .decoded (.cmps ⟨.w32, false, .rep, none, false, false, none, 2⟩ .w8) := by decide +kernel

/-- The example of R565. -/
theorem test_cmps :
    let s := (((E32.setX 1 5).setX 6 0x1000).setX 7 0x2000 |>.poke 0x1000 [0x61, 0x62, 0x63]).poke 0x2000 [0x61, 0x62, 0x64]
    let t := after (.cmps ⟨.w32, false, .rep, none, false, false, none, 2⟩ .w8) s
    t.x 1 = 2 ∧
      t.x 6 = 0x1003 ∧
      t.x 7 = 0x2003 ∧
      t.flags.st.zf = false ∧
      t.flags.st.cf = true ∧
      t.flags.st.sf = true := by decide +kernel

theorem test_decode_scas : decode .m32 [0xAF] =
    .decoded (.scas (h32 1) .w32) := by decide +kernel

/-- VT7. -/
theorem test_scas :
    let s := (E32.setX 0 5).setX 7 0x2000 |>.poke 0x2000 [5]
    let t := after (.scas (h32 1) .w32) s
    t.x 7 = 0x2004 ∧
      t.x 1 = 0 ∧
      t.flags.st.cf = false ∧
      t.flags.st.pf = true ∧
      t.flags.st.af = false ∧
      t.flags.st.zf = true ∧
      t.flags.st.sf = false ∧
      t.flags.st.of = false := by decide +kernel

/-- VT5. -/
theorem test_stos_fault :
    let s := ((E64.setX 1 4).setX 7 0x1FFFFE).setX 0 0x55
    let t := after (.stos ⟨.w64, false, .rep, none, false, false, none, 2⟩ .w8) s
    t.ms.bytes 0x1FFFFE 2 = [0x55, 0x55] ∧
      t.x 1 = 2 ∧
      t.x 7 = 0x200000 ∧
      t.cr2 = 0x200000 ∧
      t.outcome = some ⟨.fault ⟨14, some 2, some 0x200000⟩, 0, 0x1000⟩ ∧
      t.ms.version 0x1FF = 2 := by decide +kernel

/-! ### System -/

theorem test_decode_nop : decode .m64 [0x90] =
    .decoded (.nop (h64 1)) := by decide +kernel

/-- VM18. -/
theorem test_nop :
    let s := E64.setX 0 0xFFFFFFFF00000001
    let t := after (.nop (h64 1)) s
    t.x 0 = 0xFFFFFFFF00000001 ∧
      t.rip = 0x1001 ∧
      t.outcome = none := by decide +kernel

theorem test_decode_pause : decode .m64 [0xF3, 0x90] =
    .decoded (.pause ⟨.w64, false, .rep, none, false, false, none, 2⟩) := by decide +kernel

/-- R601. -/
theorem test_pause :
    let s := E64
    let t := after (.pause ⟨.w64, false, .rep, none, false, false, none, 2⟩) s
    t.regs = s.regs ∧
      t.rip = 0x1002 := by decide +kernel

theorem test_decode_nopRm : decode .m64 [0x0F, 0x1F, 0x44, 0x00, 0x00] =
    .decoded (.nopRm (h64 5) .w32 (.mem ⟨.ds, some 0, some 0, 0, 0, false⟩)) := by decide +kernel

/-- The example of R601. -/
theorem test_nopRm :
    let s := E64.setX 0 0x123456789ABCDEF0
    let t := after (.nopRm (h64 5) .w32 (.mem ⟨.ds, some 0, some 0, 0, 0, false⟩)) s
    t.ms = s.ms ∧
      t.rip = 0x1005 := by decide +kernel

theorem test_decode_hlt : decode .m32 [0xF4] =
    .decoded (.hlt (h32 1)) := by decide +kernel

/-- The example of R602. -/
theorem test_hlt :
    let s := ({ E32 with rip := 0x100D } : State)
    let t := after (.hlt (h32 1)) s
    t.halted = true ∧
      t.outcome = some ⟨.halted, 1, 0x100E⟩ := by decide +kernel

theorem test_decode_cmc : decode .m32 [0xF5] =
    .decoded (.cmc (h32 1)) := by decide +kernel

/-- The example of R603. -/
theorem test_cmc :
    let s := E32.withFlags cf1
    let t := after (.cmc (h32 1)) s
    t.flags = Flags.reset := by decide +kernel

theorem test_decode_clc : decode .m32 [0xF8] =
    .decoded (.clc (h32 1)) := by decide +kernel

/-- R603. -/
theorem test_clc :
    let s := E32.withFlags flags8D7
    let t := after (.clc (h32 1)) s
    t.flags.image = 0x8D6 := by decide +kernel

theorem test_decode_stc : decode .m32 [0xF9] =
    .decoded (.stc (h32 1)) := by decide +kernel

/-- R603. -/
theorem test_stc :
    let s := E32
    let t := after (.stc (h32 1)) s
    t.flags.image = 3 := by decide +kernel

theorem test_decode_cli : decode .m32 [0xFA] =
    .decoded (.cli (h32 1)) := by decide +kernel

/-- VY1. -/
theorem test_cli :
    let s := (({ E32 with cpl := 3 } : State).withFlags { Flags.reset with ie := true, iopl := 3 })
    let t := after (.cli (h32 1)) s
    t.flags.image = 0x3002 ∧
      t.outcome = some ⟨.blockEnd, 1, 0x1001⟩ := by decide +kernel

/-- VY2. -/
theorem test_cli_refused :
    let s := (({ E32 with cpl := 3 } : State).withFlags { Flags.reset with ie := true })
    let t := after (.cli (h32 1)) s
    t.flags = s.flags ∧
      t.outcome = some ⟨.fault ⟨13, some 0, none⟩, 0, 0x1000⟩ := by decide +kernel

theorem test_decode_sti : decode .m32 [0xFB] =
    .decoded (.sti (h32 1)) := by decide +kernel

/-- VY4. -/
theorem test_sti :
    let s := E32
    let t := after (.sti (h32 1)) s
    t.flags.image = 0x202 ∧
      t.interruptShadow = true := by decide +kernel

/-- VY5. -/
theorem test_sti_again :
    let s := E32.withFlags { Flags.reset with ie := true }
    let t := after (.sti (h32 1)) s
    t.flags.image = 0x202 ∧
      t.interruptShadow = false := by decide +kernel

theorem test_decode_cld : decode .m32 [0xFC] =
    .decoded (.cld (h32 1)) := by decide +kernel

/-- R604. -/
theorem test_cld :
    let s := E32.withFlags { Flags.reset with df := true }
    let t := after (.cld (h32 1)) s
    t.flags.image = 2 := by decide +kernel

theorem test_decode_std : decode .m32 [0xFD] =
    .decoded (.std (h32 1)) := by decide +kernel

/-- R604. -/
theorem test_std :
    let s := E32
    let t := after (.std (h32 1)) s
    t.flags.image = 0x402 := by decide +kernel

theorem test_decode_lfence : decode .m32 [0x0F, 0xAE, 0xE8] =
    .decoded (.lfence (h32 3)) := by decide +kernel

/-- R605. -/
theorem test_lfence :
    let s := E32
    let t := after (.lfence (h32 3)) s
    t.ms = s.ms ∧
      t.rip = 0x1003 := by decide +kernel

theorem test_decode_mfence : decode .m32 [0x0F, 0xAE, 0xF0] =
    .decoded (.mfence (h32 3)) := by decide +kernel

/-- R605. -/
theorem test_mfence :
    let s := E32
    let t := after (.mfence (h32 3)) s
    t.ms = s.ms ∧
      t.rip = 0x1003 := by decide +kernel

theorem test_decode_sfence : decode .m32 [0x0F, 0xAE, 0xF8] =
    .decoded (.sfence (h32 3)) := by decide +kernel

/-- R605. -/
theorem test_sfence :
    let s := E32
    let t := after (.sfence (h32 3)) s
    t.ms = s.ms ∧
      t.rip = 0x1003 := by decide +kernel

theorem test_decode_lgdt : decode .m16 [0x0F, 0x01, 0x16, 0x00, 0x10] =
    .decoded (.lgdt (h16 5) .w16 ⟨.ds, none, none, 0, 0x1000, false⟩) := by decide +kernel

/-- The example of R620. -/
theorem test_lgdt :
    let s := E16.poke 0x1000 [0x17, 0, 0, 0x20, 1, 0xFF]
    let t := after (.lgdt (h16 5) .w16 ⟨.ds, none, none, 0, 0x1000, false⟩) s
    t.gdtr = ⟨0x12000, 0x17⟩ := by decide +kernel

theorem test_decode_lidt : decode .m16 [0x0F, 0x01, 0x1E, 0x00, 0x10] =
    .decoded (.lidt (h16 5) .w16 ⟨.ds, none, none, 0, 0x1000, false⟩) := by decide +kernel

/-- R621, with the operand of the example of R620. -/
theorem test_lidt :
    let s := E16.poke 0x1000 [0x17, 0, 0, 0x20, 1, 0xFF]
    let t := after (.lidt (h16 5) .w16 ⟨.ds, none, none, 0, 0x1000, false⟩) s
    t.idtr = ⟨0x12000, 0x17⟩ ∧
      t.gdtr = s.gdtr := by decide +kernel

theorem test_decode_invlpg : decode .m32 [0x0F, 0x01, 0x38] =
    .decoded (.invlpg (h32 3) ⟨.ds, some 0, none, 0, 0, false⟩) := by decide +kernel

/-- The example of R622. -/
theorem test_invlpg :
    let s := ({ E32 with tlbSalt := 3 } : State)
    let t := after (.invlpg (h32 3) ⟨.ds, some 0, none, 0, 0, false⟩) s
    t.tlbSalt = 4 := by decide +kernel

theorem test_decode_swapgs : decode .m64 [0x0F, 0x01, 0xF8] =
    .decoded (.swapgs (h64 3)) := by decide +kernel

/-- The example of R627. -/
theorem test_swapgs :
    let s := ({ E64.setSeg .gs { data32 with base := 0x1000 } with kernelGsBase := 0xFFFF800000000000 } : State)
    let t := after (.swapgs (h64 3)) s
    t.segs.gs.base = 0xFFFF800000000000 ∧
      t.kernelGsBase = 0x1000 := by decide +kernel

theorem test_decode_wrmsr : decode .m32 [0x0F, 0x30] =
    .decoded (.wrmsr (h32 2)) := by decide +kernel

/-- The example of R625. -/
theorem test_wrmsr :
    let s := (E32.setX 1 0xC0000080).setX 0 0x100
    let t := after (.wrmsr (h32 2)) s
    t.efer = 0x100 ∧
      t.tlbSalt = 1 := by decide +kernel

/-- R624: an index that is not in the map. -/
theorem test_wrmsr_refused :
    let s := (E32.setX 1 0xC0000103).setX 0 1
    let t := after (.wrmsr (h32 2)) s
    t.outcome = some ⟨.fault ⟨13, some 0, none⟩, 0, 0x1000⟩ := by decide +kernel

theorem test_decode_rdmsr : decode .m32 [0x0F, 0x32] =
    .decoded (.rdmsr (h32 2)) := by decide +kernel

/-- The example of R623. -/
theorem test_rdmsr :
    let s := ({ E32.setX 1 0xC0000080 with efer := 0xD01 } : State)
    let t := after (.rdmsr (h32 2)) s
    t.x 0 = 0xD01 ∧
      t.x 2 = 0 := by decide +kernel

theorem test_decode_cpuid : decode .m32 [0x0F, 0xA2] =
    .decoded (.cpuid (h32 2)) := by decide +kernel

/-- R628: the four registers are the configuration's. -/
theorem test_cpuid :
    let s := (E32.setX 0 7).setX 1 1
    let t := after (.cpuid (h32 2)) s
    t.x 6 = s.x 6 ∧
      t.rip = 0x1002 := by decide +kernel

/-! ### What the decoder answers without an instruction -/

theorem test_decode_lock_register : decode .m32 [0xF0, 0x01, 0xC8] =
    .invalid .invalid := by decide +kernel

theorem test_decode_lea_register : decode .m32 [0x8D, 0xC0] =
    .invalid .invalid := by decide +kernel

theorem test_decode_to_cs : decode .m32 [0x8E, 0xC8] =
    .invalid .invalid := by decide +kernel

theorem test_decode_lock_hlt : decode .m64 [0xF0, 0xF4] =
    .invalid .invalid := by decide +kernel

theorem test_decode_rdtsc : decode .m64 [0x0F, 0x31] =
    .unsupported := by decide +kernel

theorem test_decode_branch66 : decode .m64 [0x66, 0xE9, 0x00, 0x00] =
    .unsupported := by decide +kernel

theorem test_decode_f3_mov : decode .m32 [0xF3, 0x89, 0xC8] =
    .unsupported := by decide +kernel

theorem test_decode_repne_movs : decode .m32 [0xF2, 0xA4] =
    .unsupported := by decide +kernel

theorem test_decode_swapgs32 : decode .m32 [0x0F, 0x01, 0xF8] =
    .unsupported := by decide +kernel

theorem test_decode_rex_only : decode .m64 [0x48] =
    .truncated := by decide +kernel

theorem test_decode_disp_missing : decode .m32 [0x8B, 0x44, 0x24] =
    .truncated := by decide +kernel

theorem test_decode_fifteen : decode .m32 [0x66, 0x66, 0x66, 0x66, 0x66, 0x66, 0x66, 0x66, 0x66, 0x66, 0x66, 0x66, 0x66, 0x66, 0x66] =
    .tooLong := by decide +kernel

theorem test_decode_fifteen_0f : decode .m64 [0x66, 0x66, 0x66, 0x66, 0x66, 0x66, 0x66, 0x66, 0x66, 0x66, 0x66, 0x66, 0x66, 0x66, 0x0F] =
    .tooLong := by decide +kernel

/-! ### Witnesses: for every obligation with hypotheses, concrete values that meet them

`okWith x p`: the body's result `x` is `.ok a t` with `p a t`; `errWith x p` the same for a raise. -/

def okWith {α : Type} (x : EStateM.Result FaultRec State α) (p : α → State → Bool) : Bool :=
  match x with
  | .ok a t => p a t
  | .error _ _ => false

def errWith {α : Type} (x : EStateM.Result FaultRec State α) (p : FaultRec → State → Bool) : Bool :=
  match x with
  | .ok _ _ => false
  | .error f t => p f t

theorem okWith_iff {α : Type} (x : EStateM.Result FaultRec State α) (p : α → State → Bool) :
    okWith x p = true ↔ ∃ a t, x = .ok a t ∧ p a t = true := by
  cases x with
  | ok a t => exact ⟨fun h => ⟨a, t, rfl, h⟩, fun ⟨_, _, h, hp⟩ => by cases h; exact hp⟩
  | error f t => exact ⟨fun h => by simp [okWith] at h, fun ⟨_, _, h, _⟩ => by simp at h⟩

theorem errWith_iff {α : Type} (x : EStateM.Result FaultRec State α) (p : FaultRec → State → Bool) :
    errWith x p = true ↔ ∃ f t, x = .error f t ∧ p f t = true := by
  cases x with
  | ok a t => exact ⟨fun h => by simp [errWith] at h, fun ⟨_, _, h, _⟩ => by simp at h⟩
  | error f t => exact ⟨fun h => ⟨f, t, rfl, h⟩, fun ⟨_, _, h, hp⟩ => by cases h; exact hp⟩

/-- The body answers `.ok`, whatever with. -/
def okAny {α : Type} (x : EStateM.Result FaultRec State α) : Bool := okWith x fun _ _ => true

/-- The instruction ends in a next state, and `p` holds of it. -/
def nextWith (x : Host.Outcome State Fault Refusal) (p : State → Bool) : Bool :=
  match x with
  | .next t => p t
  | .fault _ | .refused _ => false

theorem nextWith_iff (x : Host.Outcome State Fault Refusal) (p : State → Bool) :
    nextWith x p = true ↔ ∃ t, x = .next t ∧ p t = true := by
  cases x with
  | next t => exact ⟨fun h => ⟨t, rfl, h⟩, fun ⟨_, h, hp⟩ => by cases h; exact hp⟩
  | fault f => exact ⟨fun h => by simp [nextWith] at h, fun ⟨_, h, _⟩ => by simp at h⟩
  | refused f => exact ⟨fun h => by simp [nextWith] at h, fun ⟨_, h, _⟩ => by simp at h⟩

/-- The last outcome is a fault with a vector. -/
def faulted (v : Nat) (t : State) : Bool :=
  match t.outcome with
  | some ⟨.fault f, _, _⟩ => f.vector == v
  | _ => false

/-- E64 at privilege level 3, its pages open to the user. -/
def U64 : State :=
  ((({ E64 with cpl := 3 } : State).poke 0x10000 [0x27]).poke 0x11000 [0x27]).poke 0x12000 [0xE7]

/-- E64 with a fourth level: page tables at `0x13000`, linear pages 2 and 3 at physical pages 5 and 6. -/
def P64 : State :=
  ((E64.poke 0x12000 [0x27, 0x30, 1]).poke 0x13010 [0x27, 0x50, 0]).poke 0x13018 [0x27, 0x60, 0]

/-- E32 with 2-level paging and NXE, PAE off: the environment of R290 with user pages. -/
def L32 : State :=
  ((({ E32 with cr0 := 0x80010011, cr3 := 0x10000, cpl := 3 } : State).poke 0x10000 [7, 0x10, 1]).poke
    0x11014 [3, 0x50, 0, 0]).poke 0x11018 [7, 0x60, 0, 0]

/-- An operand in memory at EBX (RBX), one in a register. -/
def atBx : MemOp := ⟨.ds, some 3, none, 0, 0, false⟩

theorem witness_inv : E64.Inv ∧ U64.Inv ∧ P64.Inv ∧ L32.Inv := by
  refine ⟨⟨⟨?_, ?_, ?_, ?_, ?_, ?_, ?_, ?_, ?_, ?_, ?_⟩, ?_, ?_, ?_, ?_⟩,
    ⟨⟨?_, ?_, ?_, ?_, ?_, ?_, ?_, ?_, ?_, ?_, ?_⟩, ?_, ?_, ?_, ?_⟩,
    ⟨⟨?_, ?_, ?_, ?_, ?_, ?_, ?_, ?_, ?_, ?_, ?_⟩, ?_, ?_, ?_, ?_⟩,
    ⟨⟨?_, ?_, ?_, ?_, ?_, ?_, ?_, ?_, ?_, ?_, ?_⟩, ?_, ?_, ?_, ?_⟩⟩ <;> decide +kernel

theorem witness_ResetValues : State.reset.AllRam ∧ State.reset.cfg.segChecks = false := by
  decide +kernel

theorem witness_ResetSatisfiesInv : E64.cfg.ok = true ∧ E64.ms.wf = true := by decide +kernel

/-- O4: three terms, with 0, 1 and 3 prefix bytes. -/
theorem witness_DecodeOfEncode :
    (let i := Instr.add (h32 2) (.mr .w32 (r 0) (g 3))
     i.wf .m32 = true ∧ (encode .m32 i).length = 2) ∧
    (let i := Instr.sub (x64 8 4) (.mis .w64 (r 1) 1)
     i.wf .m64 = true ∧ (encode .m64 i).length = 4) ∧
    (let i := Instr.movs ⟨.w16, false, .rep, some .fs, true, true, none, 5⟩ .w16
     i.wf .m32 = true ∧ (encode .m32 i).length = 5) := by decide +kernel

theorem witness_DecodedIsWellFormed : ∃ i, decode .m32 [0x01, 0xD8, 0x90] = .decoded i :=
  ⟨.add (h32 2) (.mr .w32 (r 0) (g 3)), by decide +kernel⟩

theorem witness_DecodingReadsItsBytesOnly :
    decode .m32 [0x01] = .truncated ∧ decode .m32 [0x01, 0xD8] ≠ .truncated ∧
    decode .m32 (List.replicate 15 0x66) = .tooLong ∧
    decode .m32 [0x01, 0xD8, 0x90] = .decoded (.add (h32 2) (.mr .w32 (r 0) (g 3))) ∧
    (Instr.add (h32 2) (.mr .w32 (r 0) (g 3))).hdr = some (h32 2) := by decide +kernel

theorem witness_OpcodeRowsAreDisjoint : ∃ i : Fin rows.length,
    rows[i].matchesOpcode .m32 Pfx.empty .m1 0x01 = true ∧ rows[i].hasModRM = true ∧
    rows[i].matchesModRM 0xD8 = true := ⟨⟨1, by decide +kernel⟩, by decide +kernel⟩

/-- The lines of R345: each at the first or the last of its values, and a neighbour that is no such value. -/
theorem witness_OpcodeRowsAreDisjoint_invalid :
    illegal .m64 [0x66] [0x06] = some (.invalid, 1) ∧ illegal .m64 [] [0xEA] = some (.invalid, 1) ∧
    illegal .m32 [] [0x06] = none ∧ illegal .m16 [] [0x0F, 0x0B] = some (.ud2, 2) ∧
    illegal .m16 [] [0x0F, 0xB9] = some (.invalid, 2) ∧ illegal .m16 [] [0x0F, 0xFF] = some (.invalid, 2) ∧
    illegal .m32 [] [0x8D, 0xC0] = some (.invalid, 2) ∧ illegal .m32 [] [0x8D, 0xBF] = none ∧
    illegal .m32 [] [0x8E, 0xC8] = some (.invalid, 2) ∧ illegal .m32 [] [0x8C, 0xF0] = some (.invalid, 2) ∧
    illegal .m32 [] [0x8C, 0xE8] = none ∧ illegal .m32 [] [0xFE, 0x10] = some (.invalid, 2) ∧
    illegal .m32 [] [0xFE, 0x08] = none ∧ illegal .m32 [] [0xFF, 0xF8] = some (.invalid, 2) ∧
    illegal .m32 [] [0x0F, 0x22, 0xC8] = some (.invalid, 3) ∧ illegal .m32 [] [0x0F, 0x22, 0xE0] = none ∧
    illegal .m64 [0x44] [0x0F, 0x20, 0xC8] = some (.invalid, 3) ∧
    illegal .m64 [0x44] [0x0F, 0x20, 0xC0] = none ∧ [(0x44 : Byte)].length + 3 ≤ 15 := by decide +kernel

/-- An illegal LOCK on a register destination and on a row that is not lockable, a legal one, one whose row is
`Unsupported`; the groups of R346; a two-byte opcode and a ModRM byte that no row matches. -/
theorem witness_OpcodeRowsAreDisjoint_lock :
    (isPrefixByte .m64 0xF0 = true ∧ isPrefixByte .m64 0x4F = true ∧ isPrefixByte .m32 0x4F = false) ∧
    (unlock [0xF0] = [0x3E] ∧ decode .m32 [0xF0, 0x01, 0xD8] = .invalid .invalid ∧
      decode .m32 [0xF0, 0x39, 0x03] = .invalid .invalid ∧ decode .m32 [0xF0, 0xCB] = .unsupported) ∧
    (lockAllowed (.add (h32 3) (.mr .w32 (.mem atBx) (g 0))) = true ∧
      lockAllowed (.add (h32 3) (.mr .w32 (r 3) (g 0))) = false ∧
      lockAllowed (.cmp (h32 3) (.mr .w32 (.mem atBx) (g 0))) = false) ∧
    (unlisted .m32 [] [0xCF] = some 1 ∧ unlisted .m16 [] [0x06] = some 1 ∧ unlisted .m64 [] [0x06] = none ∧
      unlisted .m64 [] [0x0F, 0xCF] = some 2 ∧ unlisted .m64 [] [0xD3, 0xF0] = some 2 ∧
      unlisted .m64 [0x44] [0x0F, 0x22, 0xC0] = some 3 ∧ unlisted .m64 [] [0x0F, 0x01, 0xF8] = none) ∧
    (illegal .m32 [] [0x0F, 0x10] = none ∧ decode .m32 [0x0F, 0x10] = .unsupported ∧
      illegal .m32 [] [0xF6, 0xC8] = none ∧ decode .m32 [0xF6, 0xC8] = .unsupported) := by decide +kernel

/-- A running block, and one that ended before. -/
theorem witness_StepRunsTheDecodedInstruction :
    let s := E64.poke 0x1000 [0x48, 0x83, 0xE9, 0x01]
    let i := Instr.sub (x64 8 4) (.mis .w64 (r 1) 1)
    let e : State := { s with outcome := some ⟨.blockEnd, 1, 0x1000⟩ }
    s.halted = false ∧ s.flags.vm = false ∧ s.outcome = none ∧
    decode s.decodeMode [0x48, 0x83, 0xE9, 0x01] = .decoded i ∧ i.hdr = some (x64 8 4) ∧
    okWith (fetchFrom 0 4 s) (fun b _ => b == [0x48, 0x83, 0xE9, 0x01]) = true ∧
    e.outcome.isSome = true ∧
    okWith (fetchFrom 0 4 e.beginBlock) (fun b _ => b == [0x48, 0x83, 0xE9, 0x01]) = true := by
  decide +kernel

theorem flat_E32 : E32.Flat ∧ E16.Flat := by
  refine ⟨⟨?_, ?_, ?_⟩, ⟨?_, ?_, ?_⟩⟩ <;> decide +kernel

theorem witness_StepFetchesFromMemory :
    let s := E32.poke 0x1000 [0x01, 0xD8]
    s.pagingMode = .none ∧ s.is64 = false ∧ s.cfg.segChecks = false ∧ s.cfg.nonRam = [] ∧
    s.halted = false ∧ s.flags.vm = false ∧ s.outcome = none ∧
    decode s.decodeMode [0x01, 0xD8] = .decoded (.add (h32 2) (.mr .w32 (r 0) (g 3))) ∧
    s.ms.byte ((s.segs.cs.base.toNat + (s.rip.toNat + 0) % 2 ^ 32) % 2 ^ 32) = 0x01 ∧
    s.ms.byte ((s.segs.cs.base.toNat + (s.rip.toNat + 1) % 2 ^ 32) % 2 ^ 32) = 0xD8 := by
  decide +kernel

/-- One state for each clause: halted, VM, invalid, unsupported, too long, and a fetch that raises on its
second byte (the end of the mapped memory of E64). -/
theorem witness_StepReportsWhatItCannotRun :
    (let s : State := { E32 with halted := true }
     s.halted = true ∧ s.outcome = none) ∧
    (let s := E32.withFlags { Flags.reset with vm := true }
     s.halted = false ∧ s.flags.vm = true) ∧
    (let s := E32.poke 0x1000 [0x0F, 0x0B]
     decode s.decodeMode [] = .truncated ∧ decode s.decodeMode [0x0F] = .truncated ∧
     okWith (fetchFrom 0 2 s) (fun b _ => b == [0x0F, 0x0B]) = true ∧
     decode s.decodeMode [0x0F, 0x0B] = .invalid .ud2) ∧
    (let s := E32.poke 0x1000 [0xCF]
     decode s.decodeMode [] = .truncated ∧ okWith (fetchFrom 0 1 s) (fun b _ => b == [0xCF]) = true ∧
     decode s.decodeMode [0xCF] = .unsupported) ∧
    (let bs := List.replicate 15 (0x66 : Byte)
     let s := E32.poke 0x1000 bs
     (List.range 15).all (fun k => decode s.decodeMode (bs.take k) == .truncated) = true ∧
     okWith (fetchFrom 0 15 s) (fun b _ => b == bs) = true ∧ decode s.decodeMode bs = .tooLong) ∧
    (let s := ({ E64 with rip := 0x1FFFFF } : State).poke 0x1FFFFF [0x48]
     decode s.decodeMode [] = .truncated ∧
     okWith (fetchFrom 0 1 s) (fun b t => b == [0x48] && errWith (fetchByte 1 t) (fun f _ => f.vector == 14)) =
       true ∧
     decode s.decodeMode [0x48] = .truncated) := by decide +kernel

/-- The five ends of `complete`: halted, trap, block end, limit by instructions and by bytes, none. -/
theorem witness_CompletionBookkeeping :
    (let t : State := { E32 with halted := true }
     t.halted = true) ∧
    (E32.halted = false ∧ (E32.withFlags { Flags.reset with tf := true }).flags.tf = true ∧
      E32.flags.tf = false) ∧
    (let u := complete E32 2 false false 0x1002 ({ E32 with retired := 63 } : State)
     u.cfg.maxBlockInstrs ≤ u.retired) ∧
    (let u := complete E32 2 false false 0x1002 ({ E32 with nbytes := 1008 } : State)
     u.cfg.maxBlockBytes < u.nbytes + 15) ∧
    (let u := complete E32 2 false false 0x1002 ({ E32 with nbytes := 1007 } : State)
     u.retired < u.cfg.maxBlockInstrs ∧ u.nbytes + 15 ≤ u.cfg.maxBlockBytes) := by decide +kernel

theorem witness_ExecuteBlockReturns : E64.cfg.ok = true := by decide +kernel

theorem witness_BlockSplittingDoesNotMatter :
    let t : State :=
      { E64 with
        outcome := some ⟨.limit, 7, 0x1000⟩
        retired := 7
        cfg := { E64.cfg with maxBlockInstrs := 1, maxBlockBytes := 99 } }
    E64.forget = t.forget ∧ E64 ≠ t := by decide +kernel

theorem witness_StepKeepsInv : nextWith (step (E64.poke 0x1000 [0x90])) (fun t => t.rip == 0x1001) = true := by
  decide +kernel

theorem witness_TakingAnException :
    E64.decodeMode = .m64 ∧ E32.decodeMode ≠ .m64 ∧
    FaultRec.ud.addr = none ∧ (FaultRec.gp 0).addr = none ∧ FaultRec.de.addr = none := by decide +kernel

/-- A fault, one without paging, and a repeated one. -/
theorem witness_FaultsArePrecise :
    (nextWith (exec (.jmpInd (h64 2) .w64 (r 0)) (E64.setX 0 0x800000000000)) (faulted 13) = true ∧
      repeats (.jmpInd (h64 2) .w64 (r 0)) = false) ∧
    (E32.pagingMode = .none ∧ nextWith (exec (.div (h32 2) .w32 (r 3)) E32) (faulted 0) = true ∧
      repeats (.div (h32 2) .w32 (r 3)) = false) ∧
    nextWith (exec (.stos ⟨.w64, false, .rep, none, false, false, none, 2⟩ .w8)
      ((E64.setX 1 4).setX 7 0x1FFFFE)) (faulted 14) = true := by decide +kernel

/-- E32 with the segment checks on. -/
def S32 : State := { E32 with cfg := { E32.cfg with segChecks := true } }

/-- An expand-down data segment with offsets above `0xFFF` only. -/
def down32 : SegReg := ⟨0x10, 0, 0xFFF, 0b0111, true, 0, true, false, false, true, true, false⟩

/-- Steps that fault; accesses and fetches refused and not refused, by the limit (upward and downward), the
type and the canonical check, each at its boundary. -/
theorem witness_FaultRecords :
    (nextWith (step (E32.poke 0x1000 [0xF7, 0xF3])) (faulted 0) = true ∧
      nextWith (step (E64.poke 0x1000 [0x0F, 0x0B])) (faulted 6) = true ∧
      nextWith (step ({ E64 with rip := 0x200000 } : State)) (faulted 14) = true) ∧
    (data32.LimitRefuses 0xFFFFFFFF 2 ∧ ¬data32.LimitRefuses 0xFFFFFFFF 1) ∧
    (down32.LimitRefuses 0xFFF 1 ∧ ¬down32.LimitRefuses 0x1000 4) ∧
    (down32.LimitRefuses 0xFFFFFFFF 2 ∧ ¬down32.LimitRefuses 0xFFFFFFFF 1) ∧
    (code32.TypeRefuses .write ∧ ¬code32.TypeRefuses .read ∧ ¬data32.TypeRefuses .write) ∧
    (SegReg.TypeRefuses { data32 with type := 1 } .write ∧
      SegReg.TypeRefuses { code32 with type := 9 } .read) ∧
    (¬S32.SegRefuses .ds 0x2000 4 .write ∧ ¬S32.CanonRefuses (S32.lin .ds 0x2000) 4) ∧
    (S32.SegRefuses .cs 0x2000 4 .write ∧ S32.SegRefuses .ss 0xFFFFFFFF 2 .read) ∧
    (E64.CanonRefuses 0x7FFFFFFFFFFF 2 ∧ ¬E64.CanonRefuses 0x7FFFFFFFFFFF 1) ∧
    (E64.CanonRefuses 0xFFFF7FFFFFFFFFFF 2 ∧ ¬E64.CanonRefuses 0xFFFF800000000000 8) ∧
    (let s : State := { E16 with rip := 0xFFFF, cfg := S32.cfg }
     errWith (fetchByte 1 s) (fun f _ => f == ⟨13, some 0, none⟩) = true ∧ okAny (fetchByte 0 s) = true) ∧
    (let s : State := { S32 with segs := { S32.segs with cs := down32 } }
     errWith (fetchByte 0 ({ s with rip := 0xFFF } : State)) (fun f _ => f == ⟨13, some 0, none⟩) = true ∧
     okAny (fetchByte 0 s) = true) ∧
    (let s : State := { E64 with rip := 0x7FFFFFFFFFFF }
     errWith (fetchByte 1 s) (fun f _ => f == ⟨13, some 0, none⟩) = true ∧
     errWith (fetchByte 0 s) (fun f _ => f.vector == 14) = true) := by
  refine ⟨?_, ?_, ?_, ?_, ?_, ?_, ?_, ?_, ?_, ?_, ?_, ?_, ?_⟩
  case refine_7 | refine_8 | refine_9 | refine_10 =>
    simp only [State.SegRefuses, State.CanonRefuses, SegReg.LimitRefuses, SegReg.TypeRefuses,
      or_and_right, exists_or, exists_eq_left]
    refine ⟨?_, ?_⟩ <;> decide +kernel
  case refine_2 | refine_3 | refine_4 => unfold SegReg.LimitRefuses; decide +kernel
  case refine_5 | refine_6 => unfold SegReg.TypeRefuses; decide +kernel
  all_goals decide +kernel

/-- What the body of one element of a string operation leaves. -/
def elementAfter (o : StringOp) (h : Hdr) (w : Width) (s : State) : State :=
  let body :=
    match o with
    | .movs => movsElem h w
    | .stos => stosElem h w
    | .lods => lodsElem h w
    | .cmps => cmpsElem h w
    | .scas => scasElem h w
  match body s with
  | .ok _ t | .error _ t => t

/-- The same with the count reduced. -/
def counted (o : StringOp) (h : Hdr) (w : Width) (s : State) : State :=
  (elementAfter o h w s).regWrite h.a rCX (s.regRead h.a rCX - 1)

/-- The check of one element done. -/
def oneDone (o : StringOp) (h : Hdr) (w : Width) (s : State) : Bool :=
  let u := elementAfter o h w s
  nextWith (exec (o.instr (elementHdr h) w) s)
      (fun t => t == complete s h.len false false (s.nextRip h.len) u) &&
    u.rip == s.rip && u.flags.rf == s.flags.rf && u.interruptShadow == s.interruptShadow &&
    u.outcome == s.outcome

theorem elementsDone_of_oneDone {o : StringOp} {h : Hdr} {w : Width} {s : State}
    (d : oneDone o h w s = true) : ElementsDone o h w 1 s (counted o h w s) := by
  simp only [oneDone, Bool.and_eq_true, beq_iff_eq, nextWith_iff] at d
  obtain ⟨⟨⟨⟨⟨t, ht, rfl⟩, hr⟩, hf⟩, hs⟩, ho⟩ := d
  exact ⟨_, ⟨_, ht, hr, hf, hs, ho, rfl⟩, .inl rfl, rfl⟩

/-- E64 and an element that faults after one that is done, for each operation; and a first one. -/
theorem witness_RepeatedStringFaultsAtAnElement :
    let h : Hdr := ⟨.w64, false, .rep, none, false, false, none, 2⟩
    let s := ((E64.setX 1 4).setX 7 0x1FFFFF).setX 6 0x1FFFFF
    h.rep ≠ .none ∧ h.a ≠ .w8 ∧ 1 < (s.regRead h.a rCX).toNat ∧
    (∀ o, ElementsDone o h .w8 1 s (counted o h .w8 s) ∧ ¬RepEnds o h (counted o h .w8 s) ∧
      nextWith (exec (o.instr (elementHdr h) .w8) (counted o h .w8 s)) (faulted 14) = true ∧
      nextWith (exec (o.instr h .w8) s) (faulted 14) = true) ∧
    (∀ o, ElementsDone o h .w16 0 s s ∧
      nextWith (exec (o.instr (elementHdr h) .w16) s) (faulted 14) = true) := by
  refine ⟨by decide, by decide, by decide +kernel, fun o => ⟨elementsDone_of_oneDone ?_, ?_, ?_, ?_⟩,
    fun o => ⟨rfl, ?_⟩⟩
  case refine_2 => unfold RepEnds; cases o <;> decide +kernel
  all_goals cases o <;> decide +kernel

theorem witness_PrivilegedInstructionsFault : ({ E32 with cpl := 1 } : State).cpl ≠ 0 ∧ U64.cpl ≠ 0 := by
  decide +kernel

theorem witness_UnprivilegedStepsKeepSystemState :
    U64.cpl ≠ 0 ∧ nextWith (step (U64.poke 0x1000 [0x90])) (fun t => t.rip == 0x1001) = true ∧
    U64.flags.iopl < U64.cpl := by decide +kernel

/-- For each clause an instruction that changes what the clause is about. -/
theorem witness_SystemStateFrame :
    let u : State := (E16.setX 0 0x1234).poke 0x1000 [0x17, 0, 0, 0x20, 1, 0xFF]
    let w : State := ({ E64 with kernelGsBase := 7 } : State)
    let m : MemOp := ⟨.ds, none, none, 0, 0x1000, false⟩
    let x (i : Word) : State := ({ E64 with cfg := { E64.cfg with msrExtra := [0x10] } } : State).setX 1 i |>.setX 0 0x801
    nextWith (exec (.lgdt (h16 5) .w16 m) u) (fun t => t.gdtr != u.gdtr) = true ∧
    nextWith (exec (.lidt (h16 5) .w16 m) u) (fun t => t.idtr != u.idtr) = true ∧
    nextWith (exec (.wrmsr (h64 2)) (x 0x10)) (fun t => t.msrExtra != []) = true ∧
    nextWith (exec (.swapgs (h64 3)) w) (fun t => t.kernelGsBase != 7 && t.segs.gs.base == 7) = true ∧
    nextWith (exec (.wrmsr (h64 2)) (x 0xC0000100)) (fun t => t.segs.fs.base == 0x801) = true ∧
    nextWith (exec (.movToSeg (h16 2) .ss (r 0)) u)
      (fun t => t.segs.ss.base == 0x12340 && t.interruptShadow) = true ∧
    nextWith (exec (.movToCr (h32 3) .w32 .cr0 0) (E32.setX 0 1))
      (fun t => t.cr0 == 0x11 && t.tlbSalt == 1) = true ∧
    nextWith (exec (.movToCr (h32 3) .w32 .cr3 0) (E32.setX 0 1)) (fun t => t.cr3 != 0) = true ∧
    nextWith (exec (.movToCr (h32 3) .w32 .cr4 0) (E32.setX 0 1)) (fun t => t.cr4 != 0) = true ∧
    nextWith (exec (.movToCr (h32 3) .w32 .cr2 0) (E32.setX 0 1)) (fun t => t.cr2 != 0) = true ∧
    nextWith (exec (.wrmsr (h32 2)) ((E32.setX 1 0xC0000080).setX 0 1))
      (fun t => t.efer == 1 && t.tlbSalt == 1) = true ∧
    nextWith (exec (.hlt (h32 1)) E32) (fun t => t.halted) = true := by decide +kernel

theorem witness_RegisterFrame :
    nextWith (exec (.add (h32 2) (.mr .w32 (r 0) (g 3))) E32) (fun _ => true) = true ∧
    (5 : RegNum) ∉ destRegs (.add (h32 2) (.mr .w32 (r 0) (g 3))) := by decide +kernel

theorem witness_FlagFrame :
    nextWith (exec (.inc (h32 1) (.short .w32 (g 0))) E32) (fun t => t.rip == 0x1001) = true ∧
    StatusFlag.cf ∉ statusWritten (.inc (h32 1) (.short .w32 (g 0))) ∧
    nextWith (exec (.popf (h32 1) .w32) ((E32.setX 4 0x8000).poke 0x8000 [0xFF, 0xFF, 0xFF]))
      (fun t => t.flags.tf && t.flags.ie && t.flags.df && t.flags.iopl == 3 && t.flags.nt && t.flags.ac &&
        t.flags.id) = true ∧
    nextWith (exec (.sti (h32 1)) E32) (fun t => t.flags.ie) = true ∧
    nextWith (exec (.std (h32 1)) E32) (fun t => t.flags.df) = true := by decide +kernel

/-- A store and an address outside it; the store's own addresses are the ones computed. A fill and a copy of
two elements, and a fill whose third element faults. -/
theorem witness_MemoryFrame :
    (let i := Instr.mov (h32 2) (.mr .w32 (.mem atBx) (g 0))
     let s := (E32.setX 3 0x2000).setX 0 0x11223344
     s.ms.wf = true ∧ nextWith (exec i s) (fun t => t.ms.byte 0x2000 == 0x44) = true ∧
     s.storesTo i = [0x2000, 0x2001, 0x2002, 0x2003] ∧ 0x2004 ∉ s.storesTo i ∧ s.pagingMode = .none) ∧
    (let h : Hdr := ⟨.w32, false, .rep, none, false, false, none, 2⟩
     let s := ((E32.setX 1 2).setX 7 0x2000).setX 6 0x3000
     s.storesTo (.stos h .w16) = [0x2000, 0x2001, 0x2002, 0x2003] ∧
     s.storesTo (.movs h .w16) = [0x2000, 0x2001, 0x2002, 0x2003]) ∧
    (let h : Hdr := ⟨.w64, false, .rep, none, false, false, none, 2⟩
     let s := (E64.setX 1 4).setX 7 0x1FFFFE
     s.storesTo (.stos h .w8) = [0x1FFFFE, 0x1FFFFF] ∧
     nextWith (exec (.stos h .w8) s) (faulted 14) = true) := by decide +kernel

theorem witness_PageVersionsFollowStores :
    let s := (E32.setX 3 0x2000).poke 0x1000 [0xC6, 0x03, 0x2A]
    nextWith (step s) (fun t => t.ms.byte 0x2000 != s.ms.byte 0x2000) = true := by decide +kernel

/-- A handle over pages 1 and 2 and a write that reaches into the second. -/
theorem witness_ExternalWritesStaleHandles :
    handleStale E32.ms [(1, 0), (2, 0)] = false ∧
    (∃ e ∈ [((2 : Nat), (0 : Nat))], ∃ k, k < 2 ∧ (0x1FFF + k) / 4096 = e.1) := by
  refine ⟨by decide +kernel, (2, 0), by simp, 1, by omega, by decide⟩

/-- Sizes 1 and 8. -/
theorem witness_FlatMemory : E32.Flat ∧ E32.AllRam ∧ E32.ms.wf = true ∧ 1 ≤ 1 ∧ 8 ≤ 8 :=
  ⟨flat_E32.1, by decide +kernel, by decide +kernel, by decide, by decide⟩

/-- Within a page and across two, with and without paging. -/
theorem witness_StoresPutTheirBytes :
    E32.AllRam ∧ E32.ms.wf = true ∧ P64.AllRam ∧ P64.ms.wf = true ∧
    okWith (translateSpan 0x2000 1 .write false E32) (fun p _ => !p.split) = true ∧
    okWith (translateSpan 0x2FFC 8 .write false E32) (fun p _ => p.split) = true ∧
    okWith (translateSpan 0x2FFC 8 .write false P64)
      (fun p _ => p.split && p.addrs 8 == [0x5FFC, 0x5FFD, 0x5FFE, 0x5FFF, 0x6000, 0x6001, 0x6002, 0x6003]) =
      true := by decide +kernel

theorem witness_ReadAfterWrite :
    P64.cfg.ok = true ∧ P64.AllRam ∧ P64.ms.wf = true ∧
    (P64.lin .ds 0x2FF8).toNat % 4096 + 8 ≤ 4096 ∧
    okWith (memWrite .ds 0x2FF8 8 0x1122334455667788 P64) (fun _ t => t.ms.byte 0x5FFF == 0x11) = true := by
  decide +kernel

theorem witness_TranslationCache :
    P64.cfg.ok = true ∧ okWith (translate 0x2345 .write false P64) (fun pa _ => pa == 0x5345) = true ∧
    P64.saltsOk = true ∧
    okWith (translate 0x2345 .write false P64)
      (fun _ t => t.saltsOk && t.tlbHit (t.tlbEntry (t.tlbIndex 0x2345)) 0x2345 .write false) = true := by
  decide +kernel

/-- Not present; a user access to a supervisor page (R290 b: error code 5); a reserved bit. -/
theorem witness_PageFaultRecord :
    let p := P64.poke 0x13017 [0x80]
    (errWith (translate 0x8000000 .execute false P64) (fun f _ => f.code == some 0) = true ∧
      pathStop (P64.path 0x8000000) = some false ∧ P64.AllRam ∧ P64.pagingMode ≠ .none ∧
      P64.tlbHit (P64.tlbEntry (P64.tlbIndex 0x8000000)) 0x8000000 .execute false = false) ∧
    (errWith (translate 0x5008 .read true L32) (fun f _ => f.code == some 5) = true ∧
      pathStop (L32.path 0x5008) = none ∧ L32.AllRam) ∧
    (errWith (translate 0x2000 .write false p) (fun f _ => f.code == some 0b1011) = true ∧
      pathStop (p.path 0x2000) = some true ∧ p.AllRam ∧ p.pagingMode ≠ .none ∧
      p.tlbHit (p.tlbEntry (p.tlbIndex 0x2000)) 0x2000 .write false = false) := by decide +kernel

/-- A read, a write by the user, a fetch with NXE. -/
theorem witness_WalksRespectPermissions :
    okWith (walk 0x6000 .read true L32) (fun w _ => w.levels.length == 2) = true ∧
    okWith (walk 0x6000 .write true L32) (fun w _ => w.w) = true ∧ L32.wp = true ∧
    okWith (walk 0x2000 .execute false ({ P64 with efer := 0xD00 } : State)) (fun w _ => w.size == 8) = true := by
  decide +kernel

/-- PAE paging: the 4 KiB page 2 and the 2 MiB page 1. -/
def A32 : State :=
  (((({ E32 with cr0 := 0x80000011, cr3 := 0x10000, cr4 := 0x20 } : State).poke
    0x10000 [1, 0x10, 1]).poke 0x11000 [7, 0x20, 1]).poke 0x11008 [0x87, 0, 0x40]).poke 0x12010 [7, 0x50]

/-- 2-level paging with PSE: the 4 KiB page 2 and the 4 MiB page 1. -/
def B32 : State :=
  ((({ E32 with cr0 := 0x80000011, cr3 := 0x10000, cr4 := 0x10 } : State).poke
    0x10000 [7, 0x10, 1]).poke 0x10004 [0x87, 0, 0x80]).poke 0x11008 [7, 0x50]

/-- The six shapes: each format with a small page and with a large one, user and writable. Then the accesses
R270 permits through other entries and those it does not: supervisor pages, read-only pages with WP clear and
set, a read-only user page, execute-disabled pages; and a system access at level 3. -/
theorem witness_FourLevelTranslation :
    let q : State := (((P64.poke 0x10000 [0x07]).poke 0x11000 [0x07]).poke 0x12000 [0x07]).poke 0x13010 [0x07]
    let l : State := (E64.poke 0x10000 [0x07]).poke 0x11000 [0x07] |>.poke 0x12000 [0xE7]
    let word (s : State) (n pa : Nat) : Nat := leNat (s.ms.bytes pa n)
    let misses (s : State) (lin : Word) : Bool := !s.tlbHit (s.tlbEntry (s.tlbIndex lin)) lin .write true
    let gives (s : State) (lin : Word) (pa : Nat) : Bool := okWith (translate lin .write true s) fun a _ => a == pa
    -- the leaf replaced, by its lowest and its highest byte
    let leaf (low top : Byte) : State := (q.poke 0x13010 [low]).poke 0x13017 [top]
    let nx (s : State) : State := { s with efer := 0xD00 }
    let wp (s : State) : State := { s with cr0 := 0x80010011 }
    let may (k : Access) (user : Bool) (s : State) : Bool := okWith (translate 0x2345 k user s) fun a _ => a == 0x5345
    (q.AllRam ∧ q.cfg.ok = true ∧ q.pagingMode = .long4 ∧ misses q 0x2345 = true ∧
      word q 8 0x10000 = 0x11007 ∧ word q 8 0x11000 = 0x12007 ∧ word q 8 0x12000 = 0x13007 ∧
      word q 8 0x13010 = 0x5007 ∧ gives q 0x2345 0x5345 = true) ∧
    (l.AllRam ∧ l.cfg.ok = true ∧ l.pagingMode = .long4 ∧ misses l 0x12345 = true ∧
      word l 8 0x10000 = 0x11007 ∧ word l 8 0x11000 = 0x12007 ∧ word l 8 0x12000 = 0xE7 ∧
      gives l 0x12345 0x12345 = true) ∧
    (A32.AllRam ∧ A32.cfg.ok = true ∧ A32.pagingMode = .pae3 ∧ misses A32 0x2345 = true ∧
      misses A32 0x212345 = true ∧ word A32 8 0x10000 = 0x11001 ∧ word A32 8 0x11000 = 0x12007 ∧
      word A32 8 0x12010 = 0x5007 ∧ word A32 8 0x11008 = 0x400087 ∧
      gives A32 0x2345 0x5345 = true ∧ gives A32 0x212345 0x412345 = true) ∧
    (B32.AllRam ∧ B32.cfg.ok = true ∧ B32.pagingMode = .legacy2 ∧ B32.pse = true ∧
      misses B32 0x2345 = true ∧ misses B32 0x412345 = true ∧ word B32 4 0x10000 = 0x11007 ∧
      word B32 4 0x11008 = 0x5007 ∧ word B32 4 0x10004 = 0x800087 ∧
      gives B32 0x2345 0x5345 = true ∧ gives B32 0x412345 0x812345 = true) ∧
    -- a supervisor page
    (may .read false (leaf 3 0) = true ∧ may .write false (leaf 3 0) = true ∧
      may .execute false (leaf 3 0) = true ∧ may .read true (leaf 3 0) = false) ∧
    -- a read-only page
    (may .write false (leaf 5 0) = true ∧ may .write false (wp (leaf 5 0)) = false ∧
      may .read false (wp (leaf 5 0)) = true ∧ may .read true (leaf 5 0) = true ∧
      may .write true (leaf 5 0) = false) ∧
    -- an execute-disabled page
    (may .read true (nx (leaf 7 0x80)) = true ∧ may .execute true (nx (leaf 7 0x80)) = false ∧
      may .execute true (nx (leaf 7 0)) = true) ∧
    (let s : State := { leaf 3 0 with cpl := 3 }
     okWith (sysRead 0x2345 4 s) (fun v _ => v == 0) = true ∧
     okAny (sysWrite 0x2345 1 7 s) = true ∧ may .read true s = false) := by
  refine ⟨?_, ?_, ?_, ?_, ?_, ?_, ?_, ?_⟩ <;> decide +kernel

/-- A walk for a write in fresh tables, one that only reads, one whose entries are all marked, tables that
refer to themselves, and a translation that the cache answers. -/
theorem witness_TranslationOnlyMarks :
    let f : State := (((P64.poke 0x10000 [0x07]).poke 0x11000 [0x07]).poke 0x12000 [0x07]).poke 0x13010 [0x07]
    let self : State := f.poke 0x10000 [0x07, 0, 1]
    let misses (s : State) (lin : Word) : Bool := !s.tlbHit (s.tlbEntry (s.tlbIndex lin)) lin .write false
    (f.ms.wf = true ∧ f.AllRam ∧ f.pagingMode ≠ .none ∧ misses f 0x2345 = true ∧
      (f.levels 0x2345).map PathEntry.addr = [0x10000, 0x11000, 0x12000, 0x13010] ∧
      okWith (translate 0x2345 .write false f) (fun _ t =>
        t.ms.byte 0x10000 == 0x27 && t.ms.byte 0x12000 == 0x27 && t.ms.byte 0x13010 == 0x67 &&
        t.ms.version 0x13 == f.ms.version 0x13 + 1 && t.ms.version 0x5 == f.ms.version 0x5) = true) ∧
    okWith (translate 0x2345 .read false f) (fun _ t => t.ms.byte 0x13010 == 0x27) = true ∧
    (let m := f.poke 0x10000 [0x27] |>.poke 0x11000 [0x27] |>.poke 0x12000 [0x27] |>.poke 0x13010 [0x67]
     okWith (translate 0x2345 .write false m) (fun _ t =>
       t.ms.mem == m.ms.mem && t.ms.pageVersion == m.ms.pageVersion) = true) ∧
    (misses self 0x345 = true ∧
      (self.levels 0x345).map PathEntry.addr = [0x10000, 0x10000, 0x10000, 0x10000] ∧
      okWith (translate 0x345 .write false self) (fun _ t => t.ms.byte 0x10000 == 0x67) = true) ∧
    okWith (translate 0x2345 .write false P64) (fun _ t => !misses t 0x2345) = true := by
  refine ⟨?_, ?_, ?_, ?_, ?_⟩ <;> decide +kernel

/-- The five forms, a register and a memory destination. -/
theorem witness_AddAndSubtract :
    (let f := AluForm.mr .w32 (.mem atBx) (g 0)
     f.wf .m32 (h32 2) true = true ∧ okAny (aluOperands (h32 2) f (E32.setX 3 0x2FFE)) = true) ∧
    (let f := AluForm.rm .w32 (g 0) (.mem atBx)
     f.wf .m32 (h32 2) true = true ∧ okAny (aluOperands (h32 2) f (E32.setX 3 0x2000)) = true) ∧
    (let f := AluForm.acc .w8 0xFF
     f.wf .m32 (h32 2) true = true ∧ okAny (aluOperands (h32 2) f E32) = true) ∧
    (let f := AluForm.mi .w64 (r 0) 0xFFFFFFFF80000000
     f.wf .m64 (x64 8 7) true = true ∧ okAny (aluOperands (x64 8 7) f E64) = true) ∧
    (let f := AluForm.mis .w32 (.mem atBx) 0xFFFFFFFF
     f.wf .m32 ⟨.w32, true, .none, none, false, false, none, 4⟩ true = true ∧
     okAny (aluOperands ⟨.w32, true, .none, none, false, false, none, 4⟩ f (E32.setX 3 0x2000)) = true) := by
  decide +kernel

theorem witness_LogicOperations :
    let f := AluForm.mr .w8 (.mem atBx) (g 0)
    f.wf .m64 (h64 2) true = true ∧ okAny (aluOperands (h64 2) f (E64.setX 3 0x1FFFFF)) = true := by
  decide +kernel

theorem witness_CmpAndTest :
    (let f := AluForm.mi .w32 (.mem atBx) 5
     f.wf .m32 (h32 6) false = true ∧ okAny (cmpOperands (h32 6) f (E32.setX 3 0x2000)) = true) ∧
    (let f := TestForm.mr .w8 (.mem atBx) (g 1)
     (Instr.test (h32 2) f).wf .m32 = true ∧ okAny (testOperands (h32 2) f (E32.setX 3 0x2000)) = true) := by
  decide +kernel

theorem witness_OneOperandArithmetic :
    okAny (destRead (h32 2) .w32 (.mem atBx) (E32.setX 3 0x2FFE)) = true ∧
    okAny (destRead (h32 2) .w8 (.reg ⟨0, true⟩) E32) = true ∧
    incOperand (.rm .w32 (.mem atBx)) = (.w32, .mem atBx) ∧
    incOperand (.short .w32 (g 0)) = (.w32, .reg (g 0)) := by decide +kernel

theorem witness_Multiply :
    okWith (readRM (h32 2) .w32 (.mem atBx) ((E32.setX 3 0x2000).poke 0x2000 [0xFF, 0xFF, 0xFF, 0xFF]))
      (fun b _ => b == 0xFFFFFFFF) = true ∧
    okWith (readRM (h32 2) .w8 (r 3) E32) (fun b _ => b == 0) = true := by decide +kernel

/-- A quotient that just fits, one that just does not, a zero divisor; signed: the most negative quotient,
and one more than the most positive. -/
theorem witness_Divide :
    (let s := (E32.setX 0 0xFFF).setX 3 0x10
     okWith (readRM (h32 2) .w8 (r 3) s) (fun d _ => s.pair .w8 == 0xFF * d.toNat + 0xF) = true) ∧
    (let s := (E32.setX 0 0x1000).setX 3 0x10
     okWith (readRM (h32 2) .w8 (r 3) s) (fun d _ => decide (d.toNat * 2 ^ 8 ≤ s.pair .w8)) = true) ∧
    okWith (readRM (h32 2) .w32 (r 3) E32) (fun d _ => d == 0) = true ∧
    (let s := (E32.setX 0 0xFF80).setX 3 1
     okWith (readRM (h32 2) .w8 (r 3) s)
       (fun d _ => signedPair .w8 (s.pair .w8) == -128 * sint .w8 d + 0) = true) ∧
    (let s := (E32.setX 0 0xFF80).setX 3 0xFF
     okWith (readRM (h32 2) .w8 (r 3) s)
       (fun d _ => signedPair .w8 (s.pair .w8) == 128 * sint .w8 d + 0) = true) := by decide +kernel

/-- Match and mismatch, in a register and in memory. -/
theorem witness_CmpxchgAndXadd :
    okWith (destRead (h32 3) .w32 (.mem atBx) (E32.setX 3 0x2000)) (fun o t => t.regRead .w32 rAX == o.1) = true ∧
    okWith (destRead (h32 3) .w32 (.mem atBx) ((E32.setX 3 0x2000).setX 0 1))
      (fun o t => t.regRead .w32 rAX != o.1) = true ∧
    okWith (destRead (h32 3) .w32 (r 3) (E32.setX 0 1)) (fun o t => t.regRead .w32 rAX != o.1) = true ∧
    okWith (destRead (h32 3) .w32 (r 3) E32) (fun o t => t.regRead .w32 rAX == o.1) = true := by decide +kernel

theorem witness_Shifts :
    okAny (destRead (h32 3) .w8 (r 0) (E32.setX 1 0x21)) = true ∧
    okAny (destRead (x64 8 3) .w64 (.mem atBx) (E64.setX 3 0x1FF8)) = true := by decide +kernel

theorem witness_Rotates :
    okAny (destRead (h32 3) .w16 (.mem atBx) (E32.setX 3 0x1FFF)) = true := by decide +kernel

theorem witness_Moves :
    okAny (destOpen (h32 2) .w32 (.mem atBx) (E32.setX 3 0x1FFE)) = true ∧
    okAny (destOpen (h32 2) .w32 (r 0) E32) = true ∧
    okAny (readRM (h32 2) .w32 (.mem atBx) (E32.setX 3 0x1FFE)) = true := by decide +kernel

theorem witness_ExtensionsAndLea :
    okAny (readRM (h32 3) .w8 (.reg ⟨3, true⟩) E32) = true ∧ okAny (readRM (h64 3) .w32 (r 3) E64) = true ∧
    2 * Width.w8.bits = Width.w16.bits ∧ 2 * Width.w32.bits = Width.w64.bits := by decide +kernel

theorem witness_ExchangesAndConditions :
    okAny (destRead (h32 2) .w32 (.mem atBx) (E32.setX 3 0x2000)) = true ∧
    okAny (readRM (h32 3) .w32 (.mem atBx) (E32.setX 3 0x2000)) = true ∧
    okAny (destOpen (h32 3) .w8 (.mem atBx) (E32.setX 3 0x2000)) = true := by decide +kernel

/-- The comparison of 4 with 5 (VA19), its flags as `SubMeans` has them. -/
theorem witness_ConditionCodes :
    let c := subFlags .w32 4 5 false Flags.reset
    SubMeans .w32 4 5 false Flags.reset c ∧ (4 : Word).toNat < 2 ^ 32 ∧ (5 : Word).toNat < 2 ^ 32 := by
  refine ⟨⟨?_, ?_, ?_, ?_, ⟨?_, ?_, ?_⟩, ?_⟩, ?_, ?_⟩ <;> decide +kernel

/-- The last clause of POP to memory with ESP as base on a 16-bit stack: the address is `sp'` (R423). -/
theorem witness_StackInstructions :
    let s := (E32.setX 4 0x8000).setX 3 0x2000
    let m : MemOp := ⟨.ss, some 4, none, 0, 0, false⟩
    let t := (E16.setX 4 0x12348000).poke 0x8000 [0x2A, 0x2B]
    okAny (openAccess .ss (s.spMinus 4) 4 .write s) = true ∧
    okWith (readRM (h32 2) .w32 (.mem atBx) s) (fun _ t => okAny (openAccess .ss (s.spMinus 4) 4 .write t)) =
      true ∧
    okWith (memRead .ss s.sp 4 s)
      (fun _ t => okAny (openAccess .ds ((s.setX 4 (s.spPlus 4)).ea (h32 2) atBx) 4 .write t)) = true ∧
    okAny (memRead .ss (s.regRead s.stackSize rBP) 4 s) = true ∧
    nextWith (exec (.pop ⟨.w32, false, .none, none, false, true, none, 5⟩ (.rm .w16 (.mem m))) t)
      (fun u => u.ms.bytes 0x8002 2 == [0x2A, 0x2B] && u.x 4 == 0x12348002) = true := by decide +kernel

/-- Taken and not taken; the counter 1 and 0; the highest canonical target and the lowest that is not; at
the CS limit and beyond it where segments are checked. -/
theorem witness_JumpsAndLoops :
    E64.branchOk (trunc .w64 (E64.nextRip 2 + (-2))) = true ∧
    E64.flags.st.cond .ne = true ∧ E64.flags.st.cond .e = false ∧
    E64.regRead .w64 rCX = 0 ∧ (E64.setX 1 1).regRead .w64 rCX ≠ 0 ∧
    trunc .w64 ((E64.setX 1 1).regRead .w64 rCX - 1) = 0 ∧ trunc .w64 (E64.regRead .w64 rCX - 1) ≠ 0 ∧
    E64.flags.st.zf = false ∧ (E64.withFlags flags8D7).flags.st.zf = true ∧
    okWith (readRM (h64 2) .w64 (r 0) (E64.setX 0 0x7FFFFFFFFFFF)) (fun v t => t.branchOk v) = true ∧
    okWith (readRM (h64 2) .w64 (r 0) (E64.setX 0 0x800000000000)) (fun v t => !t.branchOk v) = true ∧
    E64.branchOk (trunc .w64 (E64.nextRip 2 + 0x7FFFFFFFF000)) = false ∧
    (let s : State := { E64.setX 1 2 with rip := 0x7FFFFFFFFFF0 }
     let z := s.withFlags flags8D7
     s.branchOk (trunc .w64 (s.nextRip 2 + 0x7F)) = false ∧
     nextWith (exec (.loopne (h64 2) .w64 0x7F) s) (fun t => faulted 13 t && t.x 1 == 2) = true ∧
     nextWith (exec (.loope (h64 2) .w64 0x7F) z) (fun t => faulted 13 t && t.x 1 == 2) = true) ∧
    (let s : State := { E16 with cfg := { E16.cfg with segChecks := true } }
     s.branchOk 0xFFFF = true ∧ s.branchOk 0x10000 = false ∧ s.decodeMode ≠ .m64) := by decide +kernel

/-- Targets that pass their check, and targets that do not. -/
theorem witness_CallsAndReturns :
    let s := E64.setX 4 0x8000
    let b := (s.setX 0 0x800000000000).poke 0x8005 [0x80]
    (s.branchOk (trunc .w64 (s.nextRip 5 + 0x10)) = true ∧
      okAny (openAccess .ss (s.spMinus 8) 8 .write s) = true ∧
      okWith (readRM (h64 2) .w64 (r 0) s)
        (fun v t => s.branchOk v && okAny (openAccess .ss (s.spMinus 8) 8 .write t)) = true ∧
      okWith (memRead .ss s.sp 8 s) (fun v _ => s.branchOk v) = true) ∧
    (b.branchOk (trunc .w64 (b.nextRip 5 + 0x7FFFFFFFF000)) = false ∧
      okWith (readRM (h64 2) .w64 (r 0) b) (fun v _ => !b.branchOk v) = true ∧
      okWith (memRead .ss b.sp 8 b) (fun v _ => !b.branchOk v) = true) := by decide +kernel

/-- OF set and clear; INT3 behind a prefix, whose length is 1 (R532). -/
theorem witness_SoftwareInterruptsAndInvalid :
    (E32.withFlags flags8D7).flags.st.of = true ∧ E32.flags.st.of = false ∧
    nextWith (step (E32.poke 0x1000 [0x66, 0xCC]))
      (fun t => t.outcome == some ⟨.softInt 3 .int3 1, 0, 0x1000⟩) = true := by decide +kernel

theorem witness_StringElements :
    let s := (E64.setX 6 0x1FFFF8).setX 7 0x1FFFF8
    (h64 1).rep = .none ∧
    okWith (memRead .ds (s.regRead .w64 rSI) 8 s) (fun _ t =>
      okAny (openAccess .es (s.regRead .w64 rDI) 8 .write t) &&
      okAny (memRead .es (s.regRead .w64 rDI) 8 t)) = true ∧
    okAny (openAccess .es (s.regRead .w64 rDI) 8 .write s) = true ∧
    okAny (memRead .es (s.regRead .w64 rDI) 8 s) = true := by decide +kernel

/-- A count of 0; fills and copies of two words, whose last byte is the last one DI can name, upward and
downward; counts that end the repetition by the count and by the zero flag; as many bytes as the address
size has. -/
theorem witness_RepeatedStringsComplete :
    let h : Hdr := ⟨.w16, false, .rep, none, false, false, none, 2⟩
    let e : State := { E16 with segs := { E16.segs with es := { E16.segs.es with base := 0x20000 } } }
    let s := ((e.setX 1 2).setX 7 0xFFFC).setX 6 0xFFFE
    let d := s.withFlags { s.flags with df := true }
    let one := s.setX 1 1
    let src : Nat → Nat → Nat := fun k j => s.flatAddr .ds (s.indexAfter h .w16 rSI k) j
    let dst : Nat → Nat → Nat := fun k j => s.flatAddr .es (s.indexAfter h .w16 rDI k) j
    h.rep ≠ .none ∧ h.a ≠ .w8 ∧ h.a ≠ .w64 ∧ (E16.regRead .w16 rCX).toNat = 0 ∧
    s.Flat ∧ d.Flat ∧ s.AllRam ∧ s.ms.wf = true ∧ (s.regRead .w16 rCX).toNat = 2 ∧
    (dst 1 1 = 0x2FFFF ∧ d.flatAddr .es (d.indexAfter h .w16 rDI 1) 0 = 0x2FFFA) ∧
    ((s.regRead .w16 rCX).toNat * Width.w16.bytes ≤ 2 ^ h.a.bits ∧
      ((s.setX 1 0x8000).regRead .w16 rCX).toNat * Width.w16.bytes = 2 ^ h.a.bits) ∧
    (∀ k j k' j', k < (s.regRead .w16 rCX).toNat → j < Width.w16.bytes →
      k' < (s.regRead .w16 rCX).toNat → j' < Width.w16.bytes → src k j ≠ dst k' j') ∧
    (∀ o, ElementsDone o h .w16 1 one (counted o h .w16 one) ∧ (one.regRead h.a rCX).toNat = 1) ∧
    (let z := s.setX 0 1
     ElementsDone .scas h .w16 1 z (counted .scas h .w16 z) ∧ RepEnds .scas h (counted .scas h .w16 z)) := by
  intro h e s d one src dst
  refine ⟨by decide, by decide, by decide, by decide +kernel, ⟨?_, ?_, ?_⟩, ⟨?_, ?_, ?_⟩, ?_, ?_, ?_, ?_, ?_,
    ?_, fun o => ⟨elementsDone_of_oneDone ?_, ?_⟩, elementsDone_of_oneDone ?_, ?_⟩
  case refine_12 =>
    have key : ∀ k < 2, ∀ j < 2, ∀ k' < 2, ∀ j' < 2, src k j ≠ dst k' j' := by decide +kernel
    exact fun k j k' j' hk hj hk' hj' => key k hk j hj k' hk' j' hj'
  case refine_16 => unfold RepEnds; decide +kernel
  case refine_13 => cases o <;> decide +kernel
  all_goals decide +kernel

theorem witness_NoOperationsAndFlagControl :
    E32.cpl = 0 ∧ E32.cpl ≤ E32.flags.iopl ∧ E16.opMode = .real ∧
    ¬(U64.opMode = .real ∨ U64.cpl ≤ U64.flags.iopl) := by decide +kernel

/-- Accepted and refused values for each register, at the boundaries. -/
theorem witness_ControlRegisterMoves :
    E32.cpl = 0 ∧
    (let v : Word := 0x60000011
     field v 63 32 = 0 ∧ bit v 31 = false ∧ bit v 29 = true ∧ bit v 30 = true ∧ E32.pg = false) ∧
    (let s : State := { E32 with cr4 := 0x20, efer := 0x100 }
     let v : Word := 0x80000011
     bit v 31 = true ∧ bit v 0 = true ∧ s.pg = false ∧ s.lme = true ∧ s.pae = true ∧ s.segs.cs.l = false) ∧
    field (0x100000000 : Word) 63 32 ≠ 0 ∧ (bit (0x80000000 : Word) 31 = true ∧ bit (0x80000000 : Word) 0 = false) ∧
    (bit (0x20000011 : Word) 29 = true ∧ bit (0x20000011 : Word) 30 = false) ∧
    ({ E32 with efer := 0x100 } : State).pae = false ∧
    (bit (0x11 : Word) 31 = false ∧ E64.pg = true ∧ E64.decodeMode = .m64) ∧
    E32.cfg.ok = true ∧ (0xFFFFFFFFFFFFF : Word).toNat < 2 ^ E32.cfg.physBits ∧
    2 ^ E32.cfg.physBits ≤ (0x10000000000000 : Word).toNat ∧
    (0x7FF : Word).toNat < 2 ^ 11 ∧ 2 ^ 11 ≤ (0x800 : Word).toNat ∧
    (E64.lma = true ∧ bit (0 : Word) 5 = false) := by decide +kernel

/-- E32 with the descriptors of a GDT at `0x1000` and of an LDT at `0x1800`, by selector: a data segment
(`0x10`; in the LDT `0x0C`), one not accessed (`0x18`), one read-only (`0x20`), code that is readable
(`0x28`), conforming (`0x30`), execute-only (`0x38`), a data segment that is not present (`0x40`), a system
segment (`0x48`), a data segment for level 3 (`0x50`). -/
def tableState : State :=
  (({ E32 with
      gdtr := ⟨0x1000, 0x57⟩
      ldtr := ⟨0x60, 0x1800, 0x0F, 2, false, 0, true, false, false, false, false, false⟩ } : State).poke 0x1010
    ([0x93, 0x92, 0x91, 0x9B, 0x9F, 0x99, 0x13, 0x83, 0xF3].flatMap fun a : Byte =>
      [0xFF, 0xFF, 0, 0, 0, a, 0xCF, 0])).poke 0x1808 [0x34, 0x12, 0, 0, 0, 0x93, 0, 0]

/-- The last outcome is a fault with a vector and an error code. -/
def raised (v : Nat) (code : BitVec 32) (t : State) : Bool :=
  match t.outcome with
  | some ⟨.fault f, _, _⟩ => f.vector == v && f.code == some code
  | _ => false

/-- A load of `sel` from AX reads a descriptor of the table at `base` that satisfies `p`, and ends in a state
that satisfies `q`. -/
def loadsWith (s : State) (seg : SReg) (sel base : Word) (p : Word → Bool) (q : State → Bool) : Bool :=
  let u := s.setX 0 sel
  okWith (readRM (h32 2) .w16 (r 0) u) (fun v t =>
    okWith (sysRead (base + BitVec.ofNat 64 (v.toNat % 2 ^ 16 / 8 * 8)) 8 t) fun raw _ => p raw) &&
  nextWith (exec (.movToSeg (h32 2) seg (r 0)) u) q

/-- The checks of R618 for DS and SS: descriptors they accept and refuse. -/
theorem witness_SegmentMoves_descriptors :
    let s := tableState
    let one : State := { s with cpl := 1 }
    -- data, readable code, conforming code at a level above the descriptor's
    loadsWith s .ds 0x10 0x1000 (fun d => bit d 40 && bit d 47) (fun t => t.segs.ds.type == 3) = true ∧
    loadsWith s .ds 0x28 0x1000 (fun d => bit d 43 && !bit d 42 && bit d 41)
      (fun t => t.segs.ds.type == 11) = true ∧
    loadsWith one .ds 0x33 0x1000 (fun d => bit d 43 && bit d 42 && bit d 41)
      (fun t => t.segs.ds.type == 15) = true ∧
    -- an accessed bit that is clear
    loadsWith s .ds 0x18 0x1000 (fun d => !bit d 40)
      (fun t => t.segs.ds.type == 3 && t.ms.byte 0x101D == 0x93) = true ∧
    -- execute-only code, a system segment, the level of the selector, the level of the machine, not present
    loadsWith s .ds 0x38 0x1000 (fun d => bit d 43 && !bit d 41) (raised 13 0x38) = true ∧
    loadsWith s .ds 0x48 0x1000 (fun d => !bit d 44) (raised 13 0x48) = true ∧
    loadsWith s .ds 0x29 0x1000 (fun d => decide (field d 46 45 < 1)) (raised 13 0x28) = true ∧
    loadsWith one .ds 0x10 0x1000 (fun d => decide (field d 46 45 < 1)) (raised 13 0x10) = true ∧
    loadsWith s .ds 0x40 0x1000 (fun d => !bit d 47) (raised 11 0x40) = true ∧
    -- SS: accepted; read-only, code, the selector's level, the descriptor's level, not present
    loadsWith s .ss 0x10 0x1000 (fun d => bit d 41 && field d 46 45 == 0)
      (fun t => t.segs.ss.type == 3 && t.interruptShadow) = true ∧
    loadsWith s .ss 0x20 0x1000 (fun d => !bit d 41) (raised 13 0x20) = true ∧
    loadsWith s .ss 0x28 0x1000 (fun d => bit d 43) (raised 13 0x28) = true ∧
    loadsWith s .ss 0x11 0x1000 (fun d => bit d 41) (raised 13 0x10) = true ∧
    loadsWith s .ss 0x50 0x1000 (fun d => field d 46 45 == 3) (raised 13 0x50) = true ∧
    loadsWith s .ss 0x40 0x1000 (fun d => bit d 41 && !bit d 47) (raised 12 0x40) = true ∧
    -- TI = 1
    loadsWith s .ds 0x0C 0x1800 (fun d => bit d 41 && field d 15 0 == 0x1234)
      (fun t => t.segs.ds.limit == 0x1234) = true := by
  refine ⟨?_, ?_, ?_, ?_, ?_, ?_, ?_, ?_, ?_, ?_, ?_, ?_, ?_, ?_, ?_, ?_⟩ <;> decide +kernel

/-- What no descriptor decides: real mode; null selectors, SS in 64-bit mode and out of it; LDTs that cannot be
used; a descriptor beyond the GDT or the LDT by a byte; accesses to the table that raise. -/
theorem witness_SegmentMoves :
    (E16.opMode = .real ∧ okAny (readRM (h16 2) .w16 (r 0) E16) = true) ∧
    okAny (destOpen (h32 2) .w16 (.mem atBx) (E32.setX 3 0x2000)) = true ∧
    (E32.opMode ≠ .real ∧
      okWith (readRM (h32 2) .w16 (r 0) (E32.setX 0 3)) (fun v _ => decide (v.toNat % 2 ^ 16 < 4)) = true) ∧
    (let s : State := { E64 with cpl := 1 }
     okWith (readRM (h64 2) .w16 (r 0) (s.setX 0 1))
       (fun v t => t.decodeMode == .m64 && t.cpl != 3 && v.setWidth 2 == t.cpl) = true) ∧
    (nextWith (exec (.movToSeg (h32 2) .ds (r 0)) (E32.setX 0 0x0C)) (raised 13 0x0C) = true ∧
      E32.ldtr.unusable = true) ∧
    (let s : State := { tableState with ldtr := { tableState.ldtr with selector := 3 } }
     nextWith (exec (.movToSeg (h32 2) .ds (r 0)) (s.setX 0 0x0C)) (raised 13 0x0C) = true ∧
     s.ldtr.unusable = false ∧ s.ldtr.selector.toNat < 4) ∧
    (let s : State := { tableState with gdtr := ⟨0x1000, 0x56⟩ }
     nextWith (exec (.movToSeg (h32 2) .ds (r 0)) (s.setX 0 0x50)) (raised 13 0x50) = true ∧
     s.gdtr.limit.toNat < 0x50 / 8 * 8 + 7) ∧
    (let s : State := { tableState with ldtr := { tableState.ldtr with limit := 0x0E } }
     nextWith (exec (.movToSeg (h32 2) .ds (r 0)) (s.setX 0 0x0C)) (raised 13 0x0C) = true ∧
     s.ldtr.limit.toNat < 0x0C / 8 * 8 + 7) ∧
    -- supervisor pages 7 (read-only, WP set) and 8 (not present)
    (let s : State := ({ L32 with cpl := 0, gdtr := ⟨0x7000, 0x17⟩ } : State).poke 0x1101C [1, 0x70] |>.poke
       0x7010 [0xFF, 0xFF, 0, 0, 0, 0x92, 0xCF, 0]
     okWith (sysRead 0x7010 8 s) (fun raw t => !bit raw 40 && bit raw 47 &&
       errWith (sysWrite (0x7010 + 5) 1 (BitVec.ofNat 64 (field raw 47 40) ||| 1) t) (fun f _ => f.code == some 3)) =
       true ∧
     errWith (sysRead 0x8010 8 ({ s with gdtr := ⟨0x8000, 0x17⟩ } : State)) (fun f _ => f.code == some 0) = true) := by
  refine ⟨?_, ?_, ?_, ?_, ?_, ?_, ?_, ?_, ?_⟩ <;> decide +kernel

theorem witness_TablesInvlpgSwapgs :
    let s := (E32.setX 3 0x1FFE).poke 0x1FFE [0x17, 0, 0, 0x20, 1, 0xFF]
    let t := (E64.setX 3 0x1FFE).poke 0x1FFE [0x17, 0, 0, 0x20, 1, 0, 0, 0, 1]
    let q (s : State) (n : Nat) (p : Word → Bool) : Bool := okWith (memRead .ds (s.ea (h32 3) atBx) 2 s) fun _ u =>
      okWith (memRead .ds (trunc .w32 (s.ea (h32 3) atBx + 2)) n u) fun b _ => p b
    s.cpl = 0 ∧ t.cpl = 0 ∧ q s 4 (fun _ => true) = true ∧ s.decodeMode ≠ .m64 ∧ t.decodeMode = .m64 ∧
    q t 8 (fun b => !canonical b) = true ∧ q (t.poke 0x2006 [0]) 8 canonical = true := by decide +kernel

/-- Each index of the map, an extra one and one that is absent; a refused EFER value and a base that is
not canonical. -/
theorem witness_MsrsAndCpuid :
    E32.cpl = 0 ∧ (E32.setX 1 0xC0000080).x 1 = 0xC0000080 ∧
    (0x901 : Word) &&& ~~~(0xD01#64) = 0 ∧ (0x2 : Word) &&& ~~~(0xD01#64) ≠ 0 ∧ E32.pg = false ∧
    (E64.pg = true ∧ bit (0 : Word) 8 ≠ E64.lme ∧ bit (0x100 : Word) 8 = E64.lme) ∧
    canonical (0x7FFFFFFFFFFF : Word) = true ∧ canonical (0x800000000000 : Word) = false ∧
    sparseWf 0 E32.msrExtra = true ∧
    (∃ e ∈ [(0x10 : BitVec 32)], e.toNat = 0x10) ∧ ¬(∃ e ∈ E32.cfg.msrExtra, e.toNat = 0x10) := by
  refine ⟨?_, ?_, ?_, ?_, ?_, ?_, ?_, ?_, ?_, ⟨0x10, by simp, rfl⟩, fun h => by simp [E32, State.reset, State.resetOf, Config.suggested] at h⟩ <;>
    decide +kernel

/-! ### Fetching, and a word placed by the host -/

/-- The step fetches, decodes and runs (S1's `sub rcx, 1`). -/
theorem test_step :
    nextWith (step ((E64.setX 1 3).poke 0x1000 [0x48, 0x83, 0xE9, 0x01]))
      (fun t => t.x 1 == 2 && t.rip == 0x1004 && t.retired == 1 && t.nbytes == 4) = true := by decide +kernel

/-- A halted core executes nothing (R702). -/
theorem test_step_halted :
    let s : State := { E32 with halted := true }
    nextWith (step s) (fun t => t == { s with outcome := some ⟨.halted, 0, 0x1000⟩ }) = true := by
  decide +kernel

/-- `withFetchWord` on the reset state, a word of every mode and one of 64-bit mode only. -/
theorem test_withFetchWord :
    decodeTableWord 16 0x01D8 = some (.add (h16 2) (.mr .w16 (r 0) (g 3))) ∧
    nextWith (step (State.reset.withFetchWord 16 0x01D8)) (fun t => t.rip == 0xFFF2 && t.retired == 1) = true ∧
    nextWith (step (State.reset.withFetchWord 24 0x0F01F8)) (fun t => t.rip == 0x1003) = true := by
  decide +kernel

/-- The paging exemption of R290: the descriptor read passes where the user's data read faults. -/
theorem test_paging_exemption :
    okWith (sysRead 0x5008 8 L32) (fun _ t => t.ms.tlb.length == 1) = true ∧
    errWith (memRead .ds 0x5008 1 L32) (fun f _ => f == ⟨14, some 5, some 0x5008⟩) = true := by decide +kernel

/-- A page fault outside 64-bit mode reports 32 bits of a table address above 4 GiB (R812). -/
theorem test_system_address_reported :
    let s : State := ({ L32 with cpl := 0, gdtr := ⟨0x100008000, 0x17⟩ } : State).setX 0 0x10
    nextWith (exec (.movToSeg (h32 2) .ds (r 0)) s) (fun t => t.cr2 == 0x8010 && faulted 14 t) = true := by
  decide +kernel

end Sys2Proof.Tests
end

section
/-! PROOF. O31: the reads and writes of a general register, width by width (R102, R103). The values the model
computes with masks and shifts are written as concatenations of bit fields; the register a write names, and
its frame, are in `Laws/State`. -/

namespace Sys2Proof.Machine
open Sys2Proof

/-! ### Values as bit fields -/

theorem trunc_eq_extractLsb' (w : Width) (v : Word) :
    trunc w v = (v.extractLsb' 0 w.bits).setWidth 64 := by
  have le : w.bits ≤ 64 := by cases w <;> decide
  rw [trunc, BitVec.setWidth_eq_extractLsb' le]

theorem trunc_w64 (v : Word) : trunc .w64 v = v := BitVec.setWidth_eq _

theorem trunc_w8_shiftRight (v : Word) : trunc .w8 (v >>> 8) = (v.extractLsb' 8 8).setWidth 64 := by
  have byte : (v >>> 8).extractLsb' 0 8 = v.extractLsb' 8 8 := by ext i; simp
  rw [← byte]
  exact trunc_eq_extractLsb' .w8 _

theorem trunc_w8_shiftLeft (v : Word) : trunc .w8 v <<< 8 = 0#48 ++ v.extractLsb' 0 8 ++ 0#8 := by
  have fields := BitVec.setWidth_append_append_eq_shiftLeft_setWidth_or
    (w''' := 64) (b := 0#48) (b' := v.extractLsb' 0 8) (b'' := 0#8)
  have byte : trunc .w8 v = (v.extractLsb' 0 8).setWidth 64 := trunc_eq_extractLsb' .w8 v
  rw [byte]
  simpa using fields.symm

theorem word_eq_three_fields (v : Word) :
    v.extractLsb' 16 48 ++ v.extractLsb' 8 8 ++ v.extractLsb' 0 8 = v := by
  have upper : v.extractLsb' 16 48 ++ v.extractLsb' 8 8 = v.extractLsb' 8 56 :=
    BitVec.extractLsb'_append_extractLsb'_eq_extractLsb' rfl
  rw [upper]
  exact BitVec.extractLsb'_append_extractLsb' (len := 8) (w := 56)

/-! ### Replacing a field by a mask and `or` -/

theorem append_replace_low {m n : Nat} (hi : BitVec m) (lo new : BitVec n) :
    ((hi ++ lo) &&& (BitVec.allOnes m ++ 0#n)) ||| (0#m ++ new) = hi ++ new := by
  rw [BitVec.and_append, BitVec.or_append, BitVec.and_allOnes, BitVec.and_zero, BitVec.or_zero,
    BitVec.zero_or]

theorem append_replace_middle {k m n : Nat} (hi : BitVec k) (mid new : BitVec m) (lo : BitVec n) :
    ((hi ++ mid ++ lo) &&& (BitVec.allOnes k ++ 0#m ++ BitVec.allOnes n)) ||| (0#k ++ new ++ 0#n) =
      hi ++ new ++ lo := by
  rw [BitVec.and_append, BitVec.or_append, append_replace_low, BitVec.and_allOnes, BitVec.or_zero]

/-- `append_replace_low` for whole values: the low `n` bits of `old` become those of `v`. -/
theorem replace_low {m n : Nat} (old v : BitVec (m + n)) :
    (old &&& (BitVec.allOnes m ++ 0#n)) ||| (v.setWidth n).setWidth (m + n) =
      old.extractLsb' n m ++ v.extractLsb' 0 n := by
  have new : (v.setWidth n).setWidth (m + n) = 0#m ++ v.extractLsb' 0 n := by
    rw [BitVec.setWidth_eq_extractLsb' (Nat.le_add_left n m)]
    ext i
    simp [BitVec.getElem_append]
  rw [new, ← append_replace_low (old.extractLsb' n m) (old.extractLsb' 0 n),
    BitVec.extractLsb'_append_extractLsb']

/-! ### What a write leaves in the register it names, by width (R103) -/

theorem mergeReg_high8 (old v : Word) :
    mergeReg .w8 true old v = old.extractLsb' 16 48 ++ v.extractLsb' 0 8 ++ old.extractLsb' 0 8 := by
  have mask : ~~~(0xFF00#64) = BitVec.allOnes 48 ++ 0#8 ++ BitVec.allOnes 8 := by decide
  rw [← append_replace_middle _ (old.extractLsb' 8 8), word_eq_three_fields, ← trunc_w8_shiftLeft, ← mask]
  rfl

theorem mergeReg_low8 (old v : Word) :
    mergeReg .w8 false old v = old.extractLsb' 8 56 ++ v.extractLsb' 0 8 := by
  have mask : ~~~(0xFF#64) = BitVec.allOnes 56 ++ 0#8 := by decide
  rw [← replace_low (m := 56) (n := 8), ← mask]
  rfl

theorem mergeReg_w16 (b : Bool) (old v : Word) :
    mergeReg .w16 b old v = old.extractLsb' 16 48 ++ v.extractLsb' 0 16 := by
  have mask : ~~~(0xFFFF#64) = BitVec.allOnes 48 ++ 0#16 := by decide
  rw [← replace_low (m := 48) (n := 16), ← mask]
  rfl

theorem mergeReg_w32 (b : Bool) (old v : Word) :
    mergeReg .w32 b old v = 0#32 ++ v.extractLsb' 0 32 :=
  (trunc_eq_extractLsb' .w32 v).trans (BitVec.setWidth_eq_append (by decide))

/-! ### What a read gives, by width (R102) -/

theorem regRead_high8 (s : State) (r : RegNum) :
    s.regRead .w8 ⟨r, true⟩ = ((s.x r).extractLsb' 8 8).setWidth 64 :=
  trunc_w8_shiftRight _

/-- Every read but that of a high byte. -/
theorem regRead_low (s : State) (w : Width) (r : Gpr) (h : w = .w8 → r.high8 = false) :
    s.regRead w r = ((s.x r.num).extractLsb' 0 w.bits).setWidth 64 := by
  rw [← trunc_eq_extractLsb']
  cases w with
  | w8 => simp [State.regRead, h rfl]
  | w16 | w32 | w64 => rfl

end Sys2Proof.Machine

open Sys2Proof Sys2Proof.Machine

/-- Settles O31: each clause is the law of one width, or the frame of the write. -/
theorem registerWriteRules : Obligations.RegisterWriteRules := by
  intro s r v
  have written (w : Width) (b : Bool) :
      (s.regWrite w ⟨r, b⟩ v).x r = mergeReg w b (s.x r) v := regWrite_x_same s w ⟨r, b⟩ v
  refine ⟨?_, ?_, ?_, ?_, ?_, regRead_high8 s r, ?_, ?_, ?_, ?_, ?_⟩
  · rw [written, mergeReg_high8]
  · rw [written, mergeReg_low8]
  · intro b; rw [written, mergeReg_w16]
  · intro b; rw [written, mergeReg_w32]
  · intro b; rw [written]; rfl
  · exact regRead_low s .w8 ⟨r, false⟩ fun _ => rfl
  · exact fun b => regRead_low s .w16 ⟨r, b⟩ nofun
  · exact fun b => regRead_low s .w32 ⟨r, b⟩ nofun
  · exact fun b => trunc_w64 (s.x r)
  · exact fun w g q h => regWrite_x_other s w g v q h
end

section
/-! PROOF. O27: which handles a write by another agent makes stale. `OnGuestWrite` raises the versions of the
pages from that of the first byte to that of the last (R232); these are the pages that hold a byte of the
write. -/

namespace Sys2Proof.Machine
open Sys2Proof

/-- The pages that hold one of the `n` bytes from `pa` up are those from the first byte's to the last byte's. -/
theorem exists_byte_in_page_iff (pa n q : Nat) :
    (∃ k, k < n ∧ (pa + k) / 4096 = q) ↔ 0 < n ∧ pa / 4096 ≤ q ∧ q ≤ (pa + n - 1) / 4096 := by
  constructor
  · rintro ⟨k, hk, rfl⟩
    omega
  · rintro ⟨hn, first, last⟩
    by_cases hq : q = pa / 4096
    · exact ⟨0, hn, hq.symm⟩
    · exact ⟨4096 * q - pa, by omega, by omega⟩

/-- R232: the version of a page after `OnGuestWrite` of `n` bytes from `pa` up. -/
theorem onGuestWrite_version (m : MemSys) (pa n q : Nat) :
    (m.onGuestWrite pa n).version q =
      m.version q + (if 0 < n ∧ pa / 4096 ≤ q ∧ q ≤ (pa + n - 1) / 4096 then 1 else 0) := by
  unfold MemSys.onGuestWrite
  split
  · next hn => rw [if_neg (by omega), Nat.add_zero]
  · next hn =>
    rw [bumpPages_version]
    have pages : (pa / 4096 ≤ q ∧ q < pa / 4096 + ((pa + n - 1) / 4096 + 1 - pa / 4096)) ↔
        (0 < n ∧ pa / 4096 ≤ q ∧ q ≤ (pa + n - 1) / 4096) := by omega
    simp only [pages]

theorem storeBytes_version (m : MemSys) (pa : Nat) (bs : List Byte) (q : Nat) :
    (m.storeBytes pa bs).version q = m.version q := by
  rw [MemSys.version, (storeBytes_pageVersion m pa bs).1, MemSys.version]

/-- R233: an external write changes the version of a page exactly if it writes a byte of it. -/
theorem externalWrite_version_ne_iff (s : State) (pa : Nat) (bs : List Byte) (q : Nat) :
    (Caller.externalWrite s pa bs).ms.version q ≠ s.ms.version q ↔
      ∃ k, k < bs.length ∧ (pa + k) / 4096 = q := by
  change ((s.ms.storeBytes pa bs).onGuestWrite pa bs.length).version q ≠ _ ↔ _
  rw [exists_byte_in_page_iff, onGuestWrite_version, storeBytes_version]
  simp

theorem handleStale_iff (m : MemSys) (snapshot : List (Nat × Nat)) :
    handleStale m snapshot = true ↔ ∃ e ∈ snapshot, m.version e.1 ≠ e.2 := by
  simp [handleStale]

/-- A handle that was current is stale exactly if the version of one of its pages has changed since. -/
theorem handleStale_iff_of_current {m : MemSys} (m' : MemSys) {snapshot : List (Nat × Nat)}
    (current : handleStale m snapshot = false) :
    handleStale m' snapshot = true ↔ ∃ e ∈ snapshot, m'.version e.1 ≠ m.version e.1 := by
  have same : ∀ e ∈ snapshot, m.version e.1 = e.2 := by simpa [handleStale] using current
  rw [handleStale_iff]
  exact exists_congr fun e => and_congr_right fun he => by rw [same e he]

end Sys2Proof.Machine

open Sys2Proof Sys2Proof.Machine

/-- Settles O27: of the pages of a handle that was current, the versions that change are those of the pages
written to. -/
theorem externalWritesStaleHandles : Obligations.ExternalWritesStaleHandles := by
  intro s pa bs snapshot current
  rw [handleStale_iff_of_current _ current]
  simp only [externalWrite_version_ne_iff]
end

section
/-! PROOF. O6: decoding reads the bytes of the instruction and no other. Each stage of the decoder, given some
bytes, either finds them too few, or the first few of them decide its answer whatever follows, and any fewer are
too few. `ReadsPrefix` says so of a parser, `Settles` of a stage; the rules that combine them come first, then
the stages, from the displacement to the prefixes. -/

namespace Sys2Proof

/-! ### Parsers decided by the bytes they consume -/

/-- What `f` reads is decided by the bytes it consumes, and any fewer are too few. -/
def ReadsPrefix {α : Type} (f : List Byte → Option (α × List Byte)) : Prop :=
  ∀ ⦃bs a rest⦄, f bs = some (a, rest) → ∃ p, bs = p ++ rest ∧ (∀ t, f (p ++ t) = some (a, t)) ∧
    ∀ k, k < p.length → f (p.take k) = none

theorem ReadsPrefix.bind {α β : Type} {f : List Byte → Option (α × List Byte)}
    {g : α → List Byte → Option (β × List Byte)} (hf : ReadsPrefix f) (hg : ∀ a, ReadsPrefix (g a)) :
    ReadsPrefix fun bs => (f bs).bind fun x => g x.1 x.2 := by
  intro bs b rest h
  obtain ⟨⟨a, mid⟩, ha, hb⟩ := Option.bind_eq_some_iff.mp h
  obtain ⟨p, rfl, p_reads, p_short⟩ := hf ha
  obtain ⟨q, rfl, q_reads, q_short⟩ := hg a hb
  refine ⟨p ++ q, (List.append_assoc p q rest).symm, fun t => ?_, fun k hk => ?_⟩
  · simp only [List.append_assoc, p_reads, q_reads, Option.bind_some]
  · by_cases inP : k < p.length
    · simp only [List.take_append_of_le_length (Nat.le_of_lt inP), p_short k inP, Option.bind_none]
    · have inQ : k - p.length < q.length := by rw [List.length_append] at hk; omega
      simp only [List.take_append, List.take_of_length_le (Nat.le_of_not_lt inP), p_reads, q_short _ inQ,
        Option.bind_some]

/-- A parser `g` that consumes what `f` consumes, and whose value depends on that of `f` alone. -/
theorem ReadsPrefix.map {α β : Type} {f : List Byte → Option (α × List Byte)}
    {g : List Byte → Option (β × List Byte)} (hf : ReadsPrefix f)
    (short : ∀ bs, f bs = none → g bs = none)
    (value : ∀ a, ∃ b, ∀ bs rest, f bs = some (a, rest) → g bs = some (b, rest)) : ReadsPrefix g := by
  intro bs b rest h
  cases hfb : f bs with
  | none => exact absurd ((short bs hfb).symm.trans h) nofun
  | some x =>
    obtain ⟨b', hb'⟩ := value x.1
    cases (hb' bs x.2 hfb).symm.trans h
    obtain ⟨p, eq, p_reads, p_short⟩ := hf hfb
    exact ⟨p, eq, fun t => hb' _ t (p_reads t), fun k hk => short _ (p_short k hk)⟩

/-- A parser that reads a first byte and goes on as that byte says. -/
theorem ReadsPrefix.of_cons {α : Type} {f : List Byte → Option (α × List Byte)} (nil : f [] = none)
    (cons : ∀ b, ReadsPrefix fun bs => f (b :: bs)) : ReadsPrefix f := by
  rintro (_ | ⟨b, bs⟩) a rest h
  · exact absurd (nil.symm.trans h) nofun
  · obtain ⟨p, rfl, p_reads, p_short⟩ := cons b h
    refine ⟨b :: p, rfl, p_reads, fun k hk => ?_⟩
    cases k with
    | zero => exact nil
    | succ k => exact p_short k (Nat.lt_of_succ_lt_succ hk)

theorem readsPrefix_takeLE (n : Nat) : ReadsPrefix (takeLE n) := by
  intro bs v rest h
  simp only [takeLE, Option.ite_none_left_eq_some, Option.some.injEq, Prod.mk.injEq] at h
  obtain ⟨long, rfl, rfl⟩ := h
  have len : (bs.take n).length = n := List.length_take_of_le (Nat.le_of_not_lt long)
  refine ⟨bs.take n, (List.take_append_drop n bs).symm, fun t => ?_, fun k hk => ?_⟩
  · have enough : ¬(bs.take n ++ t).length < n := by rw [List.length_append, len]; omega
    rw [takeLE, if_neg enough, List.take_left' len, List.drop_left' len]
  · have short : ((bs.take n).take k).length < n := by rw [List.length_take, len]; omega
    rw [takeLE, if_pos short]

/-! ### The operands -/

theorem readsPrefix_mem16 (p : Pfx) (md rm : Nat) : ReadsPrefix (mem16 p md rm) :=
  (readsPrefix_takeLE (dispLen16 md rm)).map (fun bs h => by simp only [mem16, h])
    fun _ => ⟨_, fun bs rest h => by simp only [mem16, h]; rfl⟩

theorem readsPrefix_mem32 (m : DecodeMode) (p : Pfx) (md rm : Nat) : ReadsPrefix (mem32 m p md rm) := by
  by_cases noSib : (rm != 4) = true
  · exact (readsPrefix_takeLE (dispLen md rm)).map (fun bs h => by simp only [mem32, noSib, if_true, h])
      fun _ => ⟨_, fun bs rest h => by simp only [mem32, noSib, if_true, h]; rfl⟩
  · refine .of_cons (if_neg noSib) fun sib => ?_
    exact (readsPrefix_takeLE (dispLen md (sib.toNat % 8))).map
      (fun bs h => by simp only [mem32, noSib, Bool.false_eq_true, if_false, h])
      fun _ => ⟨_, fun bs rest h => by simp only [mem32, noSib, Bool.false_eq_true, if_false, h]; rfl⟩

theorem readsPrefix_memOperand (m : DecodeMode) (a : Width) (p : Pfx) (md rm : Nat) :
    ReadsPrefix (memOperand m a p md rm) := by
  cases a with
  | w16 => exact readsPrefix_mem16 p md rm
  | w8 | w32 | w64 => exact readsPrefix_mem32 m p md rm

/-- A memory operand and the immediate after it. -/
def memAndImm (m : DecodeMode) (a : Width) (p : Pfx) (mr n : Nat) (bs : List Byte) :
    Option ((MemOp × Nat) × List Byte) :=
  (memOperand m a p (mr / 64) (mr % 8) bs).bind fun x => (takeLE n x.2).map fun y => ((x.1, y.1), y.2)

theorem readsPrefix_memAndImm (m : DecodeMode) (a : Width) (p : Pfx) (mr n : Nat) :
    ReadsPrefix (memAndImm m a p mr n) := by
  refine (readsPrefix_memOperand m a p (mr / 64) (mr % 8)).bind (g := fun mo bs =>
    (takeLE n bs).map fun y => ((mo, y.1), y.2)) fun mo => ?_
  exact (readsPrefix_takeLE n).map (fun bs h => by rw [h]; rfl)
    fun v => ⟨(mo, v), fun bs rest h => by rw [h]; rfl⟩

theorem takeLE_eq_none_of_memAndImm {m : DecodeMode} {a : Width} {p : Pfx} {mr n : Nat}
    {bs bs' : List Byte} {mo : MemOp} (h : memAndImm m a p mr n bs = none)
    (operand : memOperand m a p (mr / 64) (mr % 8) bs = some (mo, bs')) : takeLE n bs' = none := by
  simpa only [memAndImm, operand, Option.bind_some, Option.map_eq_none_iff] using h

theorem exists_of_memAndImm_eq_some {m : DecodeMode} {a : Width} {p : Pfx} {mr n : Nat}
    {bs rest : List Byte} {mo : MemOp} {v : Nat} (h : memAndImm m a p mr n bs = some ((mo, v), rest)) :
    ∃ bs', memOperand m a p (mr / 64) (mr % 8) bs = some (mo, bs') ∧ takeLE n bs' = some (v, rest) := by
  obtain ⟨⟨_, bs'⟩, operand, h⟩ := Option.bind_eq_some_iff.mp h
  obtain ⟨_, imm, eq⟩ := Option.map_eq_some_iff.mp h
  cases eq
  exact ⟨bs', operand, imm⟩

/-! ### The header of a decoded instruction -/

/-- The header of `i`, if it has one, is `hd`. -/
def Instr.HasHdr (i : Instr) (hd : Hdr) : Prop := ∀ h, i.hdr = some h → h = hd

theorem hasHdr_of_hdr {i : Instr} {hd : Hdr} (eq : i.hdr = some hd) : i.HasHdr hd :=
  fun _ h => Option.some.inj (h.symm.trans eq)

theorem hasHdr_invalid (hd : Hdr) : Instr.HasHdr .invalid hd := nofun

theorem hasHdr_withMem_iff {p : Parts} {k : MemOp → Instr} {hd : Hdr} :
    (p.withMem k).HasHdr hd ↔ ∀ mo, p.rm = .mem mo → (k mo).HasHdr hd := by
  unfold Parts.withMem
  cases p.rm with
  | mem mo =>
    refine ⟨fun h mo' eq => ?_, fun h => h mo rfl⟩
    cases eq
    exact h
  | reg r => exact iff_of_true (hasHdr_invalid hd) nofun

theorem hasHdr_buildMovFromSeg (p : Parts) : (buildMovFromSeg p).HasHdr p.h := by
  unfold buildMovFromSeg
  split
  · split <;> exact hasHdr_of_hdr rfl
  · exact hasHdr_invalid p.h

theorem hasHdr_buildMovToSeg (p : Parts) : (buildMovToSeg p).HasHdr p.h := by
  unfold buildMovToSeg
  split
  · exact hasHdr_of_hdr rfl
  · exact hasHdr_invalid p.h

theorem hasHdr_buildMovFromCr (p : Parts) : (buildMovFromCr p).HasHdr p.h := by
  unfold buildMovFromCr
  split
  · exact hasHdr_of_hdr rfl
  · exact hasHdr_invalid p.h

theorem hasHdr_buildMovToCr (p : Parts) : (buildMovToCr p).HasHdr p.h := by
  unfold buildMovToCr
  split
  · exact hasHdr_of_hdr rfl
  · exact hasHdr_invalid p.h

/-- Every row puts the header of its parts into the instruction. -/
theorem hasHdr_build {r : Row} (hr : r ∈ rows) (p : Parts) : (r.build p).HasHdr p.h := by
  revert r
  simp only [rows, rowsArith, rowsLogic, rowsUnary, rowsShift, rowsMove, rowsStack, rowsControl, rowsString,
    rowsSystem, List.forall_mem_append, List.forall_mem_cons, List.not_mem_nil, false_imp_iff, implies_true,
    and_true, true_and, hasHdr_withMem_iff, hasHdr_buildMovFromSeg, hasHdr_buildMovToSeg,
    hasHdr_buildMovFromCr, hasHdr_buildMovToCr]
  and_intros
  all_goals intros; exact hasHdr_of_hdr rfl

/-! ### The decoder on the bytes from a place on -/

/-- A final result, and when it is an instruction, one of `n` bytes. -/
def DecodeResult.Answer (res : DecodeResult) (n : Nat) : Prop :=
  match res with
  | .decoded i => ∀ h, i.hdr = some h → h.len = n
  | .invalid _ | .unsupported => True
  | .truncated | .tooLong => False

/-- A stage `g` of the decoder, `used` bytes into the instruction, finds too few bytes in `bs`, or the first
bytes `p` of `bs` decide its answer and no fewer do. The second argument of `g` is its answer to too few bytes. -/
def Settles (g : List Byte → DecodeResult → DecodeResult) (used : Nat) (bs : List Byte) : Prop :=
  (∀ s, g bs s = s) ∨ ∃ p rest res, bs = p ++ rest ∧ res.Answer (used + p.length) ∧
    (∀ t s, g (p ++ t) s = res) ∧ ∀ k s, k < p.length → g (p.take k) s = s

/-- A stage that answers without a further byte. -/
theorem Settles.const {res : DecodeResult} {used : Nat} {g : List Byte → DecodeResult → DecodeResult}
    (eq : ∀ bs s, g bs s = res) (answer : res.Answer used) (bs : List Byte) : Settles g used bs :=
  .inr ⟨[], bs, res, rfl, answer, eq, fun k _ hk => absurd hk k.not_lt_zero⟩

/-- A stage `g` that reads a first byte `b` and goes on as `g'`. -/
theorem Settles.cons {g g' : List Byte → DecodeResult → DecodeResult} {used : Nat} {b : Byte}
    {bs : List Byte} (nil : ∀ s, g [] s = s) (eq : ∀ t s, g (b :: t) s = g' t s)
    (h : Settles g' (used + 1) bs) : Settles g used (b :: bs) := by
  rcases h with short | ⟨p, rest, res, rfl, answer, reads, short⟩
  · exact .inl fun s => (eq bs s).trans (short s)
  · refine .inr ⟨b :: p, rest, res, rfl, ?_, fun t s => (eq _ s).trans (reads t s), fun k s hk => ?_⟩
    · rwa [List.length_cons, Nat.add_comm p.length, ← Nat.add_assoc]
    · cases k with
      | zero => exact nil s
      | succ k => exact (eq _ s).trans (short k s (Nat.lt_of_succ_lt_succ hk))

/-- A stage that needs what a parser reads, and answers from its value and the number of bytes it took. -/
theorem Settles.of_readsPrefix {α : Type} {f : List Byte → Option (α × List Byte)}
    {g : List Byte → DecodeResult → DecodeResult} {used : Nat} (hf : ReadsPrefix f)
    (few : ∀ bs s, f bs = none → g bs s = s)
    (value : ∀ a n, ∃ res,
      (∀ bs rest s, f bs = some (a, rest) → bs.length - rest.length = n → g bs s = res) ∧
      res.Answer (used + n)) (bs : List Byte) : Settles g used bs := by
  cases h : f bs with
  | none => exact .inl fun s => few bs s h
  | some x =>
    obtain ⟨p, eq, reads, short⟩ := hf h
    obtain ⟨res, hres, answer⟩ := value x.1 p.length
    exact .inr ⟨p, x.2, res, eq, answer, fun t s => hres _ t s (reads t) (by simp),
      fun k s hk => few _ s (short k hk)⟩

/-! ### The stages of the decoder -/

/-- R315, R316: a row ends in one of two refusals or in its instruction, whose length is in its header. -/
theorem answer_row {r : Row} (hr : r ∈ rows) {refused illegal : Prop} [Decidable refused]
    [Decidable illegal] {parts : Parts} {n : Nat} (len : parts.h.len = n) :
    DecodeResult.Answer (if refused then .unsupported else if illegal then .invalid .invalid
      else .decoded (r.build parts)) n := by
  by_cases h : refused
  · rw [if_pos h]
    trivial
  · rw [if_neg h]
    by_cases h' : illegal
    · rw [if_pos h']
      trivial
    · rw [if_neg h']
      exact fun h eq => (congrArg Hdr.len (hasHdr_build hr parts h eq)).trans len

/-- A row reads a memory operand and an immediate, or an immediate alone. -/
theorem settles_decodeRow (m : DecodeMode) (p : Pfx) {r : Row} (hr : r ∈ rows) (op mr used : Nat)
    (bs : List Byte) : Settles (decodeRow m p r op mr used) used bs := by
  cases size : opSize r.size m p.os66 p.rexW with
  | none => exact .const (res := .unsupported) (fun bs s => by simp only [decodeRow, size]) trivial bs
  | some w =>
    by_cases mem : (r.hasModRM && r.sel != .ignored && mr / 64 != 3) = true
    · refine .of_readsPrefix
        (readsPrefix_memAndImm m (addrSize m p.as67) p mr (immLen r.imm w (addrSize m p.as67)))
        (fun bs s h => ?few) (fun ⟨mo, v⟩ n => ⟨_, fun bs rest s h len => by
          obtain ⟨bs', operand, imm⟩ := exists_of_memAndImm_eq_some h
          simp only [decodeRow, size, mem, if_true, operand, imm, len]
          rfl, answer_row hr (by rfl)⟩) bs
      simp only [decodeRow, size, mem, if_true]
      cases operand : memOperand m (addrSize m p.as67) p (mr / 64) (mr % 8) bs with
      | none => rfl
      | some x => simp only [takeLE_eq_none_of_memAndImm h operand]
    · exact .of_readsPrefix (readsPrefix_takeLE (immLen r.imm w (addrSize m p.as67)))
        (fun bs s h => by simp only [decodeRow, size, mem, Bool.false_eq_true, if_false, h])
        (fun v n => ⟨_, fun bs rest s h len => by
          simp only [decodeRow, size, mem, Bool.false_eq_true, if_false, h, len]
          rfl, answer_row hr (by rfl)⟩) bs

theorem settles_decodeOpcode (m : DecodeMode) (p : Pfx) (map : OpMap) (op used : Nat) (bs : List Byte) :
    Settles (decodeOpcode m p map op used) used bs := by
  cases invalid : invalidOpcode m map op with
  | some i => exact .const (res := .invalid i) (fun bs s => by simp only [decodeOpcode, invalid]) trivial bs
  | none =>
    cases cands : rows.filter (·.matchesOpcode m p map op) with
    | nil =>
      exact .const (res := .unsupported) (fun bs s => by simp only [decodeOpcode, invalid, cands]) trivial bs
    | cons first others =>
      have inRows : ∀ r ∈ first :: others, r ∈ rows := fun r hr => (List.mem_filter.mp (cands ▸ hr)).1
      by_cases modRM : (first :: others).any Row.hasModRM = true
      · cases bs with
        | nil => exact .inl fun s => by simp only [decodeOpcode, invalid, cands, modRM, if_true]
        | cons mr bs =>
          refine .cons (g' := fun t s => decodeOpcode m p map op used (mr :: t) s)
            (fun s => by simp only [decodeOpcode, invalid, cands, modRM, if_true]) (fun _ _ => rfl) ?_
          simp only [decodeOpcode, invalid, cands, modRM, if_true]
          by_cases bad : invalidModRM map op mr.toNat (regNum p.rexR (mr.toNat / 8)) = true
          · exact .const (res := .invalid .invalid) (fun _ _ => if_pos bad) trivial bs
          · simp only [bad, Bool.false_eq_true, if_false]
            by_cases cr8 : unsupportedModRM map op (regNum p.rexR (mr.toNat / 8)) = true
            · exact .const (res := .unsupported) (fun _ _ => if_pos cr8) trivial bs
            · simp only [cr8, Bool.false_eq_true, if_false]
              cases sel : (first :: others).find? (·.matchesModRM mr.toNat) with
              | none => exact .const (res := .unsupported) (fun _ _ => rfl) trivial bs
              | some r => exact settles_decodeRow m p (inRows r (List.mem_of_find?_eq_some sel)) _ _ _ bs
      · have eq : decodeOpcode m p map op used = decodeRow m p first op 0 used := by
          funext bs s
          simp only [decodeOpcode, invalid, cands, modRM, Bool.false_eq_true, if_false]
        rw [eq]
        exact settles_decodeRow m p (inRows first List.mem_cons_self) _ _ _ bs

/-- The loop consumes the first byte and goes on with another record, or it stops there. -/
theorem scanPrefixes_cons_cases (m : DecodeMode) (p : Pfx) (b : Byte) :
    (∃ q, ∀ t, scanPrefixes m p (b :: t) = scanPrefixes m q t) ∨
      ∀ t, scanPrefixes m p (b :: t) = (p, b :: t) := by
  simp only [scanPrefixes]
  cases p.legacy m b.toNat with
  | some q => exact .inl ⟨q, fun _ => rfl⟩
  | none =>
    cases isRex m b.toNat with
    | true => exact .inl ⟨_, fun _ => rfl⟩
    | false => exact .inr fun _ => rfl

theorem scanPrefixes_length_le (m : DecodeMode) (p : Pfx) (bs : List Byte) :
    (scanPrefixes m p bs).2.length ≤ bs.length := by
  induction bs generalizing p with
  | nil => exact Nat.le_refl 0
  | cons b bs ih =>
    rcases scanPrefixes_cons_cases m p b with ⟨q, eq⟩ | eq
    · rw [eq]
      exact Nat.le_succ_of_le (ih q)
    · exact Nat.le_of_eq (congrArg (fun x => x.2.length) (eq bs))

/-- What follows the prefixes: an escape byte and the opcode, or the opcode. -/
def decodeAfterPrefixes (m : DecodeMode) (p : Pfx) (used : Nat) (bs : List Byte) (short : DecodeResult) :
    DecodeResult :=
  match bs with
  | [] => short
  | b :: rest =>
    if b.toNat == 0x0F then
      match rest with
      | [] => short
      | b2 :: rest2 =>
        if b2.toNat == 0x38 || b2.toNat == 0x3A then .unsupported
        else decodeOpcode m p .m0F b2.toNat (used + 2) rest2 short
    else decodeOpcode m p .m1 b.toNat (used + 1) rest short

/-- The decoder amid the prefixes, `used` bytes into the instruction. -/
def decodeFrom (m : DecodeMode) (p : Pfx) (used : Nat) (bs : List Byte) (short : DecodeResult) :
    DecodeResult :=
  decodeAfterPrefixes m (scanPrefixes m p bs).1 (bs.length - (scanPrefixes m p bs).2.length + used)
    (scanPrefixes m p bs).2 short

theorem decode_eq_decodeFrom (m : DecodeMode) (bytes : List Byte) :
    decode m bytes = decodeFrom m .empty 0 (bytes.take 15)
      (if 15 ≤ bytes.length then .tooLong else .truncated) := by
  have full : 15 ≤ bytes.length ↔ (bytes.take 15).length = 15 := by rw [List.length_take]; omega
  exact congrArg (decodeFrom m .empty 0 (bytes.take 15))
    (ite_congr (propext full.symm) (fun _ => rfl) fun _ => rfl)

theorem decodeFrom_prefix {m : DecodeMode} {p q : Pfx} {b : Byte}
    (eq : ∀ t, scanPrefixes m p (b :: t) = scanPrefixes m q t) (used : Nat) (bs : List Byte)
    (s : DecodeResult) : decodeFrom m p used (b :: bs) s = decodeFrom m q (used + 1) bs s := by
  have le := scanPrefixes_length_le m q bs
  have count : (b :: bs).length - (scanPrefixes m q bs).2.length + used =
      bs.length - (scanPrefixes m q bs).2.length + (used + 1) := by rw [List.length_cons]; omega
  rw [decodeFrom, eq, count, decodeFrom]

theorem decodeFrom_opcode {m : DecodeMode} {p : Pfx} {b : Byte}
    (eq : ∀ t, scanPrefixes m p (b :: t) = (p, b :: t)) (used : Nat) (bs : List Byte) (s : DecodeResult) :
    decodeFrom m p used (b :: bs) s = decodeAfterPrefixes m p used (b :: bs) s := by
  rw [decodeFrom, eq, Nat.sub_self, Nat.zero_add]

theorem settles_decodeAfterPrefixes (m : DecodeMode) (p : Pfx) (used : Nat) (b : Byte) (bs : List Byte) :
    Settles (fun t s => decodeAfterPrefixes m p used (b :: t) s) (used + 1) bs := by
  by_cases esc : (b.toNat == 0x0F) = true
  · simp only [decodeAfterPrefixes, esc, if_true]
    rcases bs with _ | ⟨op, bs⟩
    · exact .inl fun _ => rfl
    · by_cases map3 : (op.toNat == 0x38 || op.toNat == 0x3A) = true
      · exact .cons (g' := fun _ _ => .unsupported) (fun _ => rfl) (fun _ _ => if_pos map3)
          (.const (res := .unsupported) (fun _ _ => rfl) trivial bs)
      · exact .cons (fun _ => rfl) (fun _ _ => if_neg map3)
          (settles_decodeOpcode m p .m0F op.toNat (used + 2) bs)
  · have eq : (fun t s => decodeAfterPrefixes m p used (b :: t) s) =
        decodeOpcode m p .m1 b.toNat (used + 1) := funext fun _ => funext fun _ => if_neg esc
    rw [eq]
    exact settles_decodeOpcode m p .m1 b.toNat (used + 1) bs

theorem settles_decodeFrom (m : DecodeMode) (p : Pfx) (used : Nat) (bs : List Byte) :
    Settles (decodeFrom m p used) used bs := by
  induction bs generalizing p used with
  | nil => exact .inl fun _ => rfl
  | cons b bs ih =>
    rcases scanPrefixes_cons_cases m p b with ⟨q, eq⟩ | eq
    · exact .cons (fun _ => rfl) (decodeFrom_prefix eq used) (ih q (used + 1))
    · exact .cons (fun _ => rfl) (decodeFrom_opcode eq used) (settles_decodeAfterPrefixes m p used b bs)

/-- R300, R303: too few bytes were given, or the first `p` of them decide the answer, and no fewer do. -/
theorem decode_short_or_answer (m : DecodeMode) (bytes : List Byte) :
    (decode m bytes = if 15 ≤ bytes.length then .tooLong else .truncated) ∨
    ∃ p rest res, bytes = p ++ rest ∧ res.Answer p.length ∧ (∀ t, decode m (p ++ t) = res) ∧
      ∀ k, k < p.length → decode m (p.take k) = .truncated := by
  rcases settles_decodeFrom m .empty 0 (bytes.take 15) with short | ⟨p, rest, res, eq, answer, reads, short⟩
  · exact .inl ((decode_eq_decodeFrom m bytes).trans (short _))
  · have le : p.length ≤ 15 := by
      have := congrArg List.length eq
      rw [List.length_take, List.length_append] at this
      omega
    refine .inr ⟨p, rest ++ bytes.drop 15, res, ?_, Nat.zero_add p.length ▸ answer, fun t => ?_, fun k hk => ?_⟩
    · rw [← List.append_assoc, ← eq, List.take_append_drop]
    · rw [decode_eq_decodeFrom, List.take_append, List.take_of_length_le le, reads]
    · have few : ¬15 ≤ (p.take k).length := by rw [List.length_take]; omega
      rw [decode_eq_decodeFrom, if_neg few, List.take_take, Nat.min_eq_right (Nat.le_trans (Nat.le_of_lt hk) le)]
      exact short k _ hk

end Sys2Proof

open Sys2Proof Sys2Proof.Machine

/-- Settles O6: either the first of the bytes decide the answer, or the result is the one R302 gives for too
few; of 15 bytes or more, the decoder reads none that is appended. -/
theorem decodingReadsItsBytesOnly : Obligations.DecodingReadsItsBytesOnly := by
  intro m bytes more
  rcases decode_short_or_answer m bytes with short | ⟨p, rest, res, rfl, answer, reads, p_short⟩
  · by_cases full : 15 ≤ bytes.length
    · rw [if_pos full] at short
      have same : decode m (bytes ++ more) = decode m bytes := by
        have long : 15 ≤ (bytes ++ more).length := by rw [List.length_append]; omega
        rw [decode_eq_decodeFrom, decode_eq_decodeFrom, if_pos full, if_pos long,
          List.take_append_of_le_length full]
      refine ⟨fun _ => same, fun h => ?_, fun _ => full, fun i hd h _ => ?_⟩
      · exact absurd (short.symm.trans h) nofun
      · exact absurd (short.symm.trans h) nofun
    · rw [if_neg full] at short
      refine ⟨fun h => absurd short h, fun _ => Nat.lt_of_not_le full, fun h => ?_, fun i hd h _ => ?_⟩
      · exact absurd (short.symm.trans h) nofun
      · exact absurd (short.symm.trans h) nofun
  · refine ⟨fun _ => ?_, ?_, ?_, ?_⟩
    · rw [List.append_assoc, reads, reads]
    · rw [reads]
      rintro rfl
      exact answer.elim
    · rw [reads]
      rintro rfl
      exact answer.elim
    · rw [reads]
      rintro i h rfl hdr
      rw [answer h hdr, List.take_left]
      have exact_bytes := reads []
      rw [List.append_nil] at exact_bytes
      refine ⟨exact_bytes, fun k hk => ?_⟩
      rw [List.take_append_of_le_length (Nat.le_of_lt hk)]
      exact p_short k hk
end

section
/-! PROOF. O47: the extensions, LEA, CBW and CWD (R405 to R408, R412, R413). The values come first, in
numbers: truncation, sign extension, the sign bit, the effective offset; then one lemma per instruction. -/

namespace Sys2Proof.Machine
open Sys2Proof

/-! ### Truncation and sign extension in numbers -/

theorem trunc_toNat (w : Width) (v : Word) : (trunc w v).toNat = v.toNat % 2 ^ w.bits := by
  rw [trunc, BitVec.toNat_setWidth, BitVec.toNat_setWidth]
  have le : w.bits ≤ 64 := by cases w <;> decide
  exact Nat.mod_eq_of_lt (Nat.lt_of_lt_of_le (Nat.mod_lt _ (Nat.two_pow_pos _))
    (Nat.pow_le_pow_right (by decide) le))

theorem trunc_of_lt {w : Width} {v : Word} (lt : v.toNat < 2 ^ w.bits) : trunc w v = v :=
  BitVec.eq_of_toNat_eq ((trunc_toNat w v).trans (Nat.mod_eq_of_lt lt))

theorem sint_trunc (w : Width) (v : Word) : sint w (trunc w v) = sint w v := by
  have low : (trunc w v).setWidth w.bits = v.setWidth w.bits :=
    BitVec.eq_of_toNat_eq (by rw [BitVec.toNat_setWidth, trunc_toNat, Nat.mod_mod, BitVec.toNat_setWidth])
  rw [sint, low, sint]

/-- `sext` keeps the signed value (R12). -/
theorem sint_sext (w : Width) (v : Word) : sint .w64 (sext w v) = sint w v := by
  have le : w.bits ≤ 64 := by cases w <;> decide
  rw [sint, Width.bits, BitVec.setWidth_eq, sext, BitVec.toInt_signExtend_of_le le, sint]

/-- The sign bit is set exactly if the signed value is negative. -/
theorem msb_eq_decide_sint_neg (w : Width) (v : Word) : msb w v = decide (sint w v < 0) := by
  have top : (v.setWidth w.bits).msb = msb w v := by
    rw [BitVec.msb_setWidth]
    cases w <;> rfl
  rw [← top, sint, BitVec.msb_eq_toInt]

theorem regRead_gpr (s : State) (w : Width) (r : RegNum) : s.regRead w (gpr r) = trunc w (s.x r) := by
  cases w <;> rfl

/-! ### The effective offset (R330) -/

/-- A register of a memory operand, or 0 where there is none. -/
theorem regRead_or_zero_toNat (s : State) (w : Width) (r : Option RegNum) :
    ((r.map fun i => s.regRead w (gpr i)).getD 0).toNat =
      (r.map fun i => (s.x i).toNat % 2 ^ w.bits).getD 0 := by
  cases r with
  | none => rfl
  | some i => exact (congrArg BitVec.toNat (regRead_gpr s w i)).trans (trunc_toNat w _)

theorem ea_toNat (s : State) (h : Hdr) (mo : MemOp) :
    (s.ea h mo).toNat =
      ((mo.base.map fun b => (s.x b).toNat % 2 ^ h.a.bits).getD 0 +
        (mo.index.map fun x => (s.x x).toNat % 2 ^ h.a.bits).getD 0 * 2 ^ mo.scale.val +
        mo.disp.toNat + if mo.ripRel then (s.nextRip h.len).toNat else 0) % 2 ^ h.a.bits := by
  have size : 2 ^ h.a.bits ∣ 2 ^ 64 := Nat.pow_dvd_pow 2 (by cases h.a <;> decide)
  have rel : (if mo.ripRel then s.nextRip h.len else 0).toNat =
      if mo.ripRel then (s.nextRip h.len).toNat else 0 := apply_ite BitVec.toNat _ _ _
  simp only [State.ea, trunc_toNat, BitVec.toNat_add, BitVec.toNat_mul, BitVec.toNat_ofNat,
    regRead_or_zero_toNat, rel, Nat.mul_mod_mod, Nat.add_mod_mod, Nat.mod_add_mod]
  exact Nat.mod_mod_of_dvd _ size

/-! ### The instructions -/

/-- R405: the value read has no bit above the size of the source. -/
theorem exec_movzx {h : Hdr} {sw : Width} {o : RM} {s s1 : State} {v : Word} (w : Width) (r : Gpr)
    (read : readRM h sw o s = .ok v s1) :
    exec (.movzx h w r sw o) s = s.done h (s1.regWrite w r v) := by
  refine retire_ok ((bind_run_ok read).trans ?_)
  rw [trunc_of_lt (readRM_lt read), setReg_run]

/-- R406. -/
theorem exec_movsx {h : Hdr} {sw : Width} {o : RM} {s s1 : State} {v : Word} (w : Width) (r : Gpr)
    (read : readRM h sw o s = .ok v s1) :
    exec (.movsx h w r sw o) s = s.done h (s1.regWrite w r (sext sw v)) :=
  retire_ok (bind_run_ok read)

theorem movsxdSrc_eq_ite (w : Width) : movsxdSrc w = if w = .w16 then .w16 else .w32 := by
  cases w <;> rfl

/-- R407. -/
theorem exec_movsxd {h : Hdr} {w : Width} {o : RM} {s s1 : State} {v : Word} (r : Gpr)
    (read : readRM h (movsxdSrc w) o s = .ok v s1) :
    exec (.movsxd h w r o) s = s.done h (s1.regWrite w r (sext (movsxdSrc w) v)) :=
  retire_ok (bind_run_ok read)

/-- R408. -/
theorem exec_lea (h : Hdr) (w : Width) (r : Gpr) (mo : MemOp) (s : State) :
    exec (.lea h w r mo) s = s.done h (s.regWrite w r (s.ea h mo)) := rfl

theorem halfWidth_eq {w half : Width} (eq : 2 * half.bits = w.bits) : halfWidth w = half := by
  revert eq
  cases w <;> cases half <;> decide

/-- R412. -/
theorem exec_cbw (h : Hdr) (w : Width) (s : State) :
    exec (.cbw h w) s = s.done h (s.regWrite w rAX (sext (halfWidth w) (s.regRead (halfWidth w) rAX))) := rfl

/-- R413. -/
theorem exec_cwd (h : Hdr) (w : Width) (s : State) :
    exec (.cwd h w) s =
      s.done h (s.regWrite w rDX (if msb w (s.regRead w rAX) then BitVec.allOnes 64 else 0)) := rfl

end Sys2Proof.Machine

open Sys2Proof Sys2Proof.Machine

/-- Settles O47: each instruction by its own lemma, the values by what truncation and sign extension mean in
numbers. -/
theorem extensionsAndLea : Obligations.ExtensionsAndLea := by
  intro h w sw s s1 o r mo v
  refine ⟨fun read => ⟨exec_movzx w r read, _, sint_sext sw v, exec_movsx w r read⟩, fun read => ?movsxd,
    ⟨_, ea_toNat s h mo, exec_lea h w r mo s⟩, fun half eq => ?cbw, ?cwd⟩
  case movsxd =>
    rw [← movsxdSrc_eq_ite] at read ⊢
    exact ⟨_, sint_sext _ v, exec_movsxd r read⟩
  case cbw =>
    have value : sint .w64 (sext half (s.regRead half rAX)) = sint half (s.x 0) := by
      rw [sint_sext, rAX, regRead_gpr, sint_trunc]
    refine ⟨_, value, ?_⟩
    rw [exec_cbw, halfWidth_eq eq]
  case cwd =>
    rw [exec_cwd, msb_eq_decide_sint_neg, rAX, regRead_gpr, sint_trunc]
    simp only [decide_eq_true_eq]
end

section
/-! PROOF. O48: XCHG, CMOVcc, SETcc, LAHF and SAHF (R409 to R411, R414, R415), one lemma per instruction and
form; before them, AH and the low byte of the flags, bit by bit. -/

namespace Sys2Proof.Machine
open Sys2Proof

theorem trunc_w8_eq_and (v : Word) : trunc .w8 v = v &&& 0xFF := by
  apply BitVec.eq_of_toNat_eq
  rw [trunc_toNat, BitVec.toNat_and]
  exact (Nat.and_two_pow_sub_one_eq_mod v.toNat 8).symm

theorem bit_regRead_high8 (s : State) (r : RegNum) {i : Nat} (lt : i < 8) :
    bit (s.regRead .w8 ⟨r, true⟩) i = bit (s.x r) (8 + i) := by
  have lt64 : i < 64 := by omega
  simp only [bit, regRead_high8, BitVec.getLsbD_setWidth, BitVec.getLsbD_extractLsb', lt, lt64, decide_true,
    Bool.true_and]

/-! ### The instructions -/

theorem xchgRegs_run (w : Width) (d r : Gpr) (s : State) :
    xchgRegs w d r s = .ok () ((s.regWrite w d (s.regRead w r)).regWrite w r (s.regRead w d)) := rfl

/-- R409, between two registers. -/
theorem exec_xchg_reg (h : Hdr) (w : Width) (d r : Gpr) (s : State) :
    exec (.xchg h (.mr w (.reg d) r)) s =
      s.done h ((s.regWrite w d (s.regRead w r)).regWrite w r (s.regRead w d)) :=
  retire_ok (xchgRegs_run w d r s)

/-- R409, with the accumulator. -/
theorem exec_xchg_acc (h : Hdr) (w : Width) (r : Gpr) (s : State) :
    exec (.xchg h (.acc w r)) s =
      s.done h ((s.regWrite w rAX (s.regRead w r)).regWrite w r (s.regRead w rAX)) :=
  retire_ok (xchgRegs_run w rAX r s)

/-- R409, with memory: the register is read before the access, which does not change it. -/
theorem exec_xchg_mem {h : Hdr} {w : Width} {mo : MemOp} {s s1 : State} {v : Word} {p : Span} (r : Gpr)
    (read : destRead h w (.mem mo) s = .ok (v, p) s1) :
    exec (.xchg h (.mr w (.mem mo) r)) s =
      s.done h ((s1.destWrite w (.mem mo) p (s.regRead w r)).regWrite w r v) :=
  retire_ok ((bind_run_ok (a := (v, p)) read).trans (bind_run_ok (rmwEnd_run p w.bytes _ s1)))

/-- R410: reading the source changes neither the flags nor the old value of the destination. -/
theorem exec_cmovcc {h : Hdr} {w : Width} {o : RM} {s s1 : State} {v : Word} (cc : CC) (d : Gpr)
    (read : readRM h w o s = .ok v s1) :
    exec (.cmovcc h cc w d o) s =
      s.done h (s1.regWrite w d (if s.flags.st.cond cc then v else s.regRead w d)) := by
  have same : s1 = s.withMs s1.ms := readRM_withMs read
  refine retire_ok ((bind_run_ok read).trans ?_)
  rw [get_bind_run, setReg_run, State.cond, same, withMs_flags, withMs_regRead]

/-- R411. -/
theorem exec_setcc {h : Hdr} {o : RM} {s s1 : State} {p : Span} (cc : CC)
    (ready : destOpen h .w8 o s = .ok p s1) :
    exec (.setcc h cc o) s =
      s.done h (s1.destWrite .w8 o p (if s.flags.st.cond cc then 1 else 0)) :=
  retire_ok (writeRM_run _ ready)

/-- R414. -/
theorem exec_lahf (h : Hdr) (s : State) :
    exec (.lahf h) s = s.done h (s.regWrite .w8 ⟨0, true⟩ (s.flags.image &&& 0xFF)) := by
  rw [← trunc_w8_eq_and]
  rfl

/-- R415: bits 7, 6, 4, 2 and 0 of AH are bits 15, 14, 12, 10 and 8 of RAX. -/
theorem sahfFlags_regAH (s : State) (f : Flags) :
    sahfFlags (s.regRead .w8 regAH) f = f.withSt
      { f.st with
        sf := bit (s.x 0) 15, zf := bit (s.x 0) 14, af := bit (s.x 0) 12
        pf := bit (s.x 0) 10, cf := bit (s.x 0) 8 } := by
  simp only [sahfFlags, regAH, bit_regRead_high8, Nat.reduceLT, Nat.reduceAdd]

/-- R415. -/
theorem exec_sahf (h : Hdr) (s : State) :
    exec (.sahf h) s = s.done h (s.withFlags (sahfFlags (s.regRead .w8 regAH) s.flags)) := rfl

end Sys2Proof.Machine

open Sys2Proof Sys2Proof.Machine

/-- Settles O48: each instruction by its own lemma. -/
theorem exchangesAndConditions : Obligations.ExchangesAndConditions := by
  intro h w s s1 o r d mo cc v p
  exact ⟨exec_xchg_reg h w d r s, exec_xchg_acc h w r s, exec_xchg_mem r, exec_cmovcc cc d, exec_setcc cc,
    exec_lahf h s, (exec_sahf h s).trans (by rw [sahfFlags_regAH])⟩
end

section
/-! PROOF. O40 and O43: INC, DEC, NEG, NOT, CMPXCHG and XADD (R463 to R466, R472, R473), one lemma per
instruction and form. What the flag computations mean in numbers is in `Laws/Flags`. -/

namespace Sys2Proof.Machine
open Sys2Proof

/-! ### INC, DEC, NEG, NOT -/

/-- An instruction whose body is one read-modify-write commits what it computes. -/
theorem retire_rmwRM {h : Hdr} {w : Width} {dst : RM} {s s1 : State} {a : Word} {p : Span}
    (g : Word → Flags → Computed) (read : destRead h w dst s = .ok (a, p) s1) :
    retire h false (rmwRM h w dst g) s = s.done h (s1.commit w dst p (g a s.flags)) :=
  retire_ok (rmwRM_run g read)

/-- The short form of INC and DEC acts as the form with a register operand. -/
theorem retire_incBody {h : Hdr} {f : IncForm} {w : Width} {dst : RM} {s s1 : State} {a : Word} {p : Span}
    (g : Width → Word → Flags → Computed) (form : incOperand f = (w, dst))
    (read : destRead h w dst s = .ok (a, p) s1) :
    retire h false (incBody h g f) s = s.done h (s1.commit w dst p (g w a s.flags)) := by
  cases f with
  | rm => cases form; exact retire_rmwRM _ read
  | short => cases form; exact retire_rmwRM _ read

/-- R463. -/
theorem exec_inc {h : Hdr} {f : IncForm} {w : Width} {dst : RM} {s s1 : State} {a : Word} {p : Span}
    (form : incOperand f = (w, dst)) (read : destRead h w dst s = .ok (a, p) s1) :
    exec (.inc h f) s = s.done h (s1.commit w dst p (incFlags w a s.flags)) :=
  retire_incBody incFlags form read

/-- R464. -/
theorem exec_dec {h : Hdr} {f : IncForm} {w : Width} {dst : RM} {s s1 : State} {a : Word} {p : Span}
    (form : incOperand f = (w, dst)) (read : destRead h w dst s = .ok (a, p) s1) :
    exec (.dec h f) s = s.done h (s1.commit w dst p (decFlags w a s.flags)) :=
  retire_incBody decFlags form read

/-- R465. -/
theorem exec_neg {h : Hdr} {w : Width} {dst : RM} {s s1 : State} {a : Word} {p : Span}
    (read : destRead h w dst s = .ok (a, p) s1) :
    exec (.neg h w dst) s = s.done h (s1.commit w dst p (subFlags w 0 a false s.flags)) :=
  retire_rmwRM _ read

/-- R466. -/
theorem exec_not {h : Hdr} {w : Width} {dst : RM} {s s1 : State} {a : Word} {p : Span}
    (read : destRead h w dst s = .ok (a, p) s1) :
    exec (.not h w dst) s = s.done h (s1.commit w dst p ⟨trunc w (~~~a), s.flags⟩) :=
  retire_rmwRM _ read

/-- The complement of a `w`-bit value, in numbers. -/
theorem trunc_not_toNat {w : Width} {a : Word} (lt : a.toNat < 2 ^ w.bits) :
    (trunc w (~~~a)).toNat = 2 ^ w.bits - 1 - a.toNat := by
  rw [trunc_toNat, BitVec.toNat_not]
  cases w <;> simp only [Width.bits] at lt ⊢ <;> omega

/-! ### CMPXCHG (R472) -/

/-- A match stores the source, in a register or in memory. -/
theorem exec_cmpxchg_match {h : Hdr} {w : Width} {dst : RM} {s s1 : State} {a : Word} {p : Span} (src : Gpr)
    (read : destRead h w dst s = .ok (a, p) s1) (eq : s.regRead w rAX = a) :
    exec (.cmpxchg h w dst src) s =
      s.done h ((s1.destWrite w dst p (s.regRead w src)).withFlags
        (subFlags w (s.regRead w rAX) a false s.flags).flags) := by
  have same : (s.regRead w rAX == a) = true := beq_iff_eq.mpr eq
  refine retire_ok ?_
  cases dst with
  | reg r =>
    cases read
    simp only [cmpxchgBody, get_bind_run, same, if_true]
    rfl
  | mem mo =>
    refine (bind_run_ok (a := (a, p)) read).trans ?_
    rw [same, if_pos rfl]
    exact bind_run_ok (rmwEnd_run p w.bytes _ s1)

/-- A mismatch with a register loads the accumulator and leaves the destination. -/
theorem exec_cmpxchg_mismatch_reg {h : Hdr} {w : Width} {r : Gpr} {s s1 : State} {a : Word} {p : Span}
    (src : Gpr) (read : destRead h w (.reg r) s = .ok (a, p) s1) (ne : s.regRead w rAX ≠ a) :
    exec (.cmpxchg h w (.reg r) src) s =
      s.done h ((s1.regWrite w rAX a).withFlags
        (subFlags w (s.regRead w rAX) a false s.flags).flags) := by
  have differ : (s.regRead w rAX == a) = false := beq_eq_false_iff_ne.mpr ne
  refine retire_ok ?_
  cases read
  simp only [cmpxchgBody, get_bind_run, differ, Bool.false_eq_true, if_false]
  rfl

/-- A mismatch with memory loads the accumulator and writes the old value back. -/
theorem exec_cmpxchg_mismatch_mem {h : Hdr} {w : Width} {mo : MemOp} {s s1 : State} {a : Word} {p : Span}
    (src : Gpr) (read : destRead h w (.mem mo) s = .ok (a, p) s1) (ne : s.regRead w rAX ≠ a) :
    exec (.cmpxchg h w (.mem mo) src) s =
      s.done h (((s1.destWrite w (.mem mo) p a).regWrite w rAX a).withFlags
        (subFlags w (s.regRead w rAX) a false s.flags).flags) := by
  have differ : (s.regRead w rAX == a) = false := beq_eq_false_iff_ne.mpr ne
  refine retire_ok ((bind_run_ok (a := (a, p)) read).trans ?_)
  rw [differ, if_neg Bool.false_ne_true]
  exact bind_run_ok (bind_run_ok (rmwEnd_run p w.bytes a s1))

/-! ### XADD (R473) -/

/-- Between registers the destination is written last. -/
theorem exec_xadd_reg {h : Hdr} {w : Width} {r : Gpr} {s s1 : State} {a : Word} {p : Span} (src : Gpr)
    (read : destRead h w (.reg r) s = .ok (a, p) s1) :
    exec (.xadd h w (.reg r) src) s =
      s.done h (((s1.regWrite w src a).regWrite w r (addFlags w a (s.regRead w src) false s.flags).value).withFlags
        (addFlags w a (s.regRead w src) false s.flags).flags) := by
  cases read
  rfl

theorem exec_xadd_mem {h : Hdr} {w : Width} {mo : MemOp} {s s1 : State} {a : Word} {p : Span} (src : Gpr)
    (read : destRead h w (.mem mo) s = .ok (a, p) s1) :
    exec (.xadd h w (.mem mo) src) s =
      s.done h (((s1.destWrite w (.mem mo) p (addFlags w a (s.regRead w src) false s.flags).value).regWrite w src
        a).withFlags (addFlags w a (s.regRead w src) false s.flags).flags) :=
  retire_ok ((bind_run_ok (a := (a, p)) read).trans (bind_run_ok (rmwEnd_run p w.bytes _ s1)))

end Sys2Proof.Machine

open Sys2Proof Sys2Proof.Machine

/-- Settles O40: each instruction by its own lemma, its flags by what the flag computation means. -/
theorem oneOperandArithmetic : Obligations.OneOperandArithmetic := by
  intro h s s1 w dst a p read
  have lt : a.toNat < 2 ^ w.bits := destRead_lt read
  have zero_lt : (0 : Word).toNat < 2 ^ w.bits := Nat.two_pow_pos _
  exact ⟨fun f form => ⟨⟨_, incFlags_means w a s.flags lt, exec_inc form read⟩,
      ⟨_, decFlags_means w a s.flags lt, exec_dec form read⟩⟩,
    ⟨_, subFlags_means w 0 a false s.flags zero_lt lt, exec_neg read⟩,
    ⟨_, trunc_not_toNat lt, exec_not read⟩⟩

/-- Settles O43: each case by its own lemma, the flags by what SUB and ADD mean. -/
theorem cmpxchgAndXadd : Obligations.CmpxchgAndXadd := by
  intro h w dst src s s1 a p read
  have lt : a.toNat < 2 ^ w.bits := destRead_lt read
  have sub := subFlags_means w _ a false s.flags (regRead_lt s w rAX) lt
  have add := addFlags_means w a _ false s.flags lt (regRead_lt s w src)
  refine ⟨⟨_, sub, exec_cmpxchg_match src read, ?mismatch_reg, ?mismatch_mem⟩, _, add, ?xadd_reg, ?xadd_mem⟩
  case mismatch_reg => rintro ne r rfl; exact exec_cmpxchg_mismatch_reg src read ne
  case mismatch_mem => rintro ne mo rfl; exact exec_cmpxchg_mismatch_mem src read ne
  case xadd_reg => rintro r rfl; exact exec_xadd_reg src read
  case xadd_mem => rintro mo rfl; exact exec_xadd_mem src read
end

section
/-! PROOF. O41: MUL and the three forms of IMUL (R467 to R469). The values come first: a double-width
product as two halves, and the signed value of an integer narrowed to `w` bits; then one lemma per
instruction. -/

namespace Sys2Proof.Machine
open Sys2Proof

/-! ### Double-width values as two halves -/

theorem ofNatW_halves (w : Width) {p : Nat} (lt : p < 2 ^ w.bits * 2 ^ w.bits) :
    (ofNatW w (p / 2 ^ w.bits)).toNat * 2 ^ w.bits + (ofNatW w p).toNat = p := by
  rw [ofNatW_toNat, ofNatW_toNat, Nat.mod_eq_of_lt (Nat.div_lt_of_lt_mul lt)]
  exact Nat.div_add_mod' p _

theorem two_pow_bits (w : Width) : (2 ^ w.bits : Int) = 2 * 2 ^ (w.bits - 1) := by
  cases w <;> decide

/-! ### Signed values narrowed to `w` bits -/

theorem le_sint (w : Width) (v : Word) : -(2 ^ (w.bits - 1) : Int) ≤ sint w v := BitVec.le_toInt _

theorem sint_lt (w : Width) (v : Word) : sint w v < (2 ^ (w.bits - 1) : Int) := BitVec.toInt_lt

theorem sint_ofIntW (w : Width) (n : Int) : sint w (ofIntW w n) = n.bmod (2 ^ w.bits) := by
  rw [sint, BitVec.toInt_setWidth, ofIntW_toNat]
  exact_mod_cast Int.emod_bmod n (2 ^ w.bits)

/-- An integer of the signed range is the signed value of its narrowing. -/
theorem sint_ofIntW_of_range {w : Width} {n : Int} (ge : -(2 ^ (w.bits - 1) : Int) ≤ n)
    (lt : n < (2 ^ (w.bits - 1) : Int)) : sint w (ofIntW w n) = n := by
  have size : ((2 ^ w.bits : Nat) : Int) = 2 * 2 ^ (w.bits - 1) := by exact_mod_cast two_pow_bits w
  rw [sint_ofIntW]
  exact Int.bmod_eq_of_le_mul_two (by omega) (by omega)

theorem fitsSigned_iff (w : Width) (n : Int) :
    fitsSigned w n = true ↔ -(2 ^ (w.bits - 1) : Int) ≤ n ∧ n < (2 ^ (w.bits - 1) : Int) := by
  rw [fitsSigned, Bool.and_eq_true, decide_eq_true_iff, decide_eq_true_iff, Int.le_sub_one_iff]

/-- The overflow test of IMUL: narrowing changes the signed value. -/
theorem not_fitsSigned_iff (w : Width) (n : Int) :
    (!fitsSigned w n) = true ↔ sint w (ofIntW w n) ≠ n := by
  rw [Bool.not_eq_true', ← Bool.not_eq_true, fitsSigned_iff]
  refine not_congr ?_
  constructor
  · rintro ⟨ge, lt⟩
    exact sint_ofIntW_of_range ge lt
  · intro eq
    rw [← eq]
    exact ⟨le_sint w _, sint_lt w _⟩

/-- The high half of a signed product lies in the signed range. -/
theorem sint_mul_div_range (w : Width) (a b : Word) :
    -(2 ^ (w.bits - 1) : Int) ≤ sint w a * sint w b / 2 ^ w.bits ∧
      sint w a * sint w b / 2 ^ w.bits < (2 ^ (w.bits - 1) : Int) := by
  have lower : -2 ^ (w.bits * 2 - 2) ≤ sint w a * sint w b := BitVec.le_toInt_mul_toInt
  have upper : sint w a * sint w b ≤ 2 ^ (w.bits * 2 - 2) := BitVec.toInt_mul_toInt_le
  generalize sint w a * sint w b = p at lower upper ⊢
  cases w <;> simp only [Width.bits] at lower upper ⊢ <;> omega

theorem sint_mul_halves (w : Width) (a b : Word) :
    sint w (ofIntW w (sint w a * sint w b / 2 ^ w.bits)) * 2 ^ w.bits +
      (ofIntW w (sint w a * sint w b)).toNat = sint w a * sint w b := by
  obtain ⟨ge, lt⟩ := sint_mul_div_range w a b
  rw [sint_ofIntW_of_range ge lt, ofIntW_toNat]
  exact Int.ediv_mul_add_emod _ _

/-! ### The instructions -/

/-- R467: reading the source changes neither the accumulator nor the flags. -/
theorem exec_mul {h : Hdr} {w : Width} {src : RM} {s s1 : State} {b : Word}
    (read : readRM h w src s = .ok b s1) :
    exec (.mul h w src) s = s.done h
      ((s1.setPair w (ofNatW w ((s.regRead w rAX).toNat * b.toNat / 2 ^ w.bits))
        (ofNatW w ((s.regRead w rAX).toNat * b.toNat))).withFlags
        (mulFlags "MUL" w (s.regRead w rAX) b
          (ofNatW w ((s.regRead w rAX).toNat * b.toNat / 2 ^ w.bits) != 0) s.flags)) := by
  have same : s1 = s.withMs s1.ms := readRM_withMs read
  refine retire_ok ((bind_run_ok read).trans ?_)
  rw [same]
  rfl

/-- R468. -/
theorem exec_imul1 {h : Hdr} {w : Width} {src : RM} {s s1 : State} {b : Word}
    (read : readRM h w src s = .ok b s1) :
    exec (.imul1 h w src) s = s.done h
      ((s1.setPair w (ofIntW w (sint w (s.regRead w rAX) * sint w b / 2 ^ w.bits))
        (ofIntW w (sint w (s.regRead w rAX) * sint w b))).withFlags
        (mulFlags "IMUL" w (s.regRead w rAX) b
          (!fitsSigned w (sint w (s.regRead w rAX) * sint w b)) s.flags)) := by
  have same : s1 = s.withMs s1.ms := readRM_withMs read
  refine retire_ok ((bind_run_ok read).trans ?_)
  rw [same]
  rfl

theorem imulInto_run (w : Width) (dst : Gpr) (a b : Word) (s : State) :
    imulInto w dst a b s = .ok () ((s.regWrite w dst (ofIntW w (sint w a * sint w b))).withFlags
      (mulFlags "IMUL" w a b (!fitsSigned w (sint w a * sint w b)) s.flags)) := rfl

/-- R469, two operands. -/
theorem exec_imul2 {h : Hdr} {w : Width} {src : RM} {s s1 : State} {b : Word} (dst : Gpr)
    (read : readRM h w src s = .ok b s1) :
    exec (.imul2 h w dst src) s = s.done h
      ((s1.regWrite w dst (ofIntW w (sint w (s.regRead w dst) * sint w b))).withFlags
        (mulFlags "IMUL" w (s.regRead w dst) b
          (!fitsSigned w (sint w (s.regRead w dst) * sint w b)) s.flags)) := by
  have same : s1 = s.withMs s1.ms := readRM_withMs read
  refine retire_ok ((bind_run_ok read).trans ((bind_run_ok (readReg_run w dst s1)).trans ?_))
  rw [imulInto_run, same, withMs_regRead, withMs_flags]

/-- R469, three operands. -/
theorem exec_imul3 {h : Hdr} {w : Width} {src : RM} {s s1 : State} {a : Word} (dst : Gpr) (imm : Word)
    (z : ImmSize) (read : readRM h w src s = .ok a s1) :
    exec (.imul3 h w dst src imm z) s = s.done h
      ((s1.regWrite w dst (ofIntW w (sint w a * sint w imm))).withFlags
        (mulFlags "IMUL" w a imm (!fitsSigned w (sint w a * sint w imm)) s.flags)) := by
  have same : s1 = s.withMs s1.ms := readRM_withMs read
  refine retire_ok ((bind_run_ok read).trans ?_)
  rw [imulInto_run, same, withMs_flags]

end Sys2Proof.Machine

open Sys2Proof Sys2Proof.Machine

/-- Settles O41: each instruction by its own lemma, the products by what their halves mean in numbers. -/
theorem multiply : Obligations.Multiply := by
  intro h w src s s1 b read
  have lt : (s.regRead w rAX).toNat * b.toNat < 2 ^ w.bits * 2 ^ w.bits :=
    Nat.mul_lt_mul'' (regRead_lt s w rAX) (readRM_lt read)
  have carry (hi : Word) : (hi != 0) = true ↔ hi.toNat ≠ 0 := by
    rw [bne_iff_ne, ne_eq, ← BitVec.toNat_inj]
    rfl
  exact ⟨⟨_, _, _, ofNatW_halves w lt, ofNatW_lt w _, carry _, rfl, exec_mul read⟩,
    ⟨_, _, _, sint_mul_halves w _ b, ofIntW_lt w _, ofIntW_lt w _, not_fitsSigned_iff w _, rfl, exec_imul1 read⟩,
    fun dst => ⟨_, _, ofIntW_toNat w _, not_fitsSigned_iff w _, rfl, exec_imul2 dst read⟩,
    fun dst imm z => ⟨_, _, ofIntW_toNat w _, not_fitsSigned_iff w _, rfl, exec_imul3 dst imm z read⟩⟩
end

section
/-! PROOF. O42: DIV and IDIV (R470, R471), one lemma for completion and one for `#DE` each; before them, what
a quotient and remainder in numbers say about the division the model computes. -/

namespace Sys2Proof.Machine
open Sys2Proof

theorem ofNatW_of_lt {w : Width} {n : Nat} (lt : n < 2 ^ w.bits) : ofNatW w n = BitVec.ofNat 64 n := by
  rw [ofNatW, Nat.mod_eq_of_lt lt]

/-- Division rounded toward zero is fixed by the size of the remainder and its sign, that of the dividend. -/
theorem tdiv_tmod_of_sign {n d q r : Int} (eq : n = q * d + r) (small : r.natAbs < d.natAbs)
    (sign : r = 0 ∨ (0 < r ↔ 0 < n)) : n.tdiv d = q ∧ n.tmod d = r := by
  have nonzero : d ≠ 0 := by rintro rfl; simp at small
  have sum : r + d * q = n := by rw [eq, Int.mul_comm, Int.add_comm]
  obtain nonneg | neg : 0 ≤ n ∧ 0 ≤ r ∨ n ≤ 0 ∧ r ≤ 0 := by omega
  · exact (Int.tdiv_tmod_unique nonneg.1 nonzero).mpr ⟨sum, nonneg.2, by omega⟩
  · exact (Int.tdiv_tmod_unique' neg.1 nonzero).mpr ⟨sum, by omega, neg.2⟩

/-! ### The instructions -/

@[simp] theorem withMs_pair (s : State) (m : MemSys) (w : Width) : (s.withMs m).pair w = s.pair w := by
  cases w <;> rfl

/-- Two refusals with one exception, then the rest of a body. -/
theorem raiseIf_raiseIf_run {α : Type} {c1 c2 : Bool} {P : Prop} [Decidable P] (iff : P ↔ c1 = true ∨ c2 = true)
    (f : FaultRec) (x : M α) (s : State) :
    (raiseIf c1 f >>= fun _ => raiseIf c2 f >>= fun _ => x) s = if P then .error f s else x s := by
  simp only [bind_run, raiseIf_run, iff]
  cases c1 <;> cases c2 <;> rfl

theorem retire_ite {h : Hdr} {body : M Unit} {s t u : State} {f : FaultRec} {P : Prop} [Decidable P]
    (run : body s = if P then .error f u else .ok () t) :
    retire h false body s = if P then u.faults f else s.done h t := by
  by_cases refused : P
  · rw [if_pos refused] at run ⊢
    exact retire_error run
  · rw [if_neg refused] at run ⊢
    exact retire_ok run

/-- R470. -/
theorem exec_div {h : Hdr} {w : Width} {src : RM} {s s1 : State} {d : Word}
    (read : readRM h w src s = .ok d s1) :
    exec (.div h w src) s =
      if d.toNat = 0 ∨ 2 ^ w.bits ≤ s.pair w / d.toNat then s1.faults .de
      else s.done h ((s1.setPair w (ofNatW w (s.pair w % d.toNat)) (ofNatW w (s.pair w / d.toNat))).withFlags
        (allUndef "DIV" w (s.pair w) d.toNat s.flags)) := by
  have same : s1 = s.withMs s1.ms := readRM_withMs read
  have pair : s1.pair w = s.pair w := by rw [same, withMs_pair]
  have flags : s1.flags = s.flags := by rw [same, withMs_flags]
  rw [← pair, ← flags]
  exact retire_ite ((bind_run_ok read).trans ((get_bind_run _ s1).trans
    (raiseIf_raiseIf_run (by rw [beq_iff_eq, decide_eq_true_iff]) _ _ s1)))

/-- R471. -/
theorem exec_idiv {h : Hdr} {w : Width} {src : RM} {s s1 : State} {d : Word}
    (read : readRM h w src s = .ok d s1) :
    exec (.idiv h w src) s =
      if sint w d = 0 ∨ ¬fitsSigned w ((signedPair w (s.pair w)).tdiv (sint w d)) = true then s1.faults .de
      else s.done h ((s1.setPair w (ofIntW w ((signedPair w (s.pair w)).tmod (sint w d)))
        (ofIntW w ((signedPair w (s.pair w)).tdiv (sint w d)))).withFlags
        (allUndef "IDIV" w (s.pair w) d.toNat s.flags)) := by
  have same : s1 = s.withMs s1.ms := readRM_withMs read
  have pair : s1.pair w = s.pair w := by rw [same, withMs_pair]
  have flags : s1.flags = s.flags := by rw [same, withMs_flags]
  rw [← pair, ← flags]
  exact retire_ite ((bind_run_ok read).trans ((get_bind_run _ s1).trans
    (raiseIf_raiseIf_run (by rw [beq_iff_eq, Bool.not_eq_true, Bool.not_eq_true']) _ _ s1)))

end Sys2Proof.Machine

open Sys2Proof Sys2Proof.Machine

/-- Settles O42: the quotient and remainder of the hypotheses are those the model computes, and the range of
the quotient decides between completion and `#DE`. -/
theorem divide : Obligations.Divide := by
  intro h w src s s1 d read
  refine ⟨fun q r eq small fits => ?div, fun big => ?div_de, fun zero => ?idiv_zero,
    fun q r eq small sign => ?idiv⟩
  case div =>
    have pos : 0 < d.toNat := by omega
    have r_lt : r < 2 ^ w.bits := Nat.lt_trans small (readRM_lt read)
    obtain ⟨quotient, remainder⟩ : s.pair w / d.toNat = q ∧ s.pair w % d.toNat = r :=
      (Nat.div_mod_unique pos).mpr ⟨by rw [eq, Nat.mul_comm, Nat.add_comm], small⟩
    rw [exec_div read, quotient, remainder, if_neg (by omega), ofNatW_of_lt fits, ofNatW_of_lt r_lt]
    exact ⟨_, rfl⟩
  case div_de =>
    rw [exec_div read, if_pos]
    obtain zero | pos := Nat.eq_zero_or_pos d.toNat
    · exact .inl zero
    · exact .inr ((Nat.le_div_iff_mul_le pos).mpr (Nat.mul_comm _ _ ▸ big))
  case idiv_zero =>
    have value : sint w d = 0 := by rw [zero]; cases w <;> rfl
    rw [exec_idiv read, if_pos (.inl value)]
  case idiv =>
    have nonzero : sint w d ≠ 0 := by omega
    obtain ⟨quotient, remainder⟩ := tdiv_tmod_of_sign eq small sign
    have range := fitsSigned_iff w q
    rw [exec_idiv read, quotient, remainder]
    refine ⟨fun fits => ⟨_, if_neg ?fits⟩, fun out => if_pos (.inr ?out)⟩
    case fits => exact not_or.mpr ⟨nonzero, not_not_intro (range.mpr fits)⟩
    case out => rw [range]; omega
end

section
/-! PROOF. O44: SHL, SHR and SAR (R500 to R503). The raw and the masked count come first, then one lemma per
instruction; what the flag computations mean in numbers is in `Laws/Flags`. -/

namespace Sys2Proof.Machine
open Sys2Proof

/-! ### The count (R500) -/

theorem shiftRaw_toNat (s : State) (k : ShiftCount) :
    (s.shiftRaw k).toNat = match k with
      | .imm b => b.toNat
      | .one => 1
      | .cl => (s.x 1).toNat % 256 := by
  cases k with
  | imm b => exact BitVec.toNat_setWidth_of_le (by decide)
  | one => rfl
  | cl => exact trunc_toNat .w8 (s.x 1)

theorem shiftCnt_eq_ite (w : Width) (n : Nat) : shiftCnt w n = if w = .w64 then n % 64 else n % 32 := by
  cases w <;> rfl

/-! ### The instructions -/

/-- R500: every shift and rotate commits what it computes from its operand and the raw count. -/
theorem retire_shiftBody {h : Hdr} {w : Width} {dst : RM} {s s1 : State} {a : Word} {p : Span} (k : ShiftCount)
    (f : Width → Word → Word → Flags → Computed) (read : destRead h w dst s = .ok (a, p) s1) :
    retire h false (shiftBody h w dst k f) s = s.done h (s1.commit w dst p (f w a (s.shiftRaw k) s.flags)) :=
  retire_rmwRM (fun a fl => f w a (s.shiftRaw k) fl) read

/-- R501. -/
theorem exec_shl {h : Hdr} {w : Width} {dst : RM} {s s1 : State} {a : Word} {p : Span} (k : ShiftCount)
    (read : destRead h w dst s = .ok (a, p) s1) :
    exec (.shl h w dst k) s = s.done h (s1.commit w dst p (shlFlags w a (s.shiftRaw k) s.flags)) :=
  retire_shiftBody k shlFlags read

/-- R502. -/
theorem exec_shr {h : Hdr} {w : Width} {dst : RM} {s s1 : State} {a : Word} {p : Span} (k : ShiftCount)
    (read : destRead h w dst s = .ok (a, p) s1) :
    exec (.shr h w dst k) s = s.done h (s1.commit w dst p (shrFlags w a (s.shiftRaw k) s.flags)) :=
  retire_shiftBody k shrFlags read

/-- R503. -/
theorem exec_sar {h : Hdr} {w : Width} {dst : RM} {s s1 : State} {a : Word} {p : Span} (k : ShiftCount)
    (read : destRead h w dst s = .ok (a, p) s1) :
    exec (.sar h w dst k) s = s.done h (s1.commit w dst p (sarFlags w a (s.shiftRaw k) s.flags)) :=
  retire_shiftBody k sarFlags read

end Sys2Proof.Machine

open Sys2Proof Sys2Proof.Machine

/-- Settles O44: each instruction by its own lemma, its flags by what the flag computation means for the masked
count. -/
theorem shifts : Obligations.Shifts := by
  intro h w dst k s s1 a p read raw cnt
  have raw_eq : (s.shiftRaw k).toNat = raw := shiftRaw_toNat s k
  have cnt_eq : shiftCnt w (s.shiftRaw k).toNat = cnt := raw_eq ▸ shiftCnt_eq_ite w raw
  have pow_eq : (2 ^ cnt : Int) = (2 ^ cnt : Nat) := by norm_cast
  rw [pow_eq, ← cnt_eq]
  exact ⟨⟨_, shlFlags_means w a _ _, exec_shl k read⟩, ⟨_, shrFlags_means w a _ _, exec_shr k read⟩,
    ⟨_, sarFlags_means w a _ _ (destRead_lt read), exec_sar k read⟩⟩
end

section
/-! PROOF. O45: ROL and ROR (R504, R505). A number of `w` bits rotated comes first, bit by bit; then what the
two flag computations mean, and one lemma per instruction. -/

namespace Sys2Proof.Machine
open Sys2Proof

/-! ### Rotated numbers, bit by bit -/

/-- Rotated left by `c`, bit `i` stands at `i + c`, or wraps around to `i + c - w`. -/
theorem testBit_rotateLeft {n w c i : Nat} (lt : n < 2 ^ w) (le : c ≤ w) (i_lt : i < w) :
    (n * 2 ^ c ||| n / 2 ^ (w - c)).testBit ((i + c) % w) = n.testBit i := by
  rw [Nat.testBit_or, Nat.testBit_mul_two_pow, Nat.testBit_div_two_pow]
  obtain below | wraps := Nat.lt_or_ge (i + c) w
  · have high : n.testBit (i + c + (w - c)) = false :=
      Nat.testBit_lt_two_pow (Nat.lt_of_lt_of_le lt (Nat.pow_le_pow_right (by decide) (by omega)))
    rw [Nat.mod_eq_of_lt below, high, decide_eq_true (Nat.le_add_left c i), Nat.add_sub_cancel,
      Bool.true_and, Bool.or_false]
  · have place : (i + c) % w = i + c - w := by
      rw [Nat.mod_eq_sub_mod wraps, Nat.mod_eq_of_lt (by omega)]
    have source : i + c - w + (w - c) = i := by omega
    rw [place, source, decide_eq_false (by omega), Bool.false_and, Bool.false_or]

/-- Rotating right by `c` is rotating left by `w - c`. -/
theorem testBit_rotateRight {n w c i : Nat} (lt : n < 2 ^ w) (le : c ≤ w) (i_lt : i < w) :
    (n / 2 ^ c ||| n * 2 ^ (w - c)).testBit i = n.testBit ((i + c) % w) := by
  have place : ((i + c) % w + (w - c)) % w = i := by
    rw [Nat.mod_add_mod, show i + c + (w - c) = i + w by omega, Nat.add_mod_right, Nat.mod_eq_of_lt i_lt]
  have left := testBit_rotateLeft lt (Nat.sub_le w c) (Nat.mod_lt (i + c) (Nat.zero_lt_of_lt i_lt))
  rwa [Nat.sub_sub_self le, place, Nat.or_comm] at left

theorem bit_ofNatW {w : Width} {i : Nat} (n : Nat) (lt : i < w.bits) : bit (ofNatW w n) i = n.testBit i := by
  change (ofNatW w n).toNat.testBit i = _
  rw [ofNatW_toNat, Nat.testBit_mod_two_pow, decide_eq_true lt, Bool.true_and]

/-! ### The flag computations -/

theorem bits_pos (w : Width) : 0 < w.bits := by
  cases w <;> decide

theorem rolFlags_value (w : Width) (a raw : Word) (fl : Flags) :
    (rolFlags w a raw fl).value = ofNatW w (a.toNat * 2 ^ (shiftCnt w raw.toNat % w.bits) |||
      a.toNat / 2 ^ (w.bits - shiftCnt w raw.toNat % w.bits)) := by
  rw [rolFlags]
  split <;> rfl

theorem rorFlags_value (w : Width) (a raw : Word) (fl : Flags) :
    (rorFlags w a raw fl).value = ofNatW w (a.toNat / 2 ^ (shiftCnt w raw.toNat % w.bits) |||
      a.toNat * 2 ^ (w.bits - shiftCnt w raw.toNat % w.bits)) := by
  rw [rorFlags]
  split <;> rfl

theorem rolFlags_value_lt (w : Width) (a raw : Word) (fl : Flags) :
    (rolFlags w a raw fl).value.toNat < 2 ^ w.bits := by
  rw [rolFlags_value]
  exact ofNatW_lt w _

theorem rorFlags_value_lt (w : Width) (a raw : Word) (fl : Flags) :
    (rorFlags w a raw fl).value.toNat < 2 ^ w.bits := by
  rw [rorFlags_value]
  exact ofNatW_lt w _

theorem bit_rolFlags_value {w : Width} {a : Word} {i : Nat} (raw : Word) (fl : Flags)
    (lt : a.toNat < 2 ^ w.bits) (i_lt : i < w.bits) :
    bit (rolFlags w a raw fl).value ((i + shiftCnt w raw.toNat) % w.bits) = bit a i := by
  rw [rolFlags_value, bit_ofNatW _ (Nat.mod_lt _ (bits_pos w)), ← Nat.add_mod_mod]
  exact testBit_rotateLeft lt (Nat.le_of_lt (Nat.mod_lt _ (bits_pos w))) i_lt

theorem bit_rorFlags_value {w : Width} {a : Word} {i : Nat} (raw : Word) (fl : Flags)
    (lt : a.toNat < 2 ^ w.bits) (i_lt : i < w.bits) :
    bit (rorFlags w a raw fl).value i = bit a ((i + shiftCnt w raw.toNat) % w.bits) := by
  rw [rorFlags_value, bit_ofNatW _ i_lt, ← Nat.add_mod_mod]
  exact testBit_rotateRight lt (Nat.le_of_lt (Nat.mod_lt _ (bits_pos w))) i_lt

theorem rolFlags_means (w : Width) (a raw : Word) (fl : Flags) :
    RotateMeans (shiftCnt w raw.toNat) (bit (rolFlags w a raw fl).value 0)
      (msb w (rolFlags w a raw fl).value ^^ bit (rolFlags w a raw fl).value 0) fl (rolFlags w a raw fl) := by
  rw [rolFlags_value]
  exact rotFlags_means "ROL" w a raw _ _ _ _ fl

theorem rorFlags_means (w : Width) (a raw : Word) (fl : Flags) :
    RotateMeans (shiftCnt w raw.toNat) (msb w (rorFlags w a raw fl).value)
      (msb w (rorFlags w a raw fl).value ^^ bit (rorFlags w a raw fl).value (w.bits - 2)) fl
      (rorFlags w a raw fl) := by
  rw [rorFlags_value]
  exact rotFlags_means "ROR" w a raw _ _ _ _ fl

/-! ### The instructions -/

/-- R504. -/
theorem exec_rol {h : Hdr} {w : Width} {dst : RM} {s s1 : State} {a : Word} {p : Span} (k : ShiftCount)
    (read : destRead h w dst s = .ok (a, p) s1) :
    exec (.rol h w dst k) s = s.done h (s1.commit w dst p (rolFlags w a (s.shiftRaw k) s.flags)) :=
  retire_shiftBody k rolFlags read

/-- R505. -/
theorem exec_ror {h : Hdr} {w : Width} {dst : RM} {s s1 : State} {a : Word} {p : Span} (k : ShiftCount)
    (read : destRead h w dst s = .ok (a, p) s1) :
    exec (.ror h w dst k) s = s.done h (s1.commit w dst p (rorFlags w a (s.shiftRaw k) s.flags)) :=
  retire_shiftBody k rorFlags read

end Sys2Proof.Machine

open Sys2Proof Sys2Proof.Machine

/-- Settles O45: each instruction by its own lemma, its value bit by bit, its flags by what the flag computation
means for the masked count. -/
theorem rotates : Obligations.Rotates := by
  intro h w dst k s s1 a p read raw cnt
  have raw_eq : (s.shiftRaw k).toNat = raw := shiftRaw_toNat s k
  have cnt_eq : shiftCnt w (s.shiftRaw k).toNat = cnt := raw_eq ▸ shiftCnt_eq_ite w raw
  rw [← cnt_eq]
  exact ⟨⟨_, fun _ lt => bit_rolFlags_value _ _ (destRead_lt read) lt, rolFlags_value_lt w a _ _,
      rolFlags_means w a _ _, exec_rol k read⟩,
    ⟨_, fun _ lt => bit_rorFlags_value _ _ (destRead_lt read) lt, rorFlags_value_lt w a _ _,
      rorFlags_means w a _ _, exec_ror k read⟩⟩
end

section
/-! PROOF. O51 and O53: the jumps, the conditional jumps and loops, and the software interrupts (R520 to R523,
R528 to R535). Every relative branch ends in one of three ways (`State.branched`); one lemma per instruction
says under which condition it is taken and what it commits then. -/

namespace Sys2Proof.Machine
open Sys2Proof

/-! ### The target and its check (R520) -/

theorem branchOk_iff (s : State) (u : Word) :
    s.branchOk u = true ↔
      if s.decodeMode = .m64 then u.toNat < 2 ^ 47 ∨ 2 ^ 64 - 2 ^ 47 ≤ u.toNat
      else s.cfg.segChecks = true → u.toNat ≤ s.segs.cs.limit.toNat := by
  by_cases long : s.decodeMode = .m64
  · simp only [State.branchOk, State.is64, long, beq_self_eq_true, if_true, canonical_iff]
  · cases checks : s.cfg.segChecks <;> simp [State.branchOk, State.is64, long, checks]

theorem branchCheck_ok {s : State} {u : Word} (ok : s.branchOk u = true) :
    branchCheck u s = .ok () s := by
  rw [branchCheck, get_bind_run, ok]
  rfl

theorem branchCheck_refused {s : State} {u : Word} (bad : s.branchOk u = false) :
    branchCheck u s = .error (.gp 0) s := by
  rw [branchCheck, get_bind_run, bad]
  rfl

/-- Reading the target of an indirect branch does not change its check. -/
theorem readRM_branchOk {h : Hdr} {w : Width} {o : RM} {s s1 : State} {v : Word}
    (read : readRM h w o s = .ok v s1) (u : Word) : s1.branchOk u = s.branchOk u := by
  rw [readRM_withMs read, withMs_branchOk]

/-! ### Relative branches -/

/-- How a relative branch that started in `s` ends: not taken, it completes at the next instruction; taken, it
completes at its target or is refused. `t` has the effects of completing. -/
def State.branched (s : State) (h : Hdr) (w : Width) (rel : Word) (taken : Prop) [Decidable taken]
    (t : State) : Result :=
  if taken then
    if s.branchOk (s.relTarget h w rel) then s.jumped h (s.relTarget h w rel) t else s.faults (.gp 0)
  else s.jumped h (s.nextRip h.len) t

section
variable {s t : State} {h : Hdr} {w : Width} {rel : Word} {taken : Prop} [Decidable taken]

theorem branched_taken (cond : taken) (ok : s.branchOk (s.relTarget h w rel) = true) :
    s.branched h w rel taken t = s.jumped h (s.relTarget h w rel) t := by
  rw [State.branched, if_pos cond, if_pos ok]

theorem branched_not_taken (cond : ¬taken) : s.branched h w rel taken t = s.jumped h (s.nextRip h.len) t :=
  if_neg cond

theorem branched_refused (cond : taken) (bad : s.branchOk (s.relTarget h w rel) = false) :
    s.branched h w rel taken t = s.faults (.gp 0) := by
  rw [State.branched, if_pos cond, bad, if_neg Bool.false_ne_true]

theorem takeRel_ok (ok : s.branchOk (s.relTarget h w rel) = true) :
    takeRel h w rel s = .ok (s.relTarget h w rel) s :=
  bind_run_ok (branchCheck_ok ok)

theorem takeRel_refused (bad : s.branchOk (s.relTarget h w rel) = false) :
    takeRel h w rel s = .error (.gp 0) s := by
  rw [takeRel, get_bind_run]
  exact bind_run_error (branchCheck_refused bad)

/-- A body that branches and then commits ends as a relative branch: the commit is made on every path but that
of a refused target. -/
theorem retireTo_branched {b : Bool} {body : M Word} {rest : Word → M Word}
    (run : body s = (branchIf b h w rel >>= rest) s) (iff : b = true ↔ taken)
    (commits : ∀ rip, rest rip s = .ok rip t) :
    retireTo h body s = s.branched h w rel taken t := by
  cases b with
  | false =>
    rw [branched_not_taken fun cond => Bool.false_ne_true (iff.mpr cond)]
    exact retireTo_ok (run.trans (commits _))
  | true =>
    cases target : s.branchOk (s.relTarget h w rel) with
    | true =>
      rw [branched_taken (iff.mp rfl) target]
      exact retireTo_ok (run.trans ((bind_run_ok (takeRel_ok target)).trans (commits _)))
    | false =>
      rw [branched_refused (iff.mp rfl) target]
      exact retireTo_error (run.trans (bind_run_error (takeRel_refused target)))

theorem retireTo_branchIf {b : Bool} (iff : b = true ↔ taken) :
    retireTo h (branchIf b h w rel) s = s.branched h w rel taken s :=
  retireTo_branched (by rw [bind_pure]) iff fun rip => pure_run rip s

/-- The counter of a loop, counted down (R528). -/
def State.loopCount (s : State) (h : Hdr) : Word := trunc h.a (s.regRead h.a rCX - 1)

/-- R528 to R530: a loop counts down, whether or not it branches. -/
theorem retireTo_loopBody {also : Bool} (iff : (s.loopCount h != 0 && also) = true ↔ taken) :
    retireTo h (loopBody h w rel also) s =
      s.branched h w rel taken (s.regWrite h.a rCX (s.loopCount h)) :=
  retireTo_branched (get_bind_run _ s) iff fun _ => rfl

end

/-! ### The instructions -/

/-- R521. -/
theorem exec_jmpRel (h : Hdr) (w : Width) (z : RelSize) (rel : Word) (s : State) :
    exec (.jmpRel h w z rel) s = s.branched h w rel True s :=
  retireTo_branchIf (iff_of_true rfl trivial)

/-- R523. -/
theorem exec_jcc (h : Hdr) (cc : CC) (w : Width) (z : RelSize) (rel : Word) (s : State) :
    exec (.jcc h cc w z rel) s = s.branched h w rel (s.flags.st.cond cc = true) s :=
  retireTo_branchIf Iff.rfl

/-- R531. -/
theorem exec_jrcxz (h : Hdr) (w : Width) (rel : Word) (s : State) :
    exec (.jrcxz h w rel) s = s.branched h w rel (s.regRead h.a rCX = 0) s :=
  retireTo_branchIf beq_iff_eq

/-- R528. -/
theorem exec_loop (h : Hdr) (w : Width) (rel : Word) (s : State) :
    exec (.loop h w rel) s =
      s.branched h w rel (s.loopCount h ≠ 0) (s.regWrite h.a rCX (s.loopCount h)) :=
  retireTo_loopBody (by rw [Bool.and_true, bne_iff_ne])

/-- R529. -/
theorem exec_loope (h : Hdr) (w : Width) (rel : Word) (s : State) :
    exec (.loope h w rel) s =
      s.branched h w rel (s.loopCount h ≠ 0 ∧ s.flags.st.zf = true)
        (s.regWrite h.a rCX (s.loopCount h)) :=
  retireTo_loopBody (by rw [Bool.and_eq_true, bne_iff_ne])

/-- R530. -/
theorem exec_loopne (h : Hdr) (w : Width) (rel : Word) (s : State) :
    exec (.loopne h w rel) s =
      s.branched h w rel (s.loopCount h ≠ 0 ∧ s.flags.st.zf = false)
        (s.regWrite h.a rCX (s.loopCount h)) :=
  retireTo_loopBody (by rw [Bool.and_eq_true, bne_iff_ne, Bool.not_eq_true'])

/-- R522, to a target that passes its check. -/
theorem exec_jmpInd_ok {h : Hdr} {w : Width} {o : RM} {s s1 : State} {v : Word}
    (read : readRM h w o s = .ok v s1) (ok : s.branchOk v = true) :
    exec (.jmpInd h w o) s = s.jumped h v s1 := by
  rw [← readRM_branchOk read] at ok
  exact retireTo_ok ((bind_run_ok read).trans (bind_run_ok (branchCheck_ok ok)))

/-- R522, refused. -/
theorem exec_jmpInd_refused {h : Hdr} {w : Width} {o : RM} {s s1 : State} {v : Word}
    (read : readRM h w o s = .ok v s1) (bad : s.branchOk v = false) :
    exec (.jmpInd h w o) s = s1.faults (.gp 0) := by
  rw [← readRM_branchOk read] at bad
  exact retireTo_error ((bind_run_ok read).trans (bind_run_error (branchCheck_refused bad)))

/-- R524: the check comes before the push. -/
theorem exec_callRel_refused {h : Hdr} {w : Width} {rel : Word} {s : State}
    (bad : s.branchOk (s.relTarget h w rel) = false) : exec (.callRel h w rel) s = s.faults (.gp 0) :=
  retireTo_error (bind_run_error (takeRel_refused bad))

/-- R534. -/
theorem exec_into (h : Hdr) (s : State) :
    exec (.into h) s =
      if s.flags.st.of then .next (softInt 4 .into h.len s) else s.jumped h (s.nextRip h.len) s := rfl

/-- R801: an exception without a fault address changes nothing but the outcome. -/
theorem faults_of_addr_none {f : FaultRec} (noAddr : f.addr = none) (s : State) :
    s.faults f = .next { s with outcome := some ⟨.fault f, s.retired, s.rip⟩ } := by
  have same : s.reported f = f := by rw [State.reported, noAddr, Option.map_none, ← noAddr]
  rw [State.faults, takeFault, same, noAddr, Option.getD_none]

/-- R535. -/
theorem exec_ud2 (s : State) : exec .ud2 s = s.faults .ud := rfl

/-- R713. -/
theorem exec_invalid (s : State) : exec .invalid s = s.faults .ud := rfl

end Sys2Proof.Machine

open Sys2Proof Sys2Proof.Machine

/-- Settles O51: each instruction by its own lemma, with the end its condition and its target select. -/
theorem jumpsAndLoops : Obligations.JumpsAndLoops := by
  intro h w z rel s s1 o v t c
  refine ⟨fun ok => ?taken, fun cc cond => ?jcc, fun cond => ?jrcxz, fun cond => ?loop, fun cond => ?loope,
    fun cond => ?loopne, fun read => ⟨exec_jmpInd_ok read, exec_jmpInd_refused read⟩, fun bad => ?refused,
    branchOk_iff s⟩
  case taken =>
    exact ⟨(exec_jmpRel ..).trans (branched_taken trivial ok),
      fun cc cond => (exec_jcc ..).trans (branched_taken cond ok),
      fun cond => (exec_jrcxz ..).trans (branched_taken cond ok),
      fun counts => ⟨(exec_loop ..).trans (branched_taken counts ok),
        fun zf => (exec_loope ..).trans (branched_taken ⟨counts, zf⟩ ok),
        fun zf => (exec_loopne ..).trans (branched_taken ⟨counts, zf⟩ ok)⟩⟩
  case jcc => exact (exec_jcc ..).trans (branched_not_taken (ne_true_of_eq_false cond))
  case jrcxz => exact (exec_jrcxz ..).trans (branched_not_taken cond)
  case loop => exact (exec_loop ..).trans (branched_not_taken (not_not_intro cond))
  case loope =>
    refine (exec_loope ..).trans (branched_not_taken fun ⟨counts, set⟩ => ?_)
    exact cond.elim counts fun clear => ne_true_of_eq_false clear set
  case loopne =>
    refine (exec_loopne ..).trans (branched_not_taken fun ⟨counts, clear⟩ => ?_)
    exact cond.elim counts (ne_true_of_eq_false clear)
  case refused =>
    exact ⟨(exec_jmpRel ..).trans (branched_refused trivial bad), exec_callRel_refused bad,
      fun cc cond => (exec_jcc ..).trans (branched_refused cond bad),
      fun counts => ⟨(exec_loop ..).trans (branched_refused counts bad),
        fun zf => (exec_loope ..).trans (branched_refused ⟨counts, zf⟩ bad),
        fun zf => (exec_loopne ..).trans (branched_refused ⟨counts, zf⟩ bad)⟩,
      fun cond => (exec_jrcxz ..).trans (branched_refused cond bad)⟩

/-- Settles O53: INT3 and INT n are reports and nothing else; INTO is one where OF is set; `#UD` has no fault
address. -/
theorem softwareInterruptsAndInvalid : Obligations.SoftwareInterruptsAndInvalid := by
  intro h vec s
  have ud := faults_of_addr_none (f := .ud) rfl s
  refine ⟨rfl, rfl, fun overflow => ?_, fun clear => ?_, (exec_ud2 s).trans ud, (exec_invalid s).trans ud⟩
  · rw [exec_into, if_pos overflow, softInt]
  · rw [exec_into, clear, if_neg Bool.false_ne_true]
end

section
/-! PROOF. O56: the no-operations, the fences, HLT and the single-flag instructions (R601 to R607). The
privilege checks come first. -/

namespace Sys2Proof.Machine
open Sys2Proof

/-! ### Checks before an instruction -/

theorem raiseIf_passed {c : Bool} (f : FaultRec) (ok : c = false) (s : State) : raiseIf c f s = .ok () s := by
  rw [ok, raiseIf_false, pure_run]

theorem raiseIf_raised {c : Bool} (f : FaultRec) (bad : c = true) (s : State) : raiseIf c f s = .error f s := by
  rw [bad, raiseIf_true, raise_run]

/-- R600: at level 0 the privilege check passes. -/
theorem privileged_run {s : State} (level : s.cpl = 0) : privileged s = .ok () s :=
  (get_bind_run _ s).trans (raiseIf_passed _ (by rw [level]; rfl) s)

/-- An instruction of the system class at level 0 does what follows its privilege check. -/
theorem retire_privileged {h : Hdr} {body : M Unit} {s : State} (level : s.cpl = 0) :
    retire h true (privileged >>= fun _ => body) s = retire h true body s := by
  rw [retire, bind_run_ok (privileged_run level), retire]

/-- R606, R607: where CLI and STI are allowed. -/
theorem ifAllowed_iff (s : State) : s.ifAllowed = true ↔ s.opMode = .real ∨ s.cpl ≤ s.flags.iopl := by
  rw [State.ifAllowed, Bool.or_eq_true, beq_iff_eq, decide_eq_true_iff]

/-! ### The instructions -/

theorem retire_pure (h : Hdr) (s : State) : retire h false (pure ()) s = s.done h s :=
  retire_ok (pure_run () s)

theorem retire_setFlags (h : Hdr) (f : Flags) (s : State) :
    retire h false (setFlags f) s = s.done h (s.withFlags f) :=
  retire_ok (setFlags_run f s)

/-- R602. -/
theorem exec_hlt {s : State} (h : Hdr) (level : s.cpl = 0) :
    exec (.hlt h) s = s.doneSystem h false { s with halted := true } :=
  (retire_privileged level).trans (retire_ok (modify_run _ s))

section
variable {s : State} (h : Hdr)

/-- R606. -/
theorem exec_cli_allowed (ok : s.ifAllowed = true) :
    exec (.cli h) s = s.doneSystem h false (s.withFlags { s.flags with ie := false }) :=
  retire_ok (bind_run_ok (raiseIf_passed _ (congrArg (!·) ok) s))

/-- R607. -/
theorem exec_sti_allowed (ok : s.ifAllowed = true) :
    exec (.sti h) s = s.doneSystem h (!s.flags.ie) (s.withFlags { s.flags with ie := true }) :=
  retireShadow_ok (bind_run_ok (raiseIf_passed _ (congrArg (!·) ok) s))

theorem exec_cli_refused (bad : s.ifAllowed = false) : exec (.cli h) s = s.faults (.gp 0) :=
  retire_error (bind_run_error (raiseIf_raised _ (congrArg (!·) bad) s))

theorem exec_sti_refused (bad : s.ifAllowed = false) : exec (.sti h) s = s.faults (.gp 0) :=
  retireShadow_error (bind_run_error (raiseIf_raised _ (congrArg (!·) bad) s))

end

end Sys2Proof.Machine

open Sys2Proof Sys2Proof.Machine

/-- Settles O56: the no-operations have an empty body, the flag instructions a body that sets the flags; HLT,
CLI and STI each by their check. -/
theorem noOperationsAndFlagControl : Obligations.NoOperationsAndFlagControl := by
  intro h w o s
  have nothing := retire_pure h s
  have flag := fun f => retire_setFlags h f s
  refine ⟨nothing, nothing, nothing, nothing, nothing, nothing, flag _, flag _, flag _, flag _, flag _,
    exec_hlt h, fun ok => ?allowed, fun bad => ?refused⟩
  case allowed =>
    rw [← ifAllowed_iff] at ok
    exact ⟨exec_cli_allowed h ok, exec_sti_allowed h ok⟩
  case refused =>
    rw [← ifAllowed_iff, Bool.not_eq_true] at bad
    exact ⟨exec_cli_refused h bad, exec_sti_refused h bad⟩
end

section
/-! PROOF. O57: MOV to and from the control registers (R610 to R613). What each register refuses comes first,
in the terms of the rules, and what a write to CR0 leaves in EFER. -/

namespace Sys2Proof.Machine
open Sys2Proof

/-! ### The values a control register refuses -/

/-- R612. -/
theorem cr0Refused_iff (s : State) (v : Word) : s.crRefused .cr0 v = true ↔
    field v 63 32 ≠ 0 ∨ (bit v 31 = true ∧ bit v 0 = false) ∨ (bit v 29 = true ∧ bit v 30 = false) ∨
      (bit v 31 = true ∧ s.pg = false ∧ s.lme = true ∧ (s.pae = false ∨ s.segs.cs.l = true)) ∨
      (bit v 31 = false ∧ s.pg = true ∧ s.decodeMode = .m64) := by
  simp only [State.crRefused, State.cr0Refused, State.is64, Bool.or_eq_true, Bool.and_eq_true, bne_iff_ne,
    beq_iff_eq, Bool.not_eq_true', or_assoc, and_assoc]

/-- The bits from `i` up, as a field, are 0 exactly if the word is below `2^i`. -/
theorem field_63_ne_zero_iff (v : Word) {i : Nat} (le : i ≤ 64) : field v 63 i ≠ 0 ↔ 2 ^ i ≤ v.toNat := by
  have size : 2 ^ 64 = 2 ^ i * 2 ^ (64 - i) := by rw [← Nat.pow_add, Nat.add_sub_cancel' le]
  have small : v.toNat / 2 ^ i < 2 ^ (64 - i) := Nat.div_lt_of_lt_mul (size ▸ v.isLt)
  rw [field, Nat.mod_eq_of_lt small, ne_eq, Nat.div_eq_zero_iff_lt (Nat.two_pow_pos i), Nat.not_lt]

theorem physBits_le {c : Config} (ok : c.ok = true) : c.physBits ≤ 52 := by
  simp only [Config.ok, Bool.and_eq_true, decide_eq_true_eq] at ok
  exact ok.2

/-- R613: a CR3 value is refused exactly if it is no physical address. -/
theorem cr3Refused_iff {s : State} (cfg : s.cfg.ok = true) (v : Word) :
    s.crRefused .cr3 v = true ↔ 2 ^ s.cfg.physBits ≤ v.toNat :=
  bne_iff_ne.trans (field_63_ne_zero_iff v (Nat.le_trans (physBits_le cfg) (by decide)))

/-- A word has a bit outside `CR4_SUPPORTED` exactly if it has one above bit 10. -/
theorem and_not_cr4Supported_ne_zero_iff (v : Word) : v &&& ~~~cr4Supported ≠ 0 ↔ 2 ^ 11 ≤ v.toNat := by
  have mask : ~~~cr4Supported = BitVec.allOnes 64 <<< 11 := by decide
  rw [mask, ← BitVec.shiftLeft_ushiftRight, ne_eq, ← BitVec.toNat_inj, BitVec.toNat_shiftLeft,
    BitVec.toNat_ushiftRight, Nat.shiftLeft_eq, Nat.shiftRight_eq_div_pow]
  have := v.isLt
  change ¬_ = 0 ↔ _
  omega

/-- R613. -/
theorem cr4Refused_iff (s : State) (v : Word) :
    s.crRefused .cr4 v = true ↔ 2 ^ 11 ≤ v.toNat ∨ (s.lma = true ∧ bit v 5 = false) := by
  rw [← and_not_cr4Supported_ne_zero_iff, State.crRefused, Bool.or_eq_true, bne_iff_ne, Bool.and_eq_true,
    Bool.not_eq_true']

/-! ### EFER after a write to CR0 -/

theorem and_not_or_self (x m : Word) : (x &&& ~~~m) ||| m = x ||| m := by
  ext i
  simp only [BitVec.getElem_or, BitVec.getElem_and, BitVec.getElem_not]
  cases m[i] <;> simp

/-- R612: LMA becomes `LME and PG`. -/
theorem withLma_eq_ite (efer : Word) (pg : Bool) :
    withLma efer pg = if bit efer 8 && pg then efer ||| 0x400 else efer &&& ~~~0x400 := by
  rw [withLma]
  cases bit efer 8 && pg with
  | true => exact and_not_or_self efer 0x400
  | false => exact BitVec.or_zero

/-! ### The instructions -/

section
variable {s : State} (h : Hdr) (w : Width) (r : RegNum)

/-- R610. -/
theorem exec_movFromCr (c : CReg) (level : s.cpl = 0) : exec (.movFromCr h w r c) s =
    s.doneSystem h false ((s.regWrite w (gpr r) (trunc w (s.cr c))).withFlags
      (allUndef "MOV" w (trunc w (s.cr c)).toNat 0 s.flags)) :=
  (retire_privileged level).trans (retire_ok (bind_run_ok (setReg_run w (gpr r) _ s)))

/-- R611, a value that passes its checks. -/
theorem exec_movToCr {c : CReg} (level : s.cpl = 0) (ok : s.crRefused c (s.regRead w (gpr r)) = false) :
    exec (.movToCr h w c r) s =
      s.doneSystem h false ((s.setCr c (s.regRead w (gpr r))).withFlags
        (allUndef "MOV" w (s.regRead w (gpr r)).toNat 0 s.flags)) :=
  (retire_privileged level).trans
    (retire_ok ((bind_run_ok (raiseIf_passed _ ok s)).trans (bind_run_ok (modify_run _ s))))

/-- R611, a value that is refused. -/
theorem exec_movToCr_refused {c : CReg} (level : s.cpl = 0)
    (bad : s.crRefused c (s.regRead w (gpr r)) = true) : exec (.movToCr h w c r) s = s.faults (.gp 0) :=
  (retire_privileged level).trans (retire_error (bind_run_error (raiseIf_raised _ bad s)))

end

end Sys2Proof.Machine

open Sys2Proof Sys2Proof.Machine

/-- Settles O57: each move completes or is refused as its register's check says. -/
theorem controlRegisterMoves : Obligations.ControlRegisterMoves := by
  intro h w r s level v
  refine ⟨fun c => ⟨_, exec_movFromCr h w r c level⟩, fun high pg_pe nw_cd enters leaves => ?cr0,
    ⟨_, exec_movToCr h w r level rfl⟩, fun cfg fits => ?cr3, fun fits pae => ?cr4,
    fun bad => exec_movToCr_refused h w r level ((cr0Refused_iff s v).mpr bad),
    fun cfg big => exec_movToCr_refused h w r level ((cr3Refused_iff cfg v).mpr big),
    fun bad => exec_movToCr_refused h w r level ((cr4Refused_iff s v).mpr bad)⟩
  case cr0 =>
    have passes : s.crRefused .cr0 v = false := by
      rw [← Bool.not_eq_true, cr0Refused_iff]
      rintro (bad | ⟨pg, pe⟩ | ⟨nw, cd⟩ | ⟨pg, off, lme, bad⟩ | ⟨off, pg, long⟩)
      · exact bad high
      · exact ne_true_of_eq_false pe (pg_pe pg)
      · exact ne_true_of_eq_false cd (nw_cd nw)
      · obtain ⟨pae, cs_l⟩ := enters pg off lme
        exact bad.elim (fun clear => ne_true_of_eq_false clear pae) (ne_true_of_eq_false cs_l)
      · exact leaves off pg long
    have efer : withLma s.efer (bit v 31) =
        if s.lme && bit v 31 then s.efer ||| 0x400 else s.efer &&& ~~~0x400 := withLma_eq_ite _ _
    rw [← efer]
    exact ⟨_, exec_movToCr h w r level passes⟩
  case cr3 =>
    have passes : s.crRefused .cr3 v = false := by
      rw [← Bool.not_eq_true, cr3Refused_iff cfg]
      exact Nat.not_le_of_lt fits
    exact ⟨_, exec_movToCr h w r level passes⟩
  case cr4 =>
    have passes : s.crRefused .cr4 v = false := by
      rw [← Bool.not_eq_true, cr4Refused_iff]
      rintro (big | ⟨long, clear⟩)
      · exact Nat.not_le_of_lt fits big
      · exact ne_true_of_eq_false clear (pae long)
    exact ⟨_, exec_movToCr h w r level passes⟩
end

section
/-! PROOF. O60: RDMSR and WRMSR by the MSR map (R623 to R625), and CPUID (R628). The 32-bit registers that name
the MSR and carry its value come first, in numbers; then the map and the values it refuses. -/

namespace Sys2Proof.Machine
open Sys2Proof

/-! ### The 32-bit registers -/

theorem regRead_w32_toNat (s : State) (r : RegNum) :
    (s.regRead .w32 (gpr r)).toNat = (s.x r).toNat % 2 ^ 32 := by
  rw [regRead_gpr, trunc_toNat, Width.bits]

theorem regRead_w32_setWidth (s : State) (r : RegNum) :
    (s.regRead .w32 (gpr r)).setWidth 32 = (s.x r).setWidth 32 := by
  rw [regRead_gpr, trunc, Width.bits, BitVec.setWidth_setWidth_of_le _ (by decide), BitVec.setWidth_eq]

/-- The index of RDMSR and WRMSR (R623, R625). -/
def State.msrIndex (s : State) : Nat := (s.x 1).toNat % 2 ^ 32

theorem regRead_rCX_toNat (s : State) : (s.regRead .w32 rCX).toNat = s.msrIndex := regRead_w32_toNat s 1

theorem edxEax_eq (s : State) :
    s.edxEax = BitVec.ofNat 64 ((s.x 2).toNat % 2 ^ 32 * 2 ^ 32 + (s.x 0).toNat % 2 ^ 32) := by
  have low : (s.x 0).toNat % 2 ^ 32 < 2 ^ 32 := Nat.mod_lt _ (Nat.two_pow_pos 32)
  have high : (s.x 2).toNat % 2 ^ 32 * 2 ^ 32 < 2 ^ 64 := by omega
  apply BitVec.eq_of_toNat_eq
  rw [State.edxEax, rDX, rAX, BitVec.toNat_or, BitVec.toNat_shiftLeft, regRead_w32_toNat, regRead_w32_toNat,
    Nat.shiftLeft_eq, Nat.mod_eq_of_lt high, ← Nat.shiftLeft_eq, ← Nat.shiftLeft_add_eq_or_of_lt low,
    Nat.shiftLeft_eq, BitVec.toNat_ofNat]
  omega

/-- A 32-bit write stores the low half of its value. -/
theorem regWrite_w32_low (s : State) (r : Gpr) (v : Word) :
    s.regWrite .w32 r (BitVec.ofNat 64 (v.toNat % 2 ^ 32)) = s.regWrite .w32 r v := by
  have low : trunc .w32 (BitVec.ofNat 64 (v.toNat % 2 ^ 32)) = trunc .w32 v := by
    apply BitVec.eq_of_toNat_eq
    rw [trunc_toNat, trunc_toNat, BitVec.toNat_ofNat, Width.bits]
    omega
  exact congrArg (s.setX r.num) low

theorem ushiftRight_32_eq (v : Word) : v >>> 32 = BitVec.ofNat 64 (v.toNat / 2 ^ 32) := by
  apply BitVec.eq_of_toNat_eq
  rw [BitVec.toNat_ushiftRight, Nat.shiftRight_eq_div_pow, BitVec.toNat_ofNat]
  omega

/-! ### The MSR map (R624) -/

/-- The indices of the four MSRs that are not plain storage. -/
def NamedMsr (index : Nat) : Prop :=
  index = 0xC0000080 ∨ index = 0xC0000100 ∨ index = 0xC0000101 ∨ index = 0xC0000102

section
variable {s : State} {index : Nat}

theorem msrOf_efer (eq : index = 0xC0000080) : s.msrOf index = some .efer := by rw [eq]; rfl

theorem msrOf_fsBase (eq : index = 0xC0000100) : s.msrOf index = some .fsBase := by rw [eq]; rfl

theorem msrOf_gsBase (eq : index = 0xC0000101) : s.msrOf index = some .gsBase := by rw [eq]; rfl

theorem msrOf_kernelGsBase (eq : index = 0xC0000102) : s.msrOf index = some .kernelGsBase := by rw [eq]; rfl

theorem msrOf_unnamed (unnamed : ¬NamedMsr index) :
    s.msrOf index = if ∃ e ∈ s.cfg.msrExtra, e.toNat = index then some (.extra index) else none := by
  obtain ⟨efer, fs, gs, kernelGs⟩ : index ≠ 0xC0000080 ∧ index ≠ 0xC0000100 ∧ index ≠ 0xC0000101 ∧
      index ≠ 0xC0000102 := by rwa [NamedMsr, not_or, not_or, not_or] at unnamed
  simp only [State.msrOf, beq_iff_eq, List.any_eq_true, efer, fs, gs, kernelGs, if_false]

end

/-- R625: the values EFER refuses. -/
theorem eferRefused_iff (s : State) (v : Word) : s.msrRefused .efer v = true ↔
    v &&& ~~~0xD01 ≠ 0 ∨ (s.pg = true ∧ bit v 8 ≠ s.lme) := by
  have mask : eferWritable ||| 0x400 = 0xD01 := by decide
  rw [State.msrRefused, mask, Bool.or_eq_true, bne_iff_ne, Bool.and_eq_true, bne_iff_ne, and_comm]

/-! ### The instructions -/

section
variable {s : State} (h : Hdr) {r : Msr} {v : Word}

/-- R623. -/
theorem exec_rdmsr (level : s.cpl = 0) (found : s.msrOf s.msrIndex = some r) (value : s.msrRead r = v) :
    exec (.rdmsr h) s = s.doneSystem h false
      ((s.regWrite .w32 rAX (BitVec.ofNat 64 (v.toNat % 2 ^ 32))).regWrite .w32 rDX
        (BitVec.ofNat 64 (v.toNat / 2 ^ 32))) := by
  refine (retire_privileged level).trans ?_
  rw [regRead_rCX_toNat, found, regWrite_w32_low, ← ushiftRight_32_eq, ← value]
  exact retire_ok (bind_run_ok (setReg_run .w32 rAX _ s))

theorem exec_rdmsr_unmapped (level : s.cpl = 0) (unmapped : s.msrOf s.msrIndex = none) :
    exec (.rdmsr h) s = s.faults (.gp 0) := by
  refine (retire_privileged level).trans ?_
  rw [regRead_rCX_toNat, unmapped]
  exact retire_error (raise_run _ s)

/-- R625, a value that passes its checks. -/
theorem exec_wrmsr (level : s.cpl = 0) (found : s.msrOf s.msrIndex = some r) (value : s.edxEax = v)
    (ok : s.msrRefused r v = false) :
    exec (.wrmsr h) s = s.doneSystem h false (s.msrWrite r v) := by
  refine (retire_privileged level).trans ?_
  rw [regRead_rCX_toNat, found, value]
  exact retire_ok (bind_run_ok (raiseIf_passed _ ok s))

/-- R625, a value that is refused. -/
theorem exec_wrmsr_refused (level : s.cpl = 0) (found : s.msrOf s.msrIndex = some r) (value : s.edxEax = v)
    (bad : s.msrRefused r v = true) : exec (.wrmsr h) s = s.faults (.gp 0) := by
  refine (retire_privileged level).trans ?_
  rw [regRead_rCX_toNat, found, value]
  exact retire_error (bind_run_error (raiseIf_raised _ bad s))

theorem exec_wrmsr_unmapped (level : s.cpl = 0) (unmapped : s.msrOf s.msrIndex = none) :
    exec (.wrmsr h) s = s.faults (.gp 0) := by
  refine (retire_privileged level).trans ?_
  rw [regRead_rCX_toNat, unmapped]
  exact retire_error (raise_run _ s)

/-- R628. -/
theorem exec_cpuid (s : State) : exec (.cpuid h) s =
    let c := cpuidTable ((s.x 0).setWidth 32) ((s.x 1).setWidth 32)
    s.doneSystem h false
      ((((s.regWrite .w32 rAX (c.eax.setWidth 64)).regWrite .w32 rBX (c.ebx.setWidth 64)).regWrite .w32 rCX
        (c.ecx.setWidth 64)).regWrite .w32 rDX (c.edx.setWidth 64)) := by
  rw [← regRead_w32_setWidth s 0, ← regRead_w32_setWidth s 1]
  rfl

end

end Sys2Proof.Machine

open Sys2Proof Sys2Proof.Machine

/-- Settles O60: the map gives the MSR of each index, whose reads and writes are those of RDMSR and WRMSR. -/
theorem msrsAndCpuid : Obligations.MsrsAndCpuid := by
  intro h s idx v extra read named
  have value : s.edxEax = v := edxEax_eq s
  refine ⟨fun level => ⟨fun efer => ?efer, fun fsBase => ?fsBase, fun gsBase => ?gsBase,
    fun kernelGsBase => ?kernelGsBase, fun unnamed listed => ?extra, fun unnamed unlisted => ?unmapped,
    fun is_named not_efer bad => ?refused⟩, exec_cpuid h s⟩
  case efer =>
    have found : s.msrOf idx = some .efer := msrOf_efer efer
    refine ⟨exec_rdmsr h level found rfl, fun reserved paging => ?_, fun bad => ?_⟩
    · have passes : s.msrRefused .efer v = false := by
        rw [← Bool.not_eq_true, eferRefused_iff]
        rintro (bad | ⟨pg, bad⟩)
        · exact bad reserved
        · exact bad (paging pg)
      exact exec_wrmsr h level found value passes
    · exact exec_wrmsr_refused h level found value ((eferRefused_iff s v).mpr bad)
  case fsBase =>
    have found : s.msrOf idx = some .fsBase := msrOf_fsBase fsBase
    exact ⟨exec_rdmsr h level found rfl, fun ok => exec_wrmsr h level found value (congrArg (!·) ok)⟩
  case gsBase =>
    have found : s.msrOf idx = some .gsBase := msrOf_gsBase gsBase
    exact ⟨exec_rdmsr h level found rfl, fun ok => exec_wrmsr h level found value (congrArg (!·) ok)⟩
  case kernelGsBase =>
    have found : s.msrOf idx = some .kernelGsBase := msrOf_kernelGsBase kernelGsBase
    exact ⟨exec_rdmsr h level found rfl, fun ok => exec_wrmsr h level found value (congrArg (!·) ok)⟩
  case extra =>
    have found : s.msrOf idx = some (.extra idx) := (msrOf_unnamed unnamed).trans (if_pos listed)
    exact ⟨exec_rdmsr h level found rfl, fun wf =>
      ⟨_, exec_wrmsr h level found value rfl, fun k => sparseGet_set _ idx k v wf⟩⟩
  case unmapped =>
    have unmapped : s.msrOf idx = none := (msrOf_unnamed unnamed).trans (if_neg unlisted)
    exact ⟨exec_rdmsr_unmapped h level unmapped, exec_wrmsr_unmapped h level unmapped⟩
  case refused =>
    have refused : (!canonical v) = true := congrArg (!·) bad
    rcases is_named with efer | fsBase | gsBase | kernelGsBase
    · exact absurd efer not_efer
    · exact exec_wrmsr_refused h level (msrOf_fsBase fsBase) value refused
    · exact exec_wrmsr_refused h level (msrOf_gsBase gsBase) value refused
    · exact exec_wrmsr_refused h level (msrOf_kernelGsBase kernelGsBase) value refused
end

section
/-! PROOF. O37, O38, O39: the two-operand operations, CMP and TEST (R453 to R462). The operands that the five
forms read have the width of the operation, immediates because a well-formed one is its own truncation; what
the flag computations mean in numbers is in `Laws/Flags`. -/

namespace Sys2Proof.Machine
open Sys2Proof

/-! ### Widths of the operands -/

theorem lt_of_trunc_eq {w : Width} {u v : Word} (eq : trunc w u = v) : v.toNat < 2 ^ w.bits := eq ▸ trunc_lt w u

theorem lt_of_immBZok {w : Width} {imm : Word} (ok : immBZok w imm = true) : imm.toNat < 2 ^ w.bits := by
  cases w <;> exact lt_of_trunc_eq (beq_iff_eq.mp ok)

theorem lt_of_imm8ok {w : Width} {imm : Word} (ok : imm8ok w imm = true) : imm.toNat < 2 ^ w.bits :=
  lt_of_trunc_eq (beq_iff_eq.mp ok)

/-- A well-formed immediate of a two-operand operation fits its width. -/
theorem AluForm.imm_lt {m : DecodeMode} {h : Hdr} {lock : Bool} {w : Width} {dst : RM} {imm : Word} {f : AluForm}
    (wf : f.wf m h lock = true) (is_imm : f = .acc w imm ∨ f = .mi w dst imm ∨ f = .mis w dst imm) :
    imm.toNat < 2 ^ w.bits := by
  rcases is_imm with rfl | rfl | rfl <;> simp only [AluForm.wf, Bool.and_eq_true] at wf
  · exact lt_of_immBZok wf.1.2
  · exact lt_of_immBZok wf.1.2
  · exact lt_of_imm8ok wf.1.2

theorem aluOperands_lt {m : DecodeMode} {h : Hdr} {lock : Bool} {f : AluForm} {s t : State} {o : AluOperands}
    (wf : f.wf m h lock = true) (read : aluOperands h f s = .ok o t) :
    o.a.toNat < 2 ^ o.w.bits ∧ o.b.toNat < 2 ^ o.w.bits := by
  cases f with
  | mr w dst src =>
    obtain ⟨⟨a, p⟩, u, dest, rest⟩ := bind_ok.mp read
    cases rest
    exact ⟨destRead_lt dest, regRead_lt _ _ _⟩
  | rm w dst src =>
    obtain ⟨b, u, source, rest⟩ := bind_ok.mp read
    cases rest
    exact ⟨regRead_lt _ _ _, readRM_lt source⟩
  | acc w imm =>
    cases read
    exact ⟨regRead_lt _ _ _, AluForm.imm_lt (dst := .reg rAX) wf (.inl rfl)⟩
  | mi w dst imm =>
    obtain ⟨⟨a, p⟩, u, dest, rest⟩ := bind_ok.mp read
    cases rest
    exact ⟨destRead_lt dest, AluForm.imm_lt wf (.inr (.inl rfl))⟩
  | mis w dst imm =>
    obtain ⟨⟨a, p⟩, u, dest, rest⟩ := bind_ok.mp read
    cases rest
    exact ⟨destRead_lt dest, AluForm.imm_lt wf (.inr (.inr rfl))⟩

theorem cmpOperands_lt {m : DecodeMode} {h : Hdr} {lock : Bool} {f : AluForm} {s t : State} {w : Width} {a b : Word}
    (wf : f.wf m h lock = true) (read : cmpOperands h f s = .ok (w, a, b) t) :
    a.toNat < 2 ^ w.bits ∧ b.toNat < 2 ^ w.bits := by
  cases f with
  | mr w dst src =>
    obtain ⟨x, u, dest, rest⟩ := bind_ok.mp read
    cases rest
    exact ⟨readRM_lt dest, regRead_lt _ _ _⟩
  | rm w dst src =>
    obtain ⟨x, u, source, rest⟩ := bind_ok.mp read
    cases rest
    exact ⟨regRead_lt _ _ _, readRM_lt source⟩
  | acc w imm =>
    cases read
    exact ⟨regRead_lt _ _ _, AluForm.imm_lt (dst := .reg rAX) wf (.inl rfl)⟩
  | mi w dst imm =>
    obtain ⟨x, u, dest, rest⟩ := bind_ok.mp read
    cases rest
    exact ⟨readRM_lt dest, AluForm.imm_lt wf (.inr (.inl rfl))⟩
  | mis w dst imm =>
    obtain ⟨x, u, dest, rest⟩ := bind_ok.mp read
    cases rest
    exact ⟨readRM_lt dest, AluForm.imm_lt wf (.inr (.inr rfl))⟩

theorem testOperands_lt {m : DecodeMode} {h : Hdr} {f : TestForm} {s t : State} {w : Width} {a b : Word}
    (wf : (Instr.test h f).wf m = true) (read : testOperands h f s = .ok (w, a, b) t) :
    a.toNat < 2 ^ w.bits ∧ b.toNat < 2 ^ w.bits := by
  cases f with
  | mr w x y =>
    obtain ⟨v, u, dest, rest⟩ := bind_ok.mp read
    cases rest
    exact ⟨readRM_lt dest, regRead_lt _ _ _⟩
  | acc w imm =>
    cases read
    simp only [Instr.wf, Bool.and_eq_true] at wf
    exact ⟨regRead_lt _ _ _, lt_of_immBZok wf.2⟩
  | mi w x imm =>
    obtain ⟨v, u, dest, rest⟩ := bind_ok.mp read
    cases rest
    simp only [Instr.wf, Bool.and_eq_true] at wf
    exact ⟨readRM_lt dest, lt_of_immBZok wf.2⟩

/-! ### The instructions -/

/-- An instruction whose body is one two-operand operation commits what it computes (R453). -/
theorem retire_aluWrite {h : Hdr} {f : AluForm} {s s1 : State} {o : AluOperands}
    (g : Width → Word → Word → Flags → Computed) (read : aluOperands h f s = .ok o s1) :
    retire h false (aluWrite h g f) s = s.done h (s1.commit o.w o.dst o.span (g o.w o.a o.b s.flags)) :=
  retire_ok (aluWrite_run g read)

/-- R462: TEST commits the flags of the bitwise and. -/
theorem exec_test {h : Hdr} {f : TestForm} {s s1 : State} {w : Width} {a b : Word}
    (read : testOperands h f s = .ok (w, a, b) s1) :
    exec (.test h f) s = s.done h (s1.withFlags (testFlags w a b s.flags).flags) := by
  refine retire_ok ?_
  cases f with
  | mr w x y =>
    obtain ⟨v, u, dest, rest⟩ := bind_ok.mp read
    have same := readRM_withMs dest
    cases rest
    simp only [testBody]
    rw [bind_run_ok dest, same]
    rfl
  | acc w imm => cases read; rfl
  | mi w x imm =>
    obtain ⟨v, u, dest, rest⟩ := bind_ok.mp read
    have same := readRM_withMs dest
    cases rest
    simp only [testBody]
    rw [bind_run_ok dest, same]
    rfl

theorem and_lt {w : Width} {a : Word} (b : Word) (lt : a.toNat < 2 ^ w.bits) : (a &&& b).toNat < 2 ^ w.bits := by
  rw [BitVec.toNat_and]
  exact Nat.lt_of_le_of_lt Nat.and_le_left lt

end Sys2Proof.Machine

open Sys2Proof Sys2Proof.Machine

/-- Settles O37: each operation commits what its flag computation gives, which means the sum or difference. -/
theorem addAndSubtract : Obligations.AddAndSubtract := by
  intro m h f s s1 o wf read
  obtain ⟨a_lt, b_lt⟩ := aluOperands_lt wf read
  exact ⟨⟨_, addFlags_means _ _ _ _ _ a_lt b_lt, retire_aluWrite _ read⟩,
    ⟨_, addFlags_means _ _ _ _ _ a_lt b_lt, retire_aluWrite _ read⟩,
    ⟨_, subFlags_means _ _ _ _ _ a_lt b_lt, retire_aluWrite _ read⟩,
    ⟨_, subFlags_means _ _ _ _ _ a_lt b_lt, retire_aluWrite _ read⟩⟩

/-- Settles O38: each operation commits the bitwise result, which has the width of its operands. -/
theorem logicOperations : Obligations.LogicOperations := by
  intro m h f s s1 o wf read
  obtain ⟨a_lt, b_lt⟩ := aluOperands_lt wf read
  have or_lt : (o.a ||| o.b).toNat < 2 ^ o.w.bits := by
    rw [BitVec.toNat_or]; exact Nat.or_lt_two_pow a_lt b_lt
  have xor_lt : (o.a ^^^ o.b).toNat < 2 ^ o.w.bits := by
    rw [BitVec.toNat_xor]; exact Nat.xor_lt_two_pow a_lt b_lt
  exact ⟨⟨_, logicFlags_means _ _ _ _ _ _ (and_lt _ a_lt), retire_aluWrite _ read⟩,
    ⟨_, logicFlags_means _ _ _ _ _ _ or_lt, retire_aluWrite _ read⟩,
    ⟨_, logicFlags_means _ _ _ _ _ _ xor_lt, retire_aluWrite _ read⟩⟩

/-- Settles O39: CMP and TEST commit the flags of SUB and AND and write no operand. -/
theorem cmpAndTest : Obligations.CmpAndTest := by
  refine fun m h s s1 w a b => ⟨fun f wf read => ?_, fun f wf read => ?_⟩
  · obtain ⟨a_lt, b_lt⟩ := cmpOperands_lt wf read
    exact ⟨_, subFlags_means _ _ _ _ _ a_lt b_lt, retire_ok (aluCompare_run _ read)⟩
  · obtain ⟨a_lt, -⟩ := testOperands_lt wf read
    exact ⟨_, logicFlags_means _ _ _ _ _ _ (and_lt _ a_lt), exec_test read⟩
end

section
/-! PROOF. O46: the general forms of MOV (R401 to R404). -/

open Sys2Proof Sys2Proof.Machine

/-- Settles O46: each form reads its source, then writes its destination. -/
theorem moves : Obligations.Moves := by
  refine fun h w s s1 o r mo v p => ⟨fun dest => ⟨?mr, ?mi⟩, fun source => ?rm, rfl, fun source => ?fromMoffs,
    fun dest => ?toMoffs⟩
  case mr => exact retire_ok ((bind_run_ok (readReg_run w r s)).trans (writeRM_run _ dest))
  case mi => exact retire_ok (writeRM_run v dest)
  case rm => exact retire_ok ((bind_run_ok source).trans (setReg_run w r v s1))
  case fromMoffs => exact retire_ok ((bind_run_ok source).trans (setReg_run w rAX v s1))
  case toMoffs => exact retire_ok ((bind_run_ok (readReg_run w rAX s)).trans (writeRM_run _ dest))
end

section
/-! PROOF. O49: the condition codes (R338). Three of them compare the operands of a subtraction: B by its borrow,
E by its zero result, L by the sign of its result and its signed overflow. -/

namespace Sys2Proof.Machine
open Sys2Proof

section
variable {w : Width} {a b : Word} {fl : Flags} {c : Computed} (sub : SubMeans w a b false fl c)
  (a_lt : a.toNat < 2 ^ w.bits) (b_lt : b.toNat < 2 ^ w.bits)
include sub a_lt b_lt

omit a_lt b_lt in
theorem SubMeans.cond_b_iff : c.flags.st.cond .b = true ↔ a.toNat < b.toNat := sub.cf

theorem SubMeans.cond_e_iff : c.flags.st.cond .e = true ↔ a.toNat = b.toNat := by
  have zero : c.flags.st.cond .e = true ↔ c.value.toNat = 0 := sub.rest.zf
  have value := sub.value
  simp only [Bool.toNat_false] at value
  rw [zero]
  cases w <;> simp only [Width.bits] at * <;> omega

theorem SubMeans.cond_l_iff : c.flags.st.cond .l = true ↔ sint w a < sint w b := by
  have sign := sub.rest.sf
  have overflow := sub.of
  have value := sub.value
  have value_a := sint_eq w a a_lt
  have value_b := sint_eq w b b_lt
  have differ : c.flags.st.cond .l = true ↔ ¬(c.flags.st.sf = true ↔ c.flags.st.of = true) := by
    cases hs : c.flags.st.sf <;> cases ho : c.flags.st.of <;> simp [SFlags.cond, hs, ho]
  rw [differ, sign, overflow]
  simp only [Bool.toNat_false] at value ⊢
  split at value_a <;> split at value_b <;> cases w <;> simp only [Width.bits] at * <;> omega

end

end Sys2Proof.Machine

open Sys2Proof Sys2Proof.Machine

/-- Settles O49. -/
theorem conditionCodes : Obligations.ConditionCodes := by
  intro f
  refine ⟨⟨rfl, rfl⟩, ⟨rfl, rfl⟩, ⟨rfl, rfl⟩, ⟨rfl, rfl⟩, ⟨rfl, rfl⟩, ⟨rfl, ?a⟩, ⟨rfl, ?ge⟩, ⟨rfl, ?g⟩,
    fun w a b fl c sub a_lt b_lt => ⟨sub.cond_b_iff, sub.cond_e_iff a_lt b_lt, sub.cond_l_iff a_lt b_lt⟩⟩
  case a => exact (Bool.not_or ..).symm
  case ge => exact (Bool.not_not _).symm
  case g => simp only [SFlags.cond, Bool.not_or, bne, Bool.not_not]
end

section
/-! PROOF. O50: the stack instructions (R420 to R426). Their accesses are in `Laws/Operands`; what POPF makes of
the flags is compared with the word of R425 bit by bit. -/

namespace Sys2Proof.Machine
open Sys2Proof

/-! ### The word of POPF (R425) -/

theorem getLsbD_flagAt (b : Bool) {i : Nat} (j : Nat) (lt : i < 64) :
    (flagAt b i).getLsbD j = (b && decide (j = i)) := by
  cases b with
  | false => simp [flagAt]
  | true =>
    have one : BitVec.ofNat 64 (2 ^ i) = BitVec.twoPow 64 i := by
      apply BitVec.eq_of_toNat_eq; simp [BitVec.toNat_twoPow]
    simp [flagAt, one, BitVec.getLsbD_twoPow, eq_comm, lt]

theorem getLsbD_iopl (x : BitVec 2) (j : Nat) : (x.setWidth 64 <<< 12).getLsbD j =
    (x.getLsbD 0 && decide (j = 12) || x.getLsbD 1 && decide (j = 13)) := by
  by_cases low : j < 14
  · match j, low with
    | 0, _ | 1, _ | 2, _ | 3, _ | 4, _ | 5, _ | 6, _ | 7, _ | 8, _ | 9, _ | 10, _ | 11, _ | 12, _ | 13, _ => simp
    | j + 14, low => omega
  · simp [show j ≠ 12 by omega, show j ≠ 13 by omega, BitVec.getLsbD_of_ge x (j - 12) (by omega)]

/-- R115: the flags register, bit by bit. -/
theorem getLsbD_image (f : Flags) (j : Nat) : f.image.getLsbD j =
    (f.st.cf && decide (j = 0) || true && decide (j = 1) || f.st.pf && decide (j = 2) ||
      f.st.af && decide (j = 4) || f.st.zf && decide (j = 6) || f.st.sf && decide (j = 7) ||
      f.tf && decide (j = 8) || f.ie && decide (j = 9) || f.df && decide (j = 10) ||
      f.st.of && decide (j = 11) ||
      (f.iopl.getLsbD 0 && decide (j = 12) || f.iopl.getLsbD 1 && decide (j = 13)) ||
      f.nt && decide (j = 14) || f.rf && decide (j = 16) || f.vm && decide (j = 17) ||
      f.ac && decide (j = 18) || f.vif && decide (j = 19) || f.vip && decide (j = 20) ||
      f.id && decide (j = 21)) := by
  simp only [Flags.image, BitVec.getLsbD_or, getLsbD_iopl, getLsbD_flagAt, Nat.reduceLT]

/-- The bits of the flags that POPF changes. -/
def popfMask (w : Width) (cpl iopl : BitVec 2) : Word :=
  let mask : Word := 0x7FD5 ||| (if 32 ≤ w.bits then 0x240000 else 0)
  let mask := if 0 < cpl then mask &&& ~~~0x3000 else mask
  if iopl < cpl then mask &&& ~~~0x200 else mask

theorem getLsbD_popfMask (w : Width) (cpl iopl : BitVec 2) (j : Nat) (lt : j < 64) : (popfMask w cpl iopl).getLsbD j =
    ((0x7FD5 : Word).getLsbD j && !(decide (0 < cpl) && decide (j = 12 ∨ j = 13)) &&
        !(decide (iopl < cpl) && decide (j = 9)) ||
      decide (32 ≤ w.bits) && decide (j = 18 ∨ j = 21)) := by
  unfold popfMask
  by_cases wide : 32 ≤ w.bits <;> by_cases above : 0 < cpl <;> by_cases under : iopl < cpl <;>
    simp only [wide, above, under, if_true, if_false] <;> revert j <;> decide
theorem popfFlags_iopl (w : Width) (cpl : BitVec 2) (v : Word) (f : Flags) {i : Nat} (lt : i < 2) :
    (popfFlags w cpl v f).iopl.getLsbD i = if 0 < cpl then f.iopl.getLsbD i else bit v (12 + i) := by
  simp only [popfFlags]
  split
  · rfl
  · change (BitVec.ofNat 2 (v.toNat / 2 ^ 12 % 2 ^ 2)).getLsbD i = v.toNat.testBit (12 + i)
    simp only [BitVec.getLsbD_ofNat, Nat.testBit_mod_two_pow, Nat.testBit_div_two_pow, lt, decide_true, Bool.true_and,
      Nat.add_comm]

theorem popfFlags_image (w : Width) (cpl : BitVec 2) (v : Word) (f : Flags) :
    (popfFlags w cpl v f).image =
      ((f.image &&& ~~~popfMask w cpl f.iopl) ||| (v &&& popfMask w cpl f.iopl)) &&& ~~~0x10000 := by
  apply BitVec.eq_of_getLsbD_eq
  intro j hj
  simp only [BitVec.getLsbD_and, BitVec.getLsbD_or, BitVec.getLsbD_not, hj, decide_true, Bool.true_and,
    getLsbD_popfMask _ _ _ _ hj, getLsbD_image, popfFlags_iopl _ _ _ _ (show 0 < 2 by decide),
    popfFlags_iopl _ _ _ _ (show 1 < 2 by decide)]
  simp only [popfFlags, bit]
  by_cases low : j < 22
  · clear hj
    match j, low with
    | 0, _ | 1, _ | 2, _ | 3, _ | 4, _ | 5, _ | 6, _ | 7, _ | 8, _ | 9, _ | 10, _ | 11, _ | 12, _ | 13, _ | 14, _
    | 15, _ | 16, _ | 17, _ | 18, _ | 19, _ | 20, _ | 21, _ =>
      simp <;> split <;> simp [*]
    | j + 22, low => omega
  · have out : ∀ k, k < 22 → decide (j = k) = false := fun k hk => decide_eq_false (by omega)
    have mask : (0x7FD5#64).getLsbD j = false := BitVec.getLsbD_of_ge (w := 15) 0x7FD5 j (by omega)
    have rf : (0x10000#64).getLsbD j = false := BitVec.getLsbD_of_ge (w := 17) 0x10000 j (by omega)
    simp [out, mask, rf, show j ≠ 18 by omega, show j ≠ 21 by omega]

/-! ### The instructions -/

section
variable {h : Hdr} {w : Width} {s s1 : State} {v : Word} {p : Span}

/-- R424. -/
theorem exec_pushf (room : openAccess .ss (s.spMinus w.bytes) w.bytes .write s = .ok p s1) :
    exec (.pushf h w) s = s.done h
      ((s1.stored p w.bytes (trunc w (s.flags.image &&& 0xFCFFFF))).setSp (s.spMinus w.bytes)) :=
  retire_ok ((get_bind_run _ s).trans (push_run room))

/-- R422, a source that is read first. -/
theorem exec_push_rm {s2 : State} {o : RM} (source : readRM h w o s = .ok v s1)
    (room : openAccess .ss (s.spMinus w.bytes) w.bytes .write s1 = .ok p s2) :
    exec (.push h (.rm w o)) s = s.done h ((s2.stored p w.bytes v).setSp (s.spMinus w.bytes)) := by
  have sp : s1.spMinus w.bytes = s.spMinus w.bytes := by rw [readRM_withMs source]; rfl
  exact retire_ok ((bind_run_ok source).trans (sp ▸ push_run (sp ▸ room)))

/-- R423, a register destination. -/
theorem exec_pop_reg (top : memRead .ss s.sp w.bytes s = .ok v s1) (r : Gpr) :
    exec (.pop h (.reg w r)) s = s.done h ((s1.setSp (s.spPlus w.bytes)).regWrite w r v) :=
  retire_ok ((bind_run_ok (pop_run top)).trans (setReg_run w r v _))

/-- R423, a memory destination. -/
theorem exec_pop_mem {s2 : State} {mo : MemOp} (top : memRead .ss s.sp w.bytes s = .ok v s1)
    (dest : openAccess mo.seg (s.popEa h w mo) w.bytes .write s1 = .ok p s2) :
    exec (.pop h (.rm w (.mem mo))) s = s.done h ((s2.stored p w.bytes v).setSp (s.spPlus w.bytes)) :=
  retire_ok ((get_bind_run _ s).trans ((bind_run_ok top).trans ((bind_run_ok (memWrite_run dest)).trans
    (modify_run _ _))))

/-- R425. -/
theorem exec_popf (top : memRead .ss s.sp w.bytes s = .ok v s1) : exec (.popf h w) s =
    s.doneSystem h false ((s1.setSp (s.spPlus w.bytes)).withFlags (popfFlags w s.cpl v s.flags)) := by
  have same := memRead_withMs top
  refine retire_ok ((bind_run_ok (pop_run top)).trans ?_)
  rw [same]
  rfl

/-- R426. -/
theorem exec_leave (top : memRead .ss (s.regRead s.stackSize rBP) w.bytes s = .ok v s1) :
    exec (.leave h w) s = s.done h
      ((s1.setSp (trunc s.stackSize (s.regRead s.stackSize rBP + BitVec.ofNat 64 w.bytes))).regWrite w rBP v) :=
  retire_ok ((get_bind_run _ s).trans ((bind_run_ok top).trans ((bind_run_ok (modify_run _ s1)).trans
    (setReg_run w rBP v _))))

end

end Sys2Proof.Machine

open Sys2Proof Sys2Proof.Machine

/-- Settles O50: each instruction by its own lemma. -/
theorem stackInstructions : Obligations.StackInstructions := by
  refine fun h w s s1 s2 v p => ⟨fun room => ⟨fun r => ?reg, ?imm, ?imm, exec_pushf room⟩,
    fun o source room => exec_push_rm source ?room,
    fun top => ⟨exec_pop_reg top, exec_pop_reg top, fun mo dest => exec_pop_mem top dest,
      ⟨_, exec_popf top, popfFlags_image w s.cpl v s.flags⟩⟩, exec_leave⟩
  case reg => exact retire_ok ((bind_run_ok (readReg_run w r s)).trans (push_run room))
  case imm => exact retire_ok (push_run room)
  case room => exact room
end

section
/-! PROOF. O52: CALL and RET (R524 to R527). The check of a target comes before the push or the move of the stack
pointer. -/

namespace Sys2Proof.Machine
open Sys2Proof

section
variable {h : Hdr} {w : Width} {s s1 s2 : State} {rel v : Word} {p : Span} {o : RM} {extra : Nat}

theorem pushReturn_run (room : openAccess .ss (s.spMinus w.bytes) w.bytes .write s = .ok p s1) :
    pushReturn h w s = .ok () ((s1.stored p w.bytes (trunc w (s.nextRip h.len))).setSp (s.spMinus w.bytes)) :=
  (get_bind_run _ s).trans (push_run room)

/-- R524, a target that passes its check. -/
theorem exec_callRel_ok (ok : s.branchOk (s.relTarget h w rel) = true)
    (room : openAccess .ss (s.spMinus w.bytes) w.bytes .write s = .ok p s1) :
    exec (.callRel h w rel) s = s.jumped h (s.relTarget h w rel)
      ((s1.stored p w.bytes (trunc w (s.nextRip h.len))).setSp (s.spMinus w.bytes)) :=
  retireTo_ok ((bind_run_ok (takeRel_ok ok)).trans (bind_run_ok (pushReturn_run room)))

/-- R525, a target that passes its check. -/
theorem exec_callInd_ok (source : readRM h w o s = .ok v s1) (ok : s.branchOk v = true)
    (room : openAccess .ss (s.spMinus w.bytes) w.bytes .write s1 = .ok p s2) :
    exec (.callInd h w o) s = s.jumped h v
      ((s2.stored p w.bytes (trunc w (s.nextRip h.len))).setSp (s.spMinus w.bytes)) := by
  have same := readRM_withMs source
  have sp : s1.spMinus w.bytes = s.spMinus w.bytes := by rw [same]; rfl
  have back : s1.nextRip h.len = s.nextRip h.len := by rw [same]; rfl
  have passes : branchCheck v s1 = .ok () s1 := branchCheck_ok ((readRM_branchOk source v).trans ok)
  have pushed := pushReturn_run (h := h) (sp.symm ▸ room)
  rw [back, sp] at pushed
  exact retireTo_ok ((bind_run_ok source).trans ((bind_run_ok passes).trans (bind_run_ok pushed)))

/-- R525, a refused target. -/
theorem exec_callInd_refused (source : readRM h w o s = .ok v s1) (bad : s.branchOk v = false) :
    exec (.callInd h w o) s = s1.faults (.gp 0) :=
  retireTo_error ((bind_run_ok source).trans
    (bind_run_error (branchCheck_refused ((readRM_branchOk source v).trans bad))))

theorem memRead_branchOk {seg : SReg} {off : Word} {n : Nat} (read : memRead seg off n s = .ok v s1) :
    s1.branchOk v = s.branchOk v := by
  rw [memRead_withMs read, withMs_branchOk]

/-- R526 and R527, a target that passes its check. -/
theorem retBody_ok (top : memRead .ss s.sp w.bytes s = .ok v s1) (ok : s.branchOk v = true) :
    retBody w extra s = .ok v (s1.setSp (s.spPlus (w.bytes + extra))) :=
  (get_bind_run _ s).trans ((bind_run_ok top).trans
    (bind_run_ok (branchCheck_ok ((memRead_branchOk top).trans ok))))

/-- R526 and R527, a refused target. -/
theorem retBody_refused (top : memRead .ss s.sp w.bytes s = .ok v s1) (bad : s.branchOk v = false) :
    retBody w extra s = .error (.gp 0) s1 :=
  (get_bind_run _ s).trans ((bind_run_ok top).trans
    (bind_run_error (branchCheck_refused ((memRead_branchOk top).trans bad))))

end

end Sys2Proof.Machine

open Sys2Proof Sys2Proof.Machine

/-- Settles O52: each instruction by its own lemma. -/
theorem callsAndReturns : Obligations.CallsAndReturns := by
  intro h w s s1 s2 rel v p imm back t
  exact ⟨exec_callRel_ok, fun o => exec_callInd_ok,
    fun top ok => ⟨retireTo_ok (retBody_ok top ok), retireTo_ok (retBody_ok top ok)⟩,
    exec_callRel_refused, fun o => exec_callInd_refused,
    fun top bad => ⟨retireTo_error (retBody_refused top bad), retireTo_error (retBody_refused top bad)⟩⟩
end

section
/-! PROOF. O54: one element of each string instruction (R560, R562 to R566). An element is its accesses, the
commit of the value or the flags, and the index registers moved. -/

namespace Sys2Proof.Machine
open Sys2Proof

/-- An index register after one element of `d` bytes (R560). -/
def State.advanced (s : State) (a : Width) (d : Nat) (r : Gpr) : Word :=
  if s.flags.df then s.regRead a r - BitVec.ofNat 64 d else s.regRead a r + BitVec.ofNat 64 d

theorem advance_run (a : Width) (d : Nat) (r : Gpr) (s : State) :
    advance a d r s = .ok () (s.regWrite a r (s.advanced a d r)) := rfl

/-- A register write leaves what a read of any other register gives. -/
theorem regRead_regWrite_other {w a : Width} {r q : Gpr} (s : State) (v : Word) (ne : q.num ≠ r.num) :
    (s.regWrite w r v).regRead a q = s.regRead a q := by
  simp only [State.regRead, regWrite_x_other s w r v q.num ne]

section
variable {h : Hdr} {w : Width} {s s1 s2 : State} {v y : Word} {p : Span}

/-- Both index registers advanced. -/
theorem advance_both_run (a : Width) (d : Nat) (s : State) : (advance a d rSI >>= fun _ => advance a d rDI) s =
    .ok () ((s.regWrite a rSI (s.advanced a d rSI)).regWrite a rDI (s.advanced a d rDI)) := by
  have di : (s.regWrite a rSI (s.advanced a d rSI)).advanced a d rDI = s.advanced a d rDI := by
    simp only [State.advanced, regWrite_flags, regRead_regWrite_other s _ (show rDI.num ≠ rSI.num by decide)]
  rw [bind_run_ok (advance_run a d rSI s), advance_run, di]

theorem movsElem_run (source : memRead (srcSeg h) (s.regRead h.a rSI) w.bytes s = .ok v s1)
    (dest : openAccess .es (s.regRead h.a rDI) w.bytes .write s1 = .ok p s2) :
    movsElem h w s = .ok () (((s2.stored p w.bytes v).regWrite h.a rSI (s.advanced h.a w.bytes rSI)).regWrite
      h.a rDI (s.advanced h.a w.bytes rDI)) := by
  have moved : ∀ r, (s2.stored p w.bytes v).advanced h.a w.bytes r = s.advanced h.a w.bytes r := by
    intro r; rw [stored_withMs, openAccess_withMs dest, memRead_withMs source]; rfl
  refine (get_bind_run _ s).trans ((bind_run_ok source).trans ((bind_run_ok (memWrite_run dest)).trans ?_))
  rw [advance_both_run, moved, moved]

theorem stosElem_run (dest : openAccess .es (s.regRead h.a rDI) w.bytes .write s = .ok p s1) :
    stosElem h w s = .ok () ((s1.stored p w.bytes (s.regRead w rAX)).regWrite h.a rDI
      (s.advanced h.a w.bytes rDI)) := by
  refine (get_bind_run _ s).trans ((bind_run_ok (memWrite_run dest)).trans ?_)
  rw [advance_run, stored_withMs, openAccess_withMs dest]
  rfl

theorem lodsElem_run (source : memRead (srcSeg h) (s.regRead h.a rSI) w.bytes s = .ok v s1) :
    lodsElem h w s = .ok () ((s1.regWrite w rAX v).regWrite h.a rSI (s.advanced h.a w.bytes rSI)) := by
  have moved : (s1.regWrite w rAX v).advanced h.a w.bytes rSI = s.advanced h.a w.bytes rSI := by
    simp only [State.advanced, regWrite_flags, regRead_regWrite_other s1 v (show rSI.num ≠ rAX.num by decide)]
    rw [memRead_withMs source]; rfl
  refine (get_bind_run _ s).trans ((bind_run_ok source).trans ((bind_run_ok (setReg_run w rAX v s1)).trans ?_))
  rw [advance_run, moved]

theorem cmpElems_run (w : Width) (x y : Word) (s : State) :
    cmpElems w x y s = .ok () (s.withFlags (subFlags w x y false s.flags).flags) := rfl

/-- A comparison leaves the direction flag alone. -/
theorem subFlags_df (w : Width) (x y : Word) (c : Bool) (f : Flags) : (subFlags w x y c f).flags.df = f.df := rfl

theorem cmpsElem_run (first : memRead (srcSeg h) (s.regRead h.a rSI) w.bytes s = .ok v s1)
    (second : memRead .es (s.regRead h.a rDI) w.bytes s1 = .ok y s2) :
    cmpsElem h w s = .ok () (((s2.withFlags (subFlags w v y false s.flags).flags).regWrite h.a rSI
      (s.advanced h.a w.bytes rSI)).regWrite h.a rDI (s.advanced h.a w.bytes rDI)) := by
  refine (get_bind_run _ s).trans ((bind_run_ok first).trans ((bind_run_ok second).trans
    ((bind_run_ok (cmpElems_run w v y s2)).trans ?_)))
  rw [advance_both_run, memRead_withMs second, memRead_withMs first]
  rfl

theorem scasElem_run (dest : memRead .es (s.regRead h.a rDI) w.bytes s = .ok y s1) :
    scasElem h w s = .ok () ((s1.withFlags (subFlags w (s.regRead w rAX) y false s.flags).flags).regWrite h.a rDI
      (s.advanced h.a w.bytes rDI)) := by
  refine (get_bind_run _ s).trans ((bind_run_ok dest).trans ((bind_run_ok (cmpElems_run w _ y s1)).trans ?_))
  rw [advance_run, memRead_withMs dest]
  rfl

/-- Without a repeat prefix a string instruction is one element. -/
theorem retire_stringBody_once {cmp : Bool} {elem : M Unit} (once : h.rep = .none) (run : elem s = .ok () s1) :
    retire h false (stringBody h cmp elem) s = s.done h s1 := by
  refine retire_ok ?_
  simp only [stringBody, once]
  exact run

end

end Sys2Proof.Machine

open Sys2Proof Sys2Proof.Machine

/-- Settles O54: each instruction is its one element; the flags of a comparison are those of a subtraction. -/
theorem stringElements : Obligations.StringElements := by
  intro h w s s1 s2 v y p once si di next
  refine ⟨fun source => ⟨fun dest => ?movs, ?lods, fun second => ?cmps⟩, fun dest => ?stos, fun dest => ?scas⟩
  case movs => exact retire_stringBody_once once (movsElem_run source dest)
  case lods => exact retire_stringBody_once once (lodsElem_run source)
  case stos => exact retire_stringBody_once once (stosElem_run dest)
  case cmps =>
    have value_lt := bits_eq w ▸ memRead_lt source
    have second_lt := bits_eq w ▸ memRead_lt second
    exact ⟨_, subFlags_means w v y false s.flags value_lt second_lt,
      retire_stringBody_once once (cmpsElem_run source second)⟩
  case scas =>
    exact ⟨_, subFlags_means w _ y false s.flags (regRead_lt s w rAX) (bits_eq w ▸ memRead_lt dest),
      retire_stringBody_once once (scasElem_run dest)⟩
end

section
/-! PROOF. O59: LGDT, LIDT, INVLPG and SWAPGS at level 0 (R620 to R622, R627). -/

namespace Sys2Proof.Machine
open Sys2Proof

section
variable {h : Hdr} {w : Width} {mo : MemOp} {s s1 s2 : State} {lim base : Word}
  (limit : memRead mo.seg (s.ea h mo) 2 s = .ok lim s1)
  (address : memRead mo.seg (trunc h.a (s.ea h mo + 2)) (if s.is64 then 8 else 4) s1 = .ok base s2)
include limit address

/-- R620: a table operand whose base is canonical. -/
theorem readTable_ok (ok : (s.is64 && !canonical base) = false) : readTable h w mo s =
    .ok ⟨if !s.is64 && w == .w16 then base &&& 0xFFFFFF else base, lim.setWidth 16⟩ s2 :=
  (get_bind_run _ s).trans ((bind_run_ok limit).trans ((bind_run_ok address).trans
    (bind_run_ok (raiseIf_passed _ ok s2))))

/-- R620: a table operand whose base is refused. -/
theorem readTable_refused (bad : (s.is64 && !canonical base) = true) : readTable h w mo s = .error (.gp 0) s2 :=
  (get_bind_run _ s).trans ((bind_run_ok limit).trans ((bind_run_ok address).trans
    (bind_run_error (raiseIf_raised _ bad s2))))

end

section
variable {h : Hdr} {w : Width} {mo : MemOp} {s s1 : State} (level : s.cpl = 0)
include level

theorem exec_lgdt {t : TableReg} (read : readTable h w mo s = .ok t s1) :
    exec (.lgdt h w mo) s = s.doneSystem h false { s1 with gdtr := t } :=
  (retire_privileged level).trans (retire_ok (bind_run_ok read))

theorem exec_lgdt_refused {f : FaultRec} (read : readTable h w mo s = .error f s1) :
    exec (.lgdt h w mo) s = s1.faults f :=
  (retire_privileged level).trans (retire_error (bind_run_error read))

theorem exec_lidt {t : TableReg} (read : readTable h w mo s = .ok t s1) :
    exec (.lidt h w mo) s = s.doneSystem h false { s1 with idtr := t } :=
  (retire_privileged level).trans (retire_ok (bind_run_ok read))

theorem exec_lidt_refused {f : FaultRec} (read : readTable h w mo s = .error f s1) :
    exec (.lidt h w mo) s = s1.faults f :=
  (retire_privileged level).trans (retire_error (bind_run_error read))

theorem exec_invlpg : exec (.invlpg h mo) s = s.doneSystem h false s.bumpSalt :=
  (retire_privileged level).trans (retire_ok (modify_run _ s))

theorem exec_swapgs : exec (.swapgs h) s = s.doneSystem h false
    { s with
      segs := { s.segs with gs := { s.segs.gs with base := s.kernelGsBase } }
      kernelGsBase := s.segs.gs.base } :=
  (retire_privileged level).trans (retire_ok (modify_run _ s))

end

/-- The 24 bits of base that a 16-bit operand size loads. -/
theorem and_low24 (v : Word) : v &&& 0xFFFFFF = BitVec.ofNat 64 (v.toNat % 2 ^ 24) := by
  apply BitVec.eq_of_toNat_eq
  have mask : (0xFFFFFF : Word).toNat = 2 ^ 24 - 1 := rfl
  rw [BitVec.toNat_and, mask, Nat.and_two_pow_sub_one_eq_mod, BitVec.toNat_ofNat]
  omega

theorem is64_iff (s : State) : s.is64 = true ↔ s.decodeMode = .m64 := beq_iff_eq

end Sys2Proof.Machine

open Sys2Proof Sys2Proof.Machine

/-- Settles O59: LGDT and LIDT by what their operand gives, INVLPG and SWAPGS by one change each. -/
theorem tablesInvlpgSwapgs : Obligations.TablesInvlpgSwapgs := by
  intro h w mo s s1 s2 lim base level
  refine ⟨fun limit address => ?_, exec_invlpg level, exec_swapgs level⟩
  simp only [← is64_iff] at address ⊢
  refine ⟨fun ok => ?loads, fun long bad => ?refused⟩
  case loads =>
    have passes : (s.is64 && !canonical base) = false := by
      cases long : s.is64 <;> simp [long] at ok ⊢; exact ok
    have value : (if ¬s.is64 = true ∧ w = .w16 then BitVec.ofNat 64 (base.toNat % 2 ^ 24) else base) =
        (if !s.is64 && w == .w16 then base &&& 0xFFFFFF else base) := by
      rw [and_low24]; cases s.is64 <;> simp
    simp only [ne_eq, ← is64_iff, value]
    exact ⟨exec_lgdt level (readTable_ok limit address passes), exec_lidt level (readTable_ok limit address passes)⟩
  case refused =>
    have refused : (s.is64 && !canonical base) = true := by rw [long, bad]; rfl
    exact ⟨exec_lgdt_refused level (readTable_refused limit address refused),
      exec_lidt_refused level (readTable_refused limit address refused)⟩
end

section
/-! PROOF. O58: moves to and from the segment registers (R616 to R619). What `LoadSeg` does is split along its
three cases: real mode, a null selector, a descriptor; the checks of a descriptor are read in the bits of its
eight bytes. -/

namespace Sys2Proof.Machine
open Sys2Proof

/-! ### Selectors and descriptors in numbers -/

section
variable (v : Word)

theorem selector_toNat : (v.setWidth 16).toNat = v.toNat % 2 ^ 16 := BitVec.toNat_setWidth ..

theorem selector_base : ((v.setWidth 16).setWidth 64 <<< 4 : Word) = BitVec.ofNat 64 (v.toNat % 2 ^ 16 * 16) := by
  apply BitVec.eq_of_toNat_eq
  simp only [BitVec.toNat_shiftLeft, BitVec.toNat_setWidth, BitVec.toNat_ofNat, Nat.shiftLeft_eq]
  omega

theorem selector_ti : (v.setWidth 16).getLsbD 2 = bit v 2 := by simp [bit]

theorem rplOf_toNat : (rplOf (v.setWidth 16)).toNat = v.toNat % 2 ^ 16 % 4 := by
  simp only [rplOf, BitVec.toNat_setWidth]

theorem and_clear_low2 (x : BitVec 16) : x &&& (0xFFFC : BitVec 16) = x >>> (2 : Nat) <<< (2 : Nat) := by
  apply BitVec.eq_of_getLsbD_eq
  intro i hi
  match i, hi with
  | 0, _ | 1, _ | 2, _ | 3, _ | 4, _ | 5, _ | 6, _ | 7, _ | 8, _ | 9, _ | 10, _ | 11, _ | 12, _ | 13, _ | 14, _
  | 15, _ => simp
  | i + 16, hi => omega

theorem selCode_eq : selCode (v.setWidth 16) = BitVec.ofNat 32 (v.toNat % 2 ^ 16 / 4 * 4) := by
  apply BitVec.eq_of_toNat_eq
  rw [selCode, and_clear_low2]
  simp only [BitVec.toNat_setWidth, BitVec.toNat_shiftLeft, BitVec.toNat_ushiftRight,
    BitVec.toNat_ofNat, Nat.shiftLeft_eq, Nat.shiftRight_eq_div_pow]
  omega

end

section
variable (raw : Word)

theorem descriptor_type (i : Nat) (lt : i < 4) : (descriptor raw).type.getLsbD i = bit raw (40 + i) := by
  change (BitVec.ofNat 4 (raw.toNat / 2 ^ 40 % 2 ^ 4)).getLsbD i = raw.toNat.testBit (40 + i)
  simp only [BitVec.getLsbD_ofNat, Nat.testBit_mod_two_pow, Nat.testBit_div_two_pow, lt, decide_true, Bool.true_and,
    Nat.add_comm]

theorem descriptor_dpl : (descriptor raw).dpl.toNat = field raw 46 45 := by
  change (BitVec.ofNat 2 (raw.toNat / 2 ^ 45 % 2 ^ 2)).toNat = raw.toNat / 2 ^ 45 % 2 ^ 2
  rw [BitVec.toNat_ofNat, Nat.mod_mod]

end

/-- The cache that a load commits, where the descriptor has S and P set. -/
theorem SegReg.set_eq_of_s_p {d : SegReg} (s : d.s = true) (p : d.p = true) (sel : BitVec 16) (ty : BitVec 4) :
    { d with selector := sel, type := ty } = { d with selector := sel, type := ty, s := true, p := true } := by
  cases d; simp_all

/-! ### The checks of a descriptor (R618) -/

/-- The descriptor `raw` is refused with `#GP` for a move to `r`, at privilege level `cpl` and with the selector's
RPL `rpl`. -/
def descWrong (r : SReg) (rpl cpl : Nat) (raw : Word) : Prop :=
  if r = .ss then
    rpl ≠ cpl ∨ bit raw 44 = false ∨ bit raw 43 = true ∨ ¬bit raw 41 = true ∨ field raw 46 45 ≠ cpl
  else
    bit raw 44 = false ∨ (bit raw 43 = true ∧ ¬bit raw 41 = true) ∨
      ((¬bit raw 43 = true ∨ ¬bit raw 42 = true) ∧ (field raw 46 45 < rpl ∨ field raw 46 45 < cpl))

section
variable {s : State} {r : SReg} {v raw : Word}

theorem rplOf_ne_iff (x : BitVec 2) : (rplOf (v.setWidth 16) != x) = true ↔ v.toNat % 2 ^ 16 % 4 ≠ x.toNat := by
  rw [bne_iff_ne, ← rplOf_toNat, ne_eq, ne_eq, BitVec.toNat_inj]

theorem dpl_ne_iff (x : BitVec 2) : ((descriptor raw).dpl != x) = true ↔ field raw 46 45 ≠ x.toNat := by
  rw [bne_iff_ne, ← descriptor_dpl, ne_eq, ne_eq, BitVec.toNat_inj]

theorem dpl_lt_iff (x : BitVec 2) : (descriptor raw).dpl < x ↔ field raw 46 45 < x.toNat := by
  rw [BitVec.lt_def, descriptor_dpl]

/-- A descriptor that is wrong for the register is refused with `#GP(selector)`. -/
theorem descFault_of_wrong (wrong : descWrong r (v.toNat % 2 ^ 16 % 4) s.cpl.toNat raw) :
    s.descFault r (v.setWidth 16) (descriptor raw) = some (.gp (selCode (v.setWidth 16))) := by
  have s_bit : (descriptor raw).s = bit raw 44 := rfl
  unfold descWrong at wrong
  simp only [State.descFault, descriptor_type raw _ (show 3 < 4 by decide), descriptor_type raw _ (show 2 < 4 by decide),
    descriptor_type raw _ (show 1 < 4 by decide), s_bit, rplOf_ne_iff, dpl_ne_iff, dpl_lt_iff, beq_iff_eq, Nat.reduceAdd,
    rplOf_toNat]
  split at wrong
  case isTrue ss =>
    simp only [ss, if_true]
    grind
  case isFalse other =>
    simp only [other, if_false]
    grind

/-- One that is not wrong is refused if it is not present only. -/
theorem descFault_of_not_wrong (right : ¬descWrong r (v.toNat % 2 ^ 16 % 4) s.cpl.toNat raw) :
    s.descFault r (v.setWidth 16) (descriptor raw) =
      if bit raw 47 = true then none
      else some (if r = .ss then .ss (selCode (v.setWidth 16)) else .np (selCode (v.setWidth 16))) := by
  have s_bit : (descriptor raw).s = bit raw 44 := rfl
  have p_bit : (descriptor raw).p = bit raw 47 := rfl
  unfold descWrong at right
  simp only [State.descFault, descriptor_type raw _ (show 3 < 4 by decide), descriptor_type raw _ (show 2 < 4 by decide),
    descriptor_type raw _ (show 1 < 4 by decide), s_bit, p_bit, rplOf_ne_iff, dpl_ne_iff, dpl_lt_iff, beq_iff_eq,
    Nat.reduceAdd, rplOf_toNat]
  split at right
  case isTrue ss =>
    simp only [ss, if_true]
    grind
  case isFalse other =>
    simp only [other, if_false]
    grind

theorem s_bit_of_not_wrong {rpl cpl : Nat} (right : ¬descWrong r rpl cpl raw) : bit raw 44 = true := by
  unfold descWrong at right
  split at right <;> grind

end

/-! ### `LoadSeg` (R618) -/

section
variable {s s1 : State} {r : SReg} {sel : BitVec 16}

theorem loadSeg_real (mode : s.opMode = .real) : loadSeg r sel s =
    .ok () (s.setSeg r { s.segs.get r with selector := sel, base := sel.setWidth 64 <<< 4 }) := by
  unfold loadSeg
  rw [get_bind_run]
  simp only [mode, beq_self_eq_true, if_true]
  rfl

theorem loadSeg_null (mode : s.opMode ≠ .real) (null : sel.toNat < 4) : loadSeg r sel s =
    if s.nullRefused r sel then .error (.gp 0) s else .ok () (s.setSeg r (nullSeg sel)) := by
  unfold loadSeg
  rw [get_bind_run]
  simp only [beq_iff_eq, mode, if_false, Nat.div_eq_of_lt null, if_true]
  cases s.nullRefused r sel <;> rfl

theorem loadSeg_descriptor (mode : s.opMode ≠ .real) (some : 4 ≤ sel.toNat) :
    loadSeg r sel s = loadDescriptor r sel s := by
  unfold loadSeg
  rw [get_bind_run]
  simp only [beq_iff_eq, mode, if_false, show sel.toNat / 4 ≠ 0 by omega]

end

/-- The base of the table a selector names. -/
def State.tableBase (s : State) (sel : BitVec 16) : Word := if sel.getLsbD 2 then s.ldtr.base else s.gdtr.base

/-- The limit of the table a selector names. -/
def State.tableLimit (s : State) (sel : BitVec 16) : Nat :=
  if sel.getLsbD 2 then s.ldtr.limit.toNat else s.gdtr.limit.toNat

/-- The address of the descriptor a selector names. -/
def State.descLin (s : State) (sel : BitVec 16) : Word := s.tableBase sel + BitVec.ofNat 64 (sel.toNat / 8 * 8)

/-- The selector names the LDT, which there is not. -/
def State.noLdt (s : State) (sel : BitVec 16) : Bool :=
  sel.getLsbD 2 && (s.ldtr.unusable || s.ldtr.selector.toNat / 4 == 0)

section
variable {s s2 : State} {r : SReg} {sel : BitVec 16}

theorem loadDescriptor_no_ldt (bad : s.noLdt sel = true) :
    loadDescriptor r sel s = .error (.gp (selCode sel)) s :=
  (get_bind_run _ s).trans (bind_run_error (raiseIf_raised _ bad s))

variable (table : s.noLdt sel = false)
include table

theorem loadDescriptor_limit (beyond : s.tableLimit sel < sel.toNat / 8 * 8 + 7) :
    loadDescriptor r sel s = .error (.gp (selCode sel)) s :=
  (get_bind_run _ s).trans ((bind_run_ok (raiseIf_passed _ table s)).trans
    (bind_run_error (raiseIf_raised _ (decide_eq_true beyond) s)))

variable (within : sel.toNat / 8 * 8 + 7 ≤ s.tableLimit sel)
include within

theorem loadDescriptor_read_fault {f : FaultRec} (read : sysRead (s.descLin sel) 8 s = .error f s2) :
    loadDescriptor r sel s = .error f s2 :=
  (get_bind_run _ s).trans ((bind_run_ok (raiseIf_passed _ table s)).trans
    ((bind_run_ok (raiseIf_passed _ (decide_eq_false (Nat.not_lt.mpr within)) s)).trans (bind_run_error read)))

variable {raw : Word} (read : sysRead (s.descLin sel) 8 s = .ok raw s2)
include read

theorem loadDescriptor_refused {f : FaultRec} (bad : s.descFault r sel (descriptor raw) = some f) :
    loadDescriptor r sel s = .error f s2 := by
  refine (get_bind_run _ s).trans ((bind_run_ok (raiseIf_passed _ table s)).trans
    ((bind_run_ok (raiseIf_passed _ (decide_eq_false (Nat.not_lt.mpr within)) s)).trans ((bind_run_ok read).trans ?_)))
  simp only [bad]
  rfl

theorem loadDescriptor_accepted (ok : s.descFault r sel (descriptor raw) = none) :
    loadDescriptor r sel s = (markDescriptor (s.descLin sel) raw >>= fun _ => modify fun t =>
      t.setSeg r { descriptor raw with selector := sel, type := (descriptor raw).type ||| 1 } : M Unit) s2 := by
  refine (get_bind_run _ s).trans ((bind_run_ok (raiseIf_passed _ table s)).trans
    ((bind_run_ok (raiseIf_passed _ (decide_eq_false (Nat.not_lt.mpr within)) s)).trans ((bind_run_ok read).trans ?_)))
  simp only [ok]
  rfl

end

/-! ### The instructions -/

section
variable {h : Hdr} {r : SReg} {o : RM} {s s1 t : State} {v : Word} (notCs : r ≠ .cs)
  (source : readRM h .w16 o s = .ok v s1)
include notCs source

theorem exec_movToSeg (loaded : loadSeg r (v.setWidth 16) s1 = .ok () t) :
    exec (.movToSeg h r o) s = s.doneSystem h (decide (r = .ss)) t :=
  retireShadow_ok ((bind_run_ok (raiseIf_passed _ (decide_eq_false notCs) s)).trans ((bind_run_ok source).trans
    (bind_run_ok loaded)))

theorem exec_movToSeg_refused {f : FaultRec} (raised : loadSeg r (v.setWidth 16) s1 = .error f t) :
    exec (.movToSeg h r o) s = t.faults f :=
  retireShadow_error ((bind_run_ok (raiseIf_passed _ (decide_eq_false notCs) s)).trans ((bind_run_ok source).trans
    (bind_run_error raised)))

end

theorem nullRefused_eq_false_iff (s : State) (r : SReg) (v : Word) : s.nullRefused r (v.setWidth 16) = false ↔
    r ≠ .ss ∨ (s.decodeMode = .m64 ∧ s.cpl.toNat ≠ 3 ∧ v.toNat % 2 ^ 16 % 4 = s.cpl.toNat) := by
  have three : s.cpl = 3 ↔ s.cpl.toNat = 3 := BitVec.toNat_inj.symm
  simp only [State.nullRefused, State.is64, Bool.and_eq_false_iff, beq_eq_false_iff_ne, Bool.not_eq_false',
    Bool.and_eq_true, beq_iff_eq, bne_iff_ne, and_assoc, ← rplOf_toNat, BitVec.toNat_inj, ne_eq, three]

end Sys2Proof.Machine

open Sys2Proof Sys2Proof.Machine

/-- Settles O58: each case of `LoadSeg` by its own lemma. -/
theorem segmentMoves : Obligations.SegmentMoves := by
  intro h w r o s s1 v p
  refine ⟨fun g => rfl, fun mo dest => retire_ok (writeRM_run _ dest), rfl, fun notCs source => ?_⟩
  intro sel rpl err cpl ldt table limit lin loads raises
  have same := readRM_withMs source
  have sel_eq : (v.setWidth 16).toNat = sel := selector_toNat v
  have err_eq : selCode (v.setWidth 16) = err := selCode_eq v
  have cpl_eq : s1.cpl = s.cpl := by rw [same]; rfl
  have load {t : State} (loaded : loadSeg r (v.setWidth 16) s1 = .ok () t) :=
    exec_movToSeg notCs source loaded
  have raise {t : State} {f : FaultRec} (raised : loadSeg r (v.setWidth 16) s1 = .error f t) :=
    exec_movToSeg_refused notCs source raised
  refine ⟨fun real => ?real, fun mode null => ?null, fun mode named => ?named⟩
  case real =>
    have real1 : s1.opMode = .real := by rw [same]; exact real
    have segs : s1.segs = s.segs := by rw [same]; rfl
    have loaded := loadSeg_real (r := r) (sel := v.setWidth 16) real1
    rw [selector_base, segs] at loaded
    exact load loaded
  case null =>
    have mode1 : s1.opMode ≠ .real := by rw [same]; exact mode
    have loaded := loadSeg_null (r := r) mode1 (sel_eq ▸ null)
    have allowed : s1.nullRefused r (v.setWidth 16) = false ↔ r ≠ .ss ∨ (s.decodeMode = .m64 ∧ cpl ≠ 3 ∧ rpl = cpl) := by
      rw [nullRefused_eq_false_iff, same]; rfl
    refine ⟨fun ok => load ?_, fun ss bad => raise ?_⟩
    · rw [loaded, allowed.mpr ok]; rfl
    · have refused : s1.nullRefused r (v.setWidth 16) = true := by
        rw [← Bool.not_eq_false, allowed]
        exact fun ok => ok.elim (· ss) bad
      rw [loaded, refused]; rfl
  case named =>
    have mode1 : s1.opMode ≠ .real := by rw [same]; exact mode
    have loads_desc := loadSeg_descriptor (r := r) mode1 (sel_eq ▸ named)
    have no_ldt : s1.noLdt (v.setWidth 16) = true ↔
        ldt ∧ (s.ldtr.unusable = true ∨ s.ldtr.selector.toNat < 4) := by
      rw [State.noLdt, selector_ti, same, Bool.and_eq_true, Bool.or_eq_true, beq_iff_eq, Nat.div_eq_zero_iff_lt (by decide)]
      rfl
    have limit_eq : s1.tableLimit (v.setWidth 16) = limit := by rw [State.tableLimit, selector_ti, same]; rfl
    have lin_eq : s1.descLin (v.setWidth 16) = lin := by rw [State.descLin, State.tableBase, selector_ti, sel_eq, same]; rfl
    refine ⟨fun is_ldt gone => raise ?noLdt, fun there => ?_⟩
    case noLdt => rw [loads_desc, loadDescriptor_no_ldt (no_ldt.mpr ⟨is_ldt, gone⟩), err_eq]
    have table1 : s1.noLdt (v.setWidth 16) = false := by
      rw [← Bool.not_eq_true, no_ldt]
      rintro ⟨is_ldt, gone⟩
      obtain ⟨usable, named⟩ := there is_ldt
      exact gone.elim (fun unusable => by rw [usable] at unusable; cases unusable) (Nat.not_lt.mpr named)
    have within1 (within : sel / 8 * 8 + 7 ≤ limit) :
        (v.setWidth 16).toNat / 8 * 8 + 7 ≤ s1.tableLimit (v.setWidth 16) := by rw [limit_eq, sel_eq]; exact within
    refine ⟨fun beyond => raise ?limit, fun within => ⟨fun f u fault => raise ?read, fun raw s2 read => ?_⟩⟩
    case limit => rw [loads_desc, loadDescriptor_limit table1 (by rw [limit_eq, sel_eq]; exact beyond), err_eq]
    case read => rw [loads_desc, loadDescriptor_read_fault table1 (within1 within) (lin_eq ▸ fault)]
    have read1 : sysRead (s1.descLin (v.setWidth 16)) 8 s1 = .ok raw s2 := lin_eq ▸ read
    intro code conforming open' dpl wrong present seg mark
    have wrong_iff : descWrong r (v.toNat % 2 ^ 16 % 4) s1.cpl.toNat raw ↔ wrong := by rw [cpl_eq]; rfl
    have refused (bad : wrong) := loadDescriptor_refused table1 (within1 within) read1 (descFault_of_wrong (wrong_iff.mpr bad))
    have checked (right : ¬wrong) := descFault_of_not_wrong (s := s1) (fun bad => right (wrong_iff.mp bad))
    rw [err_eq] at refused checked
    refine ⟨fun bad => raise (loads_desc.trans (refused bad)), fun right absent => raise ?absent,
      fun right there marked => load ?marked, fun right there unmarked => ?unmarked⟩
    case absent =>
      exact loads_desc.trans (loadDescriptor_refused table1 (within1 within) read1 ((checked right).trans (if_neg absent)))
    all_goals
      have accepted := loads_desc.trans (loadDescriptor_accepted table1 (within1 within) read1 ((checked right).trans (if_pos there)))
      have seg_eq : { descriptor raw with selector := v.setWidth 16, type := (descriptor raw).type ||| 1 } = seg := by
        have s_bit : (descriptor raw).s = true := s_bit_of_not_wrong (fun bad => right (wrong_iff.mp bad))
        have p_bit : (descriptor raw).p = true := there
        exact SegReg.set_eq_of_s_p s_bit p_bit _ _
      rw [seg_eq, lin_eq] at accepted
    case marked => rw [accepted, markDescriptor, marked]; rfl
    case unmarked =>
      have marks : markDescriptor lin raw = mark := by rw [markDescriptor, unmarked]; rfl
      rw [marks] at accepted
      exact ⟨fun s3 done => load (accepted.trans (bind_run_ok done)), fun f u fault => raise (accepted.trans (bind_run_error fault))⟩
end

section
/-! PROOF. O3: ten byte strings, decoded. -/

/-- Settles O3: the decoder computes each. -/
theorem decodeWords : Obligations.DecodeWords := by
  unfold Obligations.DecodeWords
  decide +kernel
end

section
/-! PROOF. O8, O9, O10: the step (R710 to R713). The fetch goes on while the decoder answers `Truncated`, and then
the decoder's result is run. Without paging, in RAM, fetching a byte reads it and changes nothing. -/

namespace Sys2Proof.Machine
open Sys2Proof

/-! ### The fetch -/

/-- The decoder asks for every byte whose predecessors it finds too few. -/
theorem fetchDecode_append {m : DecodeMode} {fuel : Nat} {pre rest : List Byte} {s t : State}
    (short : ∀ k, k < rest.length → decode m (pre ++ rest.take k) = .truncated)
    (fetched : fetchFrom pre.length rest.length s = .ok rest t) (enough : rest.length ≤ fuel) :
    fetchDecode m fuel pre s = fetchDecode m (fuel - rest.length) (pre ++ rest) t := by
  induction rest generalizing pre fuel s with
  | nil => cases fetched; rw [List.append_nil]; rfl
  | cons b rest ih =>
    obtain ⟨fuel, rfl⟩ := Nat.exists_eq_add_of_le' (Nat.lt_of_lt_of_le (Nat.succ_pos _) enough)
    obtain ⟨b', u, first, more⟩ := bind_ok.mp fetched
    obtain ⟨bs, u', others, last⟩ := bind_ok.mp more
    cases last
    have now : decode m pre = .truncated := by simpa using short 0 (Nat.succ_pos _)
    have later : ∀ k, k < rest.length → decode m ((pre ++ [b]) ++ rest.take k) = .truncated := by
      intro k hk
      simpa using short (k + 1) (Nat.succ_lt_succ hk)
    have next : fetchFrom (pre ++ [b]).length rest.length u = .ok rest t := by
      rw [List.length_append]; exact others
    simp only [fetchDecode, now]
    rw [bind_run_ok first, ih later next (Nat.le_of_succ_le_succ enough), List.append_assoc]
    simp only [List.length_cons, Nat.add_sub_add_right, List.singleton_append]

/-- A result other than `Truncated` ends the fetch. -/
theorem fetchDecode_answer {m : DecodeMode} {bytes : List Byte} (answer : decode m bytes ≠ .truncated) (fuel : Nat)
    (s : State) : fetchDecode m fuel bytes s = .ok ⟨bytes, decode m bytes⟩ s := by
  cases fuel with
  | zero => rfl
  | succ fuel =>
    unfold fetchDecode
    cases eq : decode m bytes with
    | truncated => exact absurd eq answer
    | _ => rfl

/-- The fetch of bytes that the decoder asks for, one after the other, in the step. -/
theorem fetchDecode_of_fetchFrom {m : DecodeMode} {bytes : List Byte} {s t : State}
    (short : ∀ k, k < bytes.length → decode m (bytes.take k) = .truncated)
    (fetched : fetchFrom 0 bytes.length s = .ok bytes t) (le : bytes.length ≤ 15) :
    fetchDecode m 15 [] s = fetchDecode m (15 - bytes.length) bytes t :=
  fetchDecode_append (pre := []) short fetched le

theorem length_lt_of_truncated {m : DecodeMode} {bytes : List Byte} (short : decode m bytes = .truncated) :
    bytes.length < 15 :=
  (decodingReadsItsBytesOnly m bytes []).2.1 short

/-- Bytes of which the decoder finds every fewer too few are at most 15. -/
theorem length_le_of_short {m : DecodeMode} {bytes : List Byte}
    (short : ∀ k, k < bytes.length → decode m (bytes.take k) = .truncated) : bytes.length ≤ 15 := by
  rcases Nat.eq_zero_or_pos bytes.length with none | some
  · omega
  · have last := length_lt_of_truncated (short (bytes.length - 1) (by omega))
    rw [List.length_take] at last
    omega

/-- Fewer bytes than an instruction has are too few. -/
theorem short_of_decoded {m : DecodeMode} {bytes : List Byte} {i : Instr} {h : Hdr} (decoded : decode m bytes = .decoded i)
    (hdr : i.hdr = some h) (len : h.len = bytes.length) (k : Nat) (lt : k < bytes.length) :
    decode m (bytes.take k) = .truncated := by
  obtain ⟨-, -, -, prefixes⟩ := decodingReadsItsBytesOnly m bytes []
  exact (prefixes i h decoded hdr).2 k (len ▸ lt)

/-! ### The step -/

/-- The state in which a step's instruction is fetched: a new call begins where the last has ended. -/
def State.started (s : State) : State := if s.outcome.isSome then s.beginBlock else s

theorem step_eq (s : State) : step s = stepBlock s.started := by
  unfold step stepMachine State.started
  cases s.outcome <;> rfl

theorem started_of_running {s : State} (running : s.outcome = none) : s.started = s := by
  simp [State.started, running]

@[simp] theorem started_halted (s : State) : s.started.halted = s.halted := by unfold State.started; split <;> rfl
@[simp] theorem started_flags (s : State) : s.started.flags = s.flags := by unfold State.started; split <;> rfl
@[simp] theorem started_decodeMode (s : State) : s.started.decodeMode = s.decodeMode := by
  unfold State.started; split <;> rfl

theorem stepBlock_halted {s : State} (halted : s.halted = true) : stepBlock s = .next (reportHalted s) := by
  simp [stepBlock, halted]

theorem stepBlock_vm {s : State} (running : s.halted = false) (vm : s.flags.vm = true) :
    stepBlock s = .next (unsupported [] s) := by
  simp [stepBlock, running, vm]

theorem stepBlock_fetched {s t : State} {f : Fetched} (running : s.halted = false) (vm : s.flags.vm = false)
    (fetched : fetchDecode s.decodeMode 15 [] s = .ok f t) : stepBlock s = runDecoded f t := by
  simp [stepBlock, running, vm, fetched]

theorem stepBlock_fault {s t : State} {f : FaultRec} (running : s.halted = false) (vm : s.flags.vm = false)
    (fault : fetchDecode s.decodeMode 15 [] s = .error f t) : stepBlock s = .next (takeFault f t) := by
  simp [stepBlock, running, vm, fault]

/-- A step whose bytes the decoder answers runs that answer in the state the fetch left. -/
theorem stepBlock_answer {s t : State} {bytes : List Byte} (running : s.halted = false) (vm : s.flags.vm = false)
    (short : ∀ k, k < bytes.length → decode s.decodeMode (bytes.take k) = .truncated)
    (fetched : fetchFrom 0 bytes.length s = .ok bytes t) (answer : decode s.decodeMode bytes ≠ .truncated) :
    stepBlock s = runDecoded ⟨bytes, decode s.decodeMode bytes⟩ t :=
  stepBlock_fetched running vm ((fetchDecode_of_fetchFrom short fetched (length_le_of_short short)).trans
    (fetchDecode_answer answer _ t))

/-- A byte that the decoder asks for and that cannot be fetched ends the step. -/
theorem stepBlock_fetch_fault {s t u : State} {f : FaultRec} {bytes : List Byte} (running : s.halted = false)
    (vm : s.flags.vm = false) (short : ∀ k, k < bytes.length → decode s.decodeMode (bytes.take k) = .truncated)
    (fetched : fetchFrom 0 bytes.length s = .ok bytes t) (more : decode s.decodeMode bytes = .truncated)
    (fault : fetchByte bytes.length t = .error f u) : stepBlock s = .next (takeFault f u) := by
  have lt := length_lt_of_truncated more
  obtain ⟨fuel, left⟩ : ∃ fuel, 15 - bytes.length = fuel + 1 := ⟨14 - bytes.length, by omega⟩
  refine stepBlock_fault running vm ((fetchDecode_of_fetchFrom short fetched (Nat.le_of_lt lt)).trans ?_)
  rw [left]
  simp only [fetchDecode, more]
  exact bind_run_error fault

/-! ### The class `Invalid` -/

theorem invalidOpcode_cases {m : DecodeMode} {map : OpMap} {op : Nat} {i : Instr} (h : invalidOpcode m map op = some i) :
    i = .ud2 ∨ i = .invalid := by
  unfold invalidOpcode at h
  cases map <;> grind

/-- The row of an instruction answers `Invalid` for an illegal LOCK only. -/
theorem decodeRow_invalid {m : DecodeMode} {p : Pfx} {r : Row} {op mr used : Nat} {bs : List Byte} {short : DecodeResult}
    {i : Instr} (noShort : short ≠ .invalid i) (h : decodeRow m p r op mr used bs short = .invalid i) :
    i = .invalid := by
  unfold decodeRow at h
  grind

theorem decodeOpcode_invalid {m : DecodeMode} {p : Pfx} {map : OpMap} {op used : Nat} {bs : List Byte}
    {short : DecodeResult} {i : Instr} (noShort : short ≠ .invalid i)
    (h : decodeOpcode m p map op used bs short = .invalid i) : i = .ud2 ∨ i = .invalid := by
  unfold decodeOpcode at h
  cases fixed : invalidOpcode m map op with
  | some j =>
    rw [fixed] at h
    cases h
    exact invalidOpcode_cases fixed
  | none =>
    rw [fixed] at h
    grind [decodeRow_invalid]

/-- R345: an `Invalid` encoding is UD2 or another whose meaning is `#UD`. -/
theorem decode_invalid {m : DecodeMode} {bytes : List Byte} {i : Instr} (h : decode m bytes = .invalid i) :
    i = .ud2 ∨ i = .invalid := by
  rw [decode] at h
  have noShort : (if (bytes.take 15).length = 15 then DecodeResult.tooLong else .truncated) ≠ .invalid i := by
    split <;> nofun
  generalize (if (bytes.take 15).length = 15 then DecodeResult.tooLong else .truncated) = short at h noShort
  grind [decodeOpcode_invalid]

/-! ### Fetching without paging, in RAM -/

theorem isRam_of_allRam {s : State} (ram : s.AllRam) (ppn : Nat) : isRam s.cfg ppn = true := by
  simp [isRam, show s.cfg.nonRam = [] from ram]

theorem physRead_ram {s : State} (ram : s.AllRam) (pa n : Nat) :
    physRead pa n s = .ok (BitVec.ofNat 64 (leNat (s.ms.bytes pa n))) s := by
  simp only [physRead, isRam_of_allRam ram, if_true]

/-- The word of one byte holds it. -/
theorem setWidth_byte (b : Byte) : (BitVec.ofNat 64 (leNat [b])).setWidth 8 = b := by
  apply BitVec.eq_of_toNat_eq
  have lt : b.toNat < 2 ^ 8 := b.isLt
  simp only [leNat, BitVec.toNat_setWidth, BitVec.toNat_ofNat]
  omega

theorem field_31_0 (v : Word) : field v 31 0 = v.toNat % 2 ^ 32 := by simp [field]

/-- Without paging the read of one byte of RAM gives it. -/
theorem linRead_byte_flat {s : State} (paging : s.pagingMode = .none) (ram : s.AllRam) (lin : Word) (kind : Access)
    (user : Bool) : linRead lin 1 kind user s = .ok (BitVec.ofNat 64 (leNat [s.ms.byte (lin.toNat % 2 ^ 32)])) s := by
  have within : lin.toNat % 4096 + 1 ≤ 4096 := by omega
  have translated : translateSpan lin 1 kind user s = .ok ⟨lin.toNat % 2 ^ 32, 0, 1, false⟩ s := by
    unfold translateSpan
    rw [get_bind_run]
    simp only [within, if_true]
    rw [bind_run_ok (translate_of_no_paging paging lin kind user), field_31_0]
    rfl
  rw [linRead, bind_run_ok translated]
  exact physRead_ram ram _ 1

/-- The linear address of a fetched byte outside 64-bit mode (R712). -/
theorem fetchLin_toNat {s : State} (mode : s.is64 = false) (k : Nat) : (s.fetchLin k).toNat =
    (s.segs.cs.base.toNat + (s.rip.toNat + k) % 2 ^ 32) % 2 ^ 32 := by
  simp only [State.fetchLin, State.lin, State.fetchOff, State.ripWrap, mode, Bool.false_eq_true, if_false, trunc_toNat,
    BitVec.toNat_add, BitVec.toNat_ofNat, Width.bits, Segs.get]
  omega

theorem fetchByte_flat {s : State} (flat : s.Flat) (ram : s.AllRam) (k : Nat) : fetchByte k s =
    .ok (s.ms.byte ((s.segs.cs.base.toNat + (s.rip.toNat + k) % 2 ^ 32) % 2 ^ 32)) s := by
  have passes : (!s.fetchOk k) = false := by simp [State.fetchOk, flat.mode, flat.segs]
  unfold fetchByte
  rw [get_bind_run, bind_run_ok (raiseIf_passed _ passes s), bind_run_ok (linRead_byte_flat flat.paging ram _ _ _),
    pure_run, setWidth_byte, fetchLin_toNat flat.mode, Nat.mod_mod]

theorem fetchFrom_flat {s : State} (flat : s.Flat) (ram : s.AllRam) (k n : Nat) : fetchFrom k n s =
    .ok ((List.range' k n).map fun j => s.ms.byte ((s.segs.cs.base.toNat + (s.rip.toNat + j) % 2 ^ 32) % 2 ^ 32)) s := by
  induction n generalizing k with
  | zero => rfl
  | succ n ih =>
    unfold fetchFrom
    rw [bind_run_ok (fetchByte_flat flat ram k), bind_run_ok (ih (k + 1))]
    rfl

end Sys2Proof.Machine

open Sys2Proof Sys2Proof.Machine

/-- Settles O8: every fewer bytes than the instruction's are too few, so the step fetches just these. -/
theorem stepRunsTheDecodedInstruction : Obligations.StepRunsTheDecodedInstruction := by
  intro s t bytes i h running vm decoded hdr len fetched
  have mode : s.started.decodeMode = s.decodeMode := started_decodeMode s
  rw [step_eq, stepBlock_answer (t := t) (bytes := bytes) ((started_halted s).trans running)
    ((congrArg Flags.vm (started_flags s)).trans vm) (mode ▸ short_of_decoded decoded hdr len) fetched
    (by rw [mode, decoded]; nofun)]
  simp only [runDecoded, mode, decoded]

/-- Settles O9: the fetch reads the bytes at CS:rip and changes nothing. -/
theorem stepFetchesFromMemory : Obligations.StepFetchesFromMemory := by
  intro s bytes i h flat ram running vm idle decoded hdr len bytes_eq
  refine stepRunsTheDecodedInstruction s s bytes i h running vm decoded hdr len ?_
  rw [idle]
  refine (fetchFrom_flat flat ram 0 bytes.length).trans (congrArg (EStateM.Result.ok · s) ?_)
  refine List.ext_getElem (by simp) fun k hk hk' => ?_
  simpa using bytes_eq k hk'

/-- Settles O10: each result of the fetch by what the step does with it. -/
theorem stepReportsWhatItCannotRun : Obligations.StepReportsWhatItCannotRun := by
  intro s t bytes
  refine ⟨fun halted => ?call, fun idle => ?_⟩
  case call =>
    have stepped : step s.beginBlock = .next (reportHalted s.beginBlock) :=
      (step_eq _).trans (stepBlock_halted halted)
    obtain ⟨fuel, eq⟩ : ∃ fuel, max 1 s.cfg.maxBlockInstrs = fuel + 1 := ⟨max 1 s.cfg.maxBlockInstrs - 1, by omega⟩
    rw [executeBlock, eq, runBlock, stepped]
    rfl
  have stepped : step s = stepBlock s := by rw [step_eq, started_of_running idle]
  refine ⟨fun halted => stepped.trans (stepBlock_halted halted),
    fun running vm => stepped.trans (stepBlock_vm running vm), fun running vm short fetched => ?_⟩
  have answers {r : DecodeResult} (eq : decode s.decodeMode bytes = r) (ne : r ≠ .truncated) :
      step s = runDecoded ⟨bytes, r⟩ t := by
    rw [stepped, stepBlock_answer running vm short fetched (eq ▸ ne), eq]
  have noAddr (f : FaultRec) (none : f.addr = none) : t.faults f =
      .next { t with outcome := some ⟨.fault f, t.retired, t.rip⟩ } := faults_of_addr_none none t
  refine ⟨fun i invalid => ?invalid, fun unsup => (answers unsup nofun).trans rfl,
    fun long => ((answers long nofun).trans (noAddr (.gp 0) rfl)),
    fun more f u fault => stepped.trans (stepBlock_fetch_fault running vm short fetched more fault)⟩
  case invalid =>
    refine (answers invalid nofun).trans ?_
    rcases decode_invalid invalid with rfl | rfl
    · exact (exec_ud2 t).trans (noAddr .ud rfl)
    · exact (exec_invalid t).trans (noAddr .ud rfl)
end

section
/-! PROOF. O1 and O2: reset (R900 to R902). -/

namespace Sys2Proof.Machine
open Sys2Proof

theorem resetRegs_x (c : Config) (i : RegNum) : (resetRegs c)[i] = if i = 2 then c.resetEdx.setWidth 64 else 0 := by
  obtain ⟨i, lt⟩ := i
  match i, lt with
  | 0, _ | 1, _ | 2, _ | 3, _ | 4, _ | 5, _ | 6, _ | 7, _ | 8, _ | 9, _ | 10, _ | 11, _ | 12, _ | 13, _ | 14, _
  | 15, _ => rfl
  | i + 16, lt => omega

theorem sparseGet_nil {β : Type} (d : β) (k : Nat) : sparseGet d [] k = d := rfl

section
variable (s : State)

theorem reset_pe : (Caller.reset s).pe = false := show bit 0x60000010 0 = false by decide
theorem reset_pg : (Caller.reset s).pg = false := show bit 0x60000010 31 = false by decide
theorem reset_lma : (Caller.reset s).lma = false := show bit 0 10 = false by decide
theorem reset_lme : (Caller.reset s).lme = false := show bit 0 8 = false by decide

theorem reset_pagingMode : (Caller.reset s).pagingMode = .none := by simp [State.pagingMode, reset_pg]

theorem reset_opMode : (Caller.reset s).opMode = .real := by simp [State.opMode, reset_pe]

theorem reset_decodeMode : (Caller.reset s).decodeMode = .m16 := by
  rw [State.decodeMode, reset_lma]
  rfl

theorem reset_is64 : (Caller.reset s).is64 = false := by rw [State.is64, reset_decodeMode]; rfl

theorem reset_stackSize : (Caller.reset s).stackSize = .w16 := by
  rw [State.stackSize, reset_is64]
  rfl

theorem reset_ripWrap (v : Word) : (Caller.reset s).ripWrap v = trunc .w32 v := by simp [State.ripWrap, reset_is64]

theorem reset_fetchOff : (Caller.reset s).fetchOff 0 = 0xFFF0 := by
  rw [State.fetchOff, reset_ripWrap]
  show trunc .w32 (0xFFF0 + BitVec.ofNat 64 0) = 0xFFF0
  decide

theorem reset_fetchLin : (Caller.reset s).fetchLin 0 = 0xFFFFFFF0 := by
  rw [State.fetchLin, State.lin, reset_is64, reset_fetchOff]
  show trunc .w32 (0xFFFF0000 + 0xFFF0) = 0xFFFFFFF0
  decide

/-- R902: the first byte after a reset is fetched at `0xFFFF_FFF0`, whether segments are checked or not. -/
theorem reset_fetchByte (ram : s.AllRam) : fetchByte 0 (Caller.reset s) =
    .ok (s.ms.byte 0xFFFFFFF0) (Caller.reset s) := by
  have passes : (!(Caller.reset s).fetchOk 0) = false := by
    have limit : SegReg.resetCs.inLimit 0xFFF0 1 = true := by decide
    simp only [State.fetchOk, reset_is64, reset_fetchOff]
    rw [show (Caller.reset s).segs.cs = SegReg.resetCs from rfl, limit]
    simp
  unfold fetchByte
  rw [get_bind_run, bind_run_ok (raiseIf_passed _ passes _),
    bind_run_ok (linRead_byte_flat (reset_pagingMode s) ram _ _ _), pure_run, setWidth_byte, reset_fetchLin]
  rfl

/-- R901 satisfies the predicates of R160. -/
theorem reset_consistent : (Caller.reset s).Consistent where
  rflags_fixed := Flags.image_fixed _
  lma := by rw [reset_lma, reset_lme]; rfl
  pg_pe := by rw [reset_pg]; nofun
  lma_pae := by rw [reset_lma]; nofun
  cr0_high := show field 0x60000010 63 32 = 0 by decide
  cr0_et := show bit 0x60000010 4 = true by decide
  cr4_supported := show 0 &&& ~~~cr4Supported = 0 by decide
  efer_writable := show 0 &&& ~~~(eferWritable ||| 0x400) = 0 by decide
  rip_high := fun _ => show field 0xFFF0 63 32 = 0 by decide
  real_cpl := fun _ => rfl
  vm := rfl

theorem reset_inv {s : State} (cfg : s.cfg.ok = true) (ms : s.ms.wf = true) : (Caller.reset s).Inv where
  consistent := reset_consistent s
  cfg := cfg
  ms := by
    obtain ⟨mem, versions, -⟩ := (MemSys.wf_iff _).mp ms
    exact (MemSys.wf_iff _).mpr ⟨mem, versions, rfl⟩
  msrs := rfl
  salts := rfl

end

end Sys2Proof.Machine

open Sys2Proof Sys2Proof.Machine

/-- Settles O1: every value is a field of `State.resetOf`; the first fetch by `reset_fetchByte`. -/
theorem resetValues : Obligations.ResetValues := by
  intro s t
  refine ⟨resetRegs_x s.cfg 2, fun i ne => (resetRegs_x s.cfg i).trans (if_neg ne), rfl, ?image, rfl, fun r ne => ?segs,
    rfl, rfl, rfl, rfl, rfl, rfl, rfl, rfl, rfl, rfl, rfl, fun i => rfl, rfl, rfl, fun i => rfl, rfl, reset_opMode s,
    reset_decodeMode s, reset_stackSize s, reset_pagingMode s, rfl, rfl,
    fun p => rfl, reset_fetchByte s⟩
  case image => exact show Flags.reset.image = 2 by decide
  case segs =>
    cases r
    case cs => exact absurd rfl ne
    all_goals rfl

/-- Settles O2. -/
theorem resetSatisfiesInv : Obligations.ResetSatisfiesInv :=
  ⟨reset_inv (s := State.reset) rfl rfl, fun _ => reset_inv⟩
end

section
/-! PROOF. O11, O16 and O20: what completing an instruction commits (R700, R714, R715), what taking an exception
records (R801, R812), and the privilege check of the system instructions (R600). -/

namespace Sys2Proof.Machine
open Sys2Proof

/-! ### How a block ends (R700) -/

section
variable {tf0 ends : Bool} {s : State}

theorem blockEnds_halted (halted : s.halted = true) : blockEnds tf0 ends s = some .halted := by
  simp [blockEnds, halted]

theorem blockEnds_trap (running : s.halted = false) (tf : tf0 = true) : blockEnds tf0 ends s = some (.trap 1) := by
  simp [blockEnds, running, tf]

theorem blockEnds_end (running : s.halted = false) (tf : tf0 = false) (last : ends = true) :
    blockEnds tf0 ends s = some .blockEnd := by
  simp [blockEnds, running, tf, last]

theorem blockEnds_limit (running : s.halted = false) (tf : tf0 = false) (goes : ends = false)
    (full : s.cfg.maxBlockInstrs ≤ s.retired ∨ s.cfg.maxBlockBytes < s.nbytes + 15) :
    blockEnds tf0 ends s = some .limit := by
  simp [blockEnds, running, tf, goes, full]

theorem blockEnds_none (running : s.halted = false) (tf : tf0 = false) (goes : ends = false)
    (instrs : s.retired < s.cfg.maxBlockInstrs) (bytes : s.nbytes + 15 ≤ s.cfg.maxBlockBytes) :
    blockEnds tf0 ends s = none := by
  simp [blockEnds, running, tf, goes, instrs, bytes]

end

/-! ### Privileged instructions (R600, R813) -/

/-- Above level 0 the privilege check raises `#GP(0)`. -/
theorem privileged_refused {s : State} (level : s.cpl ≠ 0) : privileged s = .error (.gp 0) s :=
  (get_bind_run _ s).trans (raiseIf_raised _ (bne_iff_ne.mpr level) s)

/-- An instruction of the system class above level 0 raises and changes nothing. -/
theorem retire_privileged_refused {h : Hdr} {body : M Unit} {s : State} (level : s.cpl ≠ 0) :
    retire h true (privileged >>= fun _ => body) s = s.faults (.gp 0) :=
  retire_error (bind_run_error (privileged_refused level))

end Sys2Proof.Machine

open Sys2Proof Sys2Proof.Machine

/-- Settles O11: the end of the block is what `blockEnds` gives of the state with the counters advanced. -/
theorem completionBookkeeping : Obligations.CompletionBookkeeping := by
  intro s0 t len ends shadow rip u
  -- the state whose counters `blockEnds` looks at
  let v : State := { t with retired := t.retired + 1, nbytes := t.nbytes + len }
  have outcome : ∀ k, blockEnds s0.flags.tf ends v = some k → u.outcome = some ⟨k, u.retired, u.rip⟩ := by
    intro k ended
    change (match blockEnds s0.flags.tf ends v with
      | some k => some ⟨k, t.retired + 1, s0.ripWrap rip⟩
      | none => none : Option BlockOutcome) = _
    rw [ended]
    rfl
  have running : blockEnds s0.flags.tf ends v = none → u.outcome = none := by
    intro goes
    change (match blockEnds s0.flags.tf ends v with
      | some k => some ⟨k, t.retired + 1, s0.ripWrap rip⟩
      | none => none : Option BlockOutcome) = none
    rw [goes]
  exact ⟨rfl, rfl, rfl, rfl, rfl, rfl, fun halted => outcome _ (blockEnds_halted halted),
    fun halted tf => outcome _ (blockEnds_trap halted tf),
    fun halted tf last => outcome _ (blockEnds_end halted tf last),
    fun halted tf goes => ⟨fun full => outcome _ (blockEnds_limit halted tf goes full),
      fun instrs bytes => running (blockEnds_none halted tf goes instrs bytes)⟩⟩

/-- Settles O16: the address is reported as `State.reportedAddr` says; an exception without one writes no
`cr2`. -/
theorem takingAnException : Obligations.TakingAnException := by
  intro s code lin a
  have reported : s.reportedAddr lin = a := by
    have low : trunc .w32 lin = BitVec.ofNat 64 (lin.toNat % 2 ^ 32) := BitVec.eq_of_toNat_eq (by
      rw [trunc_toNat, BitVec.toNat_ofNat, Nat.mod_eq_of_lt (Nat.lt_of_lt_of_le (Nat.mod_lt _ (by decide)) (by decide))]
      rfl)
    simp only [State.reportedAddr, is64_iff, low]
    rfl
  refine ⟨?pf, fun f noAddr => ?other⟩
  case pf => rw [← reported]; rfl
  case other => exact Host.Outcome.next.inj (faults_of_addr_none noAddr s)

/-- Settles O20: each begins with the privilege check. -/
theorem privilegedInstructionsFault : Obligations.PrivilegedInstructionsFault := by
  intro h w m c r s level
  exact ⟨retire_privileged_refused level, retire_privileged_refused level, retire_privileged_refused level,
    retire_privileged_refused level, retire_privileged_refused level, retire_privileged_refused level,
    retire_privileged_refused level, retire_privileged_refused level, retire_privileged_refused level⟩
end

section
/-! PROOF. What a body can do, for O12 to O15, O17, O18, O21 to O24 and O26. `Runs G E H x` says of a body `x` started
where `G` holds that `H` holds where it completes, that `E` holds where it raises and what it raises is one of the
exceptions of R810, and that it does not look at the bookkeeping of the block. Here: how that composes, and that
translations and memory accesses run so. -/

namespace Sys2Proof.Machine
open Sys2Proof

/-! ### The bookkeeping of the block (R700, R703, R722) -/

/-- The counters and the outcome of a call, and its limits. -/
structure Books where
  retired : Nat
  nbytes : Nat
  outcome : Option BlockOutcome
  maxInstrs : Nat
  maxBytes : Nat

/-- The state with another bookkeeping. -/
def State.withBooks (s : State) (b : Books) : State :=
  { s with
    retired := b.retired
    nbytes := b.nbytes
    outcome := b.outcome
    cfg := { s.cfg with maxBlockInstrs := b.maxInstrs, maxBlockBytes := b.maxBytes } }

/-- The bookkeeping of a state. -/
def State.books (s : State) : Books := ⟨s.retired, s.nbytes, s.outcome, s.cfg.maxBlockInstrs, s.cfg.maxBlockBytes⟩

theorem forget_withBooks (s : State) (b : Books) : (s.withBooks b).forget = s.forget := rfl

theorem withBooks_books (s : State) : s.withBooks s.books = s := rfl

/-- States alike outside the bookkeeping differ in it only. -/
theorem eq_withBooks_of_forget_eq {s t : State} (alike : s.forget = t.forget) : t = s.withBooks t.books := by
  calc t = (t.forget).withBooks t.books := rfl
    _ = (s.forget).withBooks t.books := by rw [alike]
    _ = s.withBooks t.books := rfl

/-- How a body ends, with another bookkeeping in the state reached. -/
def mapBooks {α : Type} (b : Books) : EStateM.Result FaultRec State α → EStateM.Result FaultRec State α
  | .ok a t => .ok a (t.withBooks b)
  | .error f t => .error f (t.withBooks b)

/-! ### The exceptions of R810 -/

/-- R810, R811: the vectors, which of them have an error code, and that only a page fault has an address. -/
structure FaultRec.Proper (f : FaultRec) : Prop where
  vector : f.vector = 0 ∨ f.vector = 6 ∨ f.vector = 11 ∨ f.vector = 12 ∨ f.vector = 13 ∨ f.vector = 14
  code : f.code.isSome = true ↔ 11 ≤ f.vector
  addr : f.addr.isSome = true ↔ f.vector = 14

theorem proper_de : FaultRec.Proper .de := ⟨by simp [FaultRec.de], by simp [FaultRec.de], by simp [FaultRec.de]⟩
theorem proper_ud : FaultRec.Proper .ud := ⟨by simp [FaultRec.ud], by simp [FaultRec.ud], by simp [FaultRec.ud]⟩
theorem proper_np (c : BitVec 32) : FaultRec.Proper (.np c) :=
  ⟨by simp [FaultRec.np], by simp [FaultRec.np], by simp [FaultRec.np]⟩
theorem proper_ss (c : BitVec 32) : FaultRec.Proper (.ss c) :=
  ⟨by simp [FaultRec.ss], by simp [FaultRec.ss], by simp [FaultRec.ss]⟩
theorem proper_gp (c : BitVec 32) : FaultRec.Proper (.gp c) :=
  ⟨by simp [FaultRec.gp], by simp [FaultRec.gp], by simp [FaultRec.gp]⟩
theorem proper_pf (c : BitVec 32) (a : Word) : FaultRec.Proper (.pf c a) :=
  ⟨by simp [FaultRec.pf], by simp [FaultRec.pf], by simp [FaultRec.pf]⟩

theorem proper_segFault (seg : SReg) : (segFault seg).Proper := by
  unfold segFault
  split
  · exact proper_ss 0
  · exact proper_gp 0

theorem proper_descFault {s : State} {r : SReg} {sel : BitVec 16} {d : SegReg} {f : FaultRec}
    (fault : s.descFault r sel d = some f) : f.Proper := by
  have which : f = .gp (selCode sel) ∨ f = .ss (selCode sel) ∨ f = .np (selCode sel) := by
    unfold State.descFault at fault
    grind
  obtain rfl | rfl | rfl := which
  · exact proper_gp _
  · exact proper_ss _
  · exact proper_np _

/-! ### The judgement, and how it composes -/

/-- A body started where `G` holds ends where `H` holds if it completes, and where `E` holds, with an exception of
R810, if it raises; it neither reads nor writes the bookkeeping of the block. -/
structure Runs {α : Type} (G E H : State → Prop) (x : M α) : Prop where
  ok : ∀ s a t, G s → x s = .ok a t → H t
  error : ∀ s f t, G s → x s = .error f t → E t ∧ f.Proper
  blind : ∀ s b, G s → x (s.withBooks b) = mapBooks b (x s)

section
variable {α β : Type} {G G' E H K : State → Prop}

theorem ok_ne_error {a : α} {f : FaultRec} {s t : State} :
    (EStateM.Result.ok a s : EStateM.Result FaultRec State α) ≠ .error f t := by simp

theorem Runs.pre {x : M α} (runs : Runs G E H x) (le : ∀ s, G' s → G s) : Runs G' E H x :=
  ⟨fun s a t h => runs.ok s a t (le s h), fun s f t h => runs.error s f t (le s h),
    fun s b h => runs.blind s b (le s h)⟩

theorem Runs.post {x : M α} (runs : Runs G E H x) (le : ∀ s, H s → K s) : Runs G E K x :=
  ⟨fun s a t h run => le t (runs.ok s a t h run), runs.error, runs.blind⟩

/-- A body that is blind, and keeps `G` wherever it ends. -/
theorem Runs.with {x : M α} (runs : Runs (fun _ => True) (fun _ => True) (fun _ => True) x)
    (keeps : ∀ s, G s → G (endState x s)) : Runs G G G x where
  ok s a t h run := by have := keeps s h; rwa [endState, run] at this
  error s f t h run := by
    have := keeps s h
    rw [endState, run] at this
    exact ⟨this, (runs.error s f t trivial run).2⟩
  blind s b _ := runs.blind s b trivial

theorem Runs.keeps {x : M α} (runs : Runs G G G x) (s : State) (h : G s) : G (endState x s) := by
  unfold endState
  split
  next a t run => exact runs.ok s a t h run
  next f t run => exact (runs.error s f t h run).1

theorem runs_pure (a : α) (le : ∀ s, G s → H s) : Runs G E H (pure a : M α) where
  ok s b t h run := by cases run; exact le s h
  error _ _ _ _ run := (ok_ne_error run).elim
  blind _ _ _ := rfl

theorem runs_raise {f : FaultRec} (proper : f.Proper) (le : ∀ s, G s → E s) : Runs G E H (raise f : M α) where
  ok _ _ _ _ run := (ok_ne_error run.symm).elim
  error s g t h run := by cases run; exact ⟨le s h, proper⟩
  blind _ _ _ := rfl

theorem runs_bind {x : M α} {f : α → M β} (first : Runs G E K x) (rest : ∀ a, Runs K E H (f a)) :
    Runs G E H (x >>= f) where
  ok s b u h run := by
    obtain ⟨a, t, run, run'⟩ := bind_ok.mp run
    exact (rest a).ok t b u (first.ok s a t h run) run'
  error s e u h run := by
    rcases bind_error.mp run with run | ⟨a, t, run, run'⟩
    · exact first.error s e u h run
    · exact (rest a).error t e u (first.ok s a t h run) run'
  blind s b h := by
    rw [bind_run, bind_run, first.blind s b h]
    cases run : x s with
    | ok a t => exact (rest a).blind t b (first.ok s a t h run)
    | error e t => rfl

/-- After reading the state the rest is considered for that state, in which `G` holds. It must not depend on the
bookkeeping. -/
theorem runs_get_bind {f : State → M β} (same : ∀ s b, f (s.withBooks b) = f s)
    (rest : ∀ s, G s → Runs G E H (f s)) : Runs G E H ((get : M State) >>= f) where
  ok s b t h run := (rest s h).ok s b t h run
  error s e t h run := (rest s h).error s e t h run
  blind s b h := by
    rw [get_bind_run, same]
    exact (rest s h).blind s b h

theorem runs_modify {f : State → State} (step : ∀ s, G s → H (f s))
    (blind : ∀ s b, f (s.withBooks b) = (f s).withBooks b) : Runs G E H (modify f : M PUnit) where
  ok s a t h run := by cases run; exact step s h
  error _ _ _ _ run := (ok_ne_error run).elim
  blind s b _ := by rw [modify_run, modify_run, blind]; rfl

/-- After a check has been passed its condition is false. -/
theorem runs_check_bind {c : Bool} {f : FaultRec} (proper : f.Proper) {y : M β} (le : ∀ s, G s → E s)
    (rest : c = false → Runs G E H y) : Runs G E H (raiseIf c f >>= fun _ => y) := by
  cases c
  · exact runs_bind (runs_pure () fun _ h => h) fun _ => rest rfl
  · exact runs_bind (K := fun _ => False) (runs_raise proper le) fun _ =>
      ⟨fun _ _ _ no => no.elim, fun _ _ _ no => no.elim, fun _ _ no => no.elim⟩

theorem runs_raiseIf (c : Bool) {f : FaultRec} (proper : f.Proper) : Runs G G G (raiseIf c f) := by
  cases c
  · exact runs_pure () fun _ h => h
  · exact runs_raise proper fun _ h => h

end
/-! ### Walks and translations -/

/-- `G` is kept by what a walk does: accesses to pages that are not RAM, accessed and dirty bits, the fill of the
cache (R205, R253, R275). -/
structure Walks (G : State → Prop) : Prop where
  busOp : ∀ s, G s → G (s.withMs s.ms.countBusOp)
  marked : ∀ s pa size old new, G s → G (endState (writeEntry pa size old new) s)
  filled : ∀ s lin k r, G s → G (s.setTlb (s.tlbIndex lin) (s.tlbFill lin k r))

theorem walks_true : Walks fun _ => True := ⟨fun _ _ => trivial, fun _ _ _ _ _ _ => trivial, fun _ _ _ _ _ => trivial⟩

theorem blind_physRead (pa n : Nat) :
    Runs (fun _ => True) (fun _ => True) (fun _ => True) (physRead pa n) where
  ok _ _ _ _ _ := trivial
  error s f t _ run := by
    unfold physRead at run
    split at run <;> cases run
  blind s b _ := by
    unfold physRead
    by_cases ram : isRam s.cfg (pa / 4096) = true
    · rw [if_pos ram, if_pos (show isRam (s.withBooks b).cfg (pa / 4096) = true from ram)]; rfl
    · rw [if_neg ram, if_neg (show ¬isRam (s.withBooks b).cfg (pa / 4096) = true from ram)]; rfl

theorem blind_physWrite (pa n : Nat) (v : Word) :
    Runs (fun _ => True) (fun _ => True) (fun _ => True) (physWrite pa n v) :=
  runs_modify (fun _ _ => trivial) fun _ _ => rfl

theorem blind_onGuestWrite (pa n : Nat) :
    Runs (fun _ => True) (fun _ => True) (fun _ => True) (onGuestWrite pa n) :=
  runs_modify (fun _ _ => trivial) fun _ _ => rfl

theorem blind_writeEntry (pa size : Nat) (old new : Word) :
    Runs (fun _ => True) (fun _ => True) (fun _ => True) (writeEntry pa size old new) := by
  unfold writeEntry
  split
  · exact runs_pure _ fun _ h => h
  · exact runs_bind (blind_physWrite _ _ _) fun _ => blind_onGuestWrite _ _

theorem blind_writeEach (l : List (Nat × Byte)) :
    Runs (fun _ => True) (fun _ => True) (fun _ => True) (writeEach l) := by
  induction l with
  | nil => exact runs_pure _ fun _ h => h
  | cons a l ih => exact runs_bind (blind_physWrite _ _ _) fun _ => ih

theorem blind_spanWrite (p : Span) (n : Nat) (v : Word) :
    Runs (fun _ => True) (fun _ => True) (fun _ => True) (spanWrite p n v) := by
  unfold spanWrite
  split
  · exact runs_bind (blind_writeEach _) fun _ => runs_bind (blind_onGuestWrite _ _) fun _ => blind_onGuestWrite _ _
  · exact runs_bind (blind_physWrite _ _ _) fun _ => blind_onGuestWrite _ _

theorem runs_physRead {G : State → Prop} (busOp : ∀ s, G s → G (s.withMs s.ms.countBusOp)) (pa n : Nat) :
    Runs G G G (physRead pa n) :=
  (blind_physRead pa n).with fun s h => by
    unfold endState physRead
    by_cases ram : isRam s.cfg (pa / 4096) = true
    · rw [if_pos ram]; exact h
    · rw [if_neg ram]; exact busOp s h

theorem runs_pfIf {G : State → Prop} (c : Bool) (lin : Word) (k : Access) (user p r : Bool) :
    Runs G G G (pfIf c lin k user p r) :=
  runs_get_bind (fun _ _ => rfl) fun _ _ => runs_raiseIf _ (proper_pf _ _)

section
variable {G : State → Prop} (hG : Walks G)
include hG

theorem runs_readEntry (pa size : Nat) (lin : Word) (k : Access) (user : Bool) :
    Runs G G G (readEntry pa size lin k user) :=
  runs_bind (runs_physRead hG.busOp _ _) fun _ => runs_bind (runs_pfIf _ _ _ _ _ _) fun _ => runs_pure _ fun _ h => h

theorem runs_walkLegacy2 (lin : Word) (k : Access) (user : Bool) : Runs G G G (walkLegacy2 lin k user) := by
  refine runs_get_bind (fun _ _ => rfl) fun s _ => runs_bind (runs_readEntry hG _ _ _ _ _) fun pde => ?_
  split
  · exact runs_pure _ fun _ h => h
  · exact runs_bind (runs_readEntry hG _ _ _ _ _) fun _ => runs_pure _ fun _ h => h

theorem runs_walkPd (base : Nat) (above : List (Nat × Word)) (w u xd pae : Bool) (lin : Word) (k : Access)
    (user : Bool) : Runs G G G (walkPd base above w u xd pae lin k user) := by
  refine runs_get_bind (fun _ _ => rfl) fun s _ => runs_bind (runs_readEntry hG _ _ _ _ _) fun pde => ?_
  refine runs_bind (runs_pfIf _ _ _ _ _ _) fun _ => ?_
  split
  · exact runs_pure _ fun _ h => h
  · exact runs_bind (runs_readEntry hG _ _ _ _ _) fun _ => runs_bind (runs_pfIf _ _ _ _ _ _) fun _ =>
      runs_pure _ fun _ h => h

theorem runs_walkPae3 (lin : Word) (k : Access) (user : Bool) : Runs G G G (walkPae3 lin k user) :=
  runs_get_bind (fun _ _ => rfl) fun _ _ => runs_bind (runs_readEntry hG _ _ _ _ _) fun _ =>
    runs_bind (runs_pfIf _ _ _ _ _ _) fun _ => runs_walkPd hG _ _ _ _ _ _ _ _ _

theorem runs_walkLong4 (lin : Word) (k : Access) (user : Bool) : Runs G G G (walkLong4 lin k user) :=
  runs_get_bind (fun _ _ => rfl) fun _ _ => runs_bind (runs_readEntry hG _ _ _ _ _) fun _ =>
    runs_bind (runs_pfIf _ _ _ _ _ _) fun _ => runs_bind (runs_readEntry hG _ _ _ _ _) fun _ =>
      runs_bind (runs_pfIf _ _ _ _ _ _) fun _ => runs_walkPd hG _ _ _ _ _ _ _ _ _

theorem runs_markLevels (size : Nat) (k : Access) (l : List (Nat × Word)) : Runs G G G (markLevels size k l) := by
  induction l with
  | nil => exact runs_pure _ fun _ h => h
  | cons e rest ih =>
    exact runs_bind ((blind_writeEntry _ _ _ _).with fun s => hG.marked s _ _ _ _) fun _ => ih

theorem runs_walkTables (mode : PagingMode) (lin : Word) (k : Access) (user : Bool) :
    Runs G G G (walkTables mode lin k user) := by
  cases mode
  · exact runs_walkLong4 hG _ _ _
  · exact runs_walkLegacy2 hG _ _ _
  · exact runs_walkPae3 hG _ _ _
  · exact runs_walkLong4 hG _ _ _

theorem runs_walk (lin : Word) (k : Access) (user : Bool) : Runs G G G (walk lin k user) :=
  runs_get_bind (fun _ _ => rfl) fun _ _ => runs_bind (runs_walkTables hG _ _ _ _) fun _ =>
    runs_bind (runs_pfIf _ _ _ _ _ _) fun _ => runs_bind (runs_markLevels hG _ _ _) fun _ =>
      runs_pure _ fun _ h => h

theorem runs_translate_of_walks (lin : Word) (k : Access) (user : Bool) : Runs G G G (translate lin k user) := by
  refine runs_get_bind (fun _ _ => rfl) fun s _ => ?_
  split
  · exact runs_pure _ fun _ h => h
  · split
    · exact runs_pure _ fun _ h => h
    · exact runs_bind (runs_walk hG _ _ _) fun r =>
        runs_bind (runs_modify (fun s h => hG.filled s _ _ _ h) fun _ _ => rfl) fun _ => runs_pure _ fun _ h => h

end

/-! ### Memory accesses -/

/-- `G` is kept by the changes of a read: an access to a page that is not RAM, and a translation. -/
structure Reads (G : State → Prop) : Prop where
  busOp : ∀ s, G s → G (s.withMs s.ms.countBusOp)
  translated : ∀ lin k user s, G s → G (endState (translate lin k user) s)

theorem Walks.toReads {G : State → Prop} (hG : Walks G) : Reads G :=
  ⟨hG.busOp, fun _ _ _ s h => (runs_translate_of_walks hG _ _ _).keeps s h⟩

section
variable {G : State → Prop} (hG : Reads G)
include hG

theorem runs_translate (lin : Word) (k : Access) (user : Bool) : Runs G G G (translate lin k user) :=
  (runs_translate_of_walks walks_true lin k user).with (hG.translated lin k user)

theorem runs_translateSpan (lin : Word) (n : Nat) (k : Access) (user : Bool) :
    Runs G G G (translateSpan lin n k user) := by
  refine runs_get_bind (fun _ _ => rfl) fun s _ => ?_
  split
  · exact runs_bind (runs_translate hG _ _ _) fun _ => runs_pure _ fun _ h => h
  · exact runs_bind (runs_translate hG _ _ _) fun _ => runs_bind (runs_translate hG _ _ _) fun _ =>
      runs_pure _ fun _ h => h

theorem runs_readEach (l : List Nat) : Runs G G G (readEach l) := by
  induction l with
  | nil => exact runs_pure _ fun _ h => h
  | cons a l ih => exact runs_bind (runs_physRead hG.busOp _ _) fun _ => runs_bind ih fun _ => runs_pure _ fun _ h => h

theorem runs_spanRead (p : Span) (n : Nat) : Runs G G G (spanRead p n) := by
  unfold spanRead
  split
  · exact runs_bind (runs_readEach hG _) fun _ => runs_pure _ fun _ h => h
  · exact runs_physRead hG.busOp _ _

theorem runs_linRead (lin : Word) (n : Nat) (k : Access) (user : Bool) : Runs G G G (linRead lin n k user) :=
  runs_bind (runs_translateSpan hG _ _ _ _) fun _ => runs_spanRead hG _ _

theorem runs_memRead (seg : SReg) (off : Word) (n : Nat) : Runs G G G (memRead seg off n) :=
  runs_get_bind (fun _ _ => rfl) fun _ _ => runs_bind (runs_raiseIf _ (proper_segFault _)) fun _ =>
    runs_bind (runs_raiseIf _ (proper_segFault _)) fun _ => runs_linRead hG _ _ _ _

theorem runs_rmwBegin (seg : SReg) (off : Word) (n : Nat) : Runs G G G (rmwBegin seg off n) :=
  runs_get_bind (fun _ _ => rfl) fun _ _ => runs_bind (runs_raiseIf _ (proper_segFault _)) fun _ =>
    runs_bind (runs_raiseIf _ (proper_segFault _)) fun _ => runs_bind (runs_raiseIf _ (proper_segFault _)) fun _ =>
      runs_bind (runs_translateSpan hG _ _ _ _) fun _ => runs_bind (runs_spanRead hG _ _) fun _ =>
        runs_pure _ fun _ h => h

omit hG in
theorem runs_readReg (w : Width) (r : Gpr) : Runs G G G (readReg w r) :=
  runs_get_bind (fun _ _ => rfl) fun _ _ => runs_pure _ fun _ h => h

theorem runs_readRM (h : Hdr) (w : Width) (o : RM) : Runs G G G (readRM h w o) := by
  cases o with
  | reg r => exact runs_readReg w r
  | mem m => exact runs_get_bind (fun _ _ => rfl) fun _ _ => runs_memRead hG _ _ _

theorem runs_fetchByte (k : Nat) : Runs G G G (fetchByte k) :=
  runs_get_bind (fun _ _ => rfl) fun _ _ => runs_bind (runs_raiseIf _ (proper_gp _)) fun _ =>
    runs_bind (runs_linRead hG _ _ _ _) fun _ => runs_pure _ fun _ h => h

theorem runs_fetchDecode (m : DecodeMode) (fuel : Nat) (bytes : List Byte) :
    Runs G G G (fetchDecode m fuel bytes) := by
  induction fuel generalizing bytes with
  | zero => exact runs_pure _ fun _ h => h
  | succ fuel ih =>
    unfold fetchDecode
    split
    · exact runs_bind (runs_fetchByte hG _) fun _ => ih _
    · exact runs_pure _ fun _ h => h

theorem runs_readTable (h : Hdr) (w : Width) (m : MemOp) : Runs G G G (readTable h w m) :=
  runs_get_bind (fun _ _ => rfl) fun _ _ => runs_bind (runs_memRead hG _ _ _) fun _ =>
    runs_bind (runs_memRead hG _ _ _) fun _ => runs_bind (runs_raiseIf _ (proper_gp _)) fun _ =>
      runs_pure _ fun _ h => h

end

/-! ### Bodies -/

/-- What a body that writes no system state needs: `G` is kept up to its first write, `H` from there on, by stores
where the body has a store (`S`), by writes of the registers of the list `L`, and of flags that satisfy `P`. -/
structure Writes (S : Prop) (G H : State → Prop) (L : List RegNum) (P : Flags → Prop) : Prop where
  reads : Reads G
  le : ∀ s, G s → H s
  stored : S → ∀ p n v s, H s → H (s.stored p n v)
  setX : ∀ s i v, i ∈ L → H s → H (s.setX i v)
  withFlags : ∀ s f, P f → H s → H (s.withFlags f)
  flags : ∀ s, H s → P s.flags

section
variable {S : Prop} {G H : State → Prop} {L : List RegNum} {P : Flags → Prop} (hG : Writes S G H L P)
include hG

theorem runs_spanWrite {E : State → Prop} (st : S) (p : Span) (n : Nat) (v : Word) :
    Runs H E H (spanWrite p n v) where
  ok s _ t h run := by
    rw [spanWrite_run] at run
    cases run
    exact hG.stored st p n v s h
  error s _ _ _ run := by
    rw [spanWrite_run] at run
    exact (ok_ne_error run).elim
  blind s b _ := (blind_spanWrite p n v).blind s b trivial

theorem runs_linWrite (st : S) (lin : Word) (n : Nat) (v : Word) (user : Bool) : Runs G G H (linWrite lin n v user) :=
  runs_bind (runs_translateSpan hG.reads _ _ _ _) fun _ => (runs_spanWrite hG st _ _ _).pre hG.le

theorem runs_memWrite (st : S) (seg : SReg) (off : Word) (n : Nat) (v : Word) : Runs G G H (memWrite seg off n v) :=
  runs_get_bind (fun _ _ => rfl) fun _ _ => runs_bind (runs_raiseIf _ (proper_segFault _)) fun _ =>
    runs_bind (runs_raiseIf _ (proper_segFault _)) fun _ => runs_linWrite hG st _ _ _ _

theorem runs_markDescriptor (st : S) (lin raw : Word) : Runs G G H (markDescriptor lin raw) := by
  unfold markDescriptor
  split
  · exact runs_pure _ hG.le
  · exact runs_linWrite hG st _ _ _ _

theorem runs_setReg {E : State → Prop} (w : Width) {r : Gpr} (mem : r.num ∈ L) (v : Word) :
    Runs H E H (setReg w r v) :=
  runs_modify (fun s h => hG.setX s r.num _ mem h) fun _ _ => rfl

theorem runs_setFlags {E : State → Prop} {f : Flags} (ok : P f) : Runs H E H (setFlags f) :=
  runs_modify (fun s h => hG.withFlags s f ok h) fun _ _ => rfl

theorem runs_setSp {E : State → Prop} (mem : (4 : RegNum) ∈ L) (v : Word) :
    Runs H E H (modify fun t => t.setSp v) :=
  runs_modify (fun s h => hG.setX s 4 _ mem h) fun _ _ => rfl

theorem runs_setPair {E : State → Prop} (w : Width) (lo : (0 : RegNum) ∈ L) (hi : w ≠ .w8 → (2 : RegNum) ∈ L)
    (a b : Word) : Runs H E H (modify fun t => t.setPair w a b) := by
  refine runs_modify (fun s h => ?_) fun s b => by cases w <;> rfl
  have both (ne : w ≠ .w8) : H ((s.regWrite w rAX b).regWrite w rDX a) :=
    hG.setX _ 2 _ (hi ne) (hG.setX s 0 _ lo h)
  cases w
  · exact hG.setX s 0 _ lo h
  · exact both nofun
  · exact both nofun
  · exact both nofun

end

end Sys2Proof.Machine
end

section
/-! PROOF. The bodies of the instructions run as `Runs` says: up to its first write a body keeps `G`, and it raises
there only; from there on it keeps `H` (for O12 to O15, O17, O18, O21 to O24 and O26). -/

namespace Sys2Proof.Machine
open Sys2Proof

/-- The destination of a two-operand operation. -/
def aluDst : AluForm → RM
  | .mr _ dst _ | .mi _ dst _ | .mis _ dst _ => dst
  | .rm _ dst _ => .reg dst
  | .acc _ _ => .reg rAX

theorem aluRegs_eq (f : AluForm) : aluRegs f = rmRegs (aluDst f) := by cases f <;> rfl

section
variable {S : Prop} {G H : State → Prop} {L : List RegNum} {P : Flags → Prop} (hG : Writes S G H L P)
include hG

/-! ### Operands and the stack -/

theorem runs_writeRM {o : RM} (st : o.isMem = true → S) (regs : ∀ r ∈ rmRegs o, r ∈ L) (h : Hdr) (w : Width)
    (v : Word) : Runs G G H (writeRM h w o v) := by
  cases o with
  | reg r => exact (runs_setReg hG w (regs _ (List.mem_singleton.mpr rfl)) v).pre hG.le
  | mem m => exact runs_get_bind (fun _ _ => rfl) fun _ _ => runs_memWrite hG (st rfl) _ _ _ _

theorem runs_rmwReg {r : Gpr} (mem : r.num ∈ L) {f : Word → Flags → Computed}
    (ok : ∀ a fl, P fl → P (f a fl).flags) (w : Width) : Runs G G H (rmwReg w r f) :=
  runs_get_bind (fun _ _ => rfl) fun s at_s => runs_bind ((runs_setReg hG w mem _).pre hG.le) fun _ =>
    runs_setFlags hG (ok _ _ (hG.flags s (hG.le s at_s)))

theorem runs_rmwRM {o : RM} (st : o.isMem = true → S) (regs : ∀ r ∈ rmRegs o, r ∈ L) {f : Word → Flags → Computed}
    (ok : ∀ a fl, P fl → P (f a fl).flags) (h : Hdr) (w : Width) : Runs G G H (rmwRM h w o f) := by
  cases o with
  | reg r => exact runs_rmwReg hG (regs _ (List.mem_singleton.mpr rfl)) ok w
  | mem m =>
    exact runs_get_bind (fun _ _ => rfl) fun s at_s => runs_bind (runs_rmwBegin hG.reads _ _ _) fun _ =>
      runs_bind ((runs_spanWrite hG (st rfl) _ _ _).pre hG.le) fun _ =>
        runs_setFlags hG (ok _ _ (hG.flags s (hG.le s at_s)))

theorem runs_push (st : S) (sp : (4 : RegNum) ∈ L) (n : Nat) (v : Word) : Runs G G H (push n v) :=
  runs_get_bind (fun _ _ => rfl) fun _ _ => runs_bind (runs_memWrite hG st _ _ _ _) fun _ => runs_setSp hG sp _

theorem runs_pop (sp : (4 : RegNum) ∈ L) (n : Nat) : Runs G G H (pop n) :=
  runs_get_bind (fun _ _ => rfl) fun _ _ => runs_bind (runs_memRead hG.reads _ _ _) fun _ =>
    runs_bind ((runs_setSp hG sp _).pre hG.le) fun _ => runs_pure _ fun _ h => h

/-! ### Arithmetic and logic -/

theorem runs_aluWrite {g : Width → Word → Word → Flags → Computed} (ok : ∀ w a b fl, P fl → P (g w a b fl).flags)
    {f : AluForm} (st : (aluDst f).isMem = true → S) (regs : ∀ r ∈ rmRegs (aluDst f), r ∈ L) (h : Hdr) :
    Runs G G H (aluWrite h g f) := by
  cases f with
  | mr w dst src =>
    exact runs_bind (runs_readReg _ _) fun b => runs_rmwRM hG st regs (fun a fl => ok w a b fl) _ _
  | rm w dst src =>
    exact runs_bind (runs_readRM hG.reads _ _ _) fun b =>
      runs_rmwReg hG (regs _ (List.mem_singleton.mpr rfl)) (fun a fl => ok w a b fl) _
  | acc w imm => exact runs_rmwReg hG (regs _ (List.mem_singleton.mpr rfl)) (fun a fl => ok w a imm fl) _
  | mi w dst imm => exact runs_rmwRM hG st regs (fun a fl => ok w a imm fl) _ _
  | mis w dst imm => exact runs_rmwRM hG st regs (fun a fl => ok w a imm fl) _ _

theorem runs_compareWith {g : Word → Word → Flags → Computed} (ok : ∀ a b fl, P fl → P (g a b fl).flags)
    (a b : Word) : Runs G G H (compareWith a b g) :=
  runs_get_bind (fun _ _ => rfl) fun s at_s =>
    (runs_setFlags hG (ok a b _ (hG.flags s (hG.le s at_s)))).pre hG.le

theorem runs_aluCompare {g : Width → Word → Word → Flags → Computed}
    (ok : ∀ w a b fl, P fl → P (g w a b fl).flags) (h : Hdr) (f : AluForm) : Runs G G H (aluCompare h g f) := by
  cases f with
  | mr w dst src =>
    exact runs_bind (runs_readRM hG.reads _ _ _) fun _ => runs_bind (runs_readReg _ _) fun _ =>
      runs_compareWith hG (ok w) _ _
  | rm w dst src =>
    exact runs_bind (runs_readReg _ _) fun _ => runs_bind (runs_readRM hG.reads _ _ _) fun _ =>
      runs_compareWith hG (ok w) _ _
  | acc w imm => exact runs_bind (runs_readReg _ _) fun _ => runs_compareWith hG (ok w) _ _
  | mi w dst imm => exact runs_bind (runs_readRM hG.reads _ _ _) fun _ => runs_compareWith hG (ok w) _ _
  | mis w dst imm => exact runs_bind (runs_readRM hG.reads _ _ _) fun _ => runs_compareWith hG (ok w) _ _

theorem runs_testBody (ok : ∀ w a b fl, P fl → P (testFlags w a b fl).flags) (h : Hdr) (f : TestForm) :
    Runs G G H (testBody h f) := by
  cases f with
  | mr w x y =>
    exact runs_bind (runs_readRM hG.reads _ _ _) fun _ => runs_bind (runs_readReg _ _) fun _ =>
      runs_compareWith hG (ok w) _ _
  | acc w imm => exact runs_bind (runs_readReg _ _) fun _ => runs_compareWith hG (ok w) _ _
  | mi w x imm => exact runs_bind (runs_readRM hG.reads _ _ _) fun _ => runs_compareWith hG (ok w) _ _

theorem runs_incBody {g : Width → Word → Flags → Computed} (ok : ∀ w a fl, P fl → P (g w a fl).flags) {f : IncForm}
    (st : (incOperand f).2.isMem = true → S) (regs : ∀ r ∈ rmRegs (incOperand f).2, r ∈ L) (h : Hdr) :
    Runs G G H (incBody h g f) := by
  cases f with
  | rm w dst => exact runs_rmwRM hG st regs (ok w) _ _
  | short w r => exact runs_rmwReg hG (regs _ (List.mem_singleton.mpr rfl)) (ok w) _

theorem runs_cmpxchgBody (ok : ∀ w a b fl, P fl → P (subFlags w a b false fl).flags) {dst : RM}
    (st : dst.isMem = true → S) (acc : (0 : RegNum) ∈ L) (regs : ∀ r ∈ rmRegs dst, r ∈ L) (h : Hdr) (w : Width)
    (src : Gpr) : Runs G G H (cmpxchgBody h w dst src) := by
  refine runs_get_bind (fun _ _ => rfl) fun s at_s => ?_
  have flags := hG.flags s (hG.le s at_s)
  cases dst with
  | reg r =>
    refine runs_bind (K := H) ?_ fun _ => runs_setFlags hG (ok _ _ _ _ flags)
    split
    · exact (runs_setReg hG w (regs _ (List.mem_singleton.mpr rfl)) _).pre hG.le
    · exact (runs_setReg hG w (r := rAX) acc _).pre hG.le
  | mem m =>
    refine runs_bind (runs_rmwBegin hG.reads _ _ _) fun o => ?_
    refine runs_bind (K := H) ?_ fun _ => runs_setFlags hG (ok _ _ _ _ flags)
    split
    · exact (runs_spanWrite hG (st rfl) _ _ _).pre hG.le
    · exact runs_bind ((runs_spanWrite hG (st rfl) _ _ _).pre hG.le) fun _ => runs_setReg hG w (r := rAX) acc _

theorem runs_xaddBody (ok : ∀ w a b fl, P fl → P (addFlags w a b false fl).flags) {dst : RM} {src : Gpr}
    (st : dst.isMem = true → S) (source : src.num ∈ L) (regs : ∀ r ∈ rmRegs dst, r ∈ L) (h : Hdr) (w : Width) :
    Runs G G H (xaddBody h w dst src) := by
  refine runs_get_bind (fun _ _ => rfl) fun s at_s => ?_
  have flags := hG.flags s (hG.le s at_s)
  cases dst with
  | reg r =>
    exact runs_bind ((runs_setReg hG w source _).pre hG.le) fun _ =>
      runs_bind (runs_setReg hG w (regs _ (List.mem_singleton.mpr rfl)) _) fun _ =>
        runs_setFlags hG (ok _ _ _ _ flags)
  | mem m =>
    exact runs_bind (runs_rmwBegin hG.reads _ _ _) fun o =>
      runs_bind ((runs_spanWrite hG (st rfl) _ _ _).pre hG.le) fun _ =>
        runs_bind (runs_setReg hG w source _) fun _ => runs_setFlags hG (ok _ _ _ _ flags)

theorem runs_shiftBody {f : Width → Word → Word → Flags → Computed} (ok : ∀ w a b fl, P fl → P (f w a b fl).flags)
    {dst : RM} (st : dst.isMem = true → S) (regs : ∀ r ∈ rmRegs dst, r ∈ L) (h : Hdr) (w : Width) (c : ShiftCount) :
    Runs G G H (shiftBody h w dst c f) :=
  runs_get_bind (fun _ _ => rfl) fun _ _ => runs_rmwRM hG st regs (fun a fl => ok w a _ fl) _ _

/-! ### Multiplication and division -/

section
variable (ok : ∀ g fl, P fl → P (Flags.withSt fl g))
include ok

theorem runs_mulBody (lo : (0 : RegNum) ∈ L) {w : Width} (hi : w ≠ .w8 → (2 : RegNum) ∈ L) (h : Hdr) (src : RM) :
    Runs G G H (mulBody h w src) :=
  runs_bind (runs_readRM hG.reads _ _ _) fun _ => runs_get_bind (fun _ _ => rfl) fun s at_s =>
    runs_bind ((runs_setPair hG w lo hi _ _).pre hG.le) fun _ =>
      runs_setFlags hG (ok _ _ (hG.flags s (hG.le s at_s)))

theorem runs_imul1Body (lo : (0 : RegNum) ∈ L) {w : Width} (hi : w ≠ .w8 → (2 : RegNum) ∈ L) (h : Hdr) (src : RM) :
    Runs G G H (imul1Body h w src) :=
  runs_bind (runs_readRM hG.reads _ _ _) fun _ => runs_get_bind (fun _ _ => rfl) fun s at_s =>
    runs_bind ((runs_setPair hG w lo hi _ _).pre hG.le) fun _ =>
      runs_setFlags hG (ok _ _ (hG.flags s (hG.le s at_s)))

theorem runs_imulInto {dst : Gpr} (mem : dst.num ∈ L) (w : Width) (a b : Word) : Runs G G H (imulInto w dst a b) :=
  runs_get_bind (fun _ _ => rfl) fun s at_s => runs_bind ((runs_setReg hG w mem _).pre hG.le) fun _ =>
    runs_setFlags hG (ok _ _ (hG.flags s (hG.le s at_s)))

theorem runs_divBody (lo : (0 : RegNum) ∈ L) {w : Width} (hi : w ≠ .w8 → (2 : RegNum) ∈ L) (h : Hdr) (src : RM) :
    Runs G G H (divBody h w src) :=
  runs_bind (runs_readRM hG.reads _ _ _) fun _ => runs_get_bind (fun _ _ => rfl) fun s at_s =>
    runs_bind (runs_raiseIf _ proper_de) fun _ => runs_bind (runs_raiseIf _ proper_de) fun _ =>
      runs_bind ((runs_setPair hG w lo hi _ _).pre hG.le) fun _ =>
        runs_setFlags hG (ok _ _ (hG.flags s (hG.le s at_s)))

theorem runs_idivBody (lo : (0 : RegNum) ∈ L) {w : Width} (hi : w ≠ .w8 → (2 : RegNum) ∈ L) (h : Hdr) (src : RM) :
    Runs G G H (idivBody h w src) :=
  runs_bind (runs_readRM hG.reads _ _ _) fun _ => runs_get_bind (fun _ _ => rfl) fun s at_s =>
    runs_bind (runs_raiseIf _ proper_de) fun _ => runs_bind (runs_raiseIf _ proper_de) fun _ =>
      runs_bind ((runs_setPair hG w lo hi _ _).pre hG.le) fun _ =>
        runs_setFlags hG (ok _ _ (hG.flags s (hG.le s at_s)))

end

/-! ### Data movement -/

theorem runs_xchgRegs {d r : Gpr} (dm : d.num ∈ L) (rm : r.num ∈ L) (w : Width) : Runs G G H (xchgRegs w d r) :=
  runs_bind (runs_readReg _ _) fun _ => runs_bind (runs_readReg _ _) fun _ =>
    runs_bind ((runs_setReg hG w dm _).pre hG.le) fun _ => runs_setReg hG w rm _

theorem runs_xchgMem (st : S) {r : Gpr} (rm : r.num ∈ L) (h : Hdr) (w : Width) (m : MemOp) :
    Runs G G H (xchgBody h (.mr w (.mem m) r)) :=
  runs_get_bind (fun _ _ => rfl) fun _ _ => runs_bind (runs_rmwBegin hG.reads _ _ _) fun _ =>
    runs_bind ((runs_spanWrite hG st _ _ _).pre hG.le) fun _ => runs_setReg hG w rm _

theorem runs_popMem (st : S) (sp : (4 : RegNum) ∈ L) (h : Hdr) (w : Width) (m : MemOp) :
    Runs G G H (popBody h (.rm w (.mem m))) :=
  runs_get_bind (fun _ _ => rfl) fun _ _ => runs_bind (runs_memRead hG.reads _ _ _) fun _ =>
    runs_bind (runs_memWrite hG st _ _ _ _) fun _ => runs_setSp hG sp _

theorem runs_popReg (sp : (4 : RegNum) ∈ L) {r : Gpr} (rm : r.num ∈ L) (w : Width) :
    Runs G G H (pop w.bytes >>= fun v => setReg w r v) :=
  runs_bind (runs_pop hG sp _) fun _ => runs_setReg hG w rm _

/-- A register written with what has been read. -/
theorem runs_readRM_setReg {r : Gpr} (rm : r.num ∈ L) (h : Hdr) (sw w : Width) (o : RM) (f : Word → Word) :
    Runs G G H (readRM h sw o >>= fun v => setReg w r (f v)) :=
  runs_bind (runs_readRM hG.reads _ _ _) fun _ => (runs_setReg hG w rm _).pre hG.le

theorem runs_movFromSegBody {o : RM} (st : o.isMem = true → S) (regs : ∀ r ∈ rmRegs o, r ∈ L) (h : Hdr) (w : Width)
    (sel : BitVec 16) : Runs G G H (movFromSegBody h w o sel) := by
  cases o with
  | reg r => exact (runs_setReg hG w (regs _ (List.mem_singleton.mpr rfl)) _).pre hG.le
  | mem m => exact runs_writeRM hG st regs _ _ _

/-! ### Control transfers -/

omit hG in
theorem runs_branchCheck (t : Word) : Runs G G G (branchCheck t) :=
  runs_get_bind (fun _ _ => rfl) fun _ _ => runs_raiseIf _ (proper_gp _)

omit hG in
theorem runs_takeRel (h : Hdr) (w : Width) (rel : Word) : Runs G G G (takeRel h w rel) :=
  runs_get_bind (fun _ _ => rfl) fun _ _ => runs_bind (runs_branchCheck _) fun _ => runs_pure _ fun _ h => h

omit hG in
theorem runs_branchIf (taken : Bool) (h : Hdr) (w : Width) (rel : Word) : Runs G G G (branchIf taken h w rel) := by
  unfold branchIf
  split
  · exact runs_takeRel _ _ _
  · exact runs_get_bind (fun _ _ => rfl) fun _ _ => runs_pure _ fun _ h => h

theorem runs_pushReturn (st : S) (sp : (4 : RegNum) ∈ L) (h : Hdr) (w : Width) : Runs G G H (pushReturn h w) :=
  runs_get_bind (fun _ _ => rfl) fun _ _ => runs_push hG st sp _ _

theorem runs_retBody (sp : (4 : RegNum) ∈ L) (w : Width) (n : Nat) : Runs G G H (retBody w n) :=
  runs_get_bind (fun _ _ => rfl) fun _ _ => runs_bind (runs_memRead hG.reads _ _ _) fun _ =>
    runs_bind (runs_branchCheck _) fun _ => runs_bind ((runs_setSp hG sp _).pre hG.le) fun _ =>
      runs_pure _ fun _ h => h

theorem runs_loopBody (cx : (1 : RegNum) ∈ L) (h : Hdr) (w : Width) (rel : Word) (also : Bool) :
    Runs G G H (loopBody h w rel also) :=
  runs_get_bind (fun _ _ => rfl) fun _ _ => runs_bind (runs_branchIf _ _ _ _) fun _ =>
    runs_bind ((runs_setReg hG h.a (r := rCX) cx _).pre hG.le) fun _ => runs_pure _ fun _ h => h

/-! ### Strings -/

theorem runs_advance {E : State → Prop} {r : Gpr} (mem : r.num ∈ L) (a : Width) (d : Nat) :
    Runs H E H (advance a d r) :=
  runs_get_bind (fun _ _ => rfl) fun _ _ => runs_setReg hG a mem _

/-- The loop of R561, where a completed element leaves a state from which another may start. -/
theorem runs_repLoop (again : ∀ s, H s → G s) (cx : (1 : RegNum) ∈ L) {elem : M Unit} (run : Runs G G H elem)
    (a : Width) (rp : Rep) (cmp : Bool) (n : Nat) : Runs G G H (repLoop a rp cmp elem n) := by
  induction n with
  | zero => exact runs_pure _ hG.le
  | succ n ih =>
    refine runs_bind run fun _ => runs_bind (runs_setReg hG a (r := rCX) cx _) fun _ => ?_
    refine runs_get_bind (fun _ _ => rfl) fun s _ => ?_
    split
    · exact runs_pure _ fun _ h => h
    · exact ih.pre again

theorem runs_stringBody {h : Hdr} (again : h.rep ≠ .none → ∀ s, H s → G s) (cx : ∀ r ∈ repRegs h, r ∈ L)
    {elem : M Unit} (run : Runs G G H elem) (cmp : Bool) : Runs G G H (stringBody h cmp elem) := by
  unfold stringBody
  cases rep : h.rep with
  | none => exact run
  | rep | repne =>
    have repeated : h.rep ≠ .none := by simp [rep]
    have counter : (1 : RegNum) ∈ L := cx 1 (by simp [repRegs, repeated])
    exact runs_get_bind (fun _ _ => rfl) fun _ _ => runs_repLoop hG (again repeated) counter run _ _ _ _

section
variable (h : Hdr) (w : Width) (si : (6 : RegNum) ∈ L) (di : (7 : RegNum) ∈ L)

include si di in
theorem runs_movsElem (st : S) : Runs G G H (movsElem h w) :=
  runs_get_bind (fun _ _ => rfl) fun _ _ => runs_bind (runs_memRead hG.reads _ _ _) fun _ =>
    runs_bind (runs_memWrite hG st _ _ _ _) fun _ => runs_bind (runs_advance hG (r := rSI) si _ _) fun _ =>
      runs_advance hG (r := rDI) di _ _

include di in
theorem runs_stosElem (st : S) : Runs G G H (stosElem h w) :=
  runs_get_bind (fun _ _ => rfl) fun _ _ => runs_bind (runs_memWrite hG st _ _ _ _) fun _ =>
    runs_advance hG (r := rDI) di _ _

include si in
theorem runs_lodsElem (ax : (0 : RegNum) ∈ L) : Runs G G H (lodsElem h w) :=
  runs_get_bind (fun _ _ => rfl) fun _ _ => runs_bind (runs_memRead hG.reads _ _ _) fun _ =>
    runs_bind ((runs_setReg hG w (r := rAX) ax _).pre hG.le) fun _ => runs_advance hG (r := rSI) si _ _

theorem runs_cmpElems (ok : ∀ w a b fl, P fl → P (subFlags w a b false fl).flags) (x y : Word) :
    Runs G G H (cmpElems w x y) :=
  runs_get_bind (fun _ _ => rfl) fun s at_s =>
    (runs_setFlags hG (ok _ _ _ _ (hG.flags s (hG.le s at_s)))).pre hG.le

include si di in
theorem runs_cmpsElem (ok : ∀ w a b fl, P fl → P (subFlags w a b false fl).flags) : Runs G G H (cmpsElem h w) :=
  runs_get_bind (fun _ _ => rfl) fun _ _ => runs_bind (runs_memRead hG.reads _ _ _) fun _ =>
    runs_bind (runs_memRead hG.reads _ _ _) fun _ => runs_bind (runs_cmpElems hG w ok _ _) fun _ =>
      runs_bind (runs_advance hG (r := rSI) si _ _) fun _ => runs_advance hG (r := rDI) di _ _

include di in
theorem runs_scasElem (ok : ∀ w a b fl, P fl → P (subFlags w a b false fl).flags) : Runs G G H (scasElem h w) :=
  runs_get_bind (fun _ _ => rfl) fun _ _ => runs_bind (runs_memRead hG.reads _ _ _) fun _ =>
    runs_bind (runs_cmpElems hG w ok _ _) fun _ => runs_advance hG (r := rDI) di _ _

end

omit hG in
theorem runs_privileged : Runs G G G privileged :=
  runs_get_bind (fun _ _ => rfl) fun _ _ => runs_raiseIf _ (proper_gp _)

end

end Sys2Proof.Machine
end

section
/-! PROOF. How every instruction ends (for O12 to O15, O17, O18, O21 to O24 and O26): it completes, raises or asks for
a software interrupt, and from its start up to there its body has run as `Runs` says; the eight instructions that write
system state make one such write at the end. -/

namespace Sys2Proof.Machine
open Sys2Proof

/-! ### How an instruction ends -/

/-- How the instruction `i` ends that was started in `s`: completed from a state where `H` holds, raising from one
where `G` holds, or with a software interrupt. -/
inductive Ends (i : Instr) (G H : State → Prop) (s t : State) : Prop where
  | completes (u : State) (at_u : H u) (h : Hdr) (hdr : i.hdr = some h) (ends shadow : Bool) (rip : Word)
      (eq : t = complete s h.len ends shadow rip u)
      (opens : shadow = true → ∃ h, i = .sti h ∨ ∃ m, i = .movToSeg h .ss m)
  | raises (u : State) (at_u : G u) (f : FaultRec) (proper : f.Proper) (eq : t = takeFault f u)
  | asks (vec : BitVec 8) (k : SoftIntKind) (len : Nat) (eq : t = softInt vec k len s)

/-- The meaning of `i` at `s`: how it ends, and that with another bookkeeping it ends alike. -/
structure Ran (i : Instr) (G H : State → Prop) (s : State) : Prop where
  ends : ∃ t, exec i s = .next t ∧ Ends i G H s t
  blind : ∀ b, ∃ t t', exec i s = .next t ∧ exec i (s.withBooks b) = .next t' ∧ t'.forget = t.forget

section
variable {i : Instr} {G H : State → Prop} {s : State} {h : Hdr} {ends : Bool} {α : Type}

theorem complete_withBooks (s t : State) (b : Books) (len : Nat) (ends shadow : Bool) (rip : Word) :
    (complete (s.withBooks b) len ends shadow rip (t.withBooks b)).forget =
      (complete s len ends shadow rip t).forget := rfl

theorem takeFault_withBooks (f : FaultRec) (t : State) (b : Books) :
    (takeFault f (t.withBooks b)).forget = (takeFault f t).forget := rfl

theorem ran_retire {body : State → M Unit} (eq : exec i = fun t => retire h ends (body t) t)
    (same : ∀ b, body (s.withBooks b) = body s) (hdr : i.hdr = some h) (at_s : G s)
    (run : Runs G G H (body s)) : Ran i G H s where
  ends := by
    rw [show exec i s = retire h ends (body s) s from congrFun eq s]
    unfold retire
    cases res : body s s with
    | ok _ t => exact ⟨_, rfl, .completes t (run.ok _ _ _ at_s res) h hdr ends false _ rfl nofun⟩
    | error f t =>
      obtain ⟨at_t, proper⟩ := run.error _ _ _ at_s res
      exact ⟨_, rfl, .raises t at_t f proper rfl⟩
  blind b := by
    have at_ (t : State) : exec i t = retire h ends (body t) t := congrFun eq t
    rw [at_, at_, same]
    unfold retire
    rw [run.blind s b at_s]
    cases body s s with
    | ok _ t => exact ⟨_, _, rfl, rfl, complete_withBooks s t b h.len ends false (s.nextRip h.len)⟩
    | error f t => exact ⟨_, _, rfl, rfl, takeFault_withBooks f t b⟩

theorem ran_retireTo {body : State → M Word} (eq : exec i = fun t => retireTo h (body t) t)
    (same : ∀ b, body (s.withBooks b) = body s) (hdr : i.hdr = some h) (at_s : G s)
    (run : Runs G G H (body s)) : Ran i G H s where
  ends := by
    rw [show exec i s = retireTo h (body s) s from congrFun eq s]
    unfold retireTo
    cases res : body s s with
    | ok _ t => exact ⟨_, rfl, .completes t (run.ok _ _ _ at_s res) h hdr true false _ rfl nofun⟩
    | error f t =>
      obtain ⟨at_t, proper⟩ := run.error _ _ _ at_s res
      exact ⟨_, rfl, .raises t at_t f proper rfl⟩
  blind b := by
    have at_ (t : State) : exec i t = retireTo h (body t) t := congrFun eq t
    rw [at_, at_, same]
    unfold retireTo
    rw [run.blind s b at_s]
    cases body s s with
    | ok rip t => exact ⟨_, _, rfl, rfl, complete_withBooks s t b h.len true false rip⟩
    | error f t => exact ⟨_, _, rfl, rfl, takeFault_withBooks f t b⟩

theorem ran_retireShadow {body : State → M Bool} (eq : exec i = fun t => retireShadow h (body t) t)
    (same : ∀ b, body (s.withBooks b) = body s) (hdr : i.hdr = some h) (at_s : G s)
    (opens : ∀ t, body s s = .ok true t → ∃ h, i = .sti h ∨ ∃ m, i = .movToSeg h .ss m)
    (run : Runs G G H (body s)) : Ran i G H s where
  ends := by
    rw [show exec i s = retireShadow h (body s) s from congrFun eq s]
    unfold retireShadow
    cases res : body s s with
    | ok shadow t =>
      refine ⟨_, rfl, .completes t (run.ok _ _ _ at_s res) h hdr true shadow _ rfl ?_⟩
      rintro rfl
      exact opens t res
    | error f t =>
      obtain ⟨at_t, proper⟩ := run.error _ _ _ at_s res
      exact ⟨_, rfl, .raises t at_t f proper rfl⟩
  blind b := by
    have at_ (t : State) : exec i t = retireShadow h (body t) t := congrFun eq t
    rw [at_, at_, same]
    unfold retireShadow
    rw [run.blind s b at_s]
    cases body s s with
    | ok shadow t => exact ⟨_, _, rfl, rfl, complete_withBooks s t b h.len true shadow (s.nextRip h.len)⟩
    | error f t => exact ⟨_, _, rfl, rfl, takeFault_withBooks f t b⟩

theorem ran_softInt {vec : BitVec 8} {k : SoftIntKind} {len : Nat}
    (eq : ∀ t, exec i t = .next (softInt vec k len t)) : Ran i G H s where
  ends := ⟨_, eq s, .asks vec k len rfl⟩
  blind _ := ⟨_, _, eq s, eq _, rfl⟩

theorem ran_fault {f : FaultRec} (eq : ∀ t, exec i t = .next (takeFault f t)) (proper : f.Proper) (at_s : G s) :
    Ran i G H s where
  ends := ⟨_, eq s, .raises s at_s f proper rfl⟩
  blind _ := ⟨_, _, eq s, eq _, rfl⟩

theorem Ran.post {K : State → Prop} (ran : Ran i G H s) (le : ∀ u, H u → K u) : Ran i G K s where
  ends := by
    obtain ⟨t, run, fin⟩ := ran.ends
    refine ⟨t, run, ?_⟩
    cases fin with
    | completes u at_u h hdr ends shadow rip eq opens =>
      exact .completes u (le u at_u) h hdr ends shadow rip eq opens
    | raises u at_u f proper eq => exact .raises u at_u f proper eq
    | asks vec k len eq => exact .asks vec k len eq
  blind := ran.blind

/-- What holds from the start up to the end holds where the instruction ends, before the end's own commits. -/
theorem Ran.eq_of_next {t : State} (ran : Ran i G H s) (run : exec i s = .next t) : Ends i G H s t := by
  obtain ⟨u, run', fin⟩ := ran.ends
  cases run.symm.trans run'
  exact fin

end

/-! ### The flags an instruction may write -/

/-- The flags `f` come from those of `s` as the instruction's rule allows (R451, and the rules of the rest): a status
flag only where `statusWritten` lists it; IOPL by POPF at level 0; IF by POPF, CLI and STI where R606 allows it; the
other control flags by POPF, CLD and STD, and RF may be cleared. -/
structure FlagRule (i : Instr) (s : State) (f : Flags) : Prop where
  status : ∀ fl, fl ∉ statusWritten i → f.st.get fl = s.flags.st.get fl
  vm : f.vm = s.flags.vm
  vif : f.vif = s.flags.vif
  vip : f.vip = s.flags.vip
  rf : f.rf = s.flags.rf ∨ f.rf = false
  popf : f.tf ≠ s.flags.tf ∨ f.iopl ≠ s.flags.iopl ∨ f.nt ≠ s.flags.nt ∨ f.ac ≠ s.flags.ac ∨ f.id ≠ s.flags.id →
    ∃ h w, i = .popf h w
  iopl : f.iopl ≠ s.flags.iopl → s.cpl = 0
  ie : f.ie ≠ s.flags.ie →
    (∃ h w, i = .popf h w ∨ i = .cli h ∨ i = .sti h) ∧ (s.opMode = .real ∨ s.cpl ≤ s.flags.iopl)
  df : f.df ≠ s.flags.df → ∃ h w, i = .popf h w ∨ i = .cld h ∨ i = .std h

section
variable {i : Instr} {s : State} {f : Flags}

theorem flagRule_self (i : Instr) (s : State) : FlagRule i s s.flags :=
  ⟨fun _ _ => rfl, rfl, rfl, rfl, .inl rfl, by simp, by simp, by simp, by simp⟩

theorem FlagRule.withSt (rule : FlagRule i s f) {g : SFlags}
    (keep : ∀ fl, fl ∉ statusWritten i → g.get fl = f.st.get fl) : FlagRule i s (f.withSt g) :=
  ⟨fun fl out => (keep fl out).trans (rule.status fl out), rule.vm, rule.vif, rule.vip, rule.rf, rule.popf, rule.iopl,
    rule.ie, rule.df⟩

/-- All six status flags may be written. -/
theorem FlagRule.withAll (all : statusWritten i = [.cf, .pf, .af, .zf, .sf, .of]) (g : SFlags) (f : Flags)
    (rule : FlagRule i s f) : FlagRule i s (f.withSt g) :=
  rule.withSt fun fl out => absurd (by rw [all]; cases fl <;> decide) out

section
variable (all : statusWritten i = [.cf, .pf, .af, .zf, .sf, .of])
include all

theorem flagRule_addFlags (w : Width) (a b : Word) (c : Bool) (rule : FlagRule i s f) :
    FlagRule i s (addFlags w a b c f).flags := .withAll all _ f rule

theorem flagRule_subFlags (w : Width) (a b : Word) (c : Bool) (rule : FlagRule i s f) :
    FlagRule i s (subFlags w a b c f).flags := .withAll all _ f rule

theorem flagRule_logicFlags (tag : String) (w : Width) (a b r : Word) (rule : FlagRule i s f) :
    FlagRule i s (logicFlags tag w a b r f).flags := .withAll all _ f rule

theorem flagRule_shlFlags (w : Width) (a b : Word) (f : Flags) (rule : FlagRule i s f) :
    FlagRule i s (shlFlags w a b f).flags := by
  unfold shlFlags
  extract_lets
  split
  · exact rule
  · exact .withAll all _ f rule

theorem flagRule_shrFlags (w : Width) (a b : Word) (f : Flags) (rule : FlagRule i s f) :
    FlagRule i s (shrFlags w a b f).flags := by
  unfold shrFlags
  extract_lets
  split
  · exact rule
  · exact .withAll all _ f rule

theorem flagRule_sarFlags (w : Width) (a b : Word) (f : Flags) (rule : FlagRule i s f) :
    FlagRule i s (sarFlags w a b f).flags := by
  unfold sarFlags
  extract_lets
  split
  · exact rule
  · exact .withAll all _ f rule

end

/-- The rotates write CF and OF only (R504, R505). -/
theorem FlagRule.rotate (written : statusWritten i = [.cf, .of]) {cnt : Nat} {cf of1 : Bool} {c : Computed}
    (means : RotateMeans cnt cf of1 f c) (rule : FlagRule i s f) : FlagRule i s c.flags := by
  rw [means.others]
  refine rule.withSt fun fl out => ?_
  rw [written] at out
  cases fl <;> simp_all [SFlags.get]

/-- INC and DEC leave CF (R463, R464). -/
theorem FlagRule.keepCf (written : statusWritten i = [.pf, .af, .zf, .sf, .of]) {g : SFlags} (cf : g.cf = f.st.cf)
    (rule : FlagRule i s f) : FlagRule i s (f.withSt g) := by
  refine rule.withSt fun fl out => ?_
  rw [written] at out
  cases fl <;> simp_all [SFlags.get]

theorem flagRule_popf {h : Hdr} {w : Width} (v : Word) (rule : FlagRule (.popf h w) s f) :
    FlagRule (.popf h w) s (popfFlags w s.cpl v f) where
  status fl out := absurd (by cases fl <;> simp [statusWritten]) out
  vm := rule.vm
  vif := rule.vif
  vip := rule.vip
  rf := .inr rfl
  popf _ := ⟨h, w, rfl⟩
  iopl ne := by
    refine Classical.byContradiction fun above => ?_
    have level : 0 < s.cpl := by
      have : s.cpl.toNat ≠ 0 := fun zero => above (BitVec.eq_of_toNat_eq zero)
      exact BitVec.lt_def.mpr (by simpa using Nat.pos_of_ne_zero this)
    exact above (rule.iopl (by simpa only [popfFlags, if_pos level] using ne))
  ie ne := by
    refine ⟨⟨h, w, .inl rfl⟩, ?_⟩
    by_cases below : f.iopl < s.cpl
    · exact (rule.ie (by simpa [popfFlags, below] using ne)).2
    · by_cases same : f.iopl = s.flags.iopl
      · exact .inr (by rw [← same]; exact BitVec.not_lt.mp below)
      · exact .inr (by rw [rule.iopl same]; exact BitVec.le_def.mpr (Nat.zero_le _))
  df _ := ⟨h, w, .inl rfl⟩

/-- CLC, STC and CMC write CF (R603). -/
theorem FlagRule.cf (rule : FlagRule i s f) (written : statusWritten i = [.cf]) (c : Bool) :
    FlagRule i s (f.withCf c) := by
  refine rule.withSt fun fl out => ?_
  rw [written] at out
  cases fl <;> simp_all [SFlags.get]

theorem FlagRule.withIe (rule : FlagRule i s f) (is : ∃ h w, i = .popf h w ∨ i = .cli h ∨ i = .sti h)
    (allowed : s.ifAllowed = true) (c : Bool) : FlagRule i s { f with ie := c } :=
  ⟨rule.status, rule.vm, rule.vif, rule.vip, rule.rf, rule.popf, rule.iopl,
    fun _ => ⟨is, (ifAllowed_iff s).mp allowed⟩, rule.df⟩

theorem FlagRule.withDf (rule : FlagRule i s f) (is : ∃ h w, i = .popf h w ∨ i = .cld h ∨ i = .std h) (c : Bool) :
    FlagRule i s { f with df := c } :=
  ⟨rule.status, rule.vm, rule.vif, rule.vip, rule.rf, rule.popf, rule.iopl, rule.ie, fun _ => is⟩

end

/-! ### The instructions that write no system state -/

/-- The forms of the instructions that store to memory. -/
def storesMem : Instr → Bool
  | .add _ f | .or _ f | .adc _ f | .sbb _ f | .and _ f | .sub _ f | .xor _ f => (aluDst f).isMem
  | .not _ _ dst | .neg _ _ dst | .cmpxchg _ _ dst _ | .xadd _ _ dst _ | .setcc _ _ dst | .movFromSeg _ _ dst _
  | .rol _ _ dst _ | .ror _ _ dst _ | .shl _ _ dst _ | .shr _ _ dst _ | .sar _ _ dst _ => dst.isMem
  | .inc _ f | .dec _ f => (incOperand f).2.isMem
  | .mov _ (.mr _ dst _) | .mov _ (.mi _ dst _) | .xchg _ (.mr _ dst _) | .pop _ (.rm _ dst) => dst.isMem
  | .mov _ (.toMoffs _ _) | .movToSeg _ _ _ | .push _ _ | .pushf _ _ | .callRel _ _ _ | .callInd _ _ _
  | .movs _ _ | .stos _ _ => true
  | _ => false

section
variable {i : Instr} {G H : State → Prop} {s : State}

/-- An instruction that only commits flags. -/
theorem ran_setFlags {L : List RegNum} {P : Flags → Prop} {S : Prop} (hG : Writes S G H L P) {h : Hdr} {ends : Bool}
    {f : State → Flags} (eq : exec i = fun t => retire h ends (setFlags (f t)) t)
    (same : ∀ b, f (s.withBooks b) = f s) (hdr : i.hdr = some h) (at_s : G s) (ok : P (f s)) : Ran i G H s :=
  ran_retire (body := fun t => setFlags (f t)) eq (fun b => by rw [same]) hdr at_s
    ((runs_setFlags hG ok).pre hG.le)

/-- The body of CPUID (R628). -/
def cpuidBody (s : State) : M Unit := do
  let r := cpuidTable ((s.regRead .w32 rAX).setWidth 32) ((s.regRead .w32 rCX).setWidth 32)
  setReg .w32 rAX (r.eax.setWidth 64)
  setReg .w32 rBX (r.ebx.setWidth 64)
  setReg .w32 rCX (r.ecx.setWidth 64)
  setReg .w32 rDX (r.edx.setWidth 64)

/-- INTO asks for an interrupt or completes (R534). -/
theorem into_ran {h : Hdr} (le : ∀ t, G t → H t) (at_s : G s) : Ran (.into h) G H s := by
  by_cases of : s.flags.st.of = true
  · have asks (t : State) (eq : t.flags = s.flags) : exec (.into h) t = .next (softInt 4 .into h.len t) :=
      if_pos (by rw [eq]; exact of)
    exact ⟨⟨_, asks s rfl, .asks _ _ _ rfl⟩, fun b => ⟨_, _, asks s rfl, asks _ rfl, rfl⟩⟩
  · have goes (t : State) (eq : t.flags = s.flags) : exec (.into h) t = retire h true (pure ()) t :=
      if_neg (by rw [eq]; exact of)
    exact ⟨⟨_, goes s rfl, .completes s (le s at_s) h rfl true false _ rfl nofun⟩,
      fun b => ⟨_, _, goes s rfl, goes _ rfl, rfl⟩⟩

/-- An instruction that writes no system state runs so from where `G` holds, for all `G` and `H` that its reads and
writes keep. `H` must fix the privilege level, and lead back to `G` where the instruction repeats. -/
theorem exec_plain_ran (plain : writesSystem i = false)
    (hG : Writes (storesMem i = true) G H (destRegs i) (FlagRule i s)) (level : ∀ t, H t → t.cpl = s.cpl)
    (again : repeats i = true → ∀ t, H t → G t) (at_s : G s) : Ran i G H s := by
  have rule : FlagRule i s s.flags := flagRule_self i s
  cases i with
  | add h f =>
    exact ran_retire rfl (fun _ => rfl) rfl at_s (runs_aluWrite hG
      (fun w a b fl => flagRule_addFlags rfl w a b false)
      id (fun r mem => by rwa [destRegs, aluRegs_eq]) h)
  | or h f =>
    exact ran_retire rfl (fun _ => rfl) rfl at_s (runs_aluWrite hG
      (fun w a b fl => flagRule_logicFlags rfl "OR" w a b _)
      id (fun r mem => by rwa [destRegs, aluRegs_eq]) h)
  | adc h f =>
    exact ran_retire rfl (fun _ => rfl) rfl at_s (runs_aluWrite hG
      (fun w a b fl => flagRule_addFlags rfl w a b _)
      id (fun r mem => by rwa [destRegs, aluRegs_eq]) h)
  | sbb h f =>
    exact ran_retire rfl (fun _ => rfl) rfl at_s (runs_aluWrite hG
      (fun w a b fl => flagRule_subFlags rfl w a b _)
      id (fun r mem => by rwa [destRegs, aluRegs_eq]) h)
  | and h f =>
    exact ran_retire rfl (fun _ => rfl) rfl at_s (runs_aluWrite hG
      (fun w a b fl => flagRule_logicFlags rfl "AND" w a b _)
      id (fun r mem => by rwa [destRegs, aluRegs_eq]) h)
  | sub h f =>
    exact ran_retire rfl (fun _ => rfl) rfl at_s (runs_aluWrite hG
      (fun w a b fl => flagRule_subFlags rfl w a b false)
      id (fun r mem => by rwa [destRegs, aluRegs_eq]) h)
  | xor h f =>
    exact ran_retire rfl (fun _ => rfl) rfl at_s (runs_aluWrite hG
      (fun w a b fl => flagRule_logicFlags rfl "XOR" w a b _)
      id (fun r mem => by rwa [destRegs, aluRegs_eq]) h)
  | cmp h f =>
    exact ran_retire rfl (fun _ => rfl) rfl at_s (runs_aluCompare hG
      (fun w a b fl => flagRule_subFlags rfl w a b false) h f)
  | test h f =>
    exact ran_retire rfl (fun _ => rfl) rfl at_s (runs_testBody hG
      (fun w a b fl => flagRule_logicFlags rfl "TEST" w a b _) h f)
  | not h w dst =>
    exact ran_retire rfl (fun _ => rfl) rfl at_s
      (runs_rmwRM hG id (fun _ mem => mem) (fun _ _ ok => ok) h w)
  | neg h w dst =>
    exact ran_retire rfl (fun _ => rfl) rfl at_s (runs_rmwRM hG id (fun _ mem => mem)
      (fun a fl => flagRule_subFlags rfl w 0 a false) h w)
  | mul h w src =>
    exact ran_retire rfl (fun _ => rfl) rfl at_s (runs_mulBody hG (.withAll rfl)
      (by cases w <;> simp [destRegs]) (fun ne => by simp [destRegs, ne]) h src)
  | imul1 h w src =>
    exact ran_retire rfl (fun _ => rfl) rfl at_s (runs_imul1Body hG (.withAll rfl)
      (by cases w <;> simp [destRegs]) (fun ne => by simp [destRegs, ne]) h src)
  | div h w src =>
    exact ran_retire rfl (fun _ => rfl) rfl at_s (runs_divBody hG (.withAll rfl)
      (by cases w <;> simp [destRegs]) (fun ne => by simp [destRegs, ne]) h src)
  | idiv h w src =>
    exact ran_retire rfl (fun _ => rfl) rfl at_s (runs_idivBody hG (.withAll rfl)
      (by cases w <;> simp [destRegs]) (fun ne => by simp [destRegs, ne]) h src)
  | inc h f =>
    exact ran_retire rfl (fun _ => rfl) rfl at_s (runs_incBody hG
      (fun w a fl => .keepCf (g := (incFlags w a fl).flags.st) rfl rfl) id (fun _ mem => mem) h)
  | dec h f =>
    exact ran_retire rfl (fun _ => rfl) rfl at_s (runs_incBody hG
      (fun w a fl => .keepCf (g := (decFlags w a fl).flags.st) rfl rfl) id (fun _ mem => mem) h)
  | imul2 h w dst src =>
    exact ran_retire rfl (fun _ => rfl) rfl at_s (runs_bind (runs_readRM hG.reads _ _ _) fun _ =>
      runs_bind (runs_readReg _ _) fun _ => runs_imulInto hG (.withAll rfl) (dst := dst) (by simp [destRegs]) _ _ _)
  | imul3 h w dst src imm z =>
    exact ran_retire rfl (fun _ => rfl) rfl at_s (runs_bind (runs_readRM hG.reads _ _ _) fun _ =>
      runs_imulInto hG (.withAll rfl) (dst := dst) (by simp [destRegs]) _ _ _)
  | cmpxchg h w dst src =>
    exact ran_retire rfl (fun _ => rfl) rfl at_s (runs_cmpxchgBody hG
      (fun w a b fl => flagRule_subFlags rfl w a b false) id (by simp [destRegs])
      (fun r mem => List.mem_cons_of_mem _ mem) h w src)
  | xadd h w dst src =>
    exact ran_retire rfl (fun _ => rfl) rfl at_s (runs_xaddBody hG
      (fun w a b fl => flagRule_addFlags rfl w a b false) id (by simp [destRegs])
      (fun r mem => List.mem_cons_of_mem _ mem) h w)
  | rol h w dst c =>
    exact ran_retire rfl (fun _ => rfl) rfl at_s (runs_shiftBody hG
      (fun w a b fl => .rotate rfl (rolFlags_means w a b fl)) id (fun _ mem => mem) h w c)
  | ror h w dst c =>
    exact ran_retire rfl (fun _ => rfl) rfl at_s (runs_shiftBody hG
      (fun w a b fl => .rotate rfl (rorFlags_means w a b fl)) id (fun _ mem => mem) h w c)
  | shl h w dst c =>
    exact ran_retire rfl (fun _ => rfl) rfl at_s (runs_shiftBody hG
      (flagRule_shlFlags rfl) id (fun _ mem => mem) h w c)
  | shr h w dst c =>
    exact ran_retire rfl (fun _ => rfl) rfl at_s (runs_shiftBody hG
      (flagRule_shrFlags rfl) id (fun _ mem => mem) h w c)
  | sar h w dst c =>
    exact ran_retire rfl (fun _ => rfl) rfl at_s (runs_shiftBody hG
      (flagRule_sarFlags rfl) id (fun _ mem => mem) h w c)
  | mov h f =>
    cases f with
    | mr w dst src =>
      exact ran_retire rfl (fun _ => rfl) rfl at_s (runs_bind (runs_readReg _ _) fun _ =>
        runs_writeRM hG id (fun _ mem => mem) h w _)
    | rm w dst src =>
      exact ran_retire rfl (fun _ => rfl) rfl at_s
        (runs_readRM_setReg hG (r := dst) (by simp [destRegs]) h w w src id)
    | ri w dst imm =>
      exact ran_retire (body := fun _ => movBody h (.ri w dst imm)) rfl (fun _ => rfl) rfl at_s
        ((runs_setReg hG w (r := dst) (by simp [destRegs]) imm).pre hG.le)
    | mi w dst imm => exact ran_retire rfl (fun _ => rfl) rfl at_s (runs_writeRM hG id (fun _ mem => mem) h w imm)
    | fromMoffs w m =>
      exact ran_retire rfl (fun _ => rfl) rfl at_s (runs_readRM_setReg hG (r := rAX) (List.mem_singleton.mpr rfl)
        h w w (.mem m) id)
    | toMoffs w m =>
      exact ran_retire rfl (fun _ => rfl) rfl at_s (runs_bind (runs_readReg _ _) fun _ =>
        runs_writeRM hG (o := .mem m) (fun _ => rfl) nofun h w _)
  | movFromSeg h w dst sr =>
    exact ran_retire rfl (fun _ => rfl) rfl at_s (runs_movFromSegBody hG id (fun _ mem => mem) h w _)
  | movFromCr h w dst cr =>
    exact ran_retire rfl (fun _ => rfl) rfl at_s (runs_bind runs_privileged fun _ =>
      runs_bind ((runs_setReg hG w (r := gpr dst) (List.mem_singleton.mpr rfl) _).pre hG.le) fun _ =>
        runs_setFlags hG (.withAll rfl _ _ rule))
  | movzx h w dst sw src =>
    exact ran_retire rfl (fun _ => rfl) rfl at_s
      (runs_readRM_setReg hG (r := dst) (by simp [destRegs]) h sw w src (trunc sw))
  | movsx h w dst sw src =>
    exact ran_retire rfl (fun _ => rfl) rfl at_s
      (runs_readRM_setReg hG (r := dst) (by simp [destRegs]) h sw w src (sext sw))
  | movsxd h w dst src =>
    exact ran_retire rfl (fun _ => rfl) rfl at_s
      (runs_readRM_setReg hG (r := dst) (by simp [destRegs]) h _ w src (sext (movsxdSrc w)))
  | lea h w dst m =>
    exact ran_retire (body := fun _ => do
      let t ← get
      setReg w dst (t.ea h m)) rfl (fun _ => rfl) rfl at_s (runs_get_bind (fun _ _ => rfl) fun _ _ =>
      (runs_setReg hG w (r := dst) (by simp [destRegs]) _).pre hG.le)
  | xchg h f =>
    cases f with
    | mr w dst r =>
      cases dst with
      | reg d =>
        exact ran_retire (body := fun _ => xchgBody h (.mr w (.reg d) r)) rfl (fun _ => rfl) rfl at_s
          (runs_xchgRegs hG (d := d) (r := r) (by simp [destRegs, rmRegs]) (by simp [destRegs]) w)
      | mem m => exact ran_retire rfl (fun _ => rfl) rfl at_s (runs_xchgMem hG rfl (r := r) (by simp [destRegs]) h w m)
    | acc w r =>
      exact ran_retire (body := fun _ => xchgBody h (.acc w r)) rfl (fun _ => rfl) rfl at_s
        (runs_xchgRegs hG (d := rAX) (r := r) (List.mem_cons_self ..)
        (by simp [destRegs]) w)
  | push h f =>
    have sp : (4 : RegNum) ∈ destRegs (.push h f) := by simp [destRegs]
    cases f with
    | reg w r =>
      exact ran_retire rfl (fun _ => rfl) rfl at_s (runs_bind (runs_readReg _ _) fun _ => runs_push hG rfl sp _ _)
    | immz w imm => exact ran_retire rfl (fun _ => rfl) rfl at_s (runs_push hG rfl sp _ _)
    | imm8 w imm => exact ran_retire rfl (fun _ => rfl) rfl at_s (runs_push hG rfl sp _ _)
    | rm w src =>
      exact ran_retire rfl (fun _ => rfl) rfl at_s
        (runs_bind (runs_readRM hG.reads _ _ _) fun _ => runs_push hG rfl sp _ _)
  | pop h f =>
    cases f with
    | reg w r =>
      exact ran_retire rfl (fun _ => rfl) rfl at_s
        (runs_popReg hG (by simp [destRegs]) (r := r) (by simp [destRegs]) w)
    | rm w dst =>
      cases dst with
      | reg r =>
        exact ran_retire rfl (fun _ => rfl) rfl at_s
          (runs_popReg hG (by simp [destRegs]) (r := r) (by simp [destRegs, rmRegs]) w)
      | mem m => exact ran_retire rfl (fun _ => rfl) rfl at_s (runs_popMem hG rfl (by simp [destRegs]) h w m)
  | cmovcc h cc w dst src =>
    exact ran_retire rfl (fun _ => rfl) rfl at_s (runs_bind (runs_readRM hG.reads _ _ _) fun _ =>
      runs_get_bind (fun _ _ => rfl) fun _ _ => (runs_setReg hG w (r := dst) (by simp [destRegs]) _).pre hG.le)
  | setcc h cc dst =>
    exact ran_retire rfl (fun _ => rfl) rfl at_s (runs_get_bind (fun _ _ => rfl) fun _ _ =>
      runs_writeRM hG id (fun _ mem => mem) h .w8 _)
  | cbw h w =>
    exact ran_retire (body := fun _ => do
      let v ← readReg (halfWidth w) rAX
      setReg w rAX (sext (halfWidth w) v)) rfl (fun _ => rfl) rfl at_s (runs_bind (runs_readReg _ _) fun _ =>
      (runs_setReg hG w (r := rAX) (List.mem_singleton.mpr rfl) _).pre hG.le)
  | cwd h w =>
    exact ran_retire (body := fun _ => do
      let v ← readReg w rAX
      setReg w rDX (if msb w v then BitVec.allOnes 64 else 0)) rfl (fun _ => rfl) rfl at_s
        (runs_bind (runs_readReg _ _) fun _ =>
      (runs_setReg hG w (r := rDX) (List.mem_singleton.mpr rfl) _).pre hG.le)
  | sahf h =>
    refine ran_retire (body := fun _ => do
      let t ← get
      setFlags (sahfFlags (t.regRead .w8 regAH) t.flags)) rfl (fun _ => rfl) rfl at_s
        (runs_get_bind (fun _ _ => rfl) fun t at_t => ?_)
    exact (runs_setFlags hG ((hG.flags t (hG.le t at_t)).withSt fun fl out => by
      cases fl <;> simp [statusWritten, SFlags.get] at out ⊢)).pre hG.le
  | lahf h =>
    exact ran_retire (body := fun _ => do
      let t ← get
      setReg .w8 regAH (trunc .w8 t.flags.image)) rfl (fun _ => rfl) rfl at_s (runs_get_bind (fun _ _ => rfl) fun _ _ =>
      (runs_setReg hG .w8 (r := regAH) (List.mem_singleton.mpr rfl) _).pre hG.le)
  | pushf h w =>
    exact ran_retire rfl (fun _ => rfl) rfl at_s (runs_get_bind (fun _ _ => rfl) fun _ _ =>
      runs_push hG rfl (by simp [destRegs]) _ _)
  | popf h w =>
    refine ran_retire rfl (fun _ => rfl) rfl at_s (runs_bind (runs_pop hG (by simp [destRegs]) _) fun v => ?_)
    refine runs_get_bind (fun _ _ => rfl) fun t at_t => runs_setFlags hG ?_
    rw [level t at_t]
    exact flagRule_popf v (hG.flags t at_t)
  | leave h w =>
    exact ran_retire rfl (fun _ => rfl) rfl at_s (runs_get_bind (fun _ _ => rfl) fun _ _ =>
      runs_bind (runs_memRead hG.reads _ _ _) fun _ =>
        runs_bind ((runs_setSp hG (by simp [destRegs]) _).pre hG.le) fun _ =>
          runs_setReg hG w (r := rBP) (by simp [destRegs, rBP, gpr]) _)
  | jmpRel h w z rel => exact ran_retireTo rfl (fun _ => rfl) rfl at_s ((runs_takeRel h w rel).post hG.le)
  | jmpInd h w src =>
    exact ran_retireTo rfl (fun _ => rfl) rfl at_s (runs_bind (runs_readRM hG.reads _ _ _) fun _ =>
      runs_bind (runs_branchCheck _) fun _ => runs_pure _ hG.le)
  | jcc h cc w z rel => exact ran_retireTo rfl (fun _ => rfl) rfl at_s ((runs_branchIf _ h w rel).post hG.le)
  | callRel h w rel =>
    exact ran_retireTo rfl (fun _ => rfl) rfl at_s (runs_bind (runs_takeRel h w rel) fun _ =>
      runs_bind (runs_pushReturn hG rfl (by simp [destRegs]) h w) fun _ => runs_pure _ fun _ h => h)
  | callInd h w src =>
    exact ran_retireTo rfl (fun _ => rfl) rfl at_s (runs_bind (runs_readRM hG.reads _ _ _) fun _ =>
      runs_bind (runs_branchCheck _) fun _ =>
        runs_bind (runs_pushReturn hG rfl (by simp [destRegs]) h w) fun _ => runs_pure _ fun _ h => h)
  | ret h w => exact ran_retireTo rfl (fun _ => rfl) rfl at_s (runs_retBody hG (by simp [destRegs]) w 0)
  | retImm h w imm => exact ran_retireTo rfl (fun _ => rfl) rfl at_s (runs_retBody hG (by simp [destRegs]) w _)
  | loop h w rel => exact ran_retireTo rfl (fun _ => rfl) rfl at_s (runs_loopBody hG (by simp [destRegs]) h w rel _)
  | loope h w rel => exact ran_retireTo rfl (fun _ => rfl) rfl at_s (runs_loopBody hG (by simp [destRegs]) h w rel _)
  | loopne h w rel => exact ran_retireTo rfl (fun _ => rfl) rfl at_s (runs_loopBody hG (by simp [destRegs]) h w rel _)
  | jrcxz h w rel => exact ran_retireTo rfl (fun _ => rfl) rfl at_s ((runs_branchIf _ h w rel).post hG.le)
  | int3 h => exact ran_softInt fun _ => rfl
  | intn h vec => exact ran_softInt (k := .intN) (vec := vec) (len := h.len) fun _ => rfl
  | into h => exact into_ran hG.le at_s
  | ud2 => exact ran_fault (fun _ => rfl) proper_ud at_s
  | invalid => exact ran_fault (fun _ => rfl) proper_ud at_s
  | movs h w =>
    exact ran_retire rfl (fun _ => rfl) rfl at_s (runs_stringBody hG (fun rep => again (by simpa [repeats] using rep))
      (fun r mem => by simp [destRegs, mem]) (runs_movsElem hG h w (by simp [destRegs]) (by simp [destRegs]) rfl) false)
  | stos h w =>
    exact ran_retire rfl (fun _ => rfl) rfl at_s (runs_stringBody hG (fun rep => again (by simpa [repeats] using rep))
      (fun r mem => by simp [destRegs, mem]) (runs_stosElem hG h w (by simp [destRegs]) rfl) false)
  | lods h w =>
    exact ran_retire rfl (fun _ => rfl) rfl at_s (runs_stringBody hG (fun rep => again (by simpa [repeats] using rep))
      (fun r mem => by simp [destRegs, mem]) (runs_lodsElem hG h w (by simp [destRegs]) (by simp [destRegs])) false)
  | cmps h w =>
    exact ran_retire rfl (fun _ => rfl) rfl at_s (runs_stringBody hG (fun rep => again (by simpa [repeats] using rep))
      (fun r mem => by simp [destRegs, mem]) (runs_cmpsElem hG h w (by simp [destRegs]) (by simp [destRegs])
        fun w a b fl => flagRule_subFlags rfl w a b false) true)
  | scas h w =>
    exact ran_retire rfl (fun _ => rfl) rfl at_s (runs_stringBody hG (fun rep => again (by simpa [repeats] using rep))
      (fun r mem => by simp [destRegs, mem]) (runs_scasElem hG h w (by simp [destRegs])
        fun w a b fl => flagRule_subFlags rfl w a b false) true)
  | nop h => exact ran_retire (body := fun _ => pure ()) rfl (fun _ => rfl) rfl at_s (runs_pure () hG.le)
  | pause h => exact ran_retire (body := fun _ => pure ()) rfl (fun _ => rfl) rfl at_s (runs_pure () hG.le)
  | nopRm h w rm => exact ran_retire (body := fun _ => pure ()) rfl (fun _ => rfl) rfl at_s (runs_pure () hG.le)
  | lfence h => exact ran_retire (body := fun _ => pure ()) rfl (fun _ => rfl) rfl at_s (runs_pure () hG.le)
  | mfence h => exact ran_retire (body := fun _ => pure ()) rfl (fun _ => rfl) rfl at_s (runs_pure () hG.le)
  | sfence h => exact ran_retire (body := fun _ => pure ()) rfl (fun _ => rfl) rfl at_s (runs_pure () hG.le)
  | cmc h =>
    exact ran_setFlags hG (f := fun t => t.flags.withCf !t.flags.st.cf) rfl (fun _ => rfl) rfl at_s
      (rule.cf rfl _)
  | clc h => exact ran_setFlags hG (f := fun t => t.flags.withCf false) rfl (fun _ => rfl) rfl at_s (rule.cf rfl _)
  | stc h => exact ran_setFlags hG (f := fun t => t.flags.withCf true) rfl (fun _ => rfl) rfl at_s (rule.cf rfl _)
  | cli h =>
    exact ran_retire rfl (fun _ => rfl) rfl at_s (runs_check_bind (proper_gp _) (fun _ h => h) fun allowed =>
      (runs_setFlags hG (rule.withIe ⟨h, .w8, .inr (.inl rfl)⟩ (by simpa using allowed) _)).pre hG.le)
  | sti h =>
    refine ran_retireShadow rfl (fun _ => rfl) rfl at_s (fun _ _ => ⟨h, .inl rfl⟩) ?_
    exact runs_check_bind (proper_gp _) (fun _ h => h) fun allowed =>
      runs_bind ((runs_setFlags hG (rule.withIe ⟨h, .w8, .inr (.inr rfl)⟩ (by simpa using allowed) _)).pre hG.le)
        fun _ => runs_pure _ fun _ h => h
  | cld h =>
    exact ran_setFlags hG (f := fun t => { t.flags with df := false }) rfl (fun _ => rfl) rfl at_s
      (rule.withDf ⟨h, .w8, .inr (.inl rfl)⟩ _)
  | std h =>
    exact ran_setFlags hG (f := fun t => { t.flags with df := true }) rfl (fun _ => rfl) rfl at_s
      (rule.withDf ⟨h, .w8, .inr (.inr rfl)⟩ _)
  | rdmsr h =>
    refine ran_retire rfl (fun _ => rfl) rfl at_s (runs_bind runs_privileged fun _ => ?_)
    split
    · exact runs_raise (proper_gp _) fun _ h => h
    · exact runs_bind ((runs_setReg hG .w32 (r := rAX) (List.mem_cons_self ..) _).pre hG.le) fun _ =>
        runs_setReg hG .w32 (r := rDX) (by simp [destRegs, rDX, gpr]) _
  | cpuid h =>
    have reg (r : Gpr) (mem : r.num ∈ [(0 : RegNum), 3, 1, 2]) (v : Word) : Runs H G H (setReg .w32 r v) :=
      runs_setReg hG .w32 mem v
    exact ran_retire (body := fun s => cpuidBody s) rfl (fun _ => rfl) rfl at_s
      (runs_bind ((reg rAX (by decide) _).pre hG.le) fun _ => runs_bind (reg rBX (by decide) _) fun _ =>
        runs_bind (reg rCX (by decide) _) fun _ => reg rDX (by decide) _)
  | hlt | movToSeg | movToCr | lgdt | lidt | invlpg | swapgs | wrmsr => cases plain

end

/-! ### The instructions that write system state -/

/-- The one write of system state that the instruction makes from `u`, started in `s` (R602, R611 to R613, R618, R620
to R622, R625, R627). -/
inductive SystemWrite (s u : State) : Instr → State → Prop where
  | hlt (h : Hdr) (level : s.cpl = 0) : SystemWrite s u (.hlt h) { u with halted := true }
  | seg (h : Hdr) {r : SReg} (src : RM) (v : SegReg) (ne : r ≠ .cs) :
    SystemWrite s u (.movToSeg h r src) (u.setSeg r v)
  | cr (h : Hdr) (w : Width) {c : CReg} (r : RegNum) {v : Word} (g : SFlags) (level : s.cpl = 0)
    (ok : s.crRefused c v = false) : SystemWrite s u (.movToCr h w c r) ((u.setCr c v).withFlags (s.flags.withSt g))
  | gdt (h : Hdr) (w : Width) (m : MemOp) (v : TableReg) (level : s.cpl = 0) :
    SystemWrite s u (.lgdt h w m) { u with gdtr := v }
  | idt (h : Hdr) (w : Width) (m : MemOp) (v : TableReg) (level : s.cpl = 0) :
    SystemWrite s u (.lidt h w m) { u with idtr := v }
  | invlpg (h : Hdr) (m : MemOp) (level : s.cpl = 0) : SystemWrite s u (.invlpg h m) u.bumpSalt
  | swapgs (h : Hdr) (level : s.cpl = 0) : SystemWrite s u (.swapgs h)
      { u.setSeg .gs { u.segs.gs with base := u.kernelGsBase } with kernelGsBase := u.segs.gs.base }
  | msr (h : Hdr) {r : Msr} {v : Word} (level : s.cpl = 0) (ok : s.msrRefused r v = false) :
    SystemWrite s u (.wrmsr h) (u.msrWrite r v)

/-- Where `H` holds, or one write of system state after it. -/
def After (H : State → Prop) (i : Instr) (s u : State) : Prop := ∃ u0, H u0 ∧ (u = u0 ∨ SystemWrite s u0 i u)

section
variable {i : Instr} {G H : State → Prop} {s : State}

theorem after_of (i : Instr) (s : State) (u : State) (at_u : H u) : After H i s u := ⟨u, at_u, .inl rfl⟩

theorem after_write {u0 u : State} (at_u : H u0) (write : SystemWrite s u0 i u) : After H i s u :=
  ⟨u0, at_u, .inr write⟩

/-- The privilege check (R600): the rest runs at level 0 only. -/
theorem ran_privileged {K : State → Prop} {h : Hdr} {body : State → M Unit}
    (eq : exec i = fun t => retire h true (privileged >>= fun _ => body t) t)
    (same : ∀ b, body (s.withBooks b) = body s) (hdr : i.hdr = some h) (at_s : G s)
    (level : ∀ t, G t → t.cpl = s.cpl) (run : s.cpl = 0 → Runs G G K (body s)) : Ran i G K s := by
  refine ran_retire (body := fun t => privileged >>= fun _ => body t) eq (fun b => by rw [same]) hdr at_s ?_
  by_cases zero : s.cpl = 0
  · exact runs_bind runs_privileged fun _ => run zero
  · refine runs_bind (K := fun _ => False) (runs_get_bind (fun _ _ => rfl) fun t at_t => ?_) fun _ =>
      ⟨fun _ _ _ no => no.elim, fun _ _ _ no => no.elim, fun _ _ no => no.elim⟩
    rw [show (t.cpl != 0) = true from bne_iff_ne.mpr (by rwa [level t at_t])]
    exact runs_raise (proper_gp _) fun _ h => h

/-- `LoadSeg` (R618) ends with one write of the segment register. -/
theorem runs_loadSeg {L : List RegNum} {P : Flags → Prop} {h : Hdr} {r : SReg} {src : RM}
    (hG : Writes (storesMem (.movToSeg h r src) = true) G H L P) (ne : r ≠ .cs) (sel : BitVec 16) :
    Runs G G (After H (.movToSeg h r src) s) (loadSeg r sel) := by
  have load (v : State → SegReg) (same : ∀ t b, v (t.withBooks b) = v t) :
      Runs H G (After H (.movToSeg h r src) s) (modify fun t => t.setSeg r (v t)) :=
    runs_modify (fun t at_t => after_write at_t (.seg h src (v t) ne)) fun t b => by rw [same]; rfl
  refine runs_get_bind (fun _ _ => rfl) fun t _ => ?_
  split
  · exact (load (fun t => { t.segs.get r with selector := sel, base := sel.setWidth 64 <<< 4 }) fun _ _ => rfl).pre
      hG.le
  · split
    · exact runs_bind (runs_raiseIf _ (proper_gp _)) fun _ => (load (fun _ => nullSeg sel) fun _ _ => rfl).pre hG.le
    · refine runs_get_bind (fun _ _ => rfl) fun u _ => ?_
      refine runs_bind (runs_raiseIf _ (proper_gp _)) fun _ => runs_bind (runs_raiseIf _ (proper_gp _)) fun _ => ?_
      refine runs_bind (runs_linRead hG.reads _ _ _ _) fun raw => ?_
      cases fault : u.descFault r sel (descriptor raw) with
      | some f =>
        simp only [fault]
        exact runs_raise (proper_descFault fault) fun _ h => h
      | none =>
        simp only [fault]
        exact runs_bind (runs_markDescriptor hG rfl _ _) fun _ => load (fun _ => _) fun _ _ => rfl

theorem movToSeg_ran {L : List RegNum} {P : Flags → Prop} {h : Hdr} {r : SReg} {src : RM}
    (hG : Writes (storesMem (.movToSeg h r src) = true) G H L P) (at_s : G s) :
    Ran (.movToSeg h r src) G (After H (.movToSeg h r src) s) s := by
  refine ran_retireShadow (body := fun _ => do
    raiseIf (r == .cs) .ud
    let sel ← readRM h .w16 src
    loadSeg r (sel.setWidth 16)
    pure (r == .ss)) rfl (fun _ => rfl) rfl at_s ?_ ?_
  · intro t run
    obtain ⟨_, _, _, run⟩ := bind_ok.mp run
    obtain ⟨_, _, _, run⟩ := bind_ok.mp run
    obtain ⟨_, _, _, run⟩ := bind_ok.mp run
    have ss : (r == SReg.ss) = true := by simpa using (EStateM.Result.ok.inj run).1
    rw [beq_iff_eq.mp ss]
    exact ⟨h, .inr ⟨src, rfl⟩⟩
  · exact runs_check_bind proper_ud (fun _ h => h) fun ne => runs_bind (runs_readRM hG.reads _ _ _) fun sel =>
      runs_bind (runs_loadSeg hG (by simpa using ne) _) fun _ => runs_pure _ fun _ h => h

/-- Every instruction runs so, for all `G` and `H` that reads and writes keep: from `G`, on which it raises, over `H`
to at most one write of system state. -/
theorem exec_ran (i : Instr) (hG : Writes (storesMem i = true) G H (destRegs i) (FlagRule i s))
    (level : ∀ t, H t → t.cpl = s.cpl) (again : repeats i = true → ∀ t, H t → G t) (at_s : G s) :
    Ran i G (After H i s) s := by
  by_cases plain : writesSystem i = false
  · exact (exec_plain_ran plain hG level again at_s).post (after_of i s)
  have levelG (t : State) (at_t : G t) : t.cpl = s.cpl := level t (hG.le t at_t)
  cases i with
  | hlt h =>
    exact ran_privileged (body := fun _ => modify fun t => { t with halted := true }) rfl (fun _ => rfl) rfl at_s levelG
      fun zero => runs_modify (fun u at_u => after_write (hG.le u at_u) (.hlt h zero)) fun _ _ => rfl
  | movToSeg h r src => exact movToSeg_ran hG at_s
  | movToCr h w c r =>
    refine ran_privileged (body := fun s => do
      raiseIf (s.crRefused c (s.regRead w (gpr r))) (.gp 0)
      modify fun t => t.setCr c (s.regRead w (gpr r))
      setFlags (allUndef "MOV" w (s.regRead w (gpr r)).toNat 0 s.flags)) rfl (fun _ => rfl) rfl at_s levelG
      fun zero => ?_
    refine runs_check_bind (proper_gp _) (fun _ h => h) fun ok => ?_
    refine runs_bind (K := fun u => ∃ u0, H u0 ∧ u = u0.setCr c (s.regRead w (gpr r)))
      (runs_modify (fun u at_u => ⟨u, hG.le u at_u, rfl⟩) fun _ _ => by cases c <;> rfl) fun _ => ?_
    refine runs_modify (fun u at_u => ?_) fun _ _ => rfl
    obtain ⟨u0, at_u0, rfl⟩ := at_u
    exact after_write at_u0 (.cr h w r _ zero ok)
  | lgdt h w m =>
    refine ran_privileged (body := fun _ => do
      let t ← readTable h w m
      modify fun u => { u with gdtr := t }) rfl (fun _ => rfl) rfl at_s levelG fun zero => ?_
    exact runs_bind (runs_readTable hG.reads h w m) fun v =>
      runs_modify (fun u at_u => after_write (hG.le u at_u) (.gdt h w m v zero)) fun _ _ => rfl
  | lidt h w m =>
    refine ran_privileged (body := fun _ => do
      let t ← readTable h w m
      modify fun u => { u with idtr := t }) rfl (fun _ => rfl) rfl at_s levelG fun zero => ?_
    exact runs_bind (runs_readTable hG.reads h w m) fun v =>
      runs_modify (fun u at_u => after_write (hG.le u at_u) (.idt h w m v zero)) fun _ _ => rfl
  | invlpg h m =>
    exact ran_privileged (body := fun _ => modify State.bumpSalt) rfl (fun _ => rfl) rfl at_s levelG fun zero =>
      runs_modify (fun u at_u => after_write (hG.le u at_u) (.invlpg h m zero)) fun _ _ => rfl
  | swapgs h =>
    exact ran_privileged (body := fun _ => modify fun t =>
      { t.setSeg .gs { t.segs.gs with base := t.kernelGsBase } with kernelGsBase := t.segs.gs.base })
      rfl (fun _ => rfl) rfl at_s levelG fun zero =>
        runs_modify (fun u at_u => after_write (hG.le u at_u) (.swapgs h zero)) fun _ _ => rfl
  | wrmsr h =>
    refine ran_privileged (body := fun s =>
      match s.msrOf (s.regRead .w32 rCX).toNat with
      | none => raise (.gp 0)
      | some r => do
        raiseIf (s.msrRefused r s.edxEax) (.gp 0)
        modify fun t => t.msrWrite r s.edxEax) rfl (fun _ => rfl) rfl at_s levelG fun zero => ?_
    split
    next => exact runs_raise (proper_gp _) fun _ h => h
    next r found =>
      exact runs_check_bind (proper_gp _) (fun _ h => h) fun ok =>
        runs_modify (fun u at_u => after_write (hG.le u at_u) (.msr h zero ok)) fun _ _ => by cases r <;> rfl
  | _ => exact absurd rfl plain

end

end Sys2Proof.Machine
end

section
/-! PROOF. What stores do to memory, and what every instruction may change (O13, O17, O21 to O24, O26). -/

namespace Sys2Proof.Machine
open Sys2Proof

/-! ### Memory after a write (R204, R211, R232) -/

theorem leBytes_length (n v : Nat) : (leBytes n v).length = n := by
  induction n generalizing v with
  | zero => rfl
  | succ n ih => rw [leBytes, List.length_cons, ih]

theorem physWrite_version (c : Config) (m : MemSys) (pa : Nat) (bs : List Byte) (q : Nat) :
    (m.physWrite c pa bs).version q = m.version q := by
  unfold MemSys.physWrite
  split
  · exact storeBytes_version m pa bs q
  · rfl

theorem physWrite_byte_other (c : Config) (m : MemSys) (pa : Nat) (bs : List Byte) {a : Nat}
    (out : a < pa ∨ pa + bs.length ≤ a) : (m.physWrite c pa bs).byte a = m.byte a := by
  unfold MemSys.physWrite
  split
  · exact storeBytes_byte_other m pa bs a out
  · rfl

theorem physWrite_tlb (c : Config) (m : MemSys) (pa : Nat) (bs : List Byte) :
    (m.physWrite c pa bs).tlb = m.tlb := by
  unfold MemSys.physWrite
  split
  · exact (storeBytes_pageVersion m pa bs).2.1
  · rfl

theorem onGuestWrite_byte (m : MemSys) (pa n a : Nat) : (m.onGuestWrite pa n).byte a = m.byte a := by
  unfold MemSys.byte
  rw [(onGuestWrite_mem m pa n).1]

theorem version_le_onGuestWrite (m : MemSys) (pa n q : Nat) : m.version q ≤ (m.onGuestWrite pa n).version q := by
  rw [onGuestWrite_version]
  exact Nat.le_add_right ..

/-- The page of a byte that a range covers gets a new version. -/
theorem version_lt_onGuestWrite (m : MemSys) {pa n a : Nat} (low : pa ≤ a) (high : a < pa + n) :
    m.version (a / 4096) < (m.onGuestWrite pa n).version (a / 4096) := by
  rw [onGuestWrite_version, if_pos ⟨by omega, Nat.div_le_div_right low, Nat.div_le_div_right (by omega)⟩]
  exact Nat.lt_succ_self _

/-- The bytes of a list, each written to its address (R211). -/
def MemSys.putEach (c : Config) (m : MemSys) : List (Nat × Byte) → MemSys
  | [] => m
  | (a, b) :: l => (m.physWrite c a (leBytes 1 (b.setWidth 64).toNat)).putEach c l

theorem writeEach_run (l : List (Nat × Byte)) (s : State) :
    writeEach l s = .ok () (s.withMs (s.ms.putEach s.cfg l)) := by
  induction l generalizing s with
  | nil => rfl
  | cons a l ih => exact ih _

theorem putEach_version (c : Config) (m : MemSys) (l : List (Nat × Byte)) (q : Nat) :
    (m.putEach c l).version q = m.version q := by
  induction l generalizing m with
  | nil => rfl
  | cons a l ih => rw [MemSys.putEach, ih, physWrite_version]

theorem putEach_tlb (c : Config) (m : MemSys) (l : List (Nat × Byte)) : (m.putEach c l).tlb = m.tlb := by
  induction l generalizing m with
  | nil => rfl
  | cons a l ih => rw [MemSys.putEach, ih, physWrite_tlb]

theorem putEach_byte_other (c : Config) (m : MemSys) (l : List (Nat × Byte)) {a : Nat}
    (out : ∀ e ∈ l, a ≠ e.1) : (m.putEach c l).byte a = m.byte a := by
  induction l generalizing m with
  | nil => rfl
  | cons e l ih =>
    rw [MemSys.putEach, ih _ fun e mem => out e (List.mem_cons_of_mem _ mem)]
    have ne := out e (List.mem_cons_self ..)
    exact physWrite_byte_other _ _ _ _ (by rw [leBytes_length]; omega)

/-- The bytes a store puts, with their addresses. -/
def Span.puts (p : Span) (n : Nat) (v : Word) : List (Nat × Byte) := (p.addrs n).zip (leBytes n v.toNat)

section
variable (s : State) (p : Span) (n : Nat) (v : Word)

theorem stored_ms_whole (whole : p.split = false) :
    (s.stored p n v).ms = (s.ms.physWrite s.cfg p.pa0 (leBytes n v.toNat)).onGuestWrite p.pa0 n := by
  have run : spanWrite p n v s = .ok () (s.withMs
      ((s.ms.physWrite s.cfg p.pa0 (leBytes n v.toNat)).onGuestWrite p.pa0 n)) := by
    unfold spanWrite
    rw [if_neg (by simp [whole])]
    rfl
  rw [spanWrite_run] at run
  exact congrArg State.ms (EStateM.Result.ok.inj run).2

theorem stored_ms_split (across : p.split = true) : (s.stored p n v).ms =
    ((s.ms.putEach s.cfg (p.puts n v)).onGuestWrite p.pa0 p.k).onGuestWrite p.pa1 (n - p.k) := by
  have run : spanWrite p n v s = .ok () (s.withMs
      (((s.ms.putEach s.cfg (p.puts n v)).onGuestWrite p.pa0 p.k).onGuestWrite p.pa1 (n - p.k))) := by
    unfold spanWrite
    rw [if_pos across, bind_run, writeEach_run]
    rfl
  rw [spanWrite_run] at run
  exact congrArg State.ms (EStateM.Result.ok.inj run).2

/-- A byte of a store that crosses a page, or of one that does not. -/
def Span.Covers (p : Span) (n a : Nat) : Prop :=
  if p.split then a ∈ p.addrs n else p.pa0 ≤ a ∧ a < p.pa0 + n

theorem stored_byte_other {a : Nat} (out : ¬p.Covers n a) : (s.stored p n v).ms.byte a = s.ms.byte a := by
  unfold Span.Covers at out
  cases across : p.split with
  | true =>
    rw [stored_ms_split s p n v across, onGuestWrite_byte, onGuestWrite_byte]
    refine putEach_byte_other _ _ _ fun e mem eq => out ?_
    rw [if_pos across, eq]
    exact (List.of_mem_zip mem).1
  | false =>
    rw [stored_ms_whole s p n v across, onGuestWrite_byte]
    rw [if_neg (by simp [across])] at out
    exact physWrite_byte_other _ _ _ _ (by rw [leBytes_length]; omega)

theorem version_le_stored (q : Nat) : s.ms.version q ≤ (s.stored p n v).ms.version q := by
  cases across : p.split with
  | true =>
    rw [stored_ms_split s p n v across, ← putEach_version s.cfg s.ms (p.puts n v) q]
    exact Nat.le_trans (version_le_onGuestWrite ..) (version_le_onGuestWrite ..)
  | false =>
    rw [stored_ms_whole s p n v across, ← physWrite_version s.cfg s.ms p.pa0 (leBytes n v.toNat) q]
    exact version_le_onGuestWrite ..

/-- A store gives every page it writes to a new version (R232). -/
theorem version_lt_stored {a : Nat} (covered : p.Covers n a) :
    s.ms.version (a / 4096) < (s.stored p n v).ms.version (a / 4096) := by
  unfold Span.Covers at covered
  cases across : p.split with
  | true =>
    rw [if_pos across] at covered
    obtain ⟨i, i_lt, rfl⟩ : ∃ i, i < n ∧ p.addr i = a := by
      simpa [Span.addrs] using covered
    rw [stored_ms_split s p n v across, ← putEach_version s.cfg s.ms (p.puts n v)]
    unfold Span.addr
    split
    · exact Nat.lt_of_lt_of_le (version_lt_onGuestWrite _ (by omega) (by omega)) (version_le_onGuestWrite ..)
    · exact Nat.lt_of_le_of_lt (version_le_onGuestWrite ..) (version_lt_onGuestWrite _ (by omega) (by omega))
  | false =>
    rw [if_neg (by simp [across])] at covered
    rw [stored_ms_whole s p n v across, ← physWrite_version s.cfg s.ms p.pa0 (leBytes n v.toNat)]
    exact version_lt_onGuestWrite _ covered.1 covered.2

theorem stored_tlb : (s.stored p n v).ms.tlb = s.ms.tlb := by
  cases across : p.split with
  | true =>
    rw [stored_ms_split s p n v across, (onGuestWrite_mem ..).2.1, (onGuestWrite_mem ..).2.1, putEach_tlb]
  | false => rw [stored_ms_whole s p n v across, (onGuestWrite_mem ..).2.1, physWrite_tlb]

end

/-! ### What the accesses of an instruction do to memory -/

/-- The memory of `u` comes from that of `s` by accesses of an instruction: the canonical form and the salts of the
cache are kept, no page version falls, and the page of each byte that changed has a new one (R230, R234). -/
structure MemFollows (s u : State) : Prop where
  wf : s.ms.wf = true → u.ms.wf = true
  le : ∀ p, s.ms.version p ≤ u.ms.version p
  lt : ∀ pa, u.ms.byte pa ≠ s.ms.byte pa → s.ms.version (pa / 4096) < u.ms.version (pa / 4096)
  salt : u.tlbSalt = s.tlbSalt
  salts : s.saltsOk = true → u.saltsOk = true

theorem memFollows_refl (s : State) : MemFollows s s :=
  ⟨id, fun _ => Nat.le_refl _, fun _ ne => absurd rfl ne, rfl, id⟩

theorem MemFollows.trans {s t u : State} (st : MemFollows s t) (tu : MemFollows t u) : MemFollows s u where
  wf h := tu.wf (st.wf h)
  le p := Nat.le_trans (st.le p) (tu.le p)
  lt pa ne := by
    by_cases eq : t.ms.byte pa = s.ms.byte pa
    · exact Nat.lt_of_le_of_lt (st.le _) (tu.lt pa (by rwa [eq]))
    · exact Nat.lt_of_lt_of_le (st.lt pa eq) (tu.le _)
  salt := tu.salt.trans st.salt
  salts h := tu.salts (st.salts h)

/-- A change of memory that leaves the translation cache and marks what it changes. -/
theorem memFollows_of_withMs {s : State} {m : MemSys} (wf : s.ms.wf = true → m.wf = true)
    (le : ∀ p, s.ms.version p ≤ m.version p)
    (lt : ∀ pa, m.byte pa ≠ s.ms.byte pa → s.ms.version (pa / 4096) < m.version (pa / 4096))
    (tlb : m.tlb = s.ms.tlb) : MemFollows s (s.withMs m) :=
  ⟨wf, le, lt, rfl, fun h => by rw [State.saltsOk, withMs_ms, tlb]; exact h⟩

theorem memFollows_stored (s : State) (p : Span) (n : Nat) (v : Word) : MemFollows s (s.stored p n v) := by
  rw [stored_withMs]
  refine memFollows_of_withMs (fun h => ?_) (version_le_stored s p n v) (fun pa ne => ?_) (stored_tlb s p n v)
  · exact (keeps_spanWrite wf_access p n v).ok (spanWrite_run p n v s) h
  · refine version_lt_stored s p n v ?_
    exact Classical.byContradiction fun out => ne (stored_byte_other s p n v out)

/-- An entry is written as a store within a page. -/
theorem writeEntry_run (pa size : Nat) (old new : Word) (s : State) : writeEntry pa size old new s =
    .ok () (if new = old then s else s.stored ⟨pa, 0, size, false⟩ size new) := by
  unfold writeEntry
  by_cases eq : new = old
  · simp [eq]
  · rw [if_neg (by simpa using eq), if_neg eq]
    exact spanWrite_run ⟨pa, 0, size, false⟩ size new s

theorem saltsOk_iff (s : State) : s.saltsOk = true ↔ ∀ e ∈ s.ms.tlb, e.2.salt ≤ s.tlbSalt := by
  simp [State.saltsOk]

theorem memFollows_fill (s : State) (lin : Word) (k : Access) (r : Walked) :
    MemFollows s (s.setTlb (s.tlbIndex lin) (s.tlbFill lin k r)) where
  wf h := by
    rw [MemSys.wf_iff] at h ⊢
    exact ⟨h.1, h.2.1, sparseWf_set _ _ _ h.2.2⟩
  le _ := Nat.le_refl _
  lt _ ne := absurd rfl ne
  salt := rfl
  salts h := by
    rw [saltsOk_iff] at h ⊢
    intro e mem
    rcases sparseSet_mem mem with old | rfl
    · exact h e old
    · exact Nat.le_refl _

theorem walks_memFollows (s : State) : Walks (MemFollows s) where
  busOp u h := h.trans (memFollows_of_withMs id (fun _ => Nat.le_refl _) (fun _ ne => absurd rfl ne) rfl)
  marked u pa size old new h := by
    rw [endState, writeEntry_run]
    by_cases eq : new = old
    · simpa [eq] using h
    · simpa [eq] using h.trans (memFollows_stored u _ _ _)
  filled u lin k r h := h.trans (memFollows_fill u lin k r)

end Sys2Proof.Machine
end

section
/-! PROOF. O13, O17, O21 to O24, O26. What holds while an instruction runs (`Reached`), what holds where it raises
(`Start`), and how a step ends. -/

namespace Sys2Proof.Machine
open Sys2Proof

/-! ### What holds while an instruction runs -/

/-- From `s` to `u` an instruction `i` has changed registers of `destRegs`, flags as `FlagRule` says, and memory as
`MemFollows` says, and nothing else. -/
structure Reached (i : Instr) (s u : State) : Prop where
  same : u = { s with regs := u.regs, flags := u.flags, ms := u.ms }
  regs : ∀ r, r ∉ destRegs i → u.x r = s.x r
  flags : FlagRule i s u.flags
  mem : MemFollows s u

/-- Nothing that R802 forbids has changed from `s` to `u`. -/
structure Clean (s u : State) : Prop where
  regs : u.regs = s.regs
  flags : u.flags = s.flags
  bytes : s.pagingMode = .none → ∀ pa, u.ms.byte pa = s.ms.byte pa

/-- What holds of a state `u` in which the instruction raises (R802). -/
structure Start (i : Instr) (s u : State) : Prop where
  reached : Reached i s u
  clean : repeats i = false → Clean s u

theorem reached_self (i : Instr) (s : State) : Reached i s s :=
  ⟨rfl, fun _ _ => rfl, flagRule_self i s, memFollows_refl s⟩

theorem start_self (i : Instr) (s : State) : Start i s s := ⟨reached_self i s, fun _ => ⟨rfl, rfl, fun _ _ => rfl⟩⟩

section
variable {i : Instr} {s u : State}

theorem Reached.eq (h : Reached i s u) : ∃ r f m, u = { s with regs := r, flags := f, ms := m } := ⟨_, _, _, h.same⟩

theorem Reached.cpl (h : Reached i s u) : u.cpl = s.cpl := by rw [h.same]

theorem Reached.pagingMode (h : Reached i s u) : u.pagingMode = s.pagingMode := by
  obtain ⟨r, f, m, rfl⟩ := h.eq
  rfl

/-- A change of memory. -/
theorem Reached.withMs (h : Reached i s u) {m : MemSys} (mem : MemFollows s (u.withMs m)) :
    Reached i s (u.withMs m) := by
  refine ⟨?_, h.regs, h.flags, mem⟩
  obtain ⟨r, f, m', rfl⟩ := h.eq
  rfl

theorem reads_start (i : Instr) (s : State) : Reads (Start i s) where
  busOp u h := ⟨h.reached.withMs ((walks_memFollows s).busOp u h.reached.mem),
    fun once => ⟨(h.clean once).regs, (h.clean once).flags, (h.clean once).bytes⟩⟩
  translated lin k user u h := by
    obtain ⟨m, eq⟩ := (keeps_translate onlyMs_access lin k user u).elim
    have mem := (runs_translate_of_walks (walks_memFollows s) lin k user).keeps u h.reached.mem
    rw [eq] at mem ⊢
    refine ⟨h.reached.withMs mem, fun once => ?_⟩
    obtain ⟨regs, flags, bytes⟩ := h.clean once
    refine ⟨regs, flags, fun none pa => ?_⟩
    have still : endState (translate lin k user) u = u := by
      rw [endState, translate_of_no_paging (h.reached.pagingMode.trans none)]
    have : m = u.ms := by rw [← still, eq]; rfl
    rw [withMs_ms, this, bytes none]

theorem writes_reached (i : Instr) (s : State) :
    Writes (storesMem i = true) (Start i s) (Reached i s) (destRegs i) (FlagRule i s) where
  reads := reads_start i s
  le _ h := h.reached
  stored _ p n v u h := by
    have mem := h.mem.trans (memFollows_stored u p n v)
    rw [stored_withMs] at mem ⊢
    exact h.withMs mem
  setX u r v mem h := by
    refine ⟨?_, fun q out => ?_, h.flags, ⟨h.mem.wf, h.mem.le, h.mem.lt, h.mem.salt, h.mem.salts⟩⟩
    · obtain ⟨rs, f, m, rfl⟩ := h.eq
      rfl
    · have ne : (r : Nat) ≠ q := fun eq => out (Fin.ext eq ▸ mem)
      exact (Vector.getElem_set_ne (xs := u.regs) (x := v) r.isLt q.isLt ne).trans (h.regs q out)
  withFlags u f ok h := by
    refine ⟨?_, h.regs, ok, ⟨h.mem.wf, h.mem.le, h.mem.lt, h.mem.salt, h.mem.salts⟩⟩
    obtain ⟨rs, f, m, rfl⟩ := h.eq
    rfl
  flags _ h := h.flags

/-- Where an instruction repeats, a state between two elements is one it may raise in. -/
theorem start_of_repeats (repeated : repeats i = true) (h : Reached i s u) : Start i s u :=
  ⟨h, fun once => absurd (repeated.symm.trans once) nofun⟩

theorem exec_runs (i : Instr) (s : State) : Ran i (Start i s) (After (Reached i s) i s) s :=
  exec_ran i (writes_reached i s) (fun _ h => h.cpl) (fun repeated _ h => start_of_repeats repeated h)
    (start_self i s)

/-- How an instruction ends. -/
theorem exec_ends {t : State} (run : exec i s = .next t) : Ends i (Start i s) (After (Reached i s) i s) s t :=
  (exec_runs i s).eq_of_next run

end

/-! ### How a step ends -/

/-- The state that the fetch from `s` left: only memory has changed. -/
structure FetchedFrom (s u : State) : Prop where
  same : u = s.withMs u.ms
  mem : MemFollows s u

theorem reads_fetchedFrom (s : State) : Reads (FetchedFrom s) where
  busOp u h := ⟨by rw [h.same]; rfl, (walks_memFollows s).busOp u h.mem⟩
  translated lin k user u h := by
    obtain ⟨m, eq⟩ := (keeps_translate onlyMs_access lin k user u).elim
    refine ⟨by rw [eq, h.same]; rfl, ?_⟩
    exact (runs_translate_of_walks (walks_memFollows s) lin k user).keeps u h.mem

theorem runs_fetch (s : State) :
    Runs (FetchedFrom s) (FetchedFrom s) (FetchedFrom s) (fetchDecode s.decodeMode 15 []) :=
  runs_fetchDecode (reads_fetchedFrom s) _ _ _

theorem fetchedFrom_self (s : State) : FetchedFrom s s := ⟨rfl, memFollows_refl s⟩

/-- An instruction that the decoder gives in the mode: one with bytes, UD2, or the class `Invalid`. -/
def Given (m : DecodeMode) (i : Instr) : Prop := (∃ bytes, decode m bytes = .decoded i) ∨ i = .ud2 ∨ i = .invalid

/-- How a step of a running block ends (R710, R711, R713). -/
inductive StepEnds (s t : State) : Prop where
  | reports (k : OutcomeKind) (u : State) (at_u : FetchedFrom s u)
    (kind : k = .halted ∨ ∃ bytes, k = .unsupported bytes)
    (eq : t = { u with outcome := some ⟨k, u.retired, u.rip⟩ })
  | raises (u : State) (at_u : FetchedFrom s u) (f : FaultRec) (proper : f.Proper) (eq : t = takeFault f u)
  | runs (u : State) (at_u : FetchedFrom s u) (i : Instr) (given : Given s.decodeMode i) (run : exec i u = .next t)

theorem fetchDecode_result {m : DecodeMode} {fuel : Nat} {bytes : List Byte} {s t : State} {f : Fetched}
    (run : fetchDecode m fuel bytes s = .ok f t) : f.result = decode m f.bytes := by
  induction fuel generalizing bytes s with
  | zero => cases run; rfl
  | succ fuel ih =>
    by_cases more : decode m bytes = .truncated
    · simp only [fetchDecode, more] at run
      obtain ⟨b, u, _, run⟩ := bind_ok.mp run
      exact ih run
    · rw [fetchDecode_answer more] at run
      cases run
      rfl

theorem stepBlock_ends {s t : State} (run : stepBlock s = .next t) : StepEnds s t := by
  by_cases halted : s.halted = true
  · rw [stepBlock_halted halted] at run
    cases run
    exact .reports .halted s (fetchedFrom_self s) (.inl rfl) rfl
  have running : s.halted = false := by simpa using halted
  by_cases vm : s.flags.vm = true
  · rw [stepBlock_vm running vm] at run
    cases run
    exact .reports _ s (fetchedFrom_self s) (.inr ⟨[], rfl⟩) rfl
  have flat : s.flags.vm = false := by simpa using vm
  cases fetch : fetchDecode s.decodeMode 15 [] s with
  | error f u =>
    rw [stepBlock_fault running flat fetch] at run
    obtain ⟨at_u, proper⟩ := (runs_fetch s).error s f u (fetchedFrom_self s) fetch
    cases run
    exact .raises u at_u f proper rfl
  | ok f u =>
    rw [stepBlock_fetched running flat fetch] at run
    have at_u := (runs_fetch s).ok s f u (fetchedFrom_self s) fetch
    have answer := fetchDecode_result fetch
    unfold runDecoded at run
    split at run
    next i eq => exact .runs u at_u i (.inl ⟨f.bytes, answer.symm.trans eq⟩) run
    next i eq => exact .runs u at_u i (.inr (decode_invalid (answer.symm.trans eq))) run
    next => cases run; exact .reports _ u at_u (.inr ⟨f.bytes, rfl⟩) rfl
    next => cases run; exact .raises u at_u _ (proper_gp 0) rfl
    next => cases run; exact .raises u at_u _ (proper_gp 0) rfl

/-- A step of a block with another bookkeeping ends alike outside it. -/
theorem stepBlock_blind (s : State) (b : Books) :
    ∃ t t', stepBlock s = .next t ∧ stepBlock (s.withBooks b) = .next t' ∧ t'.forget = t.forget := by
  by_cases halted : s.halted = true
  · exact ⟨_, _, stepBlock_halted halted, stepBlock_halted halted, rfl⟩
  have running : s.halted = false := by simpa using halted
  by_cases vm : s.flags.vm = true
  · exact ⟨_, _, stepBlock_vm running vm, stepBlock_vm running vm, rfl⟩
  have flat : s.flags.vm = false := by simpa using vm
  have blind := (runs_fetch s).blind s b (fetchedFrom_self s)
  cases fetch : fetchDecode s.decodeMode 15 [] s with
  | error f u =>
    rw [fetch] at blind
    exact ⟨_, _, stepBlock_fault running flat fetch, stepBlock_fault (s := s.withBooks b) running flat blind, rfl⟩
  | ok f u =>
    rw [fetch] at blind
    rw [stepBlock_fetched running flat fetch, stepBlock_fetched (s := s.withBooks b) running flat blind]
    unfold runDecoded
    split
    next i _ => exact (exec_runs i u).blind b
    next i _ => exact (exec_runs i u).blind b
    next => exact ⟨_, _, rfl, rfl, rfl⟩
    next => exact ⟨_, _, rfl, rfl, rfl⟩
    next => exact ⟨_, _, rfl, rfl, rfl⟩

theorem started_eq_withBooks (s : State) : ∃ b, s.started = s.withBooks b := by
  unfold State.started
  split
  · exact ⟨⟨0, 0, none, s.cfg.maxBlockInstrs, s.cfg.maxBlockBytes⟩, rfl⟩
  · exact ⟨s.books, rfl⟩

theorem step_blind {s t : State} (alike : s.forget = t.forget) :
    ∃ s' t', step s = .next s' ∧ step t = .next t' ∧ s'.forget = t'.forget := by
  obtain ⟨b, eq⟩ : ∃ b, t.started = s.started.withBooks b := by
    obtain ⟨b, eq⟩ := started_eq_withBooks s
    obtain ⟨c, eq'⟩ := started_eq_withBooks t
    rw [eq, eq', eq_withBooks_of_forget_eq alike]
    exact ⟨c, rfl⟩
  rw [step_eq, step_eq, eq]
  obtain ⟨s', t', run, run', alike'⟩ := stepBlock_blind s.started b
  exact ⟨s', t', run, run', alike'.symm⟩

theorem step_ends {s t : State} (run : step s = .next t) : StepEnds s.started t :=
  stepBlock_ends (by rwa [step_eq] at run)

/-! ### Faults (R802) -/

theorem outcome_complete_ne_fault (s u : State) (len : Nat) (ends shadow : Bool) (rip : Word) (f : FaultRec)
    (r : Nat) (a : Word) : (complete s len ends shadow rip u).outcome ≠ some ⟨.fault f, r, a⟩ := by
  have kinds (tf0 ends : Bool) (s : State) : blockEnds tf0 ends s ≠ some (.fault f) := by
    unfold blockEnds
    grind
  unfold complete
  dsimp only
  split
  next k eq =>
    intro fault
    have : k = .fault f := by simpa using congrArg (Option.map BlockOutcome.kind) fault
    exact kinds _ _ _ (this ▸ eq)
  next => nofun

/-- An instruction that ends in a fault has raised. -/
theorem exec_fault {i : Instr} {s t : State} {f : FaultRec} {r : Nat} {a : Word} (run : exec i s = .next t)
    (fault : t.outcome = some ⟨.fault f, r, a⟩) :
    ∃ u g, Start i s u ∧ g.Proper ∧ t = takeFault g u ∧ f = u.reported g ∧ r = u.retired ∧ a = u.rip := by
  cases exec_ends run with
  | completes u at_u h hdr ends shadow rip eq _ => exact (outcome_complete_ne_fault _ _ _ _ _ _ _ _ _ (eq ▸ fault)).elim
  | raises u at_u g proper eq =>
    rw [eq] at fault
    simp only [takeFault_outcome, Option.some.injEq, BlockOutcome.mk.injEq, OutcomeKind.fault.injEq] at fault
    exact ⟨u, g, at_u, proper, eq, fault.1.symm, fault.2.1.symm, fault.2.2.symm⟩
  | asks vec k len eq => rw [eq] at fault; simp at fault

end Sys2Proof.Machine
end

section
/-! PROOF. O13, O17, O21 to O24 and O26, from how instructions and steps end. -/

namespace Sys2Proof.Machine
open Sys2Proof

section
variable {i : Instr} {s u v t : State}

theorem SystemWrite.regs (write : SystemWrite s u i v) : v.regs = u.regs := by
  cases write with
  | cr h w r g level ok => exact (by cases ‹CReg› <;> rfl)
  | msr h level ok => exact (by cases ‹Msr› <;> rfl)
  | _ => rfl

theorem SystemWrite.ms (write : SystemWrite s u i v) : v.ms = u.ms := by
  cases write with
  | cr h w r g level ok => exact (by cases ‹CReg› <;> rfl)
  | msr h level ok => exact (by cases ‹Msr› <;> rfl)
  | _ => rfl

theorem SystemWrite.flags (write : SystemWrite s u i v) (rule : FlagRule i s u.flags) : FlagRule i s v.flags := by
  cases write with
  | cr h w r g level ok => exact .withAll rfl g _ (flagRule_self _ s)
  | msr h level ok => exact (by cases ‹Msr› <;> exact rule)
  | _ => exact rule

theorem After.regs (at_u : After (Reached i s) i s u) {r : RegNum} (out : r ∉ destRegs i) : u.x r = s.x r := by
  obtain ⟨u0, at_u0, rfl | write⟩ := at_u
  · exact at_u0.regs r out
  · rw [State.x, write.regs]
    exact at_u0.regs r out

theorem After.flags (at_u : After (Reached i s) i s u) : FlagRule i s u.flags := by
  obtain ⟨u0, at_u0, rfl | write⟩ := at_u
  · exact at_u0.flags
  · exact write.flags at_u0.flags

theorem After.ms (at_u : After (Reached i s) i s u) : ∃ u0, Reached i s u0 ∧ u.ms = u0.ms := by
  obtain ⟨u0, at_u0, rfl | write⟩ := at_u
  · exact ⟨u, at_u0, rfl⟩
  · exact ⟨u0, at_u0, write.ms⟩

theorem FlagRule.clearRf {f : Flags} (rule : FlagRule i s f) : FlagRule i s { f with rf := false } :=
  ⟨rule.status, rule.vm, rule.vif, rule.vip, .inr rfl, rule.popf, rule.iopl, rule.ie, rule.df⟩

theorem exec_flagRule (run : exec i s = .next t) : FlagRule i s t.flags := by
  cases exec_ends run with
  | completes u at_u h hdr ends shadow rip eq _ => subst eq; exact at_u.flags.clearRf
  | raises u at_u f proper eq => subst eq; exact at_u.reached.flags
  | asks vec k len eq => subst eq; exact flagRule_self i s

theorem exec_regs (run : exec i s = .next t) {r : RegNum} (out : r ∉ destRegs i) : t.x r = s.x r := by
  cases exec_ends run with
  | completes u at_u h hdr ends shadow rip eq _ => subst eq; exact at_u.regs out
  | raises u at_u f proper eq => subst eq; exact at_u.reached.regs r out
  | asks vec k len eq => subst eq; rfl

/-- The memory an instruction leaves is that of a state reached while it ran. -/
theorem exec_ms (run : exec i s = .next t) : ∃ u, Reached i s u ∧ t.ms = u.ms := by
  cases exec_ends run with
  | completes u at_u h hdr ends shadow rip eq _ => subst eq; exact at_u.ms
  | raises u at_u f proper eq => subst eq; exact ⟨u, at_u.reached, rfl⟩
  | asks vec k len eq => subst eq; exact ⟨s, reached_self i s, rfl⟩

/-! ### The special registers (R922) -/

/-- The registers that no instruction writes (R922). -/
def State.fixed (s : State) : SegReg × SegReg × BitVec 2 × SegReg × Nat × Config :=
  (s.ldtr, s.tr, s.cpl, s.segs.cs, s.fpuSse, s.cfg)

/-- What the instruction `i` may have written of the special registers from `s` to `t`, but for `cr2` and the interrupt
shadow (R922). -/
structure SpecialRule (i : Instr) (s t : State) : Prop where
  fixed : t.fixed = s.fixed
  gdtr : t.gdtr ≠ s.gdtr → ∃ h w m, i = .lgdt h w m
  idtr : t.idtr ≠ s.idtr → ∃ h w m, i = .lidt h w m
  msrExtra : t.msrExtra ≠ s.msrExtra → ∃ h, i = .wrmsr h
  kernelGsBase : t.kernelGsBase ≠ s.kernelGsBase → ∃ h, i = .wrmsr h ∨ i = .swapgs h
  fsBase : t.segs.fs.base ≠ s.segs.fs.base → ∃ h m, i = .wrmsr h ∨ i = .movToSeg h .fs m
  segs : ∀ r, t.segs.get r ≠ s.segs.get r →
    ∃ h m, i = .movToSeg h r m ∨ ((i = .wrmsr h ∨ i = .swapgs h) ∧ (r = .fs ∨ r = .gs))
  cr0 : t.cr0 ≠ s.cr0 → ∃ h w r, i = .movToCr h w .cr0 r
  cr3 : t.cr3 ≠ s.cr3 → ∃ h w r, i = .movToCr h w .cr3 r
  cr4 : t.cr4 ≠ s.cr4 → ∃ h w r, i = .movToCr h w .cr4 r
  efer : t.efer ≠ s.efer → ∃ h, i = .wrmsr h ∨ ∃ w r, i = .movToCr h w .cr0 r
  tlbSalt : t.tlbSalt ≠ s.tlbSalt → ∃ h, i = .wrmsr h ∨ (∃ m, i = .invlpg h m) ∨
    ∃ w c r, i = .movToCr h w c r ∧ c ≠ .cr2
  halted : t.halted ≠ s.halted → ∃ h, i = .hlt h

theorem specialRule_self (i : Instr) (s : State) : SpecialRule i s s :=
  ⟨rfl, (absurd rfl ·), (absurd rfl ·), (absurd rfl ·), (absurd rfl ·), (absurd rfl ·), fun _ ne => absurd rfl ne,
    (absurd rfl ·), (absurd rfl ·), (absurd rfl ·), (absurd rfl ·), (absurd rfl ·), (absurd rfl ·)⟩

/-- Neither registers, flags and memory nor what every instruction commits are special. -/
theorem SpecialRule.congr (rule : SpecialRule i s u)
    (eq : t = { u with
      regs := t.regs, rip := t.rip, flags := t.flags, cr2 := t.cr2, interruptShadow := t.interruptShadow, ms := t.ms
      retired := t.retired, nbytes := t.nbytes, outcome := t.outcome }) : SpecialRule i s t := by
  rw [eq]
  exact ⟨rule.fixed, rule.gdtr, rule.idtr, rule.msrExtra, rule.kernelGsBase, rule.fsBase, rule.segs, rule.cr0,
    rule.cr3, rule.cr4, rule.efer, rule.tlbSalt, rule.halted⟩

/-- A segment register other than CS replaced. -/
theorem segs_get_set_ne {g : Segs} {r q : SReg} (v : SegReg) (ne : q ≠ r) : (g.set r v).get q = g.get q := by
  cases r <;> cases q <;> simp_all [Segs.set, Segs.get]

theorem systemWrite_special (write : SystemWrite s u i t) : SpecialRule i u t := by
  have self := specialRule_self i u
  cases write with
  | hlt h level => exact { self with halted := fun _ => ⟨h, rfl⟩, fixed := rfl }
  | seg h src v ne =>
    rename_i r
    refine { self with
      fixed := ?_
      fsBase := fun differs => ⟨h, src, .inr ?_⟩
      segs := fun q differs => ⟨h, src, .inl ?_⟩ }
    · have := segs_get_set_ne (g := u.segs) v ne.symm
      simpa [State.fixed, State.setSeg, Segs.get] using this
    · have : r = .fs := by
        refine Classical.byContradiction fun other => ?_
        exact differs (congrArg SegReg.base (segs_get_set_ne (g := u.segs) v (Ne.symm other)))
      rw [this]
    · have : r = q := by
        refine Classical.byContradiction fun other => ?_
        exact differs (segs_get_set_ne (g := u.segs) v (Ne.symm other))
      rw [this]
  | cr h w r g level ok =>
    rename_i c v
    cases c with
    | cr0 => exact { self with
        fixed := rfl, cr0 := fun _ => ⟨h, w, r, rfl⟩, efer := fun _ => ⟨h, .inr ⟨w, r, rfl⟩⟩
        tlbSalt := fun _ => ⟨h, .inr (.inr ⟨w, _, r, rfl, nofun⟩)⟩ }
    | cr2 => exact { self with fixed := rfl }
    | cr3 => exact { self with
        fixed := rfl, cr3 := fun _ => ⟨h, w, r, rfl⟩, tlbSalt := fun _ => ⟨h, .inr (.inr ⟨w, _, r, rfl, nofun⟩)⟩ }
    | cr4 => exact { self with
        fixed := rfl, cr4 := fun _ => ⟨h, w, r, rfl⟩, tlbSalt := fun _ => ⟨h, .inr (.inr ⟨w, _, r, rfl, nofun⟩)⟩ }
  | gdt h w m v level => exact { self with fixed := rfl, gdtr := fun _ => ⟨h, w, m, rfl⟩ }
  | idt h w m v level => exact { self with fixed := rfl, idtr := fun _ => ⟨h, w, m, rfl⟩ }
  | invlpg h m level => exact { self with fixed := rfl, tlbSalt := fun _ => ⟨h, .inr (.inl ⟨m, rfl⟩)⟩ }
  | swapgs h level =>
    have gs (r : SReg) (differs : (u.segs.set .gs { u.segs.gs with base := u.kernelGsBase }).get r ≠ u.segs.get r) :
        r = .gs := by
      refine Classical.byContradiction fun other => ?_
      exact differs (segs_get_set_ne _ other)
    exact { self with
      fixed := rfl, kernelGsBase := fun _ => ⟨h, .inr rfl⟩
      segs := fun r differs => ⟨h, .reg rAX, .inr ⟨.inr rfl, .inr (gs r differs)⟩⟩ }
  | msr h level ok =>
    rename_i r v
    have only (q : SReg) (w : SegReg) (r : SReg) (differs : (u.segs.set q w).get r ≠ u.segs.get r) : r = q := by
      refine Classical.byContradiction fun other => ?_
      exact differs (segs_get_set_ne _ other)
    cases r with
    | efer => exact { self with
        fixed := rfl, efer := fun _ => ⟨h, .inl rfl⟩, tlbSalt := fun _ => ⟨h, .inl rfl⟩ }
    | fsBase => exact { self with
        fixed := rfl, fsBase := fun _ => ⟨h, .reg rAX, .inl rfl⟩
        segs := fun r differs => ⟨h, .reg rAX, .inr ⟨.inl rfl, .inl (only _ _ r differs)⟩⟩ }
    | gsBase => exact { self with
        fixed := rfl, segs := fun r differs => ⟨h, .reg rAX, .inr ⟨.inl rfl, .inr (only _ _ r differs)⟩⟩ }
    | kernelGsBase => exact { self with fixed := rfl, kernelGsBase := fun _ => ⟨h, .inl rfl⟩ }
    | extra i => exact { self with fixed := rfl, msrExtra := fun _ => ⟨h, rfl⟩ }


/-- Starting in `u`, where only registers, flags and memory differ from `s`. -/
theorem SpecialRule.from_reached (at_u : Reached i s u) (rule : SpecialRule i u t) : SpecialRule i s t := by
  obtain ⟨r, f, m, rfl⟩ := at_u.eq
  exact ⟨rule.fixed, rule.gdtr, rule.idtr, rule.msrExtra, rule.kernelGsBase, rule.fsBase, rule.segs, rule.cr0,
    rule.cr3, rule.cr4, rule.efer, rule.tlbSalt, rule.halted⟩

theorem After.special (at_u : After (Reached i s) i s u) : SpecialRule i s u := by
  obtain ⟨u0, at_u0, rfl | write⟩ := at_u
  · exact (specialRule_self i u).from_reached at_u0
  · exact (systemWrite_special write).from_reached at_u0

theorem exec_special (run : exec i s = .next t) : SpecialRule i s t := by
  cases exec_ends run with
  | completes u at_u h hdr ends shadow rip eq _ => subst eq; exact at_u.special.congr rfl
  | raises u at_u f proper eq =>
    subst eq
    exact ((specialRule_self i u).from_reached at_u.reached).congr rfl
  | asks vec k len eq => subst eq; exact (specialRule_self i s).congr rfl

theorem SystemWrite.cr2 (write : SystemWrite s u i v) (ne : v.cr2 ≠ u.cr2) : ∃ h w r, i = .movToCr h w .cr2 r := by
  cases write with
  | cr h w r g level ok =>
    rename_i c _
    cases c with
    | cr2 => exact ⟨h, w, r, rfl⟩
    | _ => exact absurd rfl ne
  | msr h level ok => exact absurd (by cases ‹Msr› <;> rfl) ne
  | _ => exact absurd rfl ne

/-- `cr2` changes by a move to it or with a page fault (R611, R801). -/
theorem exec_cr2 (run : exec i s = .next t) (ne : t.cr2 ≠ s.cr2) :
    (∃ h w r, i = .movToCr h w .cr2 r) ∨ ∃ f k a, t.outcome = some ⟨.fault f, k, a⟩ ∧ f.vector = 14 := by
  cases exec_ends run with
  | completes u at_u h hdr ends shadow rip eq _ =>
    subst eq
    obtain ⟨u0, at_u0, rfl | write⟩ := at_u
    · exact absurd (congrArg State.cr2 at_u0.same) ne
    · refine .inl (write.cr2 fun eq => ne ?_)
      exact eq.trans (by rw [at_u0.same])
  | raises u at_u f proper eq =>
    subst eq
    refine .inr ⟨_, _, _, rfl, proper.addr.mp ?_⟩
    refine Classical.byContradiction fun none => ?_
    refine ne ?_
    simp only [takeFault_cr2, State.reported, Option.not_isSome_iff_eq_none.mp none, Option.map_none, Option.getD_none]
    rw [at_u.reached.same]
  | asks vec k len eq => subst eq; exact absurd rfl ne

/-- The interrupt shadow opens by STI and a move to SS only (R714). -/
theorem exec_shadow (run : exec i s = .next t) (open_ : t.interruptShadow = true) :
    s.interruptShadow = true ∨ ∃ h, i = .sti h ∨ ∃ m, i = .movToSeg h .ss m := by
  cases exec_ends run with
  | completes u at_u h hdr ends shadow rip eq opens => subst eq; exact .inr (opens open_)
  | raises u at_u f proper eq =>
    subst eq
    rw [takeFault_interruptShadow, at_u.reached.same] at open_
    exact .inl open_
  | asks vec k len eq => subst eq; exact .inl open_

/-! ### Runs of steps, and steps above level 0 -/

theorem run_succ {n : Nat} {s s' : State} (run : step s = .next s') :
    Host.Core.run Sys2Proof.core (n + 1) s = Host.Core.run Sys2Proof.core n s' := by
  have stepped : Sys2Proof.core.step s = .next s' := run
  simp only [Host.Core.run, stepped]

theorem run_blind (n : Nat) {s t : State} (alike : s.forget = t.forget) :
    ∃ s' t', Host.Core.run Sys2Proof.core n s = .next s' ∧ Host.Core.run Sys2Proof.core n t = .next t' ∧
      State.forget s' = State.forget t' := by
  induction n generalizing s t with
  | zero => exact ⟨s, t, rfl, rfl, alike⟩
  | succ n ih =>
    obtain ⟨s', t', run, run', alike'⟩ := step_blind alike
    obtain ⟨s'', t'', runs, runs', alike''⟩ := ih alike'
    exact ⟨s'', t'', (run_succ run).trans runs, (run_succ run').trans runs', alike''⟩

/-- The system state of R840. -/
def State.systemState (s : State) : Word × Word × Word × Word × Word × List (Nat × Word) × TableReg × TableReg × Nat ×
    Bool × BitVec 2 × BitVec 2 :=
  (s.cr0, s.cr3, s.cr4, s.efer, s.kernelGsBase, s.msrExtra, s.gdtr, s.idtr, s.tlbSalt, s.halted, s.cpl, s.flags.iopl)

theorem SystemWrite.unprivileged (write : SystemWrite s u i v) (level : s.cpl ≠ 0) :
    ∃ h r m w, i = .movToSeg h r m ∧ v = u.setSeg r w := by
  cases write with
  | seg h src w ne => exact ⟨h, _, src, w, rfl, rfl⟩
  | hlt h zero | cr h w r g zero ok | gdt h w m v zero | idt h w m v zero | invlpg h m zero | swapgs h zero
  | msr h zero ok => exact absurd zero level

/-- Above level 0 an instruction leaves the system state alone (R840). -/
theorem exec_unprivileged (run : exec i s = .next t) (level : s.cpl ≠ 0) : t.systemState = s.systemState := by
  have iopl {u : State} (rule : FlagRule i s u.flags) : u.flags.iopl = s.flags.iopl := by
    refine Classical.byContradiction fun ne => ?_
    exact level (rule.iopl ne)
  have reached {u : State} (at_u : Reached i s u) : u.systemState = s.systemState := by
    have same := iopl at_u.flags
    rw [State.systemState, same, at_u.same]
    rfl
  cases exec_ends run with
  | completes u at_u h hdr ends shadow rip eq _ =>
    subst eq
    obtain ⟨u0, at_u0, rfl | write⟩ := at_u
    · have same := reached at_u0
      exact same
    · obtain ⟨h, r, m, w, rfl, rfl⟩ := write.unprivileged level
      have same := reached at_u0
      exact same
  | raises u at_u f proper eq =>
    subst eq
    have same := reached at_u.reached
    exact same
  | asks vec k len eq => subst eq; rfl

theorem started_same (s : State) : s.started.systemState = s.systemState ∧ s.started.flags = s.flags ∧
    s.started.opMode = s.opMode ∧ s.started.ms = s.ms := by
  obtain ⟨b, eq⟩ := started_eq_withBooks s
  rw [eq]
  exact ⟨rfl, rfl, rfl, rfl⟩

theorem step_versions (run : step s = .next t) : (∀ p, s.ms.version p ≤ t.ms.version p) ∧
    ∀ pa, t.ms.byte pa ≠ s.ms.byte pa → s.ms.version (pa / 4096) < t.ms.version (pa / 4096) := by
  have from_ {u : State} (h : MemFollows s.started u) (eq : t.ms = u.ms) : (∀ p, s.ms.version p ≤ t.ms.version p) ∧
      ∀ pa, t.ms.byte pa ≠ s.ms.byte pa → s.ms.version (pa / 4096) < t.ms.version (pa / 4096) := by
    rw [eq, ← (started_same s).2.2.2]
    exact ⟨h.le, h.lt⟩
  cases step_ends run with
  | reports k u at_u kind eq => exact from_ at_u.mem (by rw [eq])
  | raises u at_u f proper eq => exact from_ at_u.mem (by rw [eq, takeFault_ms])
  | runs u at_u i given run =>
    obtain ⟨v, at_v, eq⟩ := exec_ms run
    exact from_ (at_u.mem.trans at_v.mem) eq

end

end Sys2Proof.Machine

open Sys2Proof Sys2Proof.Machine

/-- Settles O13: a step neither reads nor writes the bookkeeping of the block but where it ends. -/
theorem blockSplittingDoesNotMatter : Obligations.BlockSplittingDoesNotMatter := fun n _ _ alike => run_blind n alike

/-- Settles O17: an instruction that faults has raised, and it raises before its first write. -/
theorem faultsArePrecise : Obligations.FaultsArePrecise := by
  intro i s t f r a run fault
  obtain ⟨u, g, at_u, proper, rfl, rfl, rfl, rfl⟩ := exec_fault run fault
  have same := at_u.reached.same
  refine ⟨by rw [same], by rw [same], ?_, fun once => ?_, fun none once pa => ?_⟩
  · obtain ⟨rs, fl, m, rfl⟩ := at_u.reached.eq
    rfl
  · exact ⟨(at_u.clean once).regs, (at_u.clean once).flags⟩
  · exact (at_u.clean once).bytes none pa

/-- Settles O21: above level 0 no instruction makes a privileged write, POPF keeps IOPL, and IF changes only where
R606 allows it; a consistent state above level 0 is not in real mode. -/
theorem unprivilegedStepsKeepSystemState : Obligations.UnprivilegedStepsKeepSystemState := by
  intro s t consistent level run
  have keep : t.systemState = s.systemState ∧ (s.flags.iopl < s.cpl → t.flags.ie = s.flags.ie) := by
    obtain ⟨system, flags, mode, _⟩ := started_same s
    have cpl : s.started.cpl = s.cpl := congrArg (·.2.2.2.2.2.2.2.2.2.2.1) system
    have fetched {u : State} (at_u : FetchedFrom s.started u) :
        u.systemState = s.systemState ∧ u.flags = s.flags ∧ u.opMode = s.opMode ∧ u.cpl = s.cpl := by
      rw [at_u.same]
      exact ⟨system, flags, mode, cpl⟩
    cases step_ends run with
    | reports k u at_u kind eq =>
      subst eq
      exact ⟨(fetched at_u).1, fun _ => congrArg Flags.ie (fetched at_u).2.1⟩
    | raises u at_u f proper eq =>
      subst eq
      exact ⟨(fetched at_u).1, fun _ => congrArg Flags.ie (fetched at_u).2.1⟩
    | runs u at_u i given run =>
      obtain ⟨system, flags, mode, cpl⟩ := fetched at_u
      refine ⟨(exec_unprivileged run (by rwa [cpl])).trans system, fun above => ?_⟩
      rw [← flags]
      refine Classical.byContradiction fun ne => ?_
      rcases ((exec_flagRule run).ie ne).2 with real | below
      · exact level (consistent.real_cpl (mode ▸ real))
      · rw [cpl, flags] at below
        exact absurd above (BitVec.not_lt.mpr below)
  have system := keep.1
  simp only [State.systemState, Prod.mk.injEq] at system
  obtain ⟨cr0, cr3, cr4, efer, gs, msrs, gdtr, idtr, salt, halted, cpl, iopl⟩ := system
  exact ⟨cr0, cr3, cr4, efer, gs, msrs, gdtr, idtr, salt, halted, cpl, iopl, keep.2⟩

/-- Settles O22: an instruction makes at most one write of system state, the one of its rule. -/
theorem systemStateFrame : Obligations.SystemStateFrame := by
  intro i s t run
  have rule := exec_special run
  have fixed := rule.fixed
  simp only [State.fixed, Prod.mk.injEq] at fixed
  obtain ⟨ldtr, tr, cpl, cs, fpu, cfg⟩ := fixed
  exact ⟨ldtr, tr, cpl, cs, fpu, cfg, rule.gdtr, rule.idtr, rule.msrExtra, rule.kernelGsBase, rule.fsBase, rule.segs,
    rule.cr0, rule.cr3, rule.cr4, exec_cr2 run, rule.efer, rule.tlbSalt, rule.halted, exec_shadow run⟩

/-- Settles O23: every body writes registers of `destRegs` only. -/
theorem registerFrame : Obligations.RegisterFrame := fun _ _ _ _ run out => exec_regs run out

/-- Settles O24: every body writes flags as `FlagRule` says. -/
theorem flagFrame : Obligations.FlagFrame := by
  intro i s t run
  have rule := exec_flagRule run
  exact ⟨rule.status, rule.vm, rule.vif, rule.vip, rule.rf, rule.popf, fun ne => (rule.ie ne).1, rule.df⟩

/-- Settles O26: every write to memory is followed by the `OnGuestWrite` of its range. -/
theorem pageVersionsFollowStores : Obligations.PageVersionsFollowStores := fun _ _ run => step_versions run
end

section
/-! PROOF. O14 and O15: the invariant of R160. What an instruction reaches keeps it, and so does its one write of system
state, by the checks that come before the write (R612, R613, R625); 64-bit mode is neither entered nor left. -/

namespace Sys2Proof.Machine
open Sys2Proof

theorem field_63_32_iff (v : Word) : field v 63 32 = 0 ↔ v.toNat < 2 ^ 32 := by
  have := field_63_ne_zero_iff v (i := 32) (by omega)
  omega

/-- What `rip` holds outside 64-bit mode (R160.6). -/
theorem ripWrap_high {s : State} (mode : s.is64 = false) (v : Word) : field (s.ripWrap v) 63 32 = 0 := by
  rw [field_63_32_iff, State.ripWrap, mode]
  exact trunc_lt .w32 v

section
variable {i : Instr} {s u v t : State}

theorem is64_eq (s : State) : s.is64 = (s.lma && s.segs.cs.l) := by
  unfold State.is64 State.decodeMode
  cases s.lma && s.segs.cs.l <;> cases s.segs.cs.db <;> rfl

/-- A state of the same mode whose flags are a rule's satisfies the predicates of R160 too. -/
theorem inv_of_withMs {m : MemSys} (inv : s.Inv) (mem : MemFollows s (s.withMs m)) : (s.withMs m).Inv :=
  ⟨⟨inv.consistent.rflags_fixed, inv.consistent.lma, inv.consistent.pg_pe, inv.consistent.lma_pae,
    inv.consistent.cr0_high, inv.consistent.cr0_et, inv.consistent.cr4_supported, inv.consistent.efer_writable,
    inv.consistent.rip_high, inv.consistent.real_cpl, inv.consistent.vm⟩, inv.cfg, mem.wf inv.ms, inv.msrs,
    mem.salts inv.salts⟩

theorem inv_of_fetched (inv : s.Inv) (at_u : FetchedFrom s u) : u.Inv := by
  obtain ⟨same, mem⟩ := at_u
  rw [same] at mem ⊢
  exact inv_of_withMs inv mem

theorem inv_of_reached (inv : s.Inv) (at_u : Reached i s u) : u.Inv := by
  have vm : u.flags.vm = false := at_u.flags.vm.trans inv.consistent.vm
  have wf := at_u.mem.wf inv.ms
  have salts := at_u.mem.salts inv.salts
  obtain ⟨r, f, m, rfl⟩ := at_u.eq
  exact ⟨⟨Flags.image_fixed f, inv.consistent.lma, inv.consistent.pg_pe, inv.consistent.lma_pae,
    inv.consistent.cr0_high, inv.consistent.cr0_et, inv.consistent.cr4_supported, inv.consistent.efer_writable,
    inv.consistent.rip_high, inv.consistent.real_cpl, vm⟩, inv.cfg, wf, inv.msrs, salts⟩

/-! ### The writes of system state -/

theorem salts_bump (salts : s.saltsOk = true) : s.bumpSalt.saltsOk = true := by
  rw [saltsOk_iff] at salts ⊢
  exact fun e mem => Nat.le_succ_of_le (salts e mem)

theorem inv_bumpSalt (inv : s.Inv) : s.bumpSalt.Inv :=
  ⟨⟨inv.consistent.rflags_fixed, inv.consistent.lma, inv.consistent.pg_pe, inv.consistent.lma_pae,
    inv.consistent.cr0_high, inv.consistent.cr0_et, inv.consistent.cr4_supported, inv.consistent.efer_writable,
    inv.consistent.rip_high, inv.consistent.real_cpl, inv.consistent.vm⟩, inv.cfg, inv.ms, inv.msrs,
    salts_bump inv.salts⟩

/-- Only what R160 speaks of matters to the predicates of R160. -/
theorem State.Consistent.congr (c : s.Consistent) (flags : u.flags = s.flags) (cr0 : u.cr0 = s.cr0)
    (cr4 : u.cr4 = s.cr4) (efer : u.efer = s.efer) (rip : u.rip = s.rip) (cpl : u.cpl = s.cpl)
    (cs : u.segs.cs = s.segs.cs) : u.Consistent := by
  have mode : u.is64 = s.is64 := by rw [is64_eq, is64_eq, State.lma, State.lma, efer, cs]
  have op : u.opMode = s.opMode := by
    rw [State.opMode, State.opMode, State.pe, State.pe, State.lma, State.lma, cr0, efer]
  have lma : u.lma = s.lma := by rw [State.lma, State.lma, efer]
  have pg : u.pg = s.pg := by rw [State.pg, State.pg, cr0]
  exact ⟨flags ▸ c.rflags_fixed, by rw [lma, pg, c.lma, State.lme, State.lme, efer],
    by rw [pg, State.pe, cr0]; exact c.pg_pe, by rw [lma, State.pae, cr4]; exact c.lma_pae, cr0 ▸ c.cr0_high,
    cr0 ▸ c.cr0_et, cr4 ▸ c.cr4_supported, efer ▸ c.efer_writable, by rw [mode, rip]; exact c.rip_high,
    by rw [op, cpl]; exact c.real_cpl, flags ▸ c.vm⟩

theorem setSeg_cs {r : SReg} (w : SegReg) (ne : r ≠ .cs) : (s.setSeg r w).segs.cs = s.segs.cs :=
  segs_get_set_ne (g := s.segs) w ne.symm

theorem inv_setSeg {r : SReg} (inv : s.Inv) (w : SegReg) (ne : r ≠ .cs) : (s.setSeg r w).Inv :=
  ⟨inv.consistent.congr rfl rfl rfl rfl rfl rfl (setSeg_cs w ne), inv.cfg, inv.ms, inv.msrs, inv.salts⟩

/-- The status flags may be anything. -/
theorem inv_withFlags {f : Flags} (inv : s.Inv) (vm : f.vm = false) : (s.withFlags f).Inv :=
  ⟨⟨Flags.image_fixed f, inv.consistent.lma, inv.consistent.pg_pe, inv.consistent.lma_pae,
    inv.consistent.cr0_high, inv.consistent.cr0_et, inv.consistent.cr4_supported, inv.consistent.efer_writable,
    inv.consistent.rip_high, inv.consistent.real_cpl, vm⟩, inv.cfg, inv.ms, inv.msrs, inv.salts⟩

theorem bit_cr0 (v : Word) {i : Nat} (kept : i = 0 ∨ i = 31) : bit ((v &&& 0xE005003F) ||| 0x10) i = bit v i := by
  obtain rfl | rfl := kept <;> simp [bit]

theorem bit_withLma (efer : Word) (pg : Bool) : bit (withLma efer pg) 10 = (bit efer 8 && pg) ∧
    bit (withLma efer pg) 8 = bit efer 8 := by
  rw [withLma_eq_ite]
  cases bit efer 8 && pg <;> simp [bit]

/-- No bit outside a mask. -/
theorem and_not_eq_zero_iff (x m : Word) :
    x &&& ~~~m = 0 ↔ ∀ i, x.getLsbD i = true → m.getLsbD i = true := by
  constructor
  · intro zero i set
    refine Classical.byContradiction fun out => ?_
    have bit_i := congrArg (BitVec.getLsbD · i) zero
    have lt : i < 64 := BitVec.lt_of_getLsbD set
    simp [set, lt] at bit_i
    exact out (by simpa [BitVec.getLsbD_eq_getElem lt] using bit_i)
  · intro sub
    refine BitVec.eq_of_getLsbD_eq fun i lt => ?_
    cases set : x.getLsbD i
    · simp [set]
    · simp [set, sub i set]

theorem withLma_writable {efer : Word} (ok : efer &&& ~~~(eferWritable ||| 0x400) = 0) (pg : Bool) :
    withLma efer pg &&& ~~~(eferWritable ||| 0x400) = 0 := by
  rw [and_not_eq_zero_iff] at ok ⊢
  intro i set
  rw [withLma_eq_ite] at set
  by_cases ten : i = 10
  · subst ten; decide
  · refine ok i ?_
    split at set
    · have clear : (0x400 : Word).getLsbD i = false := by
        rw [show (0x400 : Word) = BitVec.twoPow 64 10 by decide, BitVec.getLsbD_twoPow]
        simp [Ne.symm ten]
      rwa [BitVec.getLsbD_or, clear, Bool.or_false] at set
    · simp at set
      exact set.1

/-- R612: the new mode is one that R160 allows, and 64-bit mode is neither entered nor left. -/
theorem inv_setCr0 {v : Word} (inv : s.Inv) (level : s.cpl = 0) (ok : s.crRefused .cr0 v = false) :
    (s.setCr .cr0 v).Inv ∧ (s.setCr .cr0 v).is64 = s.is64 := by
  have c := inv.consistent
  have allowed := mt (cr0Refused_iff s v).mpr (by simp [ok])
  simp only [not_or, not_and, ne_eq, Classical.not_not] at allowed
  obtain ⟨_, pg_pe, _, enter, leave⟩ := allowed
  obtain ⟨ten, eight⟩ := bit_withLma s.efer (bit v 31)
  have pg : (s.setCr .cr0 v).pg = bit v 31 := bit_cr0 v (.inr rfl)
  have pe : (s.setCr .cr0 v).pe = bit v 0 := bit_cr0 v (.inl rfl)
  have lme : (s.setCr .cr0 v).lme = s.lme := eight
  have lma : (s.setCr .cr0 v).lma = (s.lme && bit v 31) := ten
  have mode : (s.setCr .cr0 v).is64 = s.is64 := by
    rw [is64_eq, lma, show (s.setCr .cr0 v).segs = s.segs from rfl]
    have old := is64_eq s
    rw [← is64_iff] at leave
    have := c.lma
    grind
  have lma_pae : (s.setCr .cr0 v).lma = true → (s.setCr .cr0 v).pae = true := by
    rw [lma, show (s.setCr .cr0 v).pae = s.pae from rfl]
    have := c.lma
    have := c.lma_pae
    grind
  have high : field ((v &&& 0xE005003F) ||| 0x10) 63 32 = 0 := by
    rw [field_63_32_iff, BitVec.toNat_or, BitVec.toNat_and]
    exact Nat.or_lt_two_pow (Nat.and_lt_two_pow _ (by decide)) (by decide)
  refine ⟨⟨⟨c.rflags_fixed, by rw [lma, lme, pg], ?_, lma_pae, high, ?_, c.cr4_supported, withLma_writable c.efer_writable _,
    fun is => c.rip_high (mode.symm.trans is), fun _ => level, c.vm⟩, inv.cfg, inv.ms, inv.msrs, salts_bump inv.salts⟩, mode⟩
  · rw [pg, pe]
    intro set
    have := pg_pe set
    simpa using this
  · simp [State.setCr, State.bumpSalt, bit]

theorem inv_setCr {c : CReg} {v : Word} (inv : s.Inv) (level : s.cpl = 0) (ok : s.crRefused c v = false) :
    (s.setCr c v).Inv ∧ (s.setCr c v).is64 = s.is64 := by
  cases c with
  | cr0 => exact inv_setCr0 inv level ok
  | cr2 => exact ⟨⟨inv.consistent.congr rfl rfl rfl rfl rfl rfl rfl, inv.cfg, inv.ms, inv.msrs, inv.salts⟩, rfl⟩
  | cr3 =>
    exact ⟨⟨inv.consistent.congr rfl rfl rfl rfl rfl rfl rfl, inv.cfg, inv.ms, inv.msrs, salts_bump inv.salts⟩, rfl⟩
  | cr4 =>
    have c := inv.consistent
    simp only [State.crRefused, Bool.or_eq_false_iff, bne_eq_false_iff_eq] at ok
    obtain ⟨supported, pae⟩ := ok
    refine ⟨⟨⟨c.rflags_fixed, c.lma, c.pg_pe, fun lma => ?_, c.cr0_high, c.cr0_et, supported, c.efer_writable,
      c.rip_high, c.real_cpl, c.vm⟩, inv.cfg, inv.ms, inv.msrs, salts_bump inv.salts⟩, rfl⟩
    have old : s.lma = true := lma
    have five : bit v 5 = true := by simpa [old] using pae
    exact five

/-- R624: the writable bits of EFER, and LME kept while paging is on. -/
theorem inv_writeEfer {v : Word} (inv : s.Inv) (ok : s.msrRefused .efer v = false) :
    (s.msrWrite .efer v).Inv ∧ (s.msrWrite .efer v).is64 = s.is64 := by
  have c := inv.consistent
  simp only [State.msrRefused, Bool.or_eq_false_iff, bne_eq_false_iff_eq, Bool.and_eq_false_iff] at ok
  obtain ⟨writable, enter⟩ := ok
  have lme : (s.msrWrite .efer v).lme = bit v 8 := by
    simp [State.msrWrite, State.bumpSalt, State.lme, bit, eferWritable]
  have lma : (s.msrWrite .efer v).lma = s.lma := by
    simp [State.msrWrite, State.bumpSalt, State.lma, bit, eferWritable]
  have mode : (s.msrWrite .efer v).is64 = s.is64 := by rw [is64_eq, lma, is64_eq]; rfl
  have still : s.lma = (bit v 8 && s.pg) := by
    have := c.lma
    grind
  refine ⟨⟨⟨c.rflags_fixed, by rw [lma, lme]; exact still, c.pg_pe, by rw [lma]; exact c.lma_pae, c.cr0_high, c.cr0_et,
    c.cr4_supported, ?_, fun is => c.rip_high (mode.symm.trans is), fun real => ?_, c.vm⟩, inv.cfg, inv.ms, inv.msrs,
    salts_bump inv.salts⟩, mode⟩
  · show (v &&& eferWritable ||| s.efer &&& 0x400) &&& ~~~(eferWritable ||| 0x400) = 0
    rw [and_not_eq_zero_iff]
    intro i set
    simp only [BitVec.getLsbD_or, BitVec.getLsbD_and, Bool.or_eq_true, Bool.and_eq_true] at set ⊢
    exact set.imp And.right And.right
  · refine c.real_cpl ?_
    rw [State.opMode, lma] at real
    exact real

theorem inv_msrWrite {r : Msr} {v : Word} (inv : s.Inv) (ok : s.msrRefused r v = false) :
    (s.msrWrite r v).Inv ∧ (s.msrWrite r v).is64 = s.is64 := by
  cases r with
  | efer => exact inv_writeEfer inv ok
  | fsBase => exact ⟨inv_setSeg (r := .fs) inv _ nofun, rfl⟩
  | gsBase => exact ⟨inv_setSeg (r := .gs) inv _ nofun, rfl⟩
  | kernelGsBase =>
    exact ⟨⟨inv.consistent.congr rfl rfl rfl rfl rfl rfl rfl, inv.cfg, inv.ms, inv.msrs, inv.salts⟩, rfl⟩
  | extra i =>
    exact ⟨⟨inv.consistent.congr rfl rfl rfl rfl rfl rfl rfl, inv.cfg, inv.ms, sparseWf_set _ _ _ inv.msrs,
      inv.salts⟩, rfl⟩

theorem inv_systemWrite (inv : s.Inv) (at_u : Reached i s u) (write : SystemWrite s u i v) :
    v.Inv ∧ v.is64 = s.is64 := by
  have inv_u := inv_of_reached inv at_u
  obtain ⟨r, f, m, rfl⟩ := at_u.eq
  cases write with
  | seg h src w ne => exact ⟨inv_setSeg inv_u w ne, by rw [is64_eq, is64_eq, setSeg_cs w ne]; rfl⟩
  | cr h w r g level ok =>
    obtain ⟨done, mode⟩ := inv_setCr inv_u level ok
    exact ⟨inv_withFlags done inv.consistent.vm, mode⟩
  | msr h level ok => exact inv_msrWrite inv_u ok
  | invlpg h m level => exact ⟨inv_bumpSalt inv_u, rfl⟩
  | swapgs h level =>
    have gs := inv_setSeg inv_u { s.segs.gs with base := s.kernelGsBase } (r := .gs) nofun
    exact ⟨⟨gs.consistent.congr rfl rfl rfl rfl rfl rfl rfl, gs.cfg, gs.ms, gs.msrs, gs.salts⟩, rfl⟩
  | hlt h level | gdt h w m v level | idt h w m v level =>
    exact ⟨⟨inv_u.consistent.congr rfl rfl rfl rfl rfl rfl rfl, inv_u.cfg, inv_u.ms, inv_u.msrs, inv_u.salts⟩, rfl⟩

/-! ### Ends of instructions and steps -/

theorem inv_complete (inv : u.Inv) (mode : u.is64 = s.is64) (len : Nat) (ends shadow : Bool) (rip : Word) :
    (complete s len ends shadow rip u).Inv :=
  ⟨⟨Flags.image_fixed _, inv.consistent.lma, inv.consistent.pg_pe, inv.consistent.lma_pae,
    inv.consistent.cr0_high, inv.consistent.cr0_et, inv.consistent.cr4_supported, inv.consistent.efer_writable,
    fun is => ripWrap_high (mode.symm.trans is) rip, inv.consistent.real_cpl, inv.consistent.vm⟩, inv.cfg, inv.ms,
    inv.msrs, inv.salts⟩

/-- `cr2` and the record of the call are no part of the invariant. -/
theorem inv_record (inv : u.Inv) (cr2 : Word) (r n : Nat) (o : Option BlockOutcome) :
    ({ u with cr2 := cr2, retired := r, nbytes := n, outcome := o } : State).Inv :=
  ⟨inv.consistent.congr rfl rfl rfl rfl rfl rfl rfl, inv.cfg, inv.ms, inv.msrs, inv.salts⟩

theorem inv_exec (inv : s.Inv) (run : exec i s = .next t) : t.Inv := by
  cases exec_ends run with
  | completes u at_u h hdr ends shadow rip eq _ =>
    subst eq
    obtain ⟨u0, at_u0, rfl | write⟩ := at_u
    · exact inv_complete (inv_of_reached inv at_u0) (by rw [at_u0.same]; rfl) ..
    · obtain ⟨inv_u, mode⟩ := inv_systemWrite inv at_u0 write
      exact inv_complete inv_u mode ..
  | raises u at_u f proper eq => subst eq; exact inv_record (inv_of_reached inv at_u.reached) ..
  | asks vec k len eq => subst eq; exact inv_record inv ..

theorem inv_started (inv : s.Inv) : s.started.Inv := by
  unfold State.started
  split
  · exact inv_record inv ..
  · exact inv

theorem inv_step (inv : s.Inv) (run : step s = .next t) : t.Inv := by
  have inv := inv_started inv
  cases step_ends run with
  | reports k u at_u kind eq => subst eq; exact inv_record (inv_of_fetched inv at_u) ..
  | raises u at_u f proper eq => subst eq; exact inv_record (inv_of_fetched inv at_u) ..
  | runs u at_u i given run => exact inv_exec (inv_of_fetched inv at_u) run

/-! ### The caller's moves -/

theorem step_next (s : State) : ∃ t, step s = .next t := by
  obtain ⟨t, _, run, _⟩ := step_blind (s := s) rfl
  exact ⟨t, run⟩

theorem inv_runBlock (n : Nat) (inv : s.Inv) : (runBlock n s).Inv := by
  induction n generalizing s with
  | zero => exact inv
  | succ n ih =>
    obtain ⟨t, run⟩ := step_next s
    simp only [runBlock, run]
    split
    · exact inv_step inv run
    · exact ih (inv_step inv run)

theorem inv_skipTo (inv : s.Inv) (v : Word) : (Caller.skipTo s v).Inv :=
  ⟨⟨inv.consistent.rflags_fixed, inv.consistent.lma, inv.consistent.pg_pe, inv.consistent.lma_pae,
    inv.consistent.cr0_high, inv.consistent.cr0_et, inv.consistent.cr4_supported, inv.consistent.efer_writable,
    fun is => ripWrap_high (s := s) is v, inv.consistent.real_cpl, inv.consistent.vm⟩, inv.cfg, inv.ms, inv.msrs,
    inv.salts⟩

theorem inv_externalWrite (inv : s.Inv) (pa : Nat) (bs : List Byte) : (Caller.externalWrite s pa bs).Inv := by
  have tlb : ((s.ms.storeBytes pa bs).onGuestWrite pa bs.length).tlb = s.ms.tlb := by
    rw [(onGuestWrite_mem ..).2.1, (storeBytes_pageVersion ..).2.1]
  have wf : ((s.ms.storeBytes pa bs).onGuestWrite pa bs.length).wf = true := by
    refine wf_access.bump (s.withMs (s.ms.storeBytes pa bs)) pa bs.length ?_
    obtain ⟨mem, versions, cache⟩ := (MemSys.wf_iff _).mp inv.ms
    obtain ⟨pv, tlb, _⟩ := storeBytes_pageVersion s.ms pa bs
    exact (MemSys.wf_iff _).mpr ⟨storeBytes_wf _ _ _ mem, by rw [withMs_ms, pv]; exact versions,
      by rw [withMs_ms, tlb]; exact cache⟩
  exact ⟨inv.consistent.congr rfl rfl rfl rfl rfl rfl rfl, inv.cfg, wf, inv.msrs, by
    rw [State.saltsOk, Caller.externalWrite, withMs_ms, tlb]; exact inv.salts⟩

end

end Sys2Proof.Machine

open Sys2Proof Sys2Proof.Machine

/-- Settles O14: the fetch and the instruction keep the invariant. -/
theorem stepKeepsInv : Obligations.StepKeepsInv := fun _ _ inv run => inv_step inv run

/-- Settles O15: each move of the caller keeps the invariant, and a block does by induction on its steps. -/
theorem callerMovesKeepInv : Obligations.CallerMovesKeepInv := by
  intro s inv
  refine ⟨inv_externalWrite inv, ?_, inv_bumpSalt inv, inv_skipTo inv, inv_runBlock _ (inv_record inv ..)⟩
  exact ⟨inv.consistent.congr rfl rfl rfl rfl rfl rfl rfl, inv.cfg, inv.ms, inv.msrs, inv.salts⟩
end

section
/-! PROOF. The opcode table (R342, R343): rows that share an opcode and a ModRM byte are the same row, and
what follows from it for the row that the decoder selects. -/

namespace Sys2Proof
open Sys2Proof Sys2Proof.Machine

/-! ### Rows are apart -/

/-- The opcodes of a row: the first, and how many (R314). -/
def Row.firstOp (r : Row) : Nat :=
  match r.mask with
  | .exact => r.op
  | .plusR => r.op / 8 * 8
  | .plusCC => r.op / 16 * 16

def OpMask.count : OpMask → Nat
  | .exact => 1
  | .plusR => 8
  | .plusCC => 16

theorem agrees_iff (r : Row) (op : Nat) :
    r.mask.agrees r.op op = true ↔ r.firstOp ≤ op ∧ op < r.firstOp + r.mask.count := by
  unfold Row.firstOp OpMask.agrees OpMask.count
  cases r.mask <;> simp <;> omega

/-- No ModRM byte has what two columns "mod" ask for. -/
def ModSel.apart : ModSel → ModSel → Bool
  | .mem, .reg | .reg, .mem => true
  | .mem, .byte b | .byte b, .mem => b / 64 == 3
  | _, _ => false

/-- No prefixes and opcode are what two selections at opcode `90` ask for. -/
def Pick.apart : Pick → Pick → Bool
  | .num0, .num0F3 | .num0F3, .num0 | .num0, .numNot0 | .numNot0, .num0 | .num0F3, .numNot0
  | .numNot0, .num0F3 => true
  | _, _ => false

/-- No digit is what two columns ask for. -/
def digitsApart : Option Nat → Option Nat → Bool
  | some d, some e => d != e
  | _, _ => false

/-- No opcode is one of both rows' opcodes. -/
def Row.opsApart (r s : Row) : Bool :=
  decide (r.firstOp + r.mask.count ≤ s.firstOp) || decide (s.firstOp + s.mask.count ≤ r.firstOp)

/-- A column that tells two rows apart; those of the ModRM byte do so only where both rows have one. -/
def Row.apart (r s : Row) : Bool :=
  r.map != s.map || r.opsApart s || r.pick.apart s.pick ||
    (r.hasModRM && s.hasModRM && (digitsApart r.digit s.digit || r.sel.apart s.sel))

theorem rows_apart : rows.Pairwise fun r s => r.apart s = true := by decide +kernel

/-- Two rows that match the same prefixes, opcode and ModRM byte, or the same opcode where one has no ModRM
byte, are not apart. -/
theorem not_apart {r s : Row} {m : DecodeMode} {p : Pfx} {map : OpMap} {op : Nat}
    (hr : r.matchesOpcode m p map op = true) (hs : s.matchesOpcode m p map op = true)
    (modRM : r.hasModRM = true → s.hasModRM = true → ∃ mr, r.matchesModRM mr = true ∧ s.matchesModRM mr = true) :
    ¬r.apart s = true := by
  simp only [Row.matchesOpcode, Bool.and_eq_true, beq_iff_eq, agrees_iff] at hr hs
  obtain ⟨⟨⟨rmap, rop⟩, -⟩, rpick⟩ := hr
  obtain ⟨⟨⟨smap, sop⟩, -⟩, spick⟩ := hs
  simp only [Row.apart, Bool.or_eq_true, Bool.and_eq_true, bne_iff_ne, ne_eq, not_or]
  refine ⟨⟨⟨fun ne => ne (rmap.trans smap.symm), ?_⟩, ?_⟩, ?_⟩
  · simp only [Row.opsApart, Bool.or_eq_true, decide_eq_true_eq]
    omega
  · unfold Pick.agrees at rpick spick
    unfold Pick.apart
    cases hr : r.pick <;> cases hs : s.pick <;> simp_all
  · rintro ⟨⟨rm, sm⟩, columns⟩
    obtain ⟨mr, hr, hs⟩ := modRM rm sm
    simp only [Row.matchesModRM, Bool.and_eq_true] at hr hs
    obtain ⟨rdigit, rsel⟩ := hr
    obtain ⟨sdigit, ssel⟩ := hs
    rcases columns with digits | sels
    · unfold digitsApart at digits
      split at digits <;> simp_all
    · unfold ModSel.apart at sels
      split at sels <;> simp_all

/-- Two rows by their places: the same place, or apart. -/
theorem rows_eq_or_apart (i j : Fin rows.length) :
    i = j ∨ rows[i].apart rows[j] = true ∨ rows[j].apart rows[i] = true := by
  have pair := List.pairwise_iff_getElem.mp rows_apart
  rcases Nat.lt_trichotomy i.1 j.1 with lt | eq | gt
  · exact .inr (.inl (pair i.1 j.1 i.2 j.2 lt))
  · exact .inl (Fin.ext eq)
  · exact .inr (.inr (pair j.1 i.1 j.2 i.2 gt))

/-- R343: at most one row matches. -/
theorem place_unique {i j : Fin rows.length} {m : DecodeMode} {p : Pfx} {map : OpMap} {op : Nat}
    (hi : rows[i].matchesOpcode m p map op = true) (hj : rows[j].matchesOpcode m p map op = true)
    (modRM : rows[i].hasModRM = true → rows[j].hasModRM = true →
      ∃ mr, rows[i].matchesModRM mr = true ∧ rows[j].matchesModRM mr = true) : i = j := by
  rcases rows_eq_or_apart i j with eq | apart | apart
  · exact eq
  · exact absurd apart (not_apart hi hj modRM)
  · exact absurd apart (not_apart hj hi fun rj ri => (modRM ri rj).imp fun _ both => both.symm)

theorem row_unique {r s : Row} (hr : r ∈ rows) (hs : s ∈ rows) {m : DecodeMode} {p : Pfx} {map : OpMap} {op : Nat}
    (matches_r : r.matchesOpcode m p map op = true) (matches_s : s.matchesOpcode m p map op = true)
    (modRM : r.hasModRM = true → s.hasModRM = true → ∃ mr, r.matchesModRM mr = true ∧ s.matchesModRM mr = true) :
    r = s := by
  obtain ⟨i, lt_i, rfl⟩ := List.mem_iff_getElem.mp hr
  obtain ⟨j, lt_j, rfl⟩ := List.mem_iff_getElem.mp hs
  have eq : (⟨i, lt_i⟩ : Fin rows.length) = ⟨j, lt_j⟩ := place_unique matches_r matches_s modRM
  exact congrArg (fun k : Fin rows.length => rows[k]) eq

/-! ### The row that the decoder selects -/

/-- The rows that an opcode leaves (R314). -/
def candidates (m : DecodeMode) (p : Pfx) (map : OpMap) (op : Nat) : List Row :=
  rows.filter (·.matchesOpcode m p map op)

theorem mem_candidates {r : Row} {m : DecodeMode} {p : Pfx} {map : OpMap} {op : Nat} :
    r ∈ candidates m p map op ↔ r ∈ rows ∧ r.matchesOpcode m p map op = true := List.mem_filter

section
variable {m : DecodeMode} {p : Pfx} {map : OpMap} {op used : Nat} {bs : List Byte} {short : DecodeResult} {r : Row}

theorem decodeOpcode_invalid {i : Instr} (inv : invalidOpcode m map op = some i) :
    decodeOpcode m p map op used bs short = .invalid i := by simp only [decodeOpcode, inv]

theorem decodeOpcode_no_row (inv : invalidOpcode m map op = none)
    (none : ∀ r ∈ rows, r.matchesOpcode m p map op = false) :
    decodeOpcode m p map op used bs short = .unsupported := by
  have cands : rows.filter (·.matchesOpcode m p map op) = [] :=
    List.filter_eq_nil_iff.mpr fun r hr => by simp [none r hr]
  simp only [decodeOpcode, inv, cands]

/-- A row without a ModRM byte is alone at its opcode. -/
theorem decodeOpcode_of_noModRM (inv : invalidOpcode m map op = none) (hr : r ∈ candidates m p map op)
    (noModRM : r.hasModRM = false) :
    decodeOpcode m p map op used bs short = decodeRow m p r op 0 used bs short := by
  obtain ⟨in_rows, matches_r⟩ := mem_candidates.mp hr
  have same : ∀ s ∈ candidates m p map op, s = r := fun s hs => by
    obtain ⟨s_rows, matches_s⟩ := mem_candidates.mp hs
    exact (row_unique in_rows s_rows matches_r matches_s fun yes => by simp [noModRM] at yes).symm
  cases cands : candidates m p map op with
  | nil => simp [cands] at hr
  | cons first others =>
    have none_has : (first :: others).any Row.hasModRM = false := by
      rw [List.any_eq_false]
      intro s hs
      rw [same s (cands ▸ hs), noModRM]
      exact Bool.false_ne_true
    have is_r : first = r := same first (cands ▸ List.mem_cons_self)
    unfold candidates at cands
    simp only [decodeOpcode, inv, cands, none_has, Bool.false_eq_true, if_false]
    rw [is_r]

/-- What the ModRM byte alone refuses (R345, R346), else the row that matches it. -/
def decodeModRM (m : DecodeMode) (p : Pfx) (map : OpMap) (op : Nat) (mr : Byte) (used : Nat) (bs : List Byte)
    (short : DecodeResult) : DecodeResult :=
  if invalidModRM map op mr.toNat (regNum p.rexR (mr.toNat / 8)) = true then .invalid .invalid
  else if unsupportedModRM map op (regNum p.rexR (mr.toNat / 8)) = true then .unsupported
  else
    match (candidates m p map op).find? (·.matchesModRM mr.toNat) with
    | none => .unsupported
    | some r => decodeRow m p r op mr.toNat used bs short

/-- Where a row has a ModRM byte, so has every row of its opcode. -/
theorem decodeOpcode_of_modRM (inv : invalidOpcode m map op = none) (hr : r ∈ candidates m p map op)
    (modRM : r.hasModRM = true) : decodeOpcode m p map op used bs short =
      match bs with
      | [] => short
      | mr :: bs => decodeModRM m p map op mr (used + 1) bs short := by
  cases cands : candidates m p map op with
  | nil => simp [cands] at hr
  | cons first others =>
    have some_has : (first :: others).any Row.hasModRM = true := List.any_eq_true.mpr ⟨r, cands ▸ hr, modRM⟩
    have cands' := cands
    unfold candidates at cands'
    cases bs with
    | nil => simp only [decodeOpcode, inv, cands', some_has, if_true]
    | cons mr bs => simp only [decodeOpcode, inv, cands', some_has, if_true, decodeModRM, cands] <;> rfl

theorem decodeModRM_of_row {mr : Byte} (hr : r ∈ candidates m p map op)
    (matches_mr : r.matchesModRM mr.toNat = true)
    (legal : invalidModRM map op mr.toNat (regNum p.rexR (mr.toNat / 8)) = false)
    (supported : unsupportedModRM map op (regNum p.rexR (mr.toNat / 8)) = false) :
    decodeModRM m p map op mr used bs short = decodeRow m p r op mr.toNat used bs short := by
  obtain ⟨in_rows, matches_r⟩ := mem_candidates.mp hr
  simp only [decodeModRM, legal, supported, Bool.false_eq_true, if_false]
  cases found : (candidates m p map op).find? (·.matchesModRM mr.toNat) with
  | none => exact absurd matches_mr (List.find?_eq_none.mp found r hr)
  | some s =>
    obtain ⟨s_rows, matches_s⟩ := mem_candidates.mp (List.mem_of_find?_eq_some found)
    rw [row_unique in_rows s_rows matches_r matches_s fun _ _ => ⟨_, matches_mr, by simpa using List.find?_some found⟩]

/-- How the decoder goes on after the opcode: no row, a row without a ModRM byte, or rows with one. -/
theorem decodeOpcode_cases (m : DecodeMode) (p : Pfx) (map : OpMap) (op used : Nat) (bs : List Byte)
    (short : DecodeResult) :
    (∃ i, invalidOpcode m map op = some i ∧ decodeOpcode m p map op used bs short = .invalid i) ∨
    invalidOpcode m map op = none ∧
      ((candidates m p map op = [] ∧ decodeOpcode m p map op used bs short = .unsupported) ∨
      (∃ r ∈ candidates m p map op, r.hasModRM = false ∧
        decodeOpcode m p map op used bs short = decodeRow m p r op 0 used bs short) ∨
      (∃ r ∈ candidates m p map op, r.hasModRM = true) ∧
        decodeOpcode m p map op used bs short =
          match bs with
          | [] => short
          | mr :: bs => decodeModRM m p map op mr (used + 1) bs short) := by
  cases inv : invalidOpcode m map op with
  | some i => exact .inl ⟨i, rfl, decodeOpcode_invalid inv⟩
  | none =>
    refine .inr ⟨rfl, ?_⟩
    cases cands : candidates m p map op with
    | nil =>
      refine .inl ⟨rfl, decodeOpcode_no_row inv fun r hr => ?_⟩
      simpa using List.filter_eq_nil_iff.mp cands r hr
    | cons first others =>
      have mem : first ∈ candidates m p map op := cands ▸ List.mem_cons_self
      cases modRM : first.hasModRM with
      | false => exact .inr (.inl ⟨first, List.mem_cons_self, modRM, decodeOpcode_of_noModRM inv mem modRM⟩)
      | true => exact .inr (.inr ⟨⟨first, List.mem_cons_self, modRM⟩, decodeOpcode_of_modRM inv mem modRM⟩)

end

/-! ### What a row reads and gives -/

/-- The ModRM byte says memory (R321). -/
def Row.takesMem (r : Row) (mr : Nat) : Bool := r.hasModRM && r.sel != .ignored && mr / 64 != 3

/-- The register-or-memory operand of a row, and the bytes after it. -/
def rowOperand (m : DecodeMode) (p : Pfx) (r : Row) (mr : Nat) (w : Width) (bs : List Byte) : Option (RM × List Byte) :=
  if r.takesMem mr = true then
    (memOperand m (addrSize m p.as67) p (mr / 64) (mr % 8) bs).map fun x => (.mem x.1, x.2)
  else some (.reg (designator p.rex.isSome (if r.rm8 then .w8 else w) (regNum p.rexB mr)), bs)

/-- The header of what the prefixes and the bytes give. -/
def Pfx.toHdr (m : DecodeMode) (p : Pfx) (len : Nat) : Hdr :=
  ⟨addrSize m p.as67, p.lock, p.rep, p.segOv, p.os66, p.as67, p.rex, len⟩

/-- From what a row builds its instruction: the header, the opcode, the ModRM byte, the operand and the
immediate's bytes. -/
def partsOf (h : Hdr) (r : Row) (op mr : Nat) (w : Width) (rm : RM) (v : Nat) : Parts :=
  { h := h, w := w, cc := CC.ofNum (op % 16), modReg := mr / 8 % 8, regN := regNum (h.rexBit 2) (mr / 8),
    rmN := regNum (h.rexBit 0) mr, reg := designator h.rex.isSome w (regNum (h.rexBit 2) (mr / 8)), rm := rm,
    oreg := designator h.rex.isSome w (regNum (h.rexBit 0) op), imm := immValue r.imm w v,
    moffs := ⟨h.segOv.getD .ds, none, none, 0, BitVec.ofNat 64 v, false⟩ }

/-- R315, R316: the answer of a row whose operand and immediate were there. -/
def rowAnswer (m : DecodeMode) (p : Pfx) (r : Row) (op mr len : Nat) (w : Width) (rm : RM) (v : Nat) : DecodeResult :=
  if prefixRefused r p op = true then .unsupported
  else if p.lock = true ∧ (r.lock && r.takesMem mr) = false then .invalid .invalid
  else .decoded (r.build (partsOf (p.toHdr m len) r op mr w rm v))

/-- A row reads an operand and an immediate value from the bytes `bs` and leaves `rest`. -/
def RowReads (m : DecodeMode) (p : Pfx) (r : Row) (mr : Nat) (bs : List Byte) (w : Width) (rm : RM) (v : Nat)
    (rest : List Byte) : Prop :=
  ∃ bs', rowOperand m p r mr w bs = some (rm, bs') ∧
    takeLE (immLen r.imm w (addrSize m p.as67)) bs' = some (v, rest)

section
variable {m : DecodeMode} {p : Pfx} {r : Row} {op mr used v : Nat} {bs rest : List Byte} {short : DecodeResult}
  {w : Width} {rm : RM}

theorem decodeRow_no_size (size : opSize r.size m p.os66 p.rexW = none) :
    decodeRow m p r op mr used bs short = .unsupported := by simp only [decodeRow, size]

theorem decodeRow_of_reads (size : opSize r.size m p.os66 p.rexW = some w) (reads : RowReads m p r mr bs w rm v rest) :
    decodeRow m p r op mr used bs short = rowAnswer m p r op mr (used + (bs.length - rest.length)) w rm v := by
  obtain ⟨bs', operand, imm⟩ := reads
  unfold rowOperand Row.takesMem at operand
  unfold rowAnswer Row.takesMem
  simp only [decodeRow, size]
  by_cases mem : (r.hasModRM && r.sel != .ignored && mr / 64 != 3) = true
  · rw [if_pos mem, Option.map_eq_some_iff] at operand
    obtain ⟨⟨mo, _⟩, operand, eq⟩ := operand
    cases eq
    simp [mem, operand, imm, partsOf, Pfx.toHdr, Hdr.rexBit, Pfx.rexR, Pfx.rexB]
  · rw [if_neg mem] at operand
    cases operand
    simp [mem, imm, partsOf, Pfx.toHdr, Hdr.rexBit, Pfx.rexR, Pfx.rexB]

theorem decodeRow_short (size : opSize r.size m p.os66 p.rexW = some w)
    (reads : ¬∃ rm v rest, RowReads m p r mr bs w rm v rest) : decodeRow m p r op mr used bs short = short := by
  simp only [RowReads, not_exists, not_and] at reads
  unfold rowOperand Row.takesMem at reads
  simp only [decodeRow, size]
  by_cases mem : (r.hasModRM && r.sel != .ignored && mr / 64 != 3) = true
  · simp only [mem, if_true] at reads ⊢
    cases operand : memOperand m (addrSize m p.as67) p (mr / 64) (mr % 8) bs with
    | none => rfl
    | some x =>
      cases imm : takeLE (immLen r.imm w (addrSize m p.as67)) x.2 with
      | none => simp only [imm]
      | some y => exact absurd imm (reads _ _ _ x.2 (by rw [operand]; rfl))
  · simp only [mem, Bool.false_eq_true, if_false] at reads ⊢
    cases imm : takeLE (immLen r.imm w (addrSize m p.as67)) bs with
    | none => rfl
    | some y => exact absurd imm (reads _ _ _ bs rfl)

/-- How a row answers: no size, too few bytes, or from what it reads. -/
theorem decodeRow_cases (m : DecodeMode) (p : Pfx) (r : Row) (op mr used : Nat) (bs : List Byte) :
    (opSize r.size m p.os66 p.rexW = none ∧ ∀ short, decodeRow m p r op mr used bs short = .unsupported) ∨
    ∃ w, opSize r.size m p.os66 p.rexW = some w ∧
      (((¬∃ rm v rest, RowReads m p r mr bs w rm v rest) ∧ ∀ short, decodeRow m p r op mr used bs short = short) ∨
        ∃ rm v rest, RowReads m p r mr bs w rm v rest ∧
          ∀ short, decodeRow m p r op mr used bs short =
            rowAnswer m p r op mr (used + (bs.length - rest.length)) w rm v) := by
  cases size : opSize r.size m p.os66 p.rexW with
  | none => exact .inl ⟨rfl, fun _ => decodeRow_no_size size⟩
  | some w =>
    refine .inr ⟨w, rfl, ?_⟩
    by_cases reads : ∃ rm v rest, RowReads m p r mr bs w rm v rest
    · obtain ⟨rm, v, rest, reads⟩ := reads
      exact .inr ⟨rm, v, rest, reads, fun _ => decodeRow_of_reads size reads⟩
    · exact .inl ⟨reads, fun _ => decodeRow_short size reads⟩

end

/-! ### Prefixes (R311, R312) -/

section
variable {m : DecodeMode} {p q : Pfx} {b : Byte} {ps bs : List Byte}

theorem legacy_isSome_iff (m : DecodeMode) (p : Pfx) (b : Byte) : (p.legacy m b.toNat).isSome = true ↔
    [0xF0, 0xF2, 0xF3, 0x26, 0x2E, 0x36, 0x3E, 0x64, 0x65, 0x66, 0x67].contains b.toNat = true := by
  generalize b.toNat = n
  unfold Pfx.legacy
  cases m <;> dsimp only <;> split <;> simp_all

/-- The record after one prefix byte. -/
def Pfx.next (m : DecodeMode) (p : Pfx) (b : Byte) : Pfx :=
  (p.legacy m b.toNat).getD { p with rex := some (b.setWidth 4) }

theorem scanPrefixes_prefix (is : isPrefixByte m b = true) :
    scanPrefixes m p (b :: bs) = scanPrefixes m (p.next m b) bs := by
  have some_iff := legacy_isSome_iff m p b
  simp only [scanPrefixes, Pfx.next]
  cases legacy : p.legacy m b.toNat with
  | some q => rfl
  | none =>
    rw [legacy] at some_iff
    simp only [isPrefixByte, Bool.or_eq_true] at is
    have rex : isRex m b.toNat = true := is.resolve_left fun yes => by simp at some_iff; simp_all
    simp [rex]

theorem scanPrefixes_opcode (not : isPrefixByte m b = false) : scanPrefixes m p (b :: bs) = (p, b :: bs) := by
  have some_iff := legacy_isSome_iff m p b
  simp only [isPrefixByte, Bool.or_eq_false_iff] at not
  obtain ⟨old, rex⟩ := not
  simp only [scanPrefixes]
  cases legacy : p.legacy m b.toNat with
  | some q => rw [legacy, old] at some_iff; simp at some_iff
  | none =>
    have rex' : isRex m b.toNat = false := rex
    simp [rex']

/-- The record after the prefix bytes `ps`. -/
def Pfx.after (m : DecodeMode) (p : Pfx) (ps : List Byte) : Pfx := ps.foldl (Pfx.next m) p

theorem decodeFrom_prefixes (all : ∀ b ∈ ps, isPrefixByte m b = true) (used : Nat) (bs : List Byte) (s : DecodeResult) :
    decodeFrom m p used (ps ++ bs) s = decodeFrom m (p.after m ps) (used + ps.length) bs s := by
  induction ps generalizing p used with
  | nil => rfl
  | cons b ps ih =>
    rw [List.cons_append, decodeFrom_prefix (fun _ => scanPrefixes_prefix (all b List.mem_cons_self)),
      ih (fun c hc => all c (List.mem_cons_of_mem b hc)), List.length_cons]
    congr 1
    omega

theorem decodeFrom_first (not : isPrefixByte m b = false) (used : Nat) (bs : List Byte) (s : DecodeResult) :
    decodeFrom m p used (b :: bs) s = decodeAfterPrefixes m p used (b :: bs) s :=
  decodeFrom_opcode (fun _ => scanPrefixes_opcode not) used bs s

/-- A byte string is its prefixes and the rest, which begins with none. -/
theorem exists_prefixes (m : DecodeMode) (bs : List Byte) : ∃ ps rest, bs = ps ++ rest ∧
    (∀ b ∈ ps, isPrefixByte m b = true) ∧ ∀ b, rest.head? = some b → isPrefixByte m b = false := by
  refine ⟨bs.takeWhile (isPrefixByte m ·), bs.dropWhile (isPrefixByte m ·), List.takeWhile_append_dropWhile.symm,
    fun b hb => List.all_eq_true.mp List.all_takeWhile b hb, fun b hb => ?_⟩
  have := List.head?_dropWhile_not (isPrefixByte m) bs
  rw [hb] at this
  simpa using this

end

end Sys2Proof
end

section
/-! PROOF. Register numbers, immediates and memory operands, as the decoder reads and the encoder writes them
(R321 to R325, R332, R333). -/

namespace Sys2Proof
open Sys2Proof Sys2Proof.Machine

/-! ### Bytes and numbers -/

theorem leNat_leBytes (n v : Nat) : leNat (leBytes n v) = v % 256 ^ n := by
  induction n generalizing v with
  | zero => simp [leBytes, leNat, Nat.mod_one]
  | succ n ih =>
    rw [leBytes, leNat, ih, BitVec.toNat_ofNat, Nat.pow_succ' (n := n), Nat.mod_mul]

theorem takeLE_leBytes (n v : Nat) (rest : List Byte) :
    takeLE n (leBytes n v ++ rest) = some (v % 256 ^ n, rest) := by
  have len := leBytes_length n v
  simp [takeLE, len, leNat_leBytes]

theorem takeLE_lt {n v : Nat} {bs rest : List Byte} (eq : takeLE n bs = some (v, rest)) : v < 256 ^ n := by
  simp only [takeLE] at eq
  split at eq
  · exact absurd eq nofun
  · simp only [Option.some.injEq, Prod.mk.injEq] at eq
    obtain ⟨rfl, -⟩ := eq
    have := leNat_lt (bs.take n)
    rwa [List.length_take, Nat.min_eq_left (by omega)] at this

/-! ### Sign extension and truncation -/

theorem sext_getLsbD (w : Width) (v : Word) (i : Nat) :
    (sext w v).getLsbD i = (decide (i < 64) && v.getLsbD (if i < w.bits then i else w.bits - 1)) := by
  have pos := bits_pos w
  simp only [sext, BitVec.getLsbD_signExtend, BitVec.getLsbD_setWidth, BitVec.msb_eq_getLsbD_last]
  split
  · simp [*]
  · have : w.bits - 1 < w.bits := by omega
    simp [this]

theorem trunc_getLsbD (w : Width) (v : Word) (i : Nat) :
    (trunc w v).getLsbD i = (decide (i < w.bits) && v.getLsbD i) := by
  have le : w.bits ≤ 64 := by cases w <;> decide
  simp only [trunc, BitVec.getLsbD_setWidth]
  grind

/-- What was extended from fewer bits is its own extension. -/
theorem sext_sext {w w' : Width} (le : w'.bits ≤ w.bits) (v : Word) : sext w (sext w' v) = sext w' v := by
  refine BitVec.eq_of_getLsbD_eq fun i lt => ?_
  have := bits_pos w'
  simp only [sext_getLsbD]
  grind

theorem sext_trunc {w w' : Width} (le : w'.bits ≤ w.bits) (v : Word) : sext w' (trunc w v) = sext w' v := by
  refine BitVec.eq_of_getLsbD_eq fun i lt => ?_
  have := bits_pos w'
  simp only [sext_getLsbD, trunc_getLsbD]
  grind

theorem trunc_sext_self (w : Width) (v : Word) : trunc w (sext w v) = trunc w v := by
  refine BitVec.eq_of_getLsbD_eq fun i lt => ?_
  simp only [sext_getLsbD, trunc_getLsbD]
  grind

theorem sext_w64 (v : Word) : sext .w64 v = v := by simp [sext, Width.bits]

theorem two_pow_bits (w : Width) : 256 ^ w.bytes = 2 ^ w.bits := by cases w <;> rfl

theorem sextBytes_bytes (w : Width) (v : Nat) : sextBytes w.bytes v = sext w (BitVec.ofNat 64 v) := by
  cases w with
  | w64 => exact (sext_w64 _).symm
  | _ => rfl

/-- The low `w` bits of a number decide its truncation and its extension. -/
theorem setWidth_ofNat_mod (w : Width) (v : Nat) :
    (BitVec.ofNat 64 (v % 256 ^ w.bytes)).setWidth w.bits = (BitVec.ofNat 64 v).setWidth w.bits := by
  rw [two_pow_bits]
  refine BitVec.eq_of_toNat_eq ?_
  cases w <;> simp [Width.bits]

theorem sextBytes_mod (w : Width) (v : Word) : sextBytes w.bytes (v.toNat % 256 ^ w.bytes) = sext w v := by
  rw [sextBytes_bytes, sext, setWidth_ofNat_mod, BitVec.ofNat_toNat, BitVec.setWidth_eq]
  rfl

theorem ofNat_mod_trunc (w : Width) (v : Word) : BitVec.ofNat 64 (v.toNat % 256 ^ w.bytes) = trunc w v := by
  refine BitVec.eq_of_toNat_eq ?_
  rw [trunc_toNat, two_pow_bits, BitVec.toNat_ofNat]
  exact Nat.mod_eq_of_lt (Nat.lt_of_le_of_lt (Nat.mod_le _ _) v.isLt)

theorem trunc_ofNat_of_lt {w : Width} {v : Nat} (lt : v < 256 ^ w.bytes) :
    trunc w (BitVec.ofNat 64 v) = BitVec.ofNat 64 v := by
  refine trunc_of_lt ?_
  rw [← two_pow_bits, BitVec.toNat_ofNat]
  exact Nat.lt_of_le_of_lt (Nat.mod_le _ _) lt

theorem izWidth_le {w : Width} (ne : w ≠ .w8) : (izWidth w).bits ≤ w.bits := by
  cases w <;> simp_all [izWidth, Width.bits]

/-! ### Register numbers and designators (R312, R325) -/

theorem regNum_val (e : Bool) (n : Nat) : (regNum e n).val = (if e then 8 else 0) + n % 8 := by
  simp only [regNum, Fin.val_ofNat]
  have := Nat.mod_lt n (show 0 < 8 by decide)
  split <;> omega

theorem regNum_ge_iff (e : Bool) (n : Nat) : 8 ≤ (regNum e n).val ↔ e = true := by
  rw [regNum_val]
  have := Nat.mod_lt n (show 0 < 8 by decide)
  cases e <;> grind

theorem regNum_mod (e : Bool) (n : Nat) : (regNum e n).val % 8 = n % 8 := by
  rw [regNum_val]
  cases e <;> simp

theorem regNum_wf {h : Hdr} (k n : Nat) : (regNum (h.rexBit k) n).wf h k = true := by
  have := regNum_ge_iff (h.rexBit k) n
  unfold RegNum.wf
  cases bit : h.rexBit k <;> simp_all

/-- A number is made of its REX bit and its low bits. -/
theorem regNum_of_wf {h : Hdr} {k n : Nat} {r : RegNum} (wf : r.wf h k = true) (low : n % 8 = r.val % 8) :
    regNum (h.rexBit k) n = r := by
  have := r.isLt
  refine Fin.ext ?_
  rw [regNum_val, low]
  unfold RegNum.wf at wf
  cases bit : h.rexBit k <;> grind

theorem designator_wf {h : Hdr} (w : Width) (k n : Nat) :
    (designator h.rex.isSome w (regNum (h.rexBit k) n)).wf h w k = true := by
  have wf := regNum_wf (h := h) k n
  have lt := (regNum (h.rexBit k) n).isLt
  unfold RegNum.wf at wf
  generalize regNum (h.rexBit k) n = r at *
  simp only [designator, Gpr.wf]
  split
  next high =>
    simp only [Bool.and_eq_true, beq_iff_eq, decide_eq_true_eq, Bool.not_eq_true', Option.isSome_eq_false_iff] at high
    obtain ⟨⟨⟨w8, no_rex⟩, ge⟩, le⟩ := high
    simp [w8, no_rex]
    omega
  next plain =>
    cases rex : h.rex <;> simp_all
    grind

theorem designator_low {h : Hdr} {w : Width} {k n : Nat} {r : Gpr} (wf : r.wf h w k = true) (low : n % 8 = r.low) :
    designator h.rex.isSome w (regNum (h.rexBit k) n) = r := by
  obtain ⟨num, high8⟩ := r
  have lt := num.isLt
  cases high8 with
  | true =>
    simp only [Gpr.wf, Gpr.low, if_true, Bool.and_eq_true, beq_iff_eq, decide_eq_true_eq] at wf low
    obtain ⟨⟨w8, no_rex⟩, lt4⟩ := wf
    have rex := Option.isNone_iff_eq_none.mp no_rex
    have bit : h.rexBit k = false := by simp [Hdr.rexBit, rex]
    have num_eq : (regNum (h.rexBit k) n).val = num.val + 4 := by rw [regNum_val, bit, low]; simp
    simp [designator, w8, rex, num_eq]
    omega
  | false =>
    simp only [Gpr.wf, Gpr.low, Bool.false_eq_true, if_false, Bool.and_eq_true] at wf low
    obtain ⟨bit, not_high⟩ := wf
    rw [regNum_of_wf (r := num) bit (by omega)]
    unfold designator
    rw [if_neg]
    intro high
    cases rex : h.rex <;> simp_all
    omega

/-! ### Memory operands (R322 to R324) -/

/-- The segment of a memory operand: the override, or the default of the address size. -/
theorem mem16_seg {p : Pfx} {md rm : Nat} {bs rest : List Byte} {mo : MemOp} (eq : mem16 p md rm bs = some (mo, rest)) :
    mo.seg = p.segOv.getD (defaultSeg16 mo.base) := by
  simp only [mem16] at eq
  split at eq
  · cases eq
  · cases eq
    rfl

theorem base16_mem (md rm : Nat) : base16 md rm ∈ [(some 3, some 6), (some 3, some 7), (some 5, some 6),
    (some 5, some 7), (some 6, none), (some 7, none), (none, none), (some 5, none), (some 3, none)] := by
  unfold base16
  split
  case h_7 => split <;> simp
  all_goals simp

theorem mem16_shape {p : Pfx} {md rm : Nat} {bs rest : List Byte} {mo : MemOp}
    (eq : mem16 p md rm bs = some (mo, rest)) : mo.shape16 = true := by
  simp only [mem16] at eq
  split at eq
  · cases eq
  next d rest' taken =>
    cases eq
    have disp : sext .w16 (sextBytes (dispLen16 md rm) d) = sextBytes (dispLen16 md rm) d := by
      unfold dispLen16
      split
      · split
        · exact sext_sext (w := .w16) (w' := .w16) (Nat.le_refl _) _
        · rfl
      · exact sext_sext (w := .w16) (w' := .w8) (by decide) _
      · exact sext_sext (w := .w16) (w' := .w16) (Nat.le_refl _) _
    simp only [MemOp.shape16, disp, beq_self_eq_true, Bool.not_false, Bool.and_self, Bool.true_and]
    have pairs := base16_mem md rm
    generalize base16 md rm = pair at pairs ⊢
    simp only [List.mem_cons, List.not_mem_nil, or_false] at pairs
    rcases pairs with rfl | rfl | rfl | rfl | rfl | rfl | rfl | rfl | rfl <;> rfl

theorem sext_disp (md low d : Nat) : sext .w32 (sextBytes (dispLen md low) d) = sextBytes (dispLen md low) d := by
  unfold dispLen
  split
  · split
    · exact sext_sext (w := .w32) (w' := .w32) (Nat.le_refl _) _
    · rfl
  · exact sext_sext (w := .w32) (w' := .w8) (by decide) _
  · exact sext_sext (w := .w32) (w' := .w32) (Nat.le_refl _) _

theorem mem32_wf {m : DecodeMode} {p : Pfx} {md low len : Nat} {bs rest : List Byte} {mo : MemOp} (lt : low < 8)
    (eq : mem32 m p md low bs = some (mo, rest)) :
    mo.seg = p.segOv.getD (defaultSeg mo.base) ∧ mo.shape32 m (p.toHdr m len) = true := by
  have base_wf (n : Nat) : (regNum p.rexB n).wf (p.toHdr m len) 0 = true := regNum_wf 0 n
  have index_wf (n : Nat) : (regNum p.rexX n).wf (p.toHdr m len) 1 = true := regNum_wf 1 n
  simp only [mem32] at eq
  split at eq
  next no_sib =>
    split at eq
    · cases eq
    · cases eq
      refine ⟨rfl, ?_⟩
      have low_ne : low ≠ 4 := by simpa using no_sib
      have mod := regNum_mod p.rexB low
      by_cases bare : (md == 0 && low == 5) = true
      · simp only [MemOp.shape32, sext_disp, bare, if_true]
        cases m <;> simp
      · have base_low : (regNum p.rexB low).val % 8 ≠ 4 := by omega
        simp [MemOp.shape32, sext_disp, bare, base_wf, base_low]
  next sib =>
    split at eq
    · cases eq
    next sib bs' =>
      split at eq
      · cases eq
      · cases eq
        refine ⟨rfl, ?_⟩
        by_cases noIndex : (regNum p.rexX (sib.toNat / 8) == 4) = true
        · have no_rexX : (p.toHdr m len).rexBit 1 = false := by
            have := regNum_ge_iff p.rexX (sib.toNat / 8)
            have four : regNum p.rexX (sib.toNat / 8) = 4 := by simpa using noIndex
            rw [four] at this
            exact Bool.eq_false_iff.mpr fun rex => absurd (this.mpr rex) (by decide)
          by_cases bare : (md == 0 && sib.toNat % 8 == 5) = true <;>
            simp [MemOp.shape32, sext_disp, bare, base_wf, noIndex, no_rexX]
        · by_cases bare : (md == 0 && sib.toNat % 8 == 5) = true <;>
            simp [MemOp.shape32, sext_disp, bare, base_wf, index_wf, noIndex] <;> simpa using noIndex

/-- The operand that the decoder reads is well-formed. -/
theorem memOperand_wf {m : DecodeMode} {p : Pfx} {md low len : Nat} {bs rest : List Byte} {mo : MemOp} (lt : low < 8)
    (eq : memOperand m (addrSize m p.as67) p md low bs = some (mo, rest)) : mo.wf m (p.toHdr m len) = true := by
  have is_a : (p.toHdr m len).a = addrSize m p.as67 := rfl
  simp only [MemOp.wf, is_a]
  have segOv : (p.toHdr m len).segOv = p.segOv := rfl
  cases size : addrSize m p.as67 with
  | w16 =>
    rw [size] at eq
    simp [defaultSegOf, segOv, mem16_seg eq, mem16_shape eq]
  | _ =>
    rw [size] at eq
    obtain ⟨seg, shape⟩ := mem32_wf (len := len) lt eq
    simp [defaultSegOf, segOv, seg, shape]

/-! ### What the encoder writes is read back -/

theorem packByte_toNat {hi : Nat} (lt : hi < 4) (mid low : Nat) :
    (packByte hi mid low).toNat / 64 = hi ∧ (packByte hi mid low).toNat / 8 % 8 = mid % 8 ∧
      (packByte hi mid low).toNat % 8 = low % 8 := by
  rw [packByte, BitVec.toNat_ofNat]
  omega

/-- The prefix record of a header. -/
def Hdr.toPfx (h : Hdr) : Pfx := ⟨h.lock, h.rep, h.segOv, h.os66, h.as67, h.rex⟩

theorem toHdr_toPfx {m : DecodeMode} {h : Hdr} (size : h.a = addrSize m h.as67) : h.toPfx.toHdr m h.len = h := by
  obtain ⟨⟩ := h
  simp only [Hdr.toPfx, Pfx.toHdr] at size ⊢
  rw [← size]

/-- A ModRM byte and what follows are read back as the operand `mo`, with `reg` in the middle bits. -/
def ReadsBack (m : DecodeMode) (h : Hdr) (reg : Nat) (mo : MemOp) (bytes : List Byte) : Prop :=
  ∃ mr tail, bytes = mr :: tail ∧ mr.toNat / 64 ≠ 3 ∧ mr.toNat / 8 % 8 = reg % 8 ∧
    ∀ rest, memOperand m h.a h.toPfx (mr.toNat / 64) (mr.toNat % 8) (tail ++ rest) = some (mo, rest)

theorem readsBack_packByte {m : DecodeMode} {h : Hdr} {reg md low : Nat} {mo : MemOp} {tail : List Byte} (lt : md < 3)
    (reads : ∀ rest, memOperand m h.a h.toPfx md (low % 8) (tail ++ rest) = some (mo, rest)) :
    ReadsBack m h reg mo (packByte md reg low :: tail) := by
  obtain ⟨is_md, is_reg, is_low⟩ := packByte_toNat (show md < 4 by omega) reg low
  refine ⟨_, _, rfl, by omega, is_reg, fun rest => ?_⟩
  rw [is_md, is_low]
  exact reads rest

/-- A displacement of one byte where it fits, else of `w`'s bytes. -/
theorem sextBytes_disp {w : Width} {d : Word} (fits : sext w d = d) :
    sextBytes (if fits8 d = true then 1 else w.bytes)
      (d.toNat % 256 ^ (if fits8 d = true then 1 else w.bytes)) = d := by
  split
  next short => exact (sextBytes_mod .w8 d).trans (by simpa [fits8] using short)
  next => exact (sextBytes_mod w d).trans fits

theorem readsBack_mem16 {m : DecodeMode} {h : Hdr} {reg : Nat} {mo : MemOp} (size : h.a = .w16)
    (seg : mo.seg = h.segOv.getD (defaultSeg16 mo.base)) (shape : mo.shape16 = true) :
    ReadsBack m h reg mo (encodeMem m .w16 reg mo) := by
  obtain ⟨seg', base, index, scale, disp, ripRel⟩ := mo
  simp only [MemOp.shape16, Bool.and_eq_true, beq_iff_eq, Bool.not_eq_true'] at shape seg
  obtain ⟨⟨⟨rfl, rfl⟩, fits⟩, pair⟩ := shape
  subst seg
  cases base with
  | none =>
    cases index with
    | some x => simp at pair
    | none =>
      refine readsBack_packByte (md := 0) (by decide) fun rest => ?_
      have d : sextBytes 2 (disp.toNat % 65536) = disp := (sextBytes_mod .w16 disp).trans fits
      simp [memOperand, size, mem16, dispLen16, takeLE_leBytes, base16, d, Hdr.toPfx]
  | some b =>
    have enc : encodeMem m .w16 reg ⟨h.segOv.getD (defaultSeg16 (some b)), some b, index, 0, disp, false⟩ =
        packByte (if fits8 disp = true then 1 else 2) reg (rm16 (some b) index) ::
          leBytes (if fits8 disp = true then 1 else 2) disp.toNat := rfl
    rw [enc]
    refine readsBack_packByte (by split <;> decide) fun rest => ?_
    have len (low : Nat) : dispLen16 (if fits8 disp = true then 1 else 2) low = if fits8 disp = true then 1 else 2 := by
      split <;> rfl
    have bi : base16 (if fits8 disp = true then 1 else 2) (rm16 (some b) index % 8) = (some b, index) := by
      cases index with
      | none =>
        simp only [Bool.or_eq_true, beq_iff_eq] at pair
        rcases pair with ((rfl | rfl) | rfl) | rfl <;> split <;> rfl
      | some x =>
        simp only [Bool.and_eq_true, Bool.or_eq_true, beq_iff_eq] at pair
        obtain ⟨rfl | rfl, rfl | rfl⟩ := pair <;> split <;> rfl
    have d := sextBytes_disp (w := .w16) fits
    simp only [memOperand, size, mem16, len, takeLE_leBytes, bi]
    simp only [Width.bytes] at d
    rw [d]
    rfl

/-- 32-bit addressing with the base in ModRM. -/
theorem mem32_base {m : DecodeMode} {p : Pfx} {md low d : Nat} (no_sib : low ≠ 4) (disp : md ≠ 0) (rest : List Byte) :
    mem32 m p md low (leBytes (dispLen md low) d ++ rest) =
      some (⟨p.segOv.getD (defaultSeg (some (regNum p.rexB low))), some (regNum p.rexB low), none, 0,
        sextBytes (dispLen md low) (d % 256 ^ dispLen md low), false⟩, rest) := by
  simp [mem32, no_sib, disp, takeLE_leBytes]

/-- 32-bit addressing with a SIB byte. -/
theorem mem32_sib {m : DecodeMode} {p : Pfx} {md scale index low d : Nat} (lt : scale < 4) (rest : List Byte) :
    mem32 m p md 4 (packByte scale index low :: leBytes (dispLen md (low % 8)) d ++ rest) =
      some (⟨p.segOv.getD (defaultSeg (if md = 0 ∧ low % 8 = 5 then none else some (regNum p.rexB low))),
        if md = 0 ∧ low % 8 = 5 then none else some (regNum p.rexB low),
        if regNum p.rexX index = 4 then none else some (regNum p.rexX index),
        if regNum p.rexX index = 4 then 0 else Fin.ofNat 4 scale,
        sextBytes (dispLen md (low % 8)) (d % 256 ^ dispLen md (low % 8)), false⟩, rest) := by
  obtain ⟨is_scale, is_index, is_low⟩ := packByte_toNat lt index low
  have num_index : regNum p.rexX ((packByte scale index low).toNat / 8) = regNum p.rexX index := by
    simp only [regNum, is_index]
  have num_low : regNum p.rexB (low % 8) = regNum p.rexB low := by simp [regNum]
  simp [mem32, num_index, num_low, is_scale, is_low, takeLE_leBytes]

theorem readsBack_mem32 {m : DecodeMode} {h : Hdr} {reg : Nat} {mo : MemOp} (size : h.a ≠ .w16)
    (seg : mo.seg = h.segOv.getD (defaultSeg mo.base)) (shape : mo.shape32 m h = true) :
    ReadsBack m h reg mo (encodeMem m h.a reg mo) := by
  obtain ⟨seg', base, index, scale, disp, ripRel⟩ := mo
  simp only [MemOp.shape32, Bool.and_eq_true, beq_iff_eq] at shape seg
  obtain ⟨⟨fits, base_ok⟩, index_ok⟩ := shape
  subst seg
  have mem : memOperand m h.a = mem32 m := by cases a : h.a <;> simp_all <;> rfl
  have disp4 : sextBytes 4 (disp.toNat % 256 ^ 4) = disp := (sextBytes_mod .w32 disp).trans fits
  have disp_md := sextBytes_disp (w := .w32) fits
  simp [Width.bytes] at disp_md
  have len (low : Nat) : dispLen (if fits8 disp = true then 1 else 2) low = if fits8 disp = true then 1 else 4 := by
    split <;> rfl
  have md_lt : (if fits8 disp = true then 1 else 2) < 3 := by split <;> decide
  have md_ne : (if fits8 disp = true then 1 else 2) ≠ 0 := by split <;> decide
  have base_num {b : RegNum} (wf : b.wf h 0 = true) (n : Nat) (low : n % 8 = b.val % 8) : regNum h.toPfx.rexB n = b :=
    regNum_of_wf wf low
  have index_num {x : RegNum} (wf : x.wf h 1 = true) : regNum h.toPfx.rexX x.val = x := regNum_of_wf wf rfl
  have no_index_num (clear : h.rexBit 1 = false) : regNum h.toPfx.rexX 4 = 4 := by
    rw [show h.toPfx.rexX = false from clear]
    rfl
  have enc (a : Width) (ne : a ≠ .w16) (mo : MemOp) : encodeMem m a reg mo = encodeMem m .w32 reg mo :=
    match a, ne with
    | .w8, _ | .w32, _ | .w64, _ => rfl
  rw [enc h.a size]
  cases base with
  | none =>
    cases index with
    | none =>
      simp only [Bool.and_eq_true, beq_iff_eq] at index_ok
      obtain ⟨⟨rfl, rip64⟩, no_rexX⟩ := index_ok
      by_cases plain : (ripRel || m != .m64) = true
      · simp only [encodeMem, plain, if_true]
        refine readsBack_packByte (md := 0) (by decide) fun rest => ?_
        have rip : (m == .m64) = ripRel := by cases ripRel <;> cases m <;> simp_all
        rw [mem]
        simp [mem32, dispLen, takeLE_leBytes, rip]
        exact ⟨rfl, disp4⟩
      · simp only [encodeMem, plain, Bool.false_eq_true, if_false]
        refine readsBack_packByte (md := 0) (by decide) fun rest => ?_
        simp only [Bool.or_eq_true, not_or, Bool.not_eq_true, bne_eq_false_iff_eq] at plain
        obtain ⟨rfl, rfl⟩ := plain
        rw [mem]
        refine (mem32_sib (md := 0) (by decide) rest).trans ?_
        simp [no_index_num (by simpa using no_rexX), dispLen]
        exact ⟨rfl, disp4⟩
    | some x =>
      simp only [Bool.and_eq_true, bne_iff_ne, ne_eq, Bool.not_eq_true'] at index_ok
      obtain ⟨⟨x_wf, x_ne⟩, rfl⟩ := index_ok
      refine readsBack_packByte (md := 0) (by decide) fun rest => ?_
      rw [mem]
      refine (mem32_sib (md := 0) scale.isLt rest).trans ?_
      simp [index_num x_wf, x_ne, dispLen]
      exact ⟨rfl, disp4⟩
  | some b =>
    simp only [Bool.and_eq_true, Bool.not_eq_true'] at base_ok
    obtain ⟨b_wf, rfl⟩ := base_ok
    cases index with
    | none =>
      simp only [Bool.and_eq_true, beq_iff_eq] at index_ok
      obtain ⟨⟨rfl, -⟩, no_rexX⟩ := index_ok
      by_cases four : b.val % 8 = 4
      · have index4 := no_index_num (by simpa [four] using no_rexX)
        simp only [encodeMem, four, beq_self_eq_true, if_true]
        refine readsBack_packByte md_lt fun rest => ?_
        rw [mem]
        have sib := mem32_sib (m := m) (p := h.toPfx) (md := if fits8 disp = true then 1 else 2) (scale := 0)
          (index := 4) (low := 4) (d := disp.toNat) (by decide) rest
        rw [len] at sib
        refine sib.trans ?_
        simp [md_ne, index4, base_num b_wf 4 four.symm]
        exact ⟨rfl, disp_md⟩
      · simp only [encodeMem, beq_iff_eq, four, if_false]
        refine readsBack_packByte md_lt fun rest => ?_
        rw [mem]
        have base := mem32_base (m := m) (p := h.toPfx) (md := if fits8 disp = true then 1 else 2) (d := disp.toNat)
          four md_ne rest
        rw [len] at base
        refine base.trans ?_
        simp [base_num b_wf (b.val % 8) (by omega)]
        exact ⟨rfl, disp_md⟩
    | some x =>
      simp only [Bool.and_eq_true, bne_iff_ne, ne_eq] at index_ok
      obtain ⟨⟨x_wf, x_ne⟩, -⟩ := index_ok
      refine readsBack_packByte md_lt fun rest => ?_
      rw [mem]
      have sib := mem32_sib (m := m) (p := h.toPfx) (md := if fits8 disp = true then 1 else 2) (index := x.val)
        (low := b.val) (d := disp.toNat) scale.isLt rest
      rw [len] at sib
      refine sib.trans ?_
      simp [md_ne, index_num x_wf, x_ne, base_num b_wf b.val rfl]
      exact ⟨rfl, disp_md⟩

/-- R321 to R324: the operand that was written is read back. -/
theorem readsBack_encodeMem {m : DecodeMode} {h : Hdr} {mo : MemOp} (reg : Nat) (wf : mo.wf m h = true) :
    ReadsBack m h reg mo (encodeMem m h.a reg mo) := by
  simp only [MemOp.wf, Bool.and_eq_true, beq_iff_eq] at wf
  obtain ⟨seg, shape⟩ := wf
  by_cases size : h.a = .w16
  · simp only [size, defaultSegOf] at seg shape ⊢
    exact readsBack_mem16 size seg shape
  · refine readsBack_mem32 size (seg.trans ?_) ?_
    · cases a : h.a <;> simp_all [defaultSegOf]
    · cases a : h.a <;> simp_all

end Sys2Proof
end

section
/-! PROOF. O5: every row builds a well-formed instruction from what the decoder gives it. -/

namespace Sys2Proof
open Sys2Proof Sys2Proof.Machine

/-! ### What the decoder gives a row -/

/-- A row admits the recorded repeat prefix (R315). -/
def RepUse.Admits (use : RepUse) (prefixed : Rep) : Prop :=
  match use with
  | .no => prefixed = .none
  | .rep => prefixed ≠ .repne
  | .repe => True
  | .f3 => prefixed = .rep

/-- The value of an immediate of a kind at width `w` (R332, R333). -/
def ImmKind.Fits (k : ImmKind) (w : Width) (imm : Word) : Prop :=
  match k with
  | .none | .iw | .moffs => True
  | .ib => trunc .w8 imm = imm
  | .iv => trunc w imm = imm
  | .ibs => 8 ≤ w.bits → trunc w (sext .w8 imm) = imm
  | .iz => (izWidth w).bits ≤ w.bits → trunc w (sext (izWidth w) imm) = imm
  | .rel8 => sext .w8 imm = imm
  | .relz => sext (izWidth w) imm = imm

/-- The parts that a row can be given in a mode. -/
structure Parts.Fit (m : DecodeMode) (r : Row) (p : Parts) : Prop where
  hdr : p.h.wf m = true
  size : p.h.sized m r.size p.w = true
  modes : r.modes.has m = true
  lock : p.h.lock = true → r.lock = true ∧ p.rm.isMem = true
  rep : r.rep.Admits p.h.rep
  fence : r.map = .m0F → r.op = 0xAE → p.h.os66 = false
  reg : p.reg.wf p.h p.w 2 = true
  oreg : p.oreg.wf p.h p.w 0 = true
  rmN : p.rmN.wf p.h 0 = true
  rm : p.rm.wf m p.h (if r.rm8 then .w8 else p.w) = true
  mem : r.sel = .mem → p.rm.isMem = true
  imm : r.imm.Fits p.w p.imm
  moffs : r.imm = .moffs → p.moffs.wfMoffs p.h = true
  num0 : r.pick = .num0 ∨ r.pick = .num0F3 → p.h.rexBit 0 = false
  numNot0 : r.pick = .numNot0 → p.oreg.num ≠ 0
  sreg : r.map = .m1 → (r.op = 0x8C → p.modReg < 6) ∧ (r.op = 0x8E → p.modReg < 6 ∧ p.modReg ≠ 1)
  creg : r.map = .m0F → r.op = 0x20 ∨ r.op = 0x22 →
    p.h.rexBit 2 = false ∧ (p.regN.val = 0 ∨ p.regN.val = 2 ∨ p.regN.val = 3 ∨ p.regN.val = 4)

section
variable {m : DecodeMode} {p : Parts}

theorem sized_b_iff {h : Hdr} {w : Width} : h.sized m .b w = true ↔ w = .w8 := by
  simp only [Hdr.sized, opSize, beq_iff_eq, Option.some.injEq]
  exact eq_comm

theorem ne_w8_of_sized {h : Hdr} {w : Width} {c : SizeClass} (size : h.sized m c w = true) (wide : c ≠ .b ∧ c ≠ .none) :
    w ≠ .w8 := by
  rintro rfl
  simp only [Hdr.sized, beq_iff_eq] at size
  cases c <;> cases m <;> simp [opSize, sizeV] at size wide <;> grind

theorem plain_of_fit {r : Row} (fit : p.Fit m r) (lock : r.lock = false) (rep : r.rep = .no) : p.h.plain = true := by
  have rep_none := fit.rep
  rw [rep] at rep_none
  have := fit.lock
  simp_all [Hdr.plain, RepUse.Admits]

theorem lockable_of_fit {r : Row} (fit : p.Fit m r) (rep : r.rep = .no) : p.h.lockable p.rm = true := by
  have rep_none := fit.rep
  rw [rep] at rep_none
  have := fit.lock
  cases lock : p.h.lock <;> simp_all [Hdr.lockable, RepUse.Admits]

theorem rm_of_fit {r : Row} (fit : p.Fit m r) (rm8 : r.rm8 = false) : p.rm.wf m p.h p.w = true := by
  simpa [rm8] using fit.rm

theorem sizedBV_of_fit {r : Row} (fit : p.Fit m r) (size : r.size = .b ∨ r.size = .v) : p.h.sizedBV m p.w = true := by
  have := fit.size
  rcases size with b | v
  · rw [b, sized_b_iff] at this
    simp [Hdr.sizedBV, this]
  · rw [v] at this
    simp [Hdr.sizedBV, this]


theorem wide_of_fit {r : Row} (fit : p.Fit m r) (wide : r.size ≠ .b ∧ r.size ≠ .none) : p.w ≠ .w8 :=
  ne_w8_of_sized fit.size wide

theorem imm8ok_of_fit {r : Row} (fit : p.Fit m r) (wide : r.size ≠ .b ∧ r.size ≠ .none) (imm : r.imm = .ibs) :
    imm8ok p.w p.imm = true := by
  have fits := fit.imm
  rw [imm] at fits
  have := fits (by cases h : p.w <;> simp_all [Width.bits])
  simpa [imm8ok] using this

theorem immz_of_fit {r : Row} (fit : p.Fit m r) (wide : r.size ≠ .b ∧ r.size ≠ .none) (imm : r.imm = .iz) :
    trunc p.w (sext (izWidth p.w) p.imm) = p.imm := by
  have fits := fit.imm
  rw [imm] at fits
  exact fits (izWidth_le (wide_of_fit fit wide))

theorem immBZok_of_fit {r : Row} (fit : p.Fit m r) (imm : r.size = .b ∧ r.imm = .ib ∨ r.size = .v ∧ r.imm = .iz) :
    immBZok p.w p.imm = true := by
  have size := fit.size
  rcases imm with ⟨b, ib⟩ | ⟨v, iz⟩
  · rw [b, sized_b_iff] at size
    have fits := fit.imm
    rw [ib] at fits
    rw [size]
    exact beq_iff_eq.mpr fits
  · rw [v] at size
    have wide : r.size ≠ .b ∧ r.size ≠ .none := by simp [v]
    have := wide_of_fit fit wide
    have := immz_of_fit fit wide iz
    cases h : p.w <;> simp_all [immBZok]

/-- The rows of a two-operand operation (R453), by its number and the constructor. -/
def aluRows (n : Nat) (lock : Bool) (k : Hdr → AluForm → Instr) : List Row := [
  ⟨.m1, 8 * n, .exact, .all, .any, none, .b, .none, lock, .no, .always, false, fun p => k p.h (.mr p.w p.rm p.reg)⟩,
  ⟨.m1, 8 * n + 1, .exact, .all, .any, none, .v, .none, lock, .no, .always, false,
    fun p => k p.h (.mr p.w p.rm p.reg)⟩,
  ⟨.m1, 8 * n + 2, .exact, .all, .any, none, .b, .none, false, .no, .always, false,
    fun p => k p.h (.rm p.w p.reg p.rm)⟩,
  ⟨.m1, 8 * n + 3, .exact, .all, .any, none, .v, .none, false, .no, .always, false,
    fun p => k p.h (.rm p.w p.reg p.rm)⟩,
  ⟨.m1, 8 * n + 4, .exact, .all, .noModRM, none, .b, .ib, false, .no, .always, false,
    fun p => k p.h (.acc p.w p.imm)⟩,
  ⟨.m1, 8 * n + 5, .exact, .all, .noModRM, none, .v, .iz, false, .no, .always, false,
    fun p => k p.h (.acc p.w p.imm)⟩,
  ⟨.m1, 0x80, .exact, .all, .any, (some n), .b, .ib, lock, .no, .always, false,
    fun p => k p.h (.mi p.w p.rm p.imm)⟩,
  ⟨.m1, 0x81, .exact, .all, .any, (some n), .v, .iz, lock, .no, .always, false,
    fun p => k p.h (.mi p.w p.rm p.imm)⟩,
  ⟨.m1, 0x83, .exact, .all, .any, (some n), .v, .ibs, lock, .no, .always, false,
    fun p => k p.h (.mis p.w p.rm p.imm)⟩]

/-- The rows of a shift or rotate (R500), by its digit. -/
def shiftRows (d : Nat) (k : Hdr → Width → RM → ShiftCount → Instr) : List Row := [
  ⟨.m1, 0xC0, .exact, .all, .any, (some d), .b, .ib, false, .no, .always, false,
    fun p => k p.h p.w p.rm (.imm (p.imm.setWidth 8))⟩,
  ⟨.m1, 0xC1, .exact, .all, .any, (some d), .v, .ib, false, .no, .always, false,
    fun p => k p.h p.w p.rm (.imm (p.imm.setWidth 8))⟩,
  ⟨.m1, 0xD0, .exact, .all, .any, (some d), .b, .none, false, .no, .always, false, fun p => k p.h p.w p.rm .one⟩,
  ⟨.m1, 0xD1, .exact, .all, .any, (some d), .v, .none, false, .no, .always, false, fun p => k p.h p.w p.rm .one⟩,
  ⟨.m1, 0xD2, .exact, .all, .any, (some d), .b, .none, false, .no, .always, false, fun p => k p.h p.w p.rm .cl⟩,
  ⟨.m1, 0xD3, .exact, .all, .any, (some d), .v, .none, false, .no, .always, false, fun p => k p.h p.w p.rm .cl⟩]

theorem rowsArith_eq : rowsArith = aluRows 0 true .add ++ (aluRows 1 true .or ++ (aluRows 2 true .adc ++
    aluRows 3 true .sbb)) := rfl

theorem rowsLogic_eq : rowsLogic = aluRows 4 true .and ++ (aluRows 5 true .sub ++ (aluRows 6 true .xor ++
    (aluRows 7 false .cmp ++ rowsLogic.drop 36))) := rfl

theorem rowsShift_eq : rowsShift = shiftRows 0 .rol ++ (shiftRows 1 .ror ++ (shiftRows 4 .shl ++ (shiftRows 5 .shr ++
    shiftRows 7 .sar))) := rfl

/-- A row builds a well-formed instruction from whatever the decoder gives it. -/
def Row.BuildsWf (m : DecodeMode) (r : Row) : Prop := ∀ p : Parts, p.Fit m r → (r.build p).wf m = true

theorem buildsWf_alu {n : Nat} {lock : Bool} {k : Hdr → AluForm → Instr}
    (wf : ∀ h f, (k h f).wf m = (h.wf m && f.wf m h lock)) : ∀ r ∈ aluRows n lock k, r.BuildsWf m := by
  have locks {r : Row} {p : Parts} (fit : p.Fit m r) (same : r.lock = lock) (rep : r.rep = .no) :
      (if lock = true then p.h.lockable p.rm else p.h.plain) = true := by
    cases lock with
    | true => exact lockable_of_fit fit rep
    | false => exact plain_of_fit fit same rep
  simp only [aluRows, List.forall_mem_cons, List.not_mem_nil, false_imp_iff, implies_true, and_true]
  refine ⟨?_, ?_, ?_, ?_, ?_, ?_, ?_, ?_, ?_⟩ <;> intro p fit <;> simp only [wf, AluForm.wf, fit.hdr, Bool.true_and]
  · simp [sizedBV_of_fit fit (.inl rfl), rm_of_fit fit rfl, fit.reg, locks fit rfl rfl]
  · simp [sizedBV_of_fit fit (.inr rfl), rm_of_fit fit rfl, fit.reg, locks fit rfl rfl]
  · simp [sizedBV_of_fit fit (.inl rfl), rm_of_fit fit rfl, fit.reg, plain_of_fit fit rfl rfl]
  · simp [sizedBV_of_fit fit (.inr rfl), rm_of_fit fit rfl, fit.reg, plain_of_fit fit rfl rfl]
  · simp [sizedBV_of_fit fit (.inl rfl), immBZok_of_fit fit (.inl ⟨rfl, rfl⟩), plain_of_fit fit rfl rfl]
  · simp [sizedBV_of_fit fit (.inr rfl), immBZok_of_fit fit (.inr ⟨rfl, rfl⟩), plain_of_fit fit rfl rfl]
  · simp [sizedBV_of_fit fit (.inl rfl), rm_of_fit fit rfl, immBZok_of_fit fit (.inl ⟨rfl, rfl⟩), locks fit rfl rfl]
  · simp [sizedBV_of_fit fit (.inr rfl), rm_of_fit fit rfl, immBZok_of_fit fit (.inr ⟨rfl, rfl⟩), locks fit rfl rfl]
  · have size := fit.size
    simp [size, rm_of_fit fit rfl, imm8ok_of_fit fit ⟨nofun, nofun⟩ rfl, locks fit rfl rfl]

theorem buildsWf_shift {d : Nat} {k : Hdr → Width → RM → ShiftCount → Instr}
    (wf : ∀ h w dst c, (k h w dst c).wf m = (h.wf m && h.plain && h.sizedBV m w && dst.wf m h w)) :
    ∀ r ∈ shiftRows d k, r.BuildsWf m := by
  simp only [shiftRows, List.forall_mem_cons, List.not_mem_nil, false_imp_iff, implies_true, and_true]
  and_intros <;> intro p fit <;> rw [wf, fit.hdr, plain_of_fit fit rfl rfl, rm_of_fit fit rfl]
  · simp [sizedBV_of_fit fit (.inl rfl)]
  · simp [sizedBV_of_fit fit (.inr rfl)]
  · simp [sizedBV_of_fit fit (.inl rfl)]
  · simp [sizedBV_of_fit fit (.inr rfl)]
  · simp [sizedBV_of_fit fit (.inl rfl)]
  · simp [sizedBV_of_fit fit (.inr rfl)]


theorem legacy_of_fit {r : Row} (fit : p.Fit m r) (modes : r.modes = .legacy) : m ≠ .m64 := by
  simpa [modes, Modes.has] using fit.modes

theorem long_of_fit {r : Row} (fit : p.Fit m r) (modes : r.modes = .long) : (m == .m64) = true := by
  simpa [modes, Modes.has] using fit.modes

theorem relOk_of_fit {r : Row} (fit : p.Fit m r) : (r.imm = .rel8 → relOk p.w .rel8 p.imm = true) ∧
    (r.imm = .relz → relOk p.w .relz p.imm = true) := by
  have fits := fit.imm
  refine ⟨fun imm => ?_, fun imm => ?_⟩ <;> rw [imm] at fits <;> exact beq_iff_eq.mpr fits

theorem trunc_of_fit {r : Row} (fit : p.Fit m r) (imm : r.imm = .iv ∨ r.size = .b ∧ r.imm = .ib) :
    trunc p.w p.imm = p.imm := by
  have fits := fit.imm
  have size := fit.size
  rcases imm with iv | ⟨b, ib⟩
  · rwa [iv] at fits
  · rw [b, sized_b_iff] at size
    rw [ib] at fits
    rwa [size]

theorem rep_of_fit {r : Row} (fit : p.Fit m r) : (r.rep = .rep → p.h.rep ≠ .repne) ∧
    (r.rep = .f3 → p.h.rep = .rep) := by
  have := fit.rep
  refine ⟨fun use => ?_, fun use => ?_⟩ <;> rwa [use] at this

theorem lock_of_fit {r : Row} (fit : p.Fit m r) (lock : r.lock = false) : p.h.lock = false := by
  have := fit.lock
  simp_all

theorem rm_wf_of_wide {h : Hdr} {w w' : Width} {rm : RM} (wf : rm.wf m h w = true) (wide : w ≠ .w8) (wide' : w' ≠ .w8) :
    rm.wf m h w' = true := by
  cases rm with
  | mem mo => exact wf
  | reg g =>
    simp only [RM.wf, Gpr.wf] at wf ⊢
    simp_all

theorem rmOther_of_fit {r : Row} (fit : p.Fit m r) : (r.rm8 = true ∨ r.size = .b → p.rm.wf m p.h .w8 = true) ∧
    (r.rm8 = false ∧ r.size ≠ .b ∧ r.size ≠ .none → p.rm.wf m p.h .w16 = true) := by
  have size := fit.size
  refine ⟨fun narrow => ?_, fun ⟨rm8, wide⟩ => rm_wf_of_wide (rm_of_fit fit rm8) (wide_of_fit fit wide) nofun⟩
  rcases narrow with rm8 | b
  · simpa [rm8] using fit.rm
  · rw [b, sized_b_iff] at size
    simpa [size] using fit.rm

/-- The memory operand of a row that admits no register. -/
def Parts.memOp (p : Parts) : MemOp :=
  match p.rm with
  | .mem mo => mo
  | .reg _ => ⟨.ds, none, none, 0, 0, false⟩

theorem withMem_of_fit {r : Row} (fit : p.Fit m r) (mem : r.sel = .mem) :
    (∀ k, p.withMem k = k p.memOp) ∧ p.memOp.wf m p.h = true := by
  have isMem := fit.mem mem
  have wf := fit.rm
  unfold Parts.withMem Parts.memOp
  cases rm : p.rm with
  | reg g => simp [rm, RM.isMem] at isMem
  | mem mo =>
    rw [rm] at wf
    exact ⟨fun _ => rfl, wf⟩

/-- The rows with one build and nothing of their own. -/
theorem buildsWf_plain : ∀ r ∈ rowsLogic.drop 36 ++ (rowsUnary ++ (rowsMove.take 12 ++ (rowsMove.drop 16 ++
    (rowsStack ++ (rowsControl ++ (rowsString ++ rowsSystem)))))), r.BuildsWf m := by
  simp only [rowsLogic, rowsUnary, rowsMove, rowsStack, rowsControl, rowsString, rowsSystem, List.drop_succ_cons,
    List.drop_zero, List.take_succ_cons, List.take_zero, List.forall_mem_append, List.forall_mem_cons, List.not_mem_nil,
    false_imp_iff, implies_true, and_true]
  and_intros <;> intro p fit <;>
    simp [Instr.wf, fit.hdr, plain_of_fit fit, lockable_of_fit fit, sizedBV_of_fit fit, rm_of_fit fit, fit.reg,
      fit.oreg, fit.size, immBZok_of_fit fit, imm8ok_of_fit fit, immz_of_fit fit, legacy_of_fit fit, long_of_fit fit,
      relOk_of_fit fit, trunc_of_fit fit, rep_of_fit fit, lock_of_fit fit, fit.moffs, fit.num0, fit.numNot0, fit.fence,
      rmOther_of_fit fit, withMem_of_fit fit]

theorem sreg_ofNum {n : Nat} (lt : n < 6) : ∃ r, SReg.ofNum n = some r ∧ (r = .cs → n = 1) := by
  match n, lt with
  | 0, _ | 1, _ | 2, _ | 3, _ | 4, _ | 5, _ => exact ⟨_, rfl, by decide⟩

theorem creg_ofNum {n : Nat} (num : n = 0 ∨ n = 2 ∨ n = 3 ∨ n = 4) : ∃ c, CReg.ofNum n = some c := by
  rcases num with rfl | rfl | rfl | rfl <;> exact ⟨_, rfl⟩

/-- The moves of segment and control registers. -/
theorem buildsWf_special : ∀ r ∈ (rowsMove.drop 12).take 4, r.BuildsWf m := by
  simp only [rowsMove, List.drop_succ_cons, List.drop_zero, List.take_succ_cons, List.take_zero, List.forall_mem_cons,
    List.not_mem_nil, false_imp_iff, implies_true, and_true]
  refine ⟨fun p fit => ?_, fun p fit => ?_, fun p fit => ?_, fun p fit => ?_⟩
  · obtain ⟨r, num, -⟩ := sreg_ofNum ((fit.sreg rfl).1 rfl)
    have wf := rm_of_fit fit rfl
    change (buildMovFromSeg p).wf m = true
    simp only [buildMovFromSeg, num]
    cases rm : p.rm with
    | reg g =>
      rw [rm] at wf
      simp [Instr.wf, fit.hdr, plain_of_fit fit, RM.isMem, fit.size, wf]
    | mem mo =>
      rw [rm] at wf
      exact (by simp [Instr.wf, fit.hdr, plain_of_fit fit, RM.isMem, RM.wf, show mo.wf m p.h = true from wf])
  · obtain ⟨lt, ne⟩ := (fit.sreg rfl).2 rfl
    obtain ⟨r, num, cs⟩ := sreg_ofNum lt
    change (buildMovToSeg p).wf m = true
    simp [buildMovToSeg, num, Instr.wf, fit.hdr, plain_of_fit fit, mt cs ne, rmOther_of_fit fit]
  · obtain ⟨rexR, num⟩ := fit.creg rfl (.inl rfl)
    obtain ⟨c, num⟩ := creg_ofNum num
    change (buildMovFromCr p).wf m = true
    simp [buildMovFromCr, num, Instr.wf, fit.hdr, plain_of_fit fit, fit.size, fit.rmN, rexR]
  · obtain ⟨rexR, num⟩ := fit.creg rfl (.inr rfl)
    obtain ⟨c, num⟩ := creg_ofNum num
    change (buildMovToCr p).wf m = true
    simp [buildMovToCr, num, Instr.wf, fit.hdr, plain_of_fit fit, fit.size, fit.rmN, rexR]

/-- Every row builds a well-formed instruction from parts that fit it. -/
theorem buildsWf {r : Row} (hr : r ∈ rows) : r.BuildsWf m := by
  have arith : ∀ r ∈ rowsArith, r.BuildsWf m := by
    rw [rowsArith_eq]
    simp only [List.forall_mem_append]
    exact ⟨buildsWf_alu fun _ _ => rfl, buildsWf_alu fun _ _ => rfl, buildsWf_alu fun _ _ => rfl,
      buildsWf_alu fun _ _ => rfl⟩
  have shift : ∀ r ∈ rowsShift, r.BuildsWf m := by
    rw [rowsShift_eq]
    simp only [List.forall_mem_append]
    exact ⟨buildsWf_shift fun _ _ _ _ => rfl, buildsWf_shift fun _ _ _ _ => rfl, buildsWf_shift fun _ _ _ _ => rfl,
      buildsWf_shift fun _ _ _ _ => rfl, buildsWf_shift fun _ _ _ _ => rfl⟩
  have plain := buildsWf_plain (m := m)
  simp only [List.forall_mem_append] at plain
  obtain ⟨logic, unary, move0, move16, stack, control, string, system⟩ := plain
  have logic : ∀ r ∈ rowsLogic, r.BuildsWf m := by
    rw [rowsLogic_eq]
    simp only [List.forall_mem_append]
    exact ⟨buildsWf_alu fun _ _ => rfl, buildsWf_alu fun _ _ => rfl, buildsWf_alu fun _ _ => rfl,
      buildsWf_alu fun _ _ => rfl, logic⟩
  have move : ∀ r ∈ rowsMove, r.BuildsWf m := by
    have parts : rowsMove = rowsMove.take 12 ++ ((rowsMove.drop 12).take 4 ++ rowsMove.drop 16) := rfl
    rw [parts]
    simp only [List.forall_mem_append]
    exact ⟨move0, buildsWf_special, move16⟩
  revert r
  simp only [rows, List.forall_mem_append]
  exact ⟨⟨⟨⟨⟨⟨⟨⟨arith, logic⟩, unary⟩, shift⟩, move⟩, stack⟩, control⟩, string⟩, system⟩

end

end Sys2Proof
end

section
/-! PROOF. O5: what a decoded instruction was built from. -/

namespace Sys2Proof
open Sys2Proof Sys2Proof.Machine

section
variable {m : DecodeMode} {p : Pfx} {r : Row} {op mr used len v : Nat} {bs rest : List Byte} {short : DecodeResult}
  {w : Width} {rm : RM} {i : Instr} {map : OpMap}

/-- What the prefix loop can record in a mode (R311, R312). -/
def Pfx.Fits (m : DecodeMode) (p : Pfx) : Prop :=
  (m ≠ .m64 → p.rex = none) ∧ (m = .m64 → p.segOv = none ∨ p.segOv = some .fs ∨ p.segOv = some .gs)

theorem fits_next {b : Byte} (fits : p.Fits m) (is : isPrefixByte m b = true) : (p.next m b).Fits m := by
  have some_iff := legacy_isSome_iff m p b
  obtain ⟨no_rex, seg⟩ := fits
  simp only [Pfx.next]
  cases legacy : p.legacy m b.toNat with
  | none =>
    rw [legacy] at some_iff
    refine ⟨fun ne => ?_, seg⟩
    simp [isPrefixByte] at is some_iff
    simp_all
  | some q =>
    unfold Pfx.legacy at legacy
    cases m <;> dsimp only at legacy <;> split at legacy <;> cases legacy <;> simp_all [Pfx.Fits]

theorem fits_after {ps : List Byte} (fits : p.Fits m) (all : ∀ b ∈ ps, isPrefixByte m b = true) :
    (p.after m ps).Fits m := by
  induction ps generalizing p with
  | nil => exact fits
  | cons b ps ih =>
    exact ih (fits_next fits (all b List.mem_cons_self)) fun c hc => all c (List.mem_cons_of_mem b hc)

theorem map_of_candidate (row : r ∈ candidates m p map op) : r.map = map := by
  have := (mem_candidates.mp row).2
  simp only [Row.matchesOpcode, Bool.and_eq_true, beq_iff_eq] at this
  exact this.1.1.1

/-- The ModRM byte of a row and what the row reads after it are an instruction's. -/
structure RowGives (m : DecodeMode) (p : Pfx) (r : Row) (op mr len : Nat) (w : Width) (rm : RM) (v : Nat) (i : Instr) :
    Prop where
  row : r ∈ candidates m p r.map op
  modRM : r.hasModRM = true → r.matchesModRM mr = true ∧ invalidModRM r.map op mr (regNum p.rexR (mr / 8)) = false ∧
    unsupportedModRM r.map op (regNum p.rexR (mr / 8)) = false
  size : opSize r.size m p.os66 p.rexW = some w
  reads : ∃ bs rest, RowReads m p r mr bs w rm v rest
  refused : prefixRefused r p op = false
  lock : p.lock = true → r.lock = true ∧ r.takesMem mr = true
  instr : i = r.build (partsOf (p.toHdr m len) r op mr w rm v)

theorem decodeRow_decoded (eq : decodeRow m p r op mr used bs short = .decoded i) (no : short ≠ .decoded i)
    (row : r ∈ candidates m p r.map op)
    (modRM : r.hasModRM = true → r.matchesModRM mr = true ∧ invalidModRM r.map op mr (regNum p.rexR (mr / 8)) = false ∧
      unsupportedModRM r.map op (regNum p.rexR (mr / 8)) = false) :
    ∃ len w rm v, RowGives m p r op mr len w rm v i ∧ used ≤ len ∧ len ≤ used + bs.length := by
  rcases decodeRow_cases m p r op mr used bs with ⟨-, un⟩ | ⟨w, size, ⟨-, sh⟩ | ⟨rm, v, rest, reads, gives⟩⟩
  · exact absurd ((un short).symm.trans eq) nofun
  · exact absurd ((sh short).symm.trans eq) no
  · have answer := (gives short).symm.trans eq
    unfold rowAnswer at answer
    split at answer
    · cases answer
    · split at answer
      · cases answer
      next refused legal =>
        injection answer with instr
        refine ⟨_, w, rm, v, ⟨row, modRM, size, ⟨bs, rest, reads⟩, by simpa using refused, fun lock => ?_, instr.symm⟩,
          Nat.le_add_right _ _, by omega⟩
        simpa [lock] using legal

theorem decodeModRM_decoded {mr : Byte} (eq : decodeModRM m p map op mr used bs short = .decoded i)
    (no : short ≠ .decoded i) :
    ∃ r len w rm v, RowGives m p r op mr.toNat len w rm v i ∧ used ≤ len ∧ len ≤ used + bs.length := by
  unfold decodeModRM at eq
  split at eq
  · cases eq
  · split at eq
    · cases eq
    next legal supported =>
      cases found : (candidates m p map op).find? (·.matchesModRM mr.toNat) with
      | none => simp [found] at eq
      | some r =>
        simp only [found] at eq
        have mem := List.mem_of_find?_eq_some found
        obtain rfl := map_of_candidate mem
        exact ⟨r, decodeRow_decoded eq no mem fun _ =>
          ⟨by simpa using List.find?_some found, by simpa using legal, by simpa using supported⟩⟩

theorem decodeOpcode_decoded (eq : decodeOpcode m p map op used bs short = .decoded i) (no : short ≠ .decoded i) :
    ∃ r mr len w rm v, RowGives m p r op mr len w rm v i ∧ used ≤ len ∧ len ≤ used + bs.length := by
  rcases decodeOpcode_cases m p map op used bs short with ⟨j, -, inv⟩ | ⟨-, ⟨-, un⟩ | ⟨r, mem, noModRM, row⟩ | ⟨-, mod⟩⟩
  · exact absurd (inv.symm.trans eq) nofun
  · exact absurd (un.symm.trans eq) nofun
  · obtain rfl := map_of_candidate mem
    exact ⟨r, 0, decodeRow_decoded (row.symm.trans eq) no mem fun yes => by simp [noModRM] at yes⟩
  · cases bs with
    | nil => exact absurd (mod.symm.trans eq) no
    | cons mr bs =>
      obtain ⟨r, len, w, rm, v, gives, ge, le⟩ := decodeModRM_decoded (mod.symm.trans eq) no
      exact ⟨r, mr.toNat, len, w, rm, v, gives, by omega, by rw [List.length_cons]; omega⟩

/-- What an instruction was decoded from: prefixes, a row of the table, and the bytes that the row read. -/
theorem decode_decoded {bytes : List Byte} (eq : decode m bytes = .decoded i) :
    ∃ p r op mr len w rm v, p.Fits m ∧ RowGives m p r op mr len w rm v i ∧ 1 ≤ len ∧ len ≤ 15 ∧ len ≤ bytes.length := by
  rw [decode_eq_decodeFrom] at eq
  have no : (if 15 ≤ bytes.length then DecodeResult.tooLong else .truncated) ≠ .decoded i := by split <;> nofun
  generalize (if 15 ≤ bytes.length then DecodeResult.tooLong else .truncated) = short at eq no
  obtain ⟨ps, rest, split, all, first⟩ := exists_prefixes m (bytes.take 15)
  have len := congrArg List.length split
  rw [List.length_take, List.length_append] at len
  rw [split, decodeFrom_prefixes all] at eq
  have fits : (Pfx.empty.after m ps).Fits m := fits_after ⟨fun _ => rfl, fun _ => .inl rfl⟩ all
  cases rest with
  | nil => exact absurd eq no
  | cons b rest =>
    rw [decodeFrom_first (first b rfl)] at eq
    unfold decodeAfterPrefixes at eq
    simp only at eq
    rw [List.length_cons] at len
    split at eq
    · cases rest with
      | nil => exact absurd eq no
      | cons b2 rest =>
        simp only at eq
        split at eq
        · cases eq
        · obtain ⟨r, mr, n, w, rm, v, gives, ge, le⟩ := decodeOpcode_decoded eq no
          rw [List.length_cons] at len
          exact ⟨_, r, _, mr, n, w, rm, v, fits, gives, by omega, by omega, by omega⟩
    · obtain ⟨r, mr, n, w, rm, v, gives, ge, le⟩ := decodeOpcode_decoded eq no
      exact ⟨_, r, _, mr, n, w, rm, v, fits, gives, by omega, by omega, by omega⟩

/-! ### The parts fit the row -/

/-- The rows that need the opcode byte itself fix all of it, and `90` with a register has an operand size. -/
theorem rows_exact : ∀ r ∈ rows, (r.mask = .exact ∨ r.op ∉ [0xAE, 0x8C, 0x8E, 0x20, 0x22]) ∧
    (r.op ∈ [0x8C, 0x8E, 0x20, 0x22] → r.hasModRM = true) ∧ (r.pick = .numNot0 → r.size = .v) ∧
    (r.rep = .f3 → r.pick = .num0F3) ∧ (r.sel = .mem → r.hasModRM = true) := by decide +kernel

theorem immValue_fits (k : ImmKind) {w : Width} (lt : v < 256 ^ immLen k w (addrSize m p.as67)) :
    k.Fits w (immValue k w v) := by
  cases k with
  | none => trivial
  | iw => trivial
  | moffs => trivial
  | ib => exact trunc_ofNat_of_lt (w := .w8) lt
  | iv => exact trunc_ofNat_of_lt lt
  | ibs =>
    intro le
    change trunc w (sext .w8 (trunc w (sextBytes Width.w8.bytes v))) = trunc w (sextBytes Width.w8.bytes v)
    rw [sext_trunc (w' := .w8) le, sextBytes_bytes, sext_sext (Nat.le_refl _)]
  | iz =>
    intro le
    change trunc w (sext (izWidth w) (trunc w (sextBytes (izWidth w).bytes v))) =
      trunc w (sextBytes (izWidth w).bytes v)
    rw [sext_trunc le, sextBytes_bytes, sext_sext (Nat.le_refl _)]
  | rel8 =>
    change sext .w8 (sextBytes Width.w8.bytes v) = sextBytes Width.w8.bytes v
    rw [sextBytes_bytes, sext_sext (Nat.le_refl _)]
  | relz =>
    change sext (izWidth w) (sextBytes (izWidth w).bytes v) = sextBytes (izWidth w).bytes v
    rw [sextBytes_bytes, sext_sext (Nat.le_refl _)]

theorem hdr_wf (fits : p.Fits m) (ge : 1 ≤ len) (le : len ≤ 15) : (p.toHdr m len).wf m = true := by
  obtain ⟨no_rex, seg⟩ := fits
  cases m <;> simp_all [Hdr.wf, Pfx.toHdr, or_assoc]

theorem rm_wf_of_reads (len : Nat) (reads : RowReads m p r mr bs w rm v rest) :
    rm.wf m (p.toHdr m len) (if r.rm8 then .w8 else w) = true ∧ (r.takesMem mr = true → rm.isMem = true) := by
  obtain ⟨bs', operand, -⟩ := reads
  unfold rowOperand at operand
  split at operand
  next mem =>
    obtain ⟨⟨mo, bs'⟩, from_bytes, eq⟩ := Option.map_eq_some_iff.mp operand
    cases eq
    exact ⟨memOperand_wf (bs := bs) (Nat.mod_lt _ (by decide)) from_bytes, fun _ => rfl⟩
  next no =>
    cases operand
    exact ⟨designator_wf (h := p.toHdr m len) (if r.rm8 then .w8 else w) 0 mr, fun yes => absurd yes no⟩

theorem RowGives.fit (gives : RowGives m p r op mr len w rm v i) (fits : p.Fits m) (ge : 1 ≤ len) (le : len ≤ 15) :
    (partsOf (p.toHdr m len) r op mr w rm v).Fit m r := by
  obtain ⟨bs, rest, reads⟩ := gives.reads
  obtain ⟨in_rows, matches_r⟩ := mem_candidates.mp gives.row
  simp only [Row.matchesOpcode, Bool.and_eq_true] at matches_r
  obtain ⟨⟨⟨-, agrees⟩, modes⟩, pick⟩ := matches_r
  obtain ⟨exact_op, has_modRM, pick_size, f3, mem_modRM⟩ := rows_exact r in_rows
  obtain ⟨rm_wf, rm_mem⟩ := rm_wf_of_reads len reads
  have op_eq (special : r.op ∈ [0xAE, 0x8C, 0x8E, 0x20, 0x22]) : op = r.op := by
    rw [exact_op.resolve_right (not_not_intro special)] at agrees
    exact (beq_iff_eq.mp agrees).symm
  obtain ⟨bs', -, imm⟩ := reads
  have refused := gives.refused
  simp only [prefixRefused, Bool.or_eq_false_iff] at refused
  obtain ⟨use, fence⟩ := refused
  refine
    { hdr := hdr_wf fits ge le, size := beq_iff_eq.mpr gives.size, modes := modes
      lock := fun lock => (gives.lock lock).imp id rm_mem
      rep := ?_
      fence := fun map fence_op => ?_
      reg := designator_wf w 2 (mr / 8), oreg := designator_wf w 0 op, rmN := regNum_wf 0 mr
      rm := rm_wf
      mem := fun mem => ?_
      imm := immValue_fits r.imm (takeLE_lt imm)
      moffs := fun moffs => ?_
      num0 := fun num0 => ?_
      numNot0 := fun num => ?_
      sreg := fun map => ?_
      creg := fun map cr => ?_ }
  · change r.rep.Admits p.rep
    unfold RepUse.Admits
    cases is : r.rep with
    | f3 =>
      rw [f3 is] at pick
      simp [Pick.agrees] at pick
      exact pick.2
    | _ => simp_all
  · have := op_eq (by simp [fence_op])
    change p.os66 = false
    simpa [map, fence_op, this] using fence
  · have yes := mem_modRM mem
    have matches_mr := (gives.modRM yes).1
    simp only [Row.matchesModRM, mem, Bool.and_eq_true] at matches_mr
    exact rm_mem (by simp [Row.takesMem, yes, mem, matches_mr.2] )
  · rw [moffs] at imm
    have disp := trunc_ofNat_of_lt (takeLE_lt imm)
    have same : trunc (p.toHdr m len).a (BitVec.ofNat 64 v) = BitVec.ofNat 64 v := disp
    simp [partsOf, MemOp.wfMoffs, same]
  · have zero : regNum p.rexB op = 0 := by
      rcases num0 with is | is <;> rw [is] at pick <;> simp [Pick.agrees] at pick <;> exact pick.1
    have := regNum_ge_iff p.rexB op
    rw [zero] at this
    exact Bool.eq_false_iff.mpr fun rex => absurd (this.mpr rex) (by decide)
  · have ne : regNum p.rexB op ≠ 0 := by
      rw [num] at pick
      simpa [Pick.agrees] using pick
    have wide : w ≠ .w8 := ne_w8_of_sized (h := p.toHdr m len) (beq_iff_eq.mpr gives.size) (by simp [pick_size num])
    change (designator p.rex.isSome w (regNum p.rexB op)).num ≠ 0
    simpa [designator, wide] using ne
  · refine ⟨fun is => ?_, fun is => ?_⟩ <;>
      have legal := (gives.modRM (has_modRM (by simp [is]))).2.1 <;>
      have := op_eq (by simp [is]) <;> subst this <;> simp [invalidModRM, map, is] at legal <;>
      simp only [partsOf] <;> omega
  · obtain ⟨-, legal, supported⟩ := gives.modRM (has_modRM (by rcases cr with is | is <;> simp [is]))
    have := op_eq (by rcases cr with is | is <;> simp [is])
    subst this
    have either : (r.op == 0x20 || r.op == 0x22) = true := by simpa using cr
    simp only [invalidModRM, map, either, Bool.true_and] at legal
    simp only [unsupportedModRM, map, either] at supported
    have small : ∀ n : RegNum, [1, 5, 6, 7, 9, 10, 11, 12, 13, 14, 15].contains n.val = false → (n == 8) = false →
        n.val < 8 ∧ (n.val = 0 ∨ n.val = 2 ∨ n.val = 3 ∨ n.val = 4) := by decide
    obtain ⟨lt, num⟩ := small _ legal (by simpa using supported)
    have := regNum_ge_iff p.rexR (mr / 8)
    exact ⟨Bool.eq_false_iff.mpr fun rex => absurd (this.mpr rex) (by omega), num⟩

theorem hdr_of_wf (wf : i.wf m = true) : ∃ h, i.hdr = some h := by
  cases i with
  | ud2 => exact absurd wf Bool.false_ne_true
  | invalid => exact absurd wf Bool.false_ne_true
  | _ => exact ⟨_, rfl⟩

end

end Sys2Proof

open Sys2Proof Sys2Proof.Machine

/-- Settles O5: the row that built the instruction was given parts that fit it, and their header is the
instruction's. -/
theorem decodedIsWellFormed : Obligations.DecodedIsWellFormed := by
  intro m bytes i eq
  obtain ⟨p, r, op, mr, len, w, rm, v, fits, gives, ge, le, within⟩ := decode_decoded eq
  have in_rows := (mem_candidates.mp gives.row).1
  have wf : i.wf m = true := gives.instr ▸ buildsWf in_rows _ (gives.fit fits ge le)
  obtain ⟨h, hdr⟩ := hdr_of_wf wf
  have is_h : h = p.toHdr m len := hasHdr_build in_rows _ h (gives.instr ▸ hdr)
  exact ⟨wf, h, hdr, is_h ▸ ge, is_h ▸ le, is_h ▸ within⟩
end

section
/-! PROOF. O4: the bytes that the encoder writes are decoded to the instruction they came from. -/

namespace Sys2Proof
open Sys2Proof Sys2Proof.Machine

/-! ### The prefixes (R311, R312) -/

section
variable {m : DecodeMode} {p : Pfx} {h : Hdr}

theorem after_append (ps qs : List Byte) : p.after m (ps ++ qs) = (p.after m ps).after m qs := List.foldl_append

/-- A REX byte (R312). -/
theorem next_rex (r : BitVec 4) : p.next .m64 (0x40 + r.setWidth 8) = { p with rex := some r } ∧
    isPrefixByte .m64 (0x40 + r.setWidth 8) = true := by
  have byte : ∀ r : BitVec 4, [0xF0, 0xF2, 0xF3, 0x26, 0x2E, 0x36, 0x3E, 0x64, 0x65, 0x66, 0x67].contains
      (0x40 + r.setWidth 8 : Byte).toNat = false ∧ (0x40 + r.setWidth 8 : Byte).setWidth 4 = r ∧
      isPrefixByte .m64 (0x40 + r.setWidth 8) = true := by decide
  obtain ⟨old, low, is⟩ := byte r
  have none_iff := legacy_isSome_iff .m64 p (0x40 + r.setWidth 8)
  rw [old] at none_iff
  have legacy : p.legacy .m64 (0x40 + r.setWidth 8 : Byte).toNat = none := by simpa using none_iff
  refine ⟨?_, is⟩
  rw [Pfx.next, legacy, low]
  rfl

/-- The prefix byte of a repeat prefix. -/
def repPrefix : Rep → List Byte
  | .none => []
  | .rep => [0xF3]
  | .repne => [0xF2]

/-- The prefix byte of a segment override. -/
def segPrefix : Option SReg → List Byte
  | none => []
  | some .es => [0x26]
  | some .cs => [0x2E]
  | some .ss => [0x36]
  | some .ds => [0x3E]
  | some .fs => [0x64]
  | some .gs => [0x65]

/-- The REX byte. -/
def rexPrefix : Option (BitVec 4) → List Byte
  | none => []
  | some r => [0x40 + r.setWidth 8]

theorem encodePfx_eq (h : Hdr) : encodePfx h = (if h.lock then [0xF0] else []) ++ (repPrefix h.rep ++
    (segPrefix h.segOv ++ ((if h.os66 then [0x66] else []) ++ ((if h.as67 then [0x67] else []) ++ rexPrefix h.rex))))
    := rfl

/-- The prefix bytes of a header record its fields, each in its turn. -/
theorem after_encodePfx (wf : h.wf m = true) : Pfx.empty.after m (encodePfx h) = h.toPfx ∧
    ∀ b ∈ encodePfx h, isPrefixByte m b = true := by
  obtain ⟨a, lock, use, segOv, os66, as67, rex, len⟩ := h
  simp only [Hdr.wf, Bool.and_eq_true] at wf
  obtain ⟨⟨⟨⟨-, no_rex⟩, seg⟩, -⟩, -⟩ := wf
  constructor
  · simp only [encodePfx_eq, after_append, Hdr.toPfx]
    have lock_byte : Pfx.empty.after m (if lock then [0xF0] else []) = ⟨lock, .none, none, false, false, none⟩ := by
      cases lock <;> rfl
    have rep_byte : Pfx.after m ⟨lock, .none, none, false, false, none⟩
        (repPrefix use) = ⟨lock, use, none, false, false, none⟩ := by
      cases use <;> rfl
    have seg_byte : Pfx.after m ⟨lock, use, none, false, false, none⟩ (segPrefix segOv) =
        ⟨lock, use, segOv, false, false, none⟩ := by
      cases m with
      | m64 =>
        rcases (by simpa [or_assoc] using seg : segOv = none ∨ segOv = some .fs ∨ segOv = some .gs) with rfl | rfl |
          rfl <;>
          rfl
      | _ => rcases segOv with _ | _ | _ | _ | _ | _ | _ <;> rfl
    have os_byte : Pfx.after m ⟨lock, use, segOv, false, false, none⟩ (if os66 then [0x66] else []) =
        ⟨lock, use, segOv, os66, false, none⟩ := by cases os66 <;> rfl
    have as_byte : Pfx.after m ⟨lock, use, segOv, os66, false, none⟩ (if as67 then [0x67] else []) =
        ⟨lock, use, segOv, os66, as67, none⟩ := by cases as67 <;> rfl
    rw [lock_byte, rep_byte, seg_byte, os_byte, as_byte]
    cases rex with
    | none => rfl
    | some r =>
      have is64 : m = .m64 := by simpa using no_rex
      subst is64
      exact (next_rex r).1
  · have legacy : ∀ b : Byte, b ∈ [(0xF0 : Byte), 0xF2, 0xF3, 0x26, 0x2E, 0x36, 0x3E, 0x64, 0x65, 0x66, 0x67] →
        isPrefixByte m b = true := by
      simp only [List.forall_mem_cons, List.not_mem_nil, false_imp_iff, implies_true, and_true]
      cases m <;> decide
    simp only [encodePfx_eq, List.forall_mem_append]
    refine ⟨fun b hb => legacy b ?_, fun b hb => legacy b ?_, fun b hb => legacy b ?_, fun b hb => legacy b ?_,
      fun b hb => legacy b ?_, fun b hb => ?_⟩
    · cases lock <;> simp_all
    · cases use <;> simp_all [repPrefix]
    · rcases segOv with _ | _ | _ | _ | _ | _ | _ <;> simp_all [segPrefix]
    · cases os66 <;> simp_all
    · cases as67 <;> simp_all
    · cases rex with
      | none => exact absurd hb List.not_mem_nil
      | some r =>
        have is64 : m = .m64 := by simpa using no_rex
        subst is64
        rw [List.mem_singleton.mp hb]
        exact (next_rex (p := .empty) r).2

/-! ### The opcode (R313, R314) -/

/-- The bytes of an opcode. -/
def opcodeBytes (map : OpMap) (op : Nat) : List Byte :=
  match map with
  | .m1 => [BitVec.ofNat 8 op]
  | .m0F => [0x0F, BitVec.ofNat 8 op]

/-- Nothing else claims the opcode: no prefix, no escape byte, no opcode of R345 or R346. -/
def plainOpcode (m : DecodeMode) (map : OpMap) (op : Nat) : Bool :=
  decide (op < 256) && (invalidOpcode m map op).isNone &&
    match map with
    | .m1 => !isPrefixByte m (BitVec.ofNat 8 op) && op != 0x0F
    | .m0F => op != 0x38 && op != 0x3A

theorem rows_plain : ∀ r ∈ rows, ∀ m ∈ [DecodeMode.m16, .m32, .m64], r.modes.has m = true →
    (List.range r.mask.count).all (fun k => plainOpcode m r.map (r.firstOp + k)) = true := by decide +kernel

theorem plainOpcode_of_candidate {r : Row} {op : Nat} (row : r ∈ candidates m p r.map op) :
    plainOpcode m r.map op = true := by
  obtain ⟨in_rows, matches_r⟩ := mem_candidates.mp row
  simp only [Row.matchesOpcode, Bool.and_eq_true, agrees_iff] at matches_r
  obtain ⟨⟨⟨-, ge, lt⟩, modes⟩, -⟩ := matches_r
  have all := List.all_eq_true.mp (rows_plain r in_rows m (by cases m <;> decide) modes) (op - r.firstOp)
    (List.mem_range.mpr (by omega))
  rwa [Nat.add_sub_cancel' ge] at all

theorem decodeFrom_opcodeBytes {r : Row} {op used : Nat} (row : r ∈ candidates m p r.map op) (t : List Byte)
    (short : DecodeResult) : invalidOpcode m r.map op = none ∧
      decodeFrom m p used (opcodeBytes r.map op ++ t) short =
        decodeOpcode m p r.map op (used + (opcodeBytes r.map op).length) t short := by
  have plain := plainOpcode_of_candidate row
  generalize r.map = map at plain
  simp only [plainOpcode, Bool.and_eq_true, decide_eq_true_eq, Option.isNone_iff_eq_none] at plain
  obtain ⟨⟨lt, inv⟩, first⟩ := plain
  have toNat : (BitVec.ofNat 8 op).toNat = op := by rw [BitVec.toNat_ofNat]; exact Nat.mod_eq_of_lt lt
  refine ⟨inv, ?_⟩
  cases map with
  | m1 =>
    simp only [Bool.and_eq_true, Bool.not_eq_true', bne_iff_ne, ne_eq] at first
    obtain ⟨no_prefix, no_escape⟩ := first
    refine (decodeFrom_first no_prefix used t short).trans ?_
    simp [decodeAfterPrefixes, toNat, no_escape, opcodeBytes]
  | m0F =>
    simp only [Bool.and_eq_true, bne_iff_ne, ne_eq] at first
    obtain ⟨not38, not3A⟩ := first
    have escape : isPrefixByte m 0x0F = false := by cases m <;> decide
    refine (decodeFrom_first escape used (BitVec.ofNat 8 op :: t) short).trans ?_
    simp [decodeAfterPrefixes, toNat, not38, not3A, opcodeBytes]

/-! ### What a row reads back (R355) -/

/-- After the opcode the bytes `t`, the last of the instruction, give `i`. -/
def OpcodeGives (m : DecodeMode) (h : Hdr) (map : OpMap) (op : Nat) (t : List Byte) (i : Instr) : Prop :=
  ∀ used rest short, used + t.length = h.len → decodeOpcode m h.toPfx map op used (t ++ rest) short = .decoded i

theorem decode_of_opcodeGives {i : Instr} {r : Row} {op : Nat} {t : List Byte} (wf : h.wf m = true)
    (hdr : i.hdr = some h)
    (len : h.len = (encode m i).length) (row : r ∈ candidates m h.toPfx r.map op)
    (body : encodeBody m i = opcodeBytes r.map op ++ t) (gives : OpcodeGives m h r.map op t i) (rest : List Byte) :
    decode m (encode m i ++ rest) = .decoded i := by
  obtain ⟨after, all⟩ := after_encodePfx wf
  have enc : encode m i = encodePfx h ++ (opcodeBytes r.map op ++ t) := by rw [encode, hdr, body]
  have le : (encode m i).length ≤ 15 := by
    simp only [Hdr.wf, Bool.and_eq_true, decide_eq_true_eq] at wf
    omega
  rw [decode_eq_decodeFrom, List.take_append, List.take_of_length_le le, enc, List.append_assoc, decodeFrom_prefixes
    all,
    after, List.append_assoc, (decodeFrom_opcodeBytes row _ _).2]
  refine gives _ _ _ ?_
  rw [len, enc, List.length_append, List.length_append]
  omega

/-- The answer of a row that reads the last bytes of an instruction and refuses nothing. -/
theorem decodeRow_gives {r : Row} {op mr used v : Nat} {t rest : List Byte} {w : Width} {rm : RM}
    (a : h.a = addrSize m h.as67)
    (size : h.sized m r.size w = true) (reads : RowReads m h.toPfx r mr (t ++ rest) w rm v rest)
    (len : used + t.length = h.len) (refused : prefixRefused r h.toPfx op = false)
    (lock : h.lock = true → r.lock = true ∧ r.takesMem mr = true) (short : DecodeResult) :
    decodeRow m h.toPfx r op mr used (t ++ rest) short = .decoded (r.build (partsOf h r op mr w rm v)) := by
  have len' : used + ((t ++ rest).length - rest.length) = h.len := by rw [List.length_append]; omega
  have size' : opSize r.size m h.toPfx.os66 h.toPfx.rexW = some w := beq_iff_eq.mp size
  rw [decodeRow_of_reads size' reads, len', rowAnswer, refused, toHdr_toPfx a]
  have legal : ¬(h.toPfx.lock = true ∧ (r.lock && r.takesMem mr) = false) := by
    rintro ⟨locked, illegal⟩
    simp [lock locked] at illegal
  rw [if_neg Bool.false_ne_true, if_neg legal]

/-- The register-or-memory operand that the encoder writes is the one that a row reads. -/
theorem exists_modRM {r : Row} {w : Width} {rm : RM} (reg : Nat) (a : h.a = addrSize m h.as67)
    (modRM : r.hasModRM = true)
    (sel : r.sel ≠ .ignored) (wf : rm.wf m h (if r.rm8 then .w8 else w) = true) :
    ∃ mr tail, encodeRM m h reg rm = mr :: tail ∧ (mr.toNat / 64 = 3 ↔ rm.isMem = false) ∧ mr.toNat / 8 % 8 = reg % 8 ∧
      ∀ rest, rowOperand m h.toPfx r mr.toNat w (tail ++ rest) = some (rm, rest) := by
  cases rm with
  | reg g =>
    obtain ⟨hi, mid, low⟩ := packByte_toNat (show 3 < 4 by decide) reg g.low
    have low_lt : g.low < 8 := by
      simp only [RM.wf, Gpr.wf] at wf
      simp only [Gpr.low]
      split <;> simp_all <;> omega
    refine ⟨_, [], rfl, by simp [hi, RM.isMem], mid, fun rest => ?_⟩
    have regs : designator h.rex.isSome (if r.rm8 then .w8 else w)
        (regNum (h.rexBit 0) (packByte 3 reg g.low).toNat) = g := designator_low wf (by omega)
    simp only [rowOperand, Row.takesMem, hi, bne_self_eq_false, Bool.and_false, Bool.false_eq_true, if_false]
    exact congrArg (fun g => some (RM.reg g, rest)) regs
  | mem mo =>
    obtain ⟨mr, tail, eq, mem, mid, reads⟩ := readsBack_encodeMem reg (show mo.wf m h = true from wf)
    refine ⟨mr, tail, eq, by simp [mem, RM.isMem], mid, fun rest => ?_⟩
    have takes : r.takesMem mr.toNat = true := by simp [Row.takesMem, modRM, sel, mem]
    have read := reads rest
    rw [a] at read
    simp [rowOperand, takes, show h.toPfx.as67 = h.as67 from rfl, read]

/-- The rows that have an opcode of R345 or R346 with a ModRM byte of their own. -/
theorem rows_legal : ∀ r ∈ rows, r.hasModRM = true → r.sel ≠ .ignored →
    (r.map = .m0F → r.firstOp + r.mask.count ≤ 0x20 ∨ 0x22 < r.firstOp) ∧
    (r.map = .m1 → r.mask = .exact ∧ (r.op = 0x8D → r.sel = .mem) ∧ (r.op = 0xFE → r.digit = some 0 ∨ r.digit = some
    1) ∧
      (r.op = 0xFF → r.digit ≠ none ∧ r.digit ≠ some 7)) := by decide +kernel

/-- R345, R346: a row's own columns exclude what the ModRM byte alone would refuse, but for the segment register. -/
theorem legal_of_row {r : Row} {op mr : Nat} (crn : RegNum) (row : r ∈ candidates m p r.map op)
    (modRM : r.hasModRM = true)
    (sel : r.sel ≠ .ignored) (matches_mr : r.matchesModRM mr = true)
    (sreg : r.map = .m1 → (r.op = 0x8C → mr / 8 % 8 < 6) ∧ (r.op = 0x8E → mr / 8 % 8 < 6 ∧ mr / 8 % 8 ≠ 1)) :
    invalidModRM r.map op mr crn = false ∧ unsupportedModRM r.map op crn = false := by
  obtain ⟨in_rows, matches_r⟩ := mem_candidates.mp row
  simp only [Row.matchesOpcode, Bool.and_eq_true, agrees_iff] at matches_r
  obtain ⟨⟨⟨-, ge, lt⟩, -⟩, -⟩ := matches_r
  have columns := rows_legal r in_rows modRM sel
  simp only [Row.matchesModRM, Bool.and_eq_true] at matches_mr
  obtain ⟨digit, mod⟩ := matches_mr
  cases map : r.map with
  | m0F =>
    have out := columns.1 map
    simp only [invalidModRM, unsupportedModRM]
    have ne : (op == 0x20 || op == 0x22) = false := by simp; omega
    simp [ne]
  | m1 =>
    obtain ⟨exact, lea, fe, ff⟩ := columns.2 map
    obtain ⟨store, load⟩ := sreg map
    have op_eq : op = r.op := by
      simp only [exact, Row.firstOp, OpMask.count] at ge lt
      omega
    subst op_eq
    refine ⟨?_, by simp [unsupportedModRM]⟩
    have lea' : r.op = 0x8D → mr / 64 ≠ 3 := fun is => by simpa [lea is] using mod
    have fe' : r.op = 0xFE → mr / 8 % 8 < 2 := fun is => by rcases fe is with d | d <;> simp [d] at digit <;> omega
    have ff' : r.op = 0xFF → mr / 8 % 8 ≠ 7 := fun is seven => by
      obtain ⟨some_d, ne⟩ := ff is
      cases d : r.digit with
      | none => exact some_d d
      | some d' =>
        rw [d] at digit
        have is_d : mr / 8 % 8 = d' := beq_iff_eq.mp digit
        exact ne (d.trans (congrArg some (is_d.symm.trans seven)))
    simp only [invalidModRM, Bool.or_eq_false_iff, Bool.and_eq_false_iff, beq_eq_false_iff_ne, decide_eq_false_iff_not]
    omega

theorem refused_eq_false {r : Row} {op : Nat} (use : r.rep.Admits h.rep)
    (fence : h.os66 = true → r.map = .m0F → op ≠ 0xAE) :
    prefixRefused r h.toPfx op = false := by
  have rep_eq : h.toPfx.rep = h.rep := rfl
  have os : h.toPfx.os66 = h.os66 := rfl
  unfold RepUse.Admits at use
  simp only [prefixRefused, rep_eq, os, Bool.or_eq_false_iff]
  refine ⟨by cases is : r.rep <;> simp_all, by simpa using fence⟩

/-- A row without a ModRM byte. -/
theorem opcodeGives_noModRM {r : Row} {op v : Nat} {t : List Byte} {w : Width} {i : Instr} (a : h.a = addrSize m h.as67)
    (row : r ∈ candidates m h.toPfx r.map op) (noModRM : r.hasModRM = false) (size : h.sized m r.size w = true)
    (lock : h.lock = false) (use : r.rep.Admits h.rep) (fence : h.os66 = true → r.map = .m0F → op ≠ 0xAE)
    (bytes : t = leBytes (immLen r.imm w h.a) v)
    (build : ∀ rm, r.build (partsOf h r op 0 w rm (v % 256 ^ immLen r.imm w h.a)) = i) : OpcodeGives m h r.map op t i
    := by
  intro used rest short len
  rw [decodeOpcode_of_noModRM (decodeFrom_opcodeBytes (used := 0) row [] .unsupported).1 row noModRM]
  have reads : RowReads m h.toPfx r 0 (t ++ rest) w
      (.reg (designator h.rex.isSome (if r.rm8 then .w8 else w) (regNum (h.rexBit 0) 0)))
      (v % 256 ^ immLen r.imm w h.a) rest := by
    refine ⟨t ++ rest, by simp [rowOperand, Row.takesMem, noModRM]; rfl, ?_⟩
    rw [show addrSize m h.toPfx.as67 = h.a from a.symm, bytes]
    exact takeLE_leBytes _ v rest
  rw [decodeRow_gives a size reads len (refused_eq_false use fence) (by simp [lock]), build]

/-- A row with a ModRM byte whose middle bits are `reg`. -/
theorem opcodeGives_modRM {r : Row} {op v reg : Nat} {w : Width} {rm : RM} {i : Instr} (a : h.a = addrSize m h.as67)
    (row : r ∈ candidates m h.toPfx r.map op) (modRM : r.hasModRM = true) (sel : r.sel ≠ .ignored)
    (size : h.sized m r.size w = true) (lock : h.lock = true → r.lock = true ∧ rm.isMem = true)
    (use : r.rep.Admits h.rep) (fence : h.os66 = true → r.map = .m0F → op ≠ 0xAE)
    (wf : rm.wf m h (if r.rm8 then .w8 else w) = true)
    (sreg : r.map = .m1 → (r.op = 0x8C → reg < 6) ∧ (r.op = 0x8E → reg < 6 ∧ reg ≠ 1))
    (matches_mr : ∀ mr, mr / 8 % 8 = reg % 8 → (mr / 64 = 3 ↔ rm.isMem = false) → r.matchesModRM mr = true)
    (build : ∀ mr, mr / 8 % 8 = reg % 8 → r.build (partsOf h r op mr w rm (v % 256 ^ immLen r.imm w h.a)) = i) :
    OpcodeGives m h r.map op (encodeRM m h reg rm ++ leBytes (immLen r.imm w h.a) v) i := by
  intro used rest short len
  obtain ⟨mr, tail, eq, mem, mid, reads⟩ := exists_modRM reg a modRM sel wf
  have columns := matches_mr mr.toNat mid mem
  have sreg' : r.map = .m1 → (r.op = 0x8C → mr.toNat / 8 % 8 < 6) ∧
      (r.op = 0x8E → mr.toNat / 8 % 8 < 6 ∧ mr.toNat / 8 % 8 ≠ 1) := fun map => by
    obtain ⟨store, load⟩ := sreg map
    constructor <;> intro is
    · have := store is
      omega
    · have := load is
      omega
  obtain ⟨legal, supported⟩ := legal_of_row (regNum h.toPfx.rexR (mr.toNat / 8)) row modRM sel columns sreg'
  have row_reads : RowReads m h.toPfx r mr.toNat ((tail ++ leBytes (immLen r.imm w h.a) v) ++ rest) w rm
      (v % 256 ^ immLen r.imm w h.a) rest := by
    refine ⟨leBytes (immLen r.imm w h.a) v ++ rest, by rw [List.append_assoc]; exact reads _, ?_⟩
    rw [show addrSize m h.toPfx.as67 = h.a from a.symm]
    exact takeLE_leBytes _ v rest
  rw [decodeOpcode_of_modRM (decodeFrom_opcodeBytes (used := 0) row [] .unsupported).1 row modRM]
  rw [eq, List.cons_append, List.length_cons] at len
  rw [eq, List.cons_append, List.cons_append]
  simp only
  rw [decodeModRM_of_row row columns legal supported,
    decodeRow_gives a size row_reads (by omega) (refused_eq_false use fence) fun locked => ?_, build _ mid]
  obtain ⟨lockable, is_mem⟩ := lock locked
  refine ⟨lockable, ?_⟩
  have not3 : mr.toNat / 64 ≠ 3 := fun three => by simp [mem.mp three] at is_mem
  simp [Row.takesMem, modRM, sel, not3]

end

end Sys2Proof
end

section
/-! PROOF. O4: each well-formed instruction is spelled by a row of the table. -/

namespace Sys2Proof
open Sys2Proof Sys2Proof.Machine

section
variable {m : DecodeMode} {h : Hdr} {i : Instr} {r : Row} {w : Width} {rm : RM} {op reg v : Nat}

/-- The encoder writes the opcode of a row and bytes from which the row gives the instruction. -/
def Spelled (m : DecodeMode) (h : Hdr) (i : Instr) : Prop :=
  ∃ r op t, r ∈ candidates m h.toPfx r.map op ∧ encodeBody m i = opcodeBytes r.map op ++ t ∧
    OpcodeGives m h r.map op t i

theorem a_of_wf (wf : h.wf m = true) : h.a = addrSize m h.as67 := by
  simp only [Hdr.wf, Bool.and_eq_true, beq_iff_eq] at wf
  exact wf.1.1.1.1

theorem candidate_of (hr : r ∈ rows) (agrees : r.mask.agrees r.op op = true) (modes : r.modes.has m = true)
    (pick : r.pick.agrees h.toPfx op = true) : r ∈ candidates m h.toPfx r.map op :=
  mem_candidates.mpr ⟨hr, by simp [Row.matchesOpcode, agrees, modes, pick]⟩

theorem pick_always (pick : r.pick = .always) : r.pick.agrees h.toPfx op = true := by rw [pick]; rfl

/-- `66` is refused on the rows of the fences only (R315). -/
theorem rows_no_fence : ∀ r ∈ rows, r.sel ≠ .reg → r.map = .m0F →
    r.firstOp + r.mask.count ≤ 0xAE ∨ 0xAE < r.firstOp := by decide +kernel

theorem no_fence (hr : r ∈ rows) (agrees : r.mask.agrees r.op op = true) (sel : r.sel ≠ .reg) :
    h.os66 = true → r.map = .m0F → op ≠ 0xAE := fun _ map => by
  have := rows_no_fence r hr sel map
  rw [agrees_iff] at agrees
  omega

theorem plain_iff : h.plain = true ↔ h.lock = false ∧ h.rep = .none := by simp [Hdr.plain]

/-- A row without a ModRM byte. -/
theorem spelled_noModRM (wf : h.wf m = true) (hr : r ∈ rows) (op : Nat) (agrees : r.mask.agrees r.op op = true)
    (modes : r.modes.has m = true) (pick : r.pick.agrees h.toPfx op = true) (noModRM : r.sel = .noModRM)
    (size : h.sized m r.size w = true) (lock : h.lock = false) (use : r.rep.Admits h.rep)
    (body : encodeBody m i = opcodeBytes r.map op ++ leBytes (immLen r.imm w h.a) v)
    (build : ∀ rm, r.build (partsOf h r op 0 w rm (v % 256 ^ immLen r.imm w h.a)) = i) : Spelled m h i :=
  have row := candidate_of hr agrees modes pick
  ⟨r, op, _, row, body, opcodeGives_noModRM (a_of_wf wf) row (by simp [Row.hasModRM, noModRM]) size lock use
    (no_fence hr agrees (by simp [noModRM])) rfl build⟩

/-- The prefixes that a row admits beside an operand (R315, R316). -/
theorem lock_of_admitted (ok : h.plain = true ∨ r.lock = true ∧ h.lockable rm = true) :
    (h.lock = true → r.lock = true ∧ rm.isMem = true) ∧ h.rep = .none := by
  rcases ok with plain | ⟨lockable, ok⟩
  · obtain ⟨lock, use⟩ := plain_iff.mp plain
    exact ⟨by simp [lock], use⟩
  · simp only [Hdr.lockable, Bool.and_eq_true, beq_iff_eq] at ok
    obtain ⟨mem, use⟩ := ok
    exact ⟨fun lock => ⟨lockable, by simpa [lock] using mem⟩, use⟩

/-- A row with a ModRM byte for a register-or-memory operand. -/
theorem spelled_modRM (wf : h.wf m = true) (hr : r ∈ rows) (op reg : Nat) (agrees : r.mask.agrees r.op op = true)
    (modes : r.modes.has m = true) (pick : r.pick = .always) (rep : r.rep = .no)
    (sel : r.sel = .any ∨ r.sel = .mem ∧ rm.isMem = true) (digit : ∀ d, r.digit = some d → reg % 8 = d)
    (size : h.sized m r.size w = true) (ok : h.plain = true ∨ r.lock = true ∧ h.lockable rm = true)
    (rm_wf : rm.wf m h (if r.rm8 then .w8 else w) = true)
    (sreg : r.map = .m1 → (r.op = 0x8C → reg < 6) ∧ (r.op = 0x8E → reg < 6 ∧ reg ≠ 1))
    (body : encodeBody m i = opcodeBytes r.map op ++ (encodeRM m h reg rm ++ leBytes (immLen r.imm w h.a) v))
    (build : ∀ mr, mr / 8 % 8 = reg % 8 → r.build (partsOf h r op mr w rm (v % 256 ^ immLen r.imm w h.a)) = i) :
    Spelled m h i := by
  have row := candidate_of (h := h) hr agrees modes (pick_always pick)
  obtain ⟨lock, no_rep⟩ := lock_of_admitted ok
  have columns : ∀ mr, mr / 8 % 8 = reg % 8 → (mr / 64 = 3 ↔ rm.isMem = false) → r.matchesModRM mr = true := by
    intro mr mid mem
    simp only [Row.matchesModRM, Bool.and_eq_true]
    refine ⟨?_, ?_⟩
    · cases d : r.digit with
      | none => rfl
      | some d' => exact beq_iff_eq.mpr (mid.trans (digit d' d))
    · rcases sel with any | ⟨is_mem, rm_mem⟩
      · rw [any]
      · rw [is_mem]
        exact bne_iff_ne.mpr fun three => by simp [mem.mp three] at rm_mem
  have modRM : r.hasModRM = true := by rcases sel with any | ⟨mem, -⟩ <;> simp [Row.hasModRM, *]
  have not_ignored : r.sel ≠ .ignored := by rcases sel with any | ⟨mem, -⟩ <;> simp [*]
  have not_reg : r.sel ≠ .reg := by rcases sel with any | ⟨mem, -⟩ <;> simp [*]
  exact ⟨r, op, _, row, body, opcodeGives_modRM (a_of_wf wf) row modRM not_ignored size lock (by rw [rep]; exact no_rep)
    (no_fence hr agrees not_reg) rm_wf sreg columns build⟩

/-! ### Pairs of rows -/

/-- The row of a pair for a width: the one given at width 8, else the next opcode with the operand size `v`. -/
def Row.at (r : Row) (k : ImmKind) (w : Width) : Row :=
  if w = .w8 then r else { r with op := r.op + 1, size := .v, imm := k }

theorem at_mem {l : List Row} (sub : ∀ r ∈ l, r ∈ rows) (n : Nat) (lt : n + 1 < l.length) (k : ImmKind)
    (next : l[n + 1] = { l[n] with op := l[n].op + 1, size := .v, imm := k }) (w : Width) : l[n].at k w ∈ rows := by
  unfold Row.at
  split
  · exact sub _ (List.getElem_mem _)
  · exact next ▸ sub _ (List.getElem_mem _)

/-- The columns that the rows of a pair share. -/
def Row.PairRow (r : Row) : Prop :=
  r.mask = .exact ∧ r.modes = .all ∧ r.pick = .always ∧ r.size = .b ∧ r.rm8 = false

theorem at_columns (k : ImmKind) (w : Width) : (r.at k w).map = r.map ∧ (r.at k w).mask = r.mask ∧
    (r.at k w).modes = r.modes ∧ (r.at k w).pick = r.pick ∧ (r.at k w).rep = r.rep ∧ (r.at k w).sel = r.sel ∧
    (r.at k w).digit = r.digit ∧ (r.at k w).lock = r.lock ∧ (r.at k w).rm8 = r.rm8 ∧ (r.at k w).build = r.build := by
  unfold Row.at
  split <;> simp

theorem at_op (k : ImmKind) (w : Width) : (r.at k w).op = if w = .w8 then r.op else r.op + 1 := by
  unfold Row.at
  split <;> rfl

theorem at_imm (k : ImmKind) (w : Width) : (r.at k w).imm = if w = .w8 then r.imm else k := by
  unfold Row.at
  split <;> rfl

theorem at_size (b : r.size = .b) (k : ImmKind) (size : h.sizedBV m w = true) : h.sized m (r.at k w).size w = true := by
  unfold Row.at
  split
  next narrow => rw [b, sized_b_iff]; exact narrow
  next wide => simpa [Hdr.sizedBV, wide] using size

theorem opcodeBytes_at (m1 : r.map = .m1) (k : ImmKind) (w : Width) :
    opcodeBytes r.map (r.at k w).op = [pairOp w r.op] := by
  rw [m1, at_op, pairOp]
  cases w <;> rfl

theorem opcodeBytes_at_0F (m0F : r.map = .m0F) (k : ImmKind) (w : Width) :
    opcodeBytes r.map (r.at k w).op = [0x0F, pairOp w r.op] := by
  rw [m0F, at_op, pairOp]
  cases w <;> rfl

/-- A pair of rows with a ModRM byte. -/
theorem spelled_pair {k : ImmKind} (wf : h.wf m = true) (hr : ∀ w, r.at k w ∈ rows) (reg : Nat) (pair : r.PairRow)
    (rep : r.rep = .no) (sel : r.sel = .any) (digit : ∀ d, r.digit = some d → reg % 8 = d)
    (special : r.op + 1 < 0x8C ∨ 0x8E < r.op) (size : h.sizedBV m w = true)
    (ok : h.plain = true ∨ r.lock = true ∧ h.lockable rm = true) (rm_wf : rm.wf m h w = true)
    (body : encodeBody m i = opcodeBytes r.map (r.at k w).op ++
      (encodeRM m h reg rm ++ leBytes (immLen (r.at k w).imm w h.a) v))
    (build : ∀ mr, mr / 8 % 8 = reg % 8 → r.build (partsOf h (r.at k w) (r.at k w).op mr w rm
      (v % 256 ^ immLen (r.at k w).imm w h.a)) = i) : Spelled m h i := by
  obtain ⟨mask, modes, pick, b, rm8⟩ := pair
  obtain ⟨map', mask', modes', pick', rep', sel', digit', lock', rm8', build'⟩ := at_columns (r := r) k w
  refine spelled_modRM wf (hr w) (r.at k w).op reg (by rw [mask', mask]; exact beq_self_eq_true _)
    (by rw [modes', modes]; rfl) (pick'.trans pick) (rep'.trans rep) (.inl (sel'.trans sel))
    (fun d is => digit d (digit'.symm.trans is)) (at_size b k size) (by rw [lock']; exact ok)
    (by rw [rm8', rm8]; exact rm_wf)
    (fun _ => ?_) (by rw [map']; exact body) (by rw [build']; exact build)
  rw [at_op]
  constructor <;> intro is <;> split at is <;> omega

/-- A pair of rows without one. -/
theorem spelled_pair_noModRM {k : ImmKind} (wf : h.wf m = true) (hr : ∀ w, r.at k w ∈ rows) (pair : r.PairRow)
    (sel : r.sel = .noModRM) (size : h.sizedBV m w = true) (lock : h.lock = false) (use : r.rep.Admits h.rep)
    (body : encodeBody m i = opcodeBytes r.map (r.at k w).op ++ leBytes (immLen (r.at k w).imm w h.a) v)
    (build : ∀ rm, r.build (partsOf h (r.at k w) (r.at k w).op 0 w rm (v % 256 ^ immLen (r.at k w).imm w h.a)) = i) :
    Spelled m h i := by
  obtain ⟨mask, modes, pick, b, -⟩ := pair
  obtain ⟨map', mask', modes', pick', rep', sel', -, -, -, build'⟩ := at_columns (r := r) k w
  exact spelled_noModRM wf (hr w) (r.at k w).op (by rw [mask', mask]; exact beq_self_eq_true _)
    (by rw [modes', modes]; rfl)
    (pick_always (pick'.trans pick)) (sel'.trans sel) (at_size b k size) lock (by rw [rep']; exact use)
    (by rw [map']; exact body) (by rw [build']; exact build)

/-! ### Immediates that are read back -/

theorem immBack_ib {imm : Word} (ok : trunc .w8 imm = imm) : immValue .ib w (imm.toNat % 256 ^ 1) = imm :=
  (ofNat_mod_trunc .w8 imm).trans ok

theorem immBack_iv {imm : Word} (ok : trunc w imm = imm) : immValue .iv w (imm.toNat % 256 ^ w.bytes) = imm :=
  (ofNat_mod_trunc w imm).trans ok

theorem immBack_iz {imm : Word} (ok : trunc w (sext (izWidth w) imm) = imm) :
    immValue .iz w (imm.toNat % 256 ^ (izWidth w).bytes) = imm :=
  (congrArg (trunc w) (sextBytes_mod (izWidth w) imm)).trans ok

theorem immBack_ibs {imm : Word} (ok : imm8ok w imm = true) : immValue .ibs w (imm.toNat % 256 ^ 1) = imm :=
  (congrArg (trunc w) (sextBytes_mod .w8 imm)).trans (beq_iff_eq.mp ok)

theorem immBack_rel8 {rel : Word} (ok : relOk w .rel8 rel = true) : immValue .rel8 w (rel.toNat % 256 ^ 1) = rel :=
  (sextBytes_mod .w8 rel).trans (beq_iff_eq.mp ok)

theorem immBack_relz {rel : Word} (ok : relOk w .relz rel = true) :
    immValue .relz w (rel.toNat % 256 ^ (izWidth w).bytes) = rel :=
  (sextBytes_mod (izWidth w) rel).trans (beq_iff_eq.mp ok)

/-- The immediate of a pair, 1 byte at width 8 and else `iz`. -/
theorem immBack_pair {a : Width} {imm : Word} (ok : immBZok w imm = true) (ib : r.imm = .ib) :
    immBZ w imm = leBytes (immLen (r.at .iz w).imm w a) imm.toNat ∧
      immValue (r.at .iz w).imm w (imm.toNat % 256 ^ immLen (r.at .iz w).imm w a) = imm := by
  rw [at_imm, ib]
  by_cases narrow : w = .w8
  · subst narrow
    exact ⟨rfl, immBack_ib (beq_iff_eq.mp ok)⟩
  · rw [if_neg narrow]
    refine ⟨?_, immBack_iz ?_⟩
    · cases w <;> simp_all [immBZ, immLen]
    · cases w <;> simp_all [immBZok]

/-! ### The shapes of rows -/

/-- A pair with a register-or-memory operand alone, or with a register beside it. -/
theorem spelled_pair_rm (wf : h.wf m = true) (hr : ∀ w, r.at .none w ∈ rows) (reg : Nat) (pair : r.PairRow)
    (columns : r.rep = .no ∧ r.sel = .any ∧ r.imm = .none) (digit : ∀ d, r.digit = some d → reg % 8 = d)
    (special : r.op + 1 < 0x8C ∨ 0x8E < r.op) (size : h.sizedBV m w = true)
    (ok : h.plain = true ∨ r.lock = true ∧ h.lockable rm = true) (rm_wf : rm.wf m h w = true)
    (body : encodeBody m i = opcodeBytes r.map (r.at .none w).op ++ encodeRM m h reg rm)
    (build : ∀ mr v, mr / 8 % 8 = reg % 8 → r.build (partsOf h (r.at .none w) (r.at .none w).op mr w rm v) = i) :
    Spelled m h i := by
  obtain ⟨rep, sel, imm⟩ := columns
  have no_imm : (r.at .none w).imm = .none := by rw [at_imm, imm]; exact ite_self _
  refine spelled_pair (v := 0) wf hr reg pair rep sel digit special size ok rm_wf ?_ fun mr mid => build mr _ mid
  rw [body, no_imm]
  exact congrArg _ (List.append_nil _).symm

/-- A pair with a register-or-memory operand and an immediate. -/
theorem spelled_pair_imm {imm : Word} (wf : h.wf m = true) (hr : ∀ w, r.at .iz w ∈ rows) (reg : Nat) (pair : r.PairRow)
    (columns : r.rep = .no ∧ r.sel = .any ∧ r.imm = .ib) (digit : ∀ d, r.digit = some d → reg % 8 = d)
    (special : r.op + 1 < 0x8C ∨ 0x8E < r.op) (size : h.sizedBV m w = true)
    (ok : h.plain = true ∨ r.lock = true ∧ h.lockable rm = true) (rm_wf : rm.wf m h w = true)
    (imm_ok : immBZok w imm = true)
    (body : encodeBody m i = opcodeBytes r.map (r.at .iz w).op ++ (encodeRM m h reg rm ++ immBZ w imm))
    (build : ∀ p : Parts, p.h = h → p.w = w → p.rm = rm → p.imm = imm → r.build p = i) : Spelled m h i := by
  obtain ⟨rep, sel, ib⟩ := columns
  obtain ⟨bytes, back⟩ := immBack_pair (a := h.a) imm_ok ib
  refine spelled_pair wf hr reg pair rep sel digit special size ok rm_wf (body.trans (by rw [bytes])) fun mr _ =>
    build _ rfl rfl rfl back

/-- A pair with an immediate alone. -/
theorem spelled_pair_acc {imm : Word} (wf : h.wf m = true) (hr : ∀ w, r.at .iz w ∈ rows) (pair : r.PairRow)
    (columns : r.rep = .no ∧ r.sel = .noModRM ∧ r.imm = .ib) (size : h.sizedBV m w = true) (ok : h.plain = true)
    (imm_ok : immBZok w imm = true) (body : encodeBody m i = opcodeBytes r.map (r.at .iz w).op ++ immBZ w imm)
    (build : ∀ p : Parts, p.h = h → p.w = w → p.imm = imm → r.build p = i) : Spelled m h i := by
  obtain ⟨rep, sel, ib⟩ := columns
  obtain ⟨lock, no_rep⟩ := plain_iff.mp ok
  obtain ⟨bytes, back⟩ := immBack_pair (a := h.a) imm_ok ib
  exact spelled_pair_noModRM wf hr pair sel size lock (by rw [rep]; exact no_rep) (body.trans (by rw [bytes])) fun rm =>
    build _ rfl rfl back

/-- A register operand of ModRM is read back. -/
theorem parts_reg {src : Gpr} (src_wf : src.wf h w 2 = true) {mr : Nat} (mid : mr / 8 % 8 = src.low % 8)
    (low : src.low < 8) :
    (partsOf h r op mr w rm v).reg = src :=
  designator_low src_wf (mid.trans (Nat.mod_eq_of_lt low))

theorem low_lt {k : Nat} {g : Gpr} (wf : g.wf h w k = true) : g.low < 8 := by
  simp only [Gpr.wf] at wf
  simp only [Gpr.low]
  split <;> simp_all <;> omega

@[simp] theorem aluRows_length (n : Nat) (lock : Bool) (k : Hdr → AluForm → Instr) : (aluRows n lock k).length = 9 :=
    rfl

/-- The eight two-operand operations (R453). -/
theorem spelled_alu {n : Nat} {lock : Bool} {k : Hdr → AluForm → Instr} {f : AluForm}
    (sub : ∀ r ∈ aluRows n lock k, r ∈ rows) (lt : n < 8) (enc : encodeBody m (k h f) = encodeAlu m n h f)
    (wf : h.wf m = true) (form : f.wf m h lock = true) : Spelled m h (k h f) := by
  have pair : ∀ {l : Bool} {rm : RM}, (if l = true then h.lockable rm else h.plain) = true →
      h.plain = true ∨ l = true ∧ h.lockable rm = true := by
    intro l rm ok
    cases l <;> simp_all
  cases f with
  | mr w dst src =>
    simp only [AluForm.wf, Bool.and_eq_true] at form
    obtain ⟨⟨⟨size, dst_wf⟩, src_wf⟩, ok⟩ := form
    refine spelled_pair_rm (r := (aluRows n lock k)[0]) wf (at_mem sub 0 (by simp) .none rfl) src.low
      ⟨rfl, rfl, rfl, rfl, rfl⟩ ⟨rfl, rfl, rfl⟩ nofun (.inl ?_) size (pair ok) dst_wf ?_ fun mr v mid =>
        congrArg (fun g => k h (.mr w dst g)) (designator_low src_wf (mid.trans (Nat.mod_eq_of_lt (low_lt src_wf))))
    · change 8 * n + 1 < 0x8C
      omega
    · rw [enc, opcodeBytes_at rfl]
      rfl
  | rm w dst src =>
    simp only [AluForm.wf, Bool.and_eq_true] at form
    obtain ⟨⟨⟨size, dst_wf⟩, src_wf⟩, ok⟩ := form
    refine spelled_pair_rm (r := (aluRows n lock k)[2]) wf (at_mem sub 2 (by simp) .none rfl) dst.low
      ⟨rfl, rfl, rfl, rfl, rfl⟩ ⟨rfl, rfl, rfl⟩ nofun (.inl ?_) size (.inl ok) src_wf ?_ fun mr v mid =>
        congrArg (fun g => k h (.rm w g src)) (designator_low dst_wf (mid.trans (Nat.mod_eq_of_lt (low_lt dst_wf))))
    · change 8 * n + 3 < 0x8C
      omega
    · rw [enc, opcodeBytes_at rfl]
      rfl
  | acc w imm =>
    simp only [AluForm.wf, Bool.and_eq_true] at form
    obtain ⟨⟨size, imm_ok⟩, ok⟩ := form
    refine spelled_pair_acc (r := (aluRows n lock k)[4]) wf (at_mem sub 4 (by simp) .iz rfl)
      ⟨rfl, rfl, rfl, rfl, rfl⟩ ⟨rfl, rfl, rfl⟩ size ok imm_ok ?_ fun p h w imm => ?_
    · rw [enc, opcodeBytes_at rfl]
      rfl
    · subst h w imm
      rfl
  | mi w dst imm =>
    simp only [AluForm.wf, Bool.and_eq_true] at form
    obtain ⟨⟨⟨size, dst_wf⟩, imm_ok⟩, ok⟩ := form
    refine spelled_pair_imm (r := (aluRows n lock k)[6]) wf (at_mem sub 6 (by simp) .iz rfl) n
      ⟨rfl, rfl, rfl, rfl, rfl⟩ ⟨rfl, rfl, rfl⟩ (fun d is => ?_) (.inl (show 0x80 + 1 < 0x8C by decide)) size
      (pair ok) dst_wf imm_ok ?_
      fun p h w rm imm => ?_
    · rw [Nat.mod_eq_of_lt lt]
      exact Option.some.inj is
    · rw [enc, opcodeBytes_at rfl]
      rfl
    · subst h w rm imm
      rfl
  | mis w dst imm =>
    simp only [AluForm.wf, Bool.and_eq_true] at form
    obtain ⟨⟨⟨size, dst_wf⟩, imm_ok⟩, ok⟩ := form
    refine spelled_modRM (r := (aluRows n lock k)[8]) (v := imm.toNat) wf (sub _ (List.getElem_mem _)) 0x83 n rfl rfl
      rfl rfl
      (.inl rfl) (fun d is => ?_) size (pair ok) dst_wf (fun _ => ⟨nofun, nofun⟩) ?_ fun mr _ => ?_
    · rw [Nat.mod_eq_of_lt lt]
      exact Option.some.inj is
    · rw [enc]
      rfl
    · exact congrArg (fun imm => k h (.mis w dst imm)) (immBack_ibs imm_ok)

end

end Sys2Proof
end

section
/-! PROOF. O4: the row that spells each instruction. -/

namespace Sys2Proof
open Sys2Proof Sys2Proof.Machine

section
variable {m : DecodeMode} {h : Hdr} {i : Instr} {r : Row} {w : Width} {rm : RM} {op reg v : Nat}

/-! ### The lists of rows -/

theorem mem_logic : ∀ r ∈ rowsLogic, r ∈ rows := fun r hr => by simp [rows, hr]
theorem mem_unary : ∀ r ∈ rowsUnary, r ∈ rows := fun r hr => by simp [rows, hr]
theorem mem_shift : ∀ r ∈ rowsShift, r ∈ rows := fun r hr => by simp [rows, hr]
theorem mem_move : ∀ r ∈ rowsMove, r ∈ rows := fun r hr => by simp [rows, hr]
theorem mem_stack : ∀ r ∈ rowsStack, r ∈ rows := fun r hr => by simp [rows, hr]
theorem mem_control : ∀ r ∈ rowsControl, r ∈ rows := fun r hr => by simp [rows, hr]
theorem mem_string : ∀ r ∈ rowsString, r ∈ rows := fun r hr => by simp [rows, hr]
theorem mem_system : ∀ r ∈ rowsSystem, r ∈ rows := fun r hr => by simp [rows, hr]

theorem mem_aluRows {n : Nat} {lock : Bool} {k : Hdr → AluForm → Instr}
    (among : aluRows n lock k ⊆ rowsArith ++ rowsLogic) : ∀ r ∈ aluRows n lock k, r ∈ rows := fun r hr => by
  have := List.mem_append.mp (among hr)
  rcases this with hr | hr <;> simp [rows, hr]

/-! ### Single rows -/

/-- A register operand of ModRM is read back. -/
theorem reg_back {g : Gpr} (wf : g.wf h w 2 = true) {mr : Nat} (mid : mr / 8 % 8 = g.low % 8) :
    designator h.rex.isSome w (regNum (h.rexBit 2) (mr / 8)) = g :=
  designator_low wf (mid.trans (Nat.mod_eq_of_lt (low_lt wf)))

/-- A register operand in the opcode is read back. -/
theorem oreg_back {g : Gpr} (wf : g.wf h w 0 = true) {base : Nat} (aligned : base % 8 = 0) :
    designator h.rex.isSome w (regNum (h.rexBit 0) (base + g.low)) = g := by
  have := low_lt wf
  exact designator_low wf (by omega)

theorem cc_back (cc : CC) {base : Nat} (aligned : base % 16 = 0) : CC.ofNum ((base + cc.num) % 16) = cc := by
  have eq : (base + cc.num) % 16 = cc.num := by cases cc <;> simp only [CC.num] <;> omega
  rw [eq]
  cases cc <;> rfl

theorem plusR_agrees {g : Gpr} {k : Nat} (wf : g.wf h w k = true) {base : Nat} (aligned : base % 8 = 0) :
    OpMask.plusR.agrees base (base + g.low) = true := by
  have := low_lt wf
  exact beq_iff_eq.mpr (by omega)

theorem plusCC_agrees (cc : CC) {base : Nat} (aligned : base % 16 = 0) :
    OpMask.plusCC.agrees base (base + cc.num) = true := by
  have : cc.num < 16 := by cases cc <;> decide
  exact beq_iff_eq.mpr (by omega)

/-- A row with a register-or-memory operand and no immediate. -/
theorem spelled_rm (wf : h.wf m = true) (hr : r ∈ rows) (op reg : Nat) (agrees : r.mask.agrees r.op op = true)
    (modes : r.modes.has m = true) (columns : r.pick = .always ∧ r.rep = .no ∧ r.imm = .none)
    (sel : r.sel = .any ∨ r.sel = .mem ∧ rm.isMem = true) (digit : ∀ d, r.digit = some d → reg % 8 = d)
    (size : h.sized m r.size w = true) (ok : h.plain = true)
    (rm_wf : rm.wf m h (if r.rm8 then .w8 else w) = true)
    (sreg : r.map = .m1 → (r.op = 0x8C → reg < 6) ∧ (r.op = 0x8E → reg < 6 ∧ reg ≠ 1))
    (body : encodeBody m i = opcodeBytes r.map op ++ encodeRM m h reg rm)
    (build : ∀ mr v, mr / 8 % 8 = reg % 8 → r.build (partsOf h r op mr w rm v) = i) : Spelled m h i := by
  obtain ⟨pick, rep, imm⟩ := columns
  refine spelled_modRM (v := 0) wf hr op reg agrees modes pick rep sel digit size (.inl ok) rm_wf sreg ?_ fun mr mid =>
    build mr _ mid
  rw [body, imm]
  exact congrArg _ (List.append_nil _).symm

/-- A row that is one opcode. -/
theorem spelled_op (wf : h.wf m = true) (hr : r ∈ rows) (op : Nat) (agrees : r.mask.agrees r.op op = true)
    (modes : r.modes.has m = true) (pick : r.pick.agrees h.toPfx op = true)
    (columns : r.sel = .noModRM ∧ r.rep = .no ∧ r.imm = .none) (size : h.sized m r.size w = true) (ok : h.plain = true)
    (body : encodeBody m i = opcodeBytes r.map op) (build : ∀ rm v, r.build (partsOf h r op 0 w rm v) = i) :
    Spelled m h i := by
  obtain ⟨sel, rep, imm⟩ := columns
  obtain ⟨lock, no_rep⟩ := plain_iff.mp ok
  refine spelled_noModRM (v := 0) wf hr op agrees modes pick sel size lock (by rw [rep]; exact no_rep) ?_ fun rm =>
    build rm _
  rw [body, imm]
  exact (List.append_nil _).symm

/-- A row that is an opcode and an immediate. -/
theorem spelled_opImm (wf : h.wf m = true) (hr : r ∈ rows) (op v : Nat) (agrees : r.mask.agrees r.op op = true)
    (modes : r.modes.has m = true) (columns : r.sel = .noModRM ∧ r.pick = .always ∧ r.rep = .no)
    (size : h.sized m r.size w = true) (ok : h.plain = true)
    (body : encodeBody m i = opcodeBytes r.map op ++ leBytes (immLen r.imm w h.a) v)
    (build : ∀ rm, r.build (partsOf h r op 0 w rm (v % 256 ^ immLen r.imm w h.a)) = i) : Spelled m h i := by
  obtain ⟨sel, pick, rep⟩ := columns
  obtain ⟨lock, no_rep⟩ := plain_iff.mp ok
  exact spelled_noModRM wf hr op agrees modes (pick_always pick) sel size lock (by rw [rep]; exact no_rep) body build

/-- A string instruction. -/
theorem spelled_string (wf : h.wf m = true) (hr : ∀ w, r.at .none w ∈ rows) (pair : r.PairRow)
    (columns : r.sel = .noModRM ∧ r.imm = .none) (size : h.sizedBV m w = true) (lock : h.lock = false)
    (use : r.rep.Admits h.rep) (body : encodeBody m i = opcodeBytes r.map (r.at .none w).op)
    (build : ∀ p : Parts, p.h = h → p.w = w → r.build p = i) : Spelled m h i := by
  obtain ⟨sel, imm⟩ := columns
  have no_imm : (r.at .none w).imm = .none := by rw [at_imm, imm]; exact ite_self _
  refine spelled_pair_noModRM (v := 0) wf hr pair sel size lock use ?_ fun rm => build _ rfl rfl
  rw [body, no_imm]
  exact (List.append_nil _).symm

/-! ### Instructions with several forms -/

theorem spelled_test {f : TestForm} (wf : (Instr.test h f).wf m = true) : Spelled m h (.test h f) := by
  cases f with
  | mr w a b =>
    simp only [Instr.wf, Bool.and_eq_true] at wf
    obtain ⟨⟨⟨⟨wf, ok⟩, size⟩, a_wf⟩, b_wf⟩ := wf
    exact spelled_pair_rm (r := rowsLogic[36]) wf (at_mem mem_logic 36 (by decide) .none rfl) b.low
      ⟨rfl, rfl, rfl, rfl, rfl⟩ ⟨rfl, rfl, rfl⟩ nofun (.inl (by decide)) size (.inl ok) a_wf
      (by rw [opcodeBytes_at rfl]; rfl) fun mr v mid => congrArg (fun g => Instr.test h (.mr w a g)) (reg_back b_wf mid)
  | acc w imm =>
    simp only [Instr.wf, Bool.and_eq_true] at wf
    obtain ⟨⟨⟨wf, ok⟩, size⟩, imm_ok⟩ := wf
    exact spelled_pair_acc (r := rowsLogic[38]) wf (at_mem mem_logic 38 (by decide) .iz rfl)
      ⟨rfl, rfl, rfl, rfl, rfl⟩ ⟨rfl, rfl, rfl⟩ size ok imm_ok (by rw [opcodeBytes_at rfl]; rfl)
      (by rintro p rfl rfl rfl; rfl)
  | mi w a imm =>
    simp only [Instr.wf, Bool.and_eq_true] at wf
    obtain ⟨⟨⟨⟨wf, ok⟩, size⟩, a_wf⟩, imm_ok⟩ := wf
    exact spelled_pair_imm (r := rowsLogic[40]) wf (at_mem mem_logic 40 (by decide) .iz rfl) 0
      ⟨rfl, rfl, rfl, rfl, rfl⟩ ⟨rfl, rfl, rfl⟩ (by rintro d ⟨⟩; rfl) (.inr (by decide)) size (.inl ok) a_wf imm_ok
      (by rw [opcodeBytes_at rfl]; rfl) (by rintro p rfl rfl rfl rfl; rfl)

/-- A pair of rows of a group: a digit in ModRM, a destination or source, and no immediate. -/
theorem spelled_group {d : Nat} {k : Hdr → Width → RM → Instr} (wf : h.wf m = true) (hr : ∀ w, r.at .none w ∈ rows)
    (pair : r.PairRow) (columns : r.map = .m1 ∧ r.rep = .no ∧ r.sel = .any ∧ r.imm = .none)
    (digit : r.digit = some d) (lt : d < 8) (special : 0x8E < r.op) (size : h.sizedBV m w = true)
    (ok : h.plain = true ∨ r.lock = true ∧ h.lockable rm = true) (rm_wf : rm.wf m h w = true)
    (body : encodeBody m (k h w rm) = pairOp w r.op :: encodeRM m h d rm)
    (build : ∀ p : Parts, r.build p = k p.h p.w p.rm) : Spelled m h (k h w rm) := by
  obtain ⟨m1, rep, sel, imm⟩ := columns
  refine spelled_pair_rm wf hr d pair ⟨rep, sel, imm⟩ (fun d' is => ?_) (.inr special) size ok rm_wf ?_ fun mr v _ =>
    build _
  · rw [Nat.mod_eq_of_lt lt]
    exact Option.some.inj (digit.symm.trans is)
  · rw [body, opcodeBytes_at m1]
    rfl

theorem spelled_inc {f : IncForm} (wf : (Instr.inc h f).wf m = true) : Spelled m h (.inc h f) := by
  cases f with
  | rm w dst =>
    simp only [Instr.wf, Bool.and_eq_true] at wf
    obtain ⟨⟨⟨wf, ok⟩, size⟩, dst_wf⟩ := wf
    exact spelled_group (k := fun h w rm => .inc h (.rm w rm)) (r := rowsUnary[12]) wf
      (at_mem mem_unary 12 (by decide) .none rfl) ⟨rfl, rfl, rfl, rfl, rfl⟩ ⟨rfl, rfl, rfl, rfl⟩ rfl (by decide)
      (by decide) size (.inr ⟨rfl, ok⟩) dst_wf rfl fun _ => rfl
  | short w g =>
    simp only [Instr.wf, Bool.and_eq_true] at wf
    obtain ⟨⟨⟨⟨wf, ok⟩, legacy⟩, size⟩, g_wf⟩ := wf
    exact spelled_op (r := rowsUnary[14]) wf (mem_unary _ (List.getElem_mem _)) (0x40 + g.low) (plusR_agrees g_wf rfl)
      legacy
      rfl ⟨rfl, rfl, rfl⟩ size ok rfl fun _ _ => congrArg (fun g => Instr.inc h (.short w g)) (oreg_back g_wf rfl)

theorem spelled_dec {f : IncForm} (wf : (Instr.dec h f).wf m = true) : Spelled m h (.dec h f) := by
  cases f with
  | rm w dst =>
    simp only [Instr.wf, Bool.and_eq_true] at wf
    obtain ⟨⟨⟨wf, ok⟩, size⟩, dst_wf⟩ := wf
    exact spelled_group (k := fun h w rm => .dec h (.rm w rm)) (r := rowsUnary[15]) wf
      (at_mem mem_unary 15 (by decide) .none rfl) ⟨rfl, rfl, rfl, rfl, rfl⟩ ⟨rfl, rfl, rfl, rfl⟩ rfl (by decide)
      (by decide) size (.inr ⟨rfl, ok⟩) dst_wf rfl fun _ => rfl
  | short w g =>
    simp only [Instr.wf, Bool.and_eq_true] at wf
    obtain ⟨⟨⟨⟨wf, ok⟩, legacy⟩, size⟩, g_wf⟩ := wf
    exact spelled_op (r := rowsUnary[17]) wf (mem_unary _ (List.getElem_mem _)) (0x48 + g.low) (plusR_agrees g_wf rfl)
      legacy
      rfl ⟨rfl, rfl, rfl⟩ size ok rfl fun _ _ => congrArg (fun g => Instr.dec h (.short w g)) (oreg_back g_wf rfl)

@[simp] theorem shiftRows_length (d : Nat) (k : Hdr → Width → RM → ShiftCount → Instr) : (shiftRows d k).length = 6 :=
    rfl

/-- The shifts and rotates (R500). -/
theorem spelled_shift {d : Nat} {k : Hdr → Width → RM → ShiftCount → Instr} {dst : RM} {c : ShiftCount}
    (among : shiftRows d k ⊆ rowsShift) (lt : d < 8) (enc : encodeBody m (k h w dst c) = encodeShift m d h w dst c)
    (wf : (h.wf m && h.plain && h.sizedBV m w && dst.wf m h w) = true) : Spelled m h (k h w dst c) := by
  have sub : ∀ r ∈ shiftRows d k, r ∈ rows := fun r hr => mem_shift r (among hr)
  simp only [Bool.and_eq_true] at wf
  obtain ⟨⟨⟨wf, ok⟩, size⟩, dst_wf⟩ := wf
  cases c with
  | imm b =>
    have imm_len : immLen ((shiftRows d k)[0].at .ib w).imm w h.a = 1 := by
      rw [at_imm]
      split <;> rfl
    have back : (immValue ((shiftRows d k)[0].at .ib w).imm w (b.toNat % 256 ^ 1)).setWidth 8 = b := by
      have ib : ((shiftRows d k)[0].at .ib w).imm = .ib := (at_imm .ib w).trans (ite_self _)
      rw [ib]
      refine BitVec.eq_of_toNat_eq ?_
      have := b.isLt
      simp [immValue]
      omega
    refine spelled_pair (r := (shiftRows d k)[0]) (k := .ib) (v := b.toNat) wf (at_mem sub 0 (by simp) .ib rfl) d
      ⟨rfl, rfl, rfl, rfl, rfl⟩ rfl rfl (fun d' is => ?_) (.inr (show 0x8E < 0xC0 by decide)) size (.inl ok) dst_wf ?_
      fun mr _ => ?_
    · rw [Nat.mod_eq_of_lt lt]
      exact Option.some.inj is
    · rw [enc, opcodeBytes_at rfl, imm_len]
      simp [encodeShift, leBytes]
      rfl
    · rw [imm_len]
      exact congrArg (fun b => k h w dst (.imm b)) back
  | one =>
    exact spelled_group (k := fun h w dst => k h w dst .one) (r := (shiftRows d k)[2]) wf
      (at_mem sub 2 (by simp) .none rfl)
      ⟨rfl, rfl, rfl, rfl, rfl⟩ ⟨rfl, rfl, rfl, rfl⟩ rfl lt (show 0x8E < 0xD0 by decide) size (.inl ok) dst_wf enc
      fun _ => rfl
  | cl =>
    exact spelled_group (k := fun h w dst => k h w dst .cl) (r := (shiftRows d k)[4]) wf
      (at_mem sub 4 (by simp) .none rfl)
      ⟨rfl, rfl, rfl, rfl, rfl⟩ ⟨rfl, rfl, rfl, rfl⟩ rfl lt (show 0x8E < 0xD2 by decide) size (.inl ok) dst_wf enc
      fun _ => rfl

/-- A pair with an absolute address (R332). -/
theorem spelled_pair_moffs {mo : MemOp} (wf : h.wf m = true) (hr : ∀ w, r.at .moffs w ∈ rows) (pair : r.PairRow)
    (columns : r.rep = .no ∧ r.sel = .noModRM ∧ r.imm = .moffs) (size : h.sizedBV m w = true) (ok : h.plain = true)
    (mo_ok : mo.wfMoffs h = true)
    (body : encodeBody m i = opcodeBytes r.map (r.at .moffs w).op ++ leBytes h.a.bytes mo.disp.toNat)
    (build : ∀ p : Parts, p.h = h → p.w = w → p.moffs = mo → r.build p = i) : Spelled m h i := by
  obtain ⟨rep, sel, imm⟩ := columns
  obtain ⟨lock, no_rep⟩ := plain_iff.mp ok
  have moffs : (r.at .moffs w).imm = .moffs := by rw [at_imm, imm]; exact ite_self _
  refine spelled_pair_noModRM (v := mo.disp.toNat) wf hr pair sel size lock (by rw [rep]; exact no_rep)
    (body.trans (by rw [moffs]; rfl)) fun rm => build _ rfl rfl ?_
  rw [moffs]
  change (⟨h.segOv.getD .ds, none, none, 0, BitVec.ofNat 64 (mo.disp.toNat % 256 ^ h.a.bytes), false⟩ : MemOp) = mo
  rw [ofNat_mod_trunc]
  exact (beq_iff_eq.mp mo_ok).symm

theorem spelled_mov {f : MovForm} (wf : (Instr.mov h f).wf m = true) : Spelled m h (.mov h f) := by
  cases f with
  | mr w dst src =>
    simp only [Instr.wf, Bool.and_eq_true] at wf
    obtain ⟨⟨⟨⟨wf, ok⟩, size⟩, dst_wf⟩, src_wf⟩ := wf
    exact spelled_pair_rm (r := rowsMove[0]) wf (at_mem mem_move 0 (by decide) .none rfl) src.low
      ⟨rfl, rfl, rfl, rfl, rfl⟩ ⟨rfl, rfl, rfl⟩ nofun (.inl (by decide)) size (.inl ok) dst_wf
      (by rw [opcodeBytes_at rfl]; rfl) fun mr v mid => congrArg (fun g => Instr.mov h (.mr w dst g))
      (reg_back src_wf mid)
  | rm w dst src =>
    simp only [Instr.wf, Bool.and_eq_true] at wf
    obtain ⟨⟨⟨⟨wf, ok⟩, size⟩, dst_wf⟩, src_wf⟩ := wf
    exact spelled_pair_rm (r := rowsMove[2]) wf (at_mem mem_move 2 (by decide) .none rfl) dst.low
      ⟨rfl, rfl, rfl, rfl, rfl⟩ ⟨rfl, rfl, rfl⟩ nofun (.inl (by decide)) size (.inl ok) src_wf
      (by rw [opcodeBytes_at rfl]; rfl) fun mr v mid => congrArg (fun g => Instr.mov h (.rm w g src))
      (reg_back dst_wf mid)
  | ri w dst imm =>
    simp only [Instr.wf, Bool.and_eq_true, beq_iff_eq] at wf
    obtain ⟨⟨⟨⟨wf, ok⟩, size⟩, dst_wf⟩, imm_ok⟩ := wf
    by_cases narrow : w = .w8
    · subst narrow
      exact spelled_opImm (r := rowsMove[4]) (w := .w8) wf (mem_move _ (List.getElem_mem _)) (0xB0 + dst.low) imm.toNat
        (plusR_agrees dst_wf rfl) rfl ⟨rfl, rfl, rfl⟩ rfl ok rfl fun rm =>
          congr (congrArg (fun g v => Instr.mov h (.ri .w8 g v)) (oreg_back dst_wf rfl)) (immBack_ib (w := .w8) imm_ok)
    · have size : h.sized m .v w = true := by simpa [Hdr.sizedBV, narrow] using size
      refine spelled_opImm (r := rowsMove[5]) (w := w) wf (mem_move _ (List.getElem_mem _)) (0xB8 + dst.low) imm.toNat
        (plusR_agrees dst_wf rfl) rfl ⟨rfl, rfl, rfl⟩ size ok ?_ fun rm => ?_
      · cases w with
        | w8 => exact absurd rfl narrow
        | _ => rfl
      · exact congr (congrArg (fun g v => Instr.mov h (.ri w g v)) (oreg_back dst_wf rfl)) (immBack_iv imm_ok)
  | mi w dst imm =>
    simp only [Instr.wf, Bool.and_eq_true] at wf
    obtain ⟨⟨⟨⟨wf, ok⟩, size⟩, dst_wf⟩, imm_ok⟩ := wf
    exact spelled_pair_imm (r := rowsMove[6]) wf (at_mem mem_move 6 (by decide) .iz rfl) 0
      ⟨rfl, rfl, rfl, rfl, rfl⟩ ⟨rfl, rfl, rfl⟩ (by rintro d ⟨⟩; rfl) (.inr (by decide)) size (.inl ok) dst_wf imm_ok
      (by rw [opcodeBytes_at rfl]; rfl) (by rintro p rfl rfl rfl rfl; rfl)
  | fromMoffs w mo =>
    simp only [Instr.wf, Bool.and_eq_true] at wf
    obtain ⟨⟨⟨wf, ok⟩, size⟩, mo_ok⟩ := wf
    exact spelled_pair_moffs (r := rowsMove[8]) wf (at_mem mem_move 8 (by decide) .moffs rfl)
      ⟨rfl, rfl, rfl, rfl, rfl⟩ ⟨rfl, rfl, rfl⟩ size ok mo_ok (by rw [opcodeBytes_at rfl]; rfl)
      (by rintro p rfl rfl rfl; rfl)
  | toMoffs w mo =>
    simp only [Instr.wf, Bool.and_eq_true] at wf
    obtain ⟨⟨⟨wf, ok⟩, size⟩, mo_ok⟩ := wf
    exact spelled_pair_moffs (r := rowsMove[10]) wf (at_mem mem_move 10 (by decide) .moffs rfl)
      ⟨rfl, rfl, rfl, rfl, rfl⟩ ⟨rfl, rfl, rfl⟩ size ok mo_ok (by rw [opcodeBytes_at rfl]; rfl)
      (by rintro p rfl rfl rfl; rfl)

theorem spelled_xchg {f : XchgForm} (wf : (Instr.xchg h f).wf m = true) : Spelled m h (.xchg h f) := by
  cases f with
  | mr w dst src =>
    simp only [Instr.wf, Bool.and_eq_true] at wf
    obtain ⟨⟨⟨⟨wf, ok⟩, size⟩, dst_wf⟩, src_wf⟩ := wf
    exact spelled_pair_rm (r := rowsMove[22]) wf (at_mem mem_move 22 (by decide) .none rfl) src.low
      ⟨rfl, rfl, rfl, rfl, rfl⟩ ⟨rfl, rfl, rfl⟩ nofun (.inl (by decide)) size (.inr ⟨rfl, ok⟩) dst_wf
      (by rw [opcodeBytes_at rfl]; rfl) fun mr v mid => congrArg (fun g => Instr.xchg h (.mr w dst g))
      (reg_back src_wf mid)
  | acc w g =>
    simp only [Instr.wf, Bool.and_eq_true, bne_iff_ne, ne_eq] at wf
    obtain ⟨⟨⟨⟨wf, ok⟩, size⟩, g_wf⟩, ne⟩ := wf
    have wide : w ≠ .w8 := ne_w8_of_sized size (by decide)
    have num : designator h.rex.isSome w (regNum (h.rexBit 0) (0x90 + g.low)) = g := oreg_back g_wf rfl
    have picks : Pick.numNot0.agrees h.toPfx (0x90 + g.low) = true := by
      refine bne_iff_ne.mpr fun zero => ne ?_
      rw [← num, show regNum (h.rexBit 0) (0x90 + g.low) = 0 from zero]
      simp [designator, wide]
    exact spelled_op (r := rowsMove[24]) wf (mem_move _ (List.getElem_mem _)) (0x90 + g.low) (plusR_agrees g_wf rfl)
      rfl picks
      ⟨rfl, rfl, rfl⟩ size ok rfl fun _ _ => congrArg (fun g => Instr.xchg h (.acc w g)) num

theorem spelled_push {f : PushForm} (wf : (Instr.push h f).wf m = true) : Spelled m h (.push h f) := by
  cases f with
  | reg w g =>
    simp only [Instr.wf, Bool.and_eq_true] at wf
    obtain ⟨⟨⟨wf, ok⟩, size⟩, g_wf⟩ := wf
    exact spelled_op (r := rowsStack[0]) wf (mem_stack _ (List.getElem_mem _)) (0x50 + g.low) (plusR_agrees g_wf rfl)
      rfl rfl
      ⟨rfl, rfl, rfl⟩ size ok rfl fun _ _ => congrArg (fun g => Instr.push h (.reg w g)) (oreg_back g_wf rfl)
  | immz w imm =>
    simp only [Instr.wf, Bool.and_eq_true, beq_iff_eq] at wf
    obtain ⟨⟨⟨wf, ok⟩, size⟩, imm_ok⟩ := wf
    exact spelled_opImm (r := rowsStack[1]) wf (mem_stack _ (List.getElem_mem _)) 0x68 imm.toNat rfl rfl
      ⟨rfl, rfl, rfl⟩ size
      ok rfl fun _ => congrArg (fun v => Instr.push h (.immz w v)) (immBack_iz imm_ok)
  | imm8 w imm =>
    simp only [Instr.wf, Bool.and_eq_true] at wf
    obtain ⟨⟨⟨wf, ok⟩, size⟩, imm_ok⟩ := wf
    exact spelled_opImm (r := rowsStack[2]) wf (mem_stack _ (List.getElem_mem _)) 0x6A imm.toNat rfl rfl
      ⟨rfl, rfl, rfl⟩ size
      ok rfl fun _ => congrArg (fun v => Instr.push h (.imm8 w v)) (immBack_ibs imm_ok)
  | rm w src =>
    simp only [Instr.wf, Bool.and_eq_true] at wf
    obtain ⟨⟨⟨wf, ok⟩, size⟩, src_wf⟩ := wf
    exact spelled_rm (r := rowsStack[3]) wf (mem_stack _ (List.getElem_mem _)) 0xFF 6 rfl rfl ⟨rfl, rfl, rfl⟩ (.inl rfl)
      (by rintro d ⟨⟩; rfl) size ok src_wf (fun _ => ⟨nofun, nofun⟩) rfl fun _ _ _ => rfl

theorem spelled_pop {f : PopForm} (wf : (Instr.pop h f).wf m = true) : Spelled m h (.pop h f) := by
  cases f with
  | reg w g =>
    simp only [Instr.wf, Bool.and_eq_true] at wf
    obtain ⟨⟨⟨wf, ok⟩, size⟩, g_wf⟩ := wf
    exact spelled_op (r := rowsStack[4]) wf (mem_stack _ (List.getElem_mem _)) (0x58 + g.low) (plusR_agrees g_wf rfl)
      rfl rfl
      ⟨rfl, rfl, rfl⟩ size ok rfl fun _ _ => congrArg (fun g => Instr.pop h (.reg w g)) (oreg_back g_wf rfl)
  | rm w dst =>
    simp only [Instr.wf, Bool.and_eq_true] at wf
    obtain ⟨⟨⟨wf, ok⟩, size⟩, dst_wf⟩ := wf
    exact spelled_rm (r := rowsStack[5]) wf (mem_stack _ (List.getElem_mem _)) 0x8F 0 rfl rfl ⟨rfl, rfl, rfl⟩ (.inl rfl)
      (by rintro d ⟨⟩; rfl) size ok dst_wf (fun _ => ⟨nofun, nofun⟩) rfl fun _ _ _ => rfl

end

end Sys2Proof
end

section
/-! PROOF. O4: every well-formed instruction is spelled, so it is decoded from its bytes. -/

namespace Sys2Proof
open Sys2Proof Sys2Proof.Machine

section
variable {m : DecodeMode} {h : Hdr} {i : Instr} {r : Row} {w : Width} {op : Nat}

/-- A row whose ModRM byte stands for no memory operand. -/
theorem spelled_byte {mr : Byte} (wf : h.wf m = true) (hr : r ∈ rows) (op : Nat) (agrees : r.mask.agrees r.op op = true)
    (modes : r.modes.has m = true) (columns : r.pick = .always ∧ r.rep = .no ∧ r.imm = .none ∧ r.hasModRM = true)
    (matches_mr : r.matchesModRM mr.toNat = true) (no_mem : r.takesMem mr.toNat = false)
    (legal : invalidModRM r.map op mr.toNat (regNum (h.rexBit 2) (mr.toNat / 8)) = false ∧
      unsupportedModRM r.map op (regNum (h.rexBit 2) (mr.toNat / 8)) = false)
    (size : h.sized m r.size w = true) (ok : h.plain = true) (fence : h.os66 = true → op ≠ 0xAE)
    (body : encodeBody m i = opcodeBytes r.map op ++ [mr])
    (build : ∀ rm v, r.build (partsOf h r op mr.toNat w rm v) = i) : Spelled m h i := by
  obtain ⟨pick, rep, imm, modRM⟩ := columns
  obtain ⟨lock, no_rep⟩ := plain_iff.mp ok
  obtain ⟨legal, supported⟩ := legal
  have row := candidate_of (h := h) hr agrees modes (pick_always pick)
  refine ⟨r, op, [mr], row, body, fun used rest short len => ?_⟩
  have reads : RowReads m h.toPfx r mr.toNat ([] ++ rest) w
      (.reg (designator h.rex.isSome (if r.rm8 then .w8 else w) (regNum (h.rexBit 0) mr.toNat))) 0 rest := by
    refine ⟨rest, by simp only [rowOperand, no_mem, Bool.false_eq_true, if_false]; rfl, ?_⟩
    rw [imm]
    rfl
  rw [decodeOpcode_of_modRM (decodeFrom_opcodeBytes (used := 0) row [] .unsupported).1 row modRM]
  refine (decodeModRM_of_row row matches_mr legal supported).trans ?_
  refine (decodeRow_gives (t := []) (a_of_wf wf) size reads (by simpa using len)
    (refused_eq_false (by rw [rep]; exact no_rep) fun os _ => fence os) (by simp [lock]) short).trans ?_
  rw [build]

theorem spelled_fence {mr : Byte} (wf : h.wf m = true) (hr : r ∈ rows)
    (columns : r.map = .m0F ∧ r.op = 0xAE ∧ r.mask = .exact ∧ r.modes = .all ∧ r.pick = .always ∧ r.rep = .no ∧
      r.imm = .none ∧ r.sel = .reg ∧ r.size = .none)
    (matches_mr : r.matchesModRM mr.toNat = true) (ok : h.plain = true) (os : h.os66 = false)
    (body : encodeBody m i = [0x0F, 0xAE, mr]) (build : ∀ p : Parts, p.h = h → r.build p = i) : Spelled m h i := by
  obtain ⟨m0F, is_op, exact, all, pick, rep, imm, sel, size⟩ := columns
  have three : mr.toNat / 64 = 3 := by
    simp only [Row.matchesModRM, sel, Bool.and_eq_true, beq_iff_eq] at matches_mr
    exact matches_mr.2
  exact spelled_byte (w := .w8) wf hr 0xAE (by rw [exact, is_op]; rfl) (by rw [all]; rfl)
    ⟨pick, rep, imm, by simp [Row.hasModRM, sel]⟩ matches_mr (by simp [Row.takesMem, three])
    (by rw [m0F]; exact ⟨rfl, rfl⟩) (by rw [size]; rfl) ok (by simp [os]) (by rw [m0F]; exact body) fun rm v => build
    _ rfl

/-- The number of a control register is read back from ModRM and REX.R. -/
theorem creg_back (c : CReg) (g : RegNum) (rexR : h.rexBit 2 = false) :
    CReg.ofNum (regNum (h.rexBit 2) ((packByte 3 c.num g.val).toNat / 8)).val = some c ∧
      (op = 0x20 ∨ op = 0x22 →
        invalidModRM .m0F op (packByte 3 c.num g.val).toNat
          (regNum (h.rexBit 2) ((packByte 3 c.num g.val).toNat / 8)) = false ∧
        unsupportedModRM .m0F op (regNum (h.rexBit 2) ((packByte 3 c.num g.val).toNat / 8)) = false) := by
  obtain ⟨-, mid, -⟩ := packByte_toNat (show 3 < 4 by decide) c.num g.val
  have num : regNum (h.rexBit 2) ((packByte 3 c.num g.val).toNat / 8) = regNum false c.num := by
    rw [rexR]
    exact Fin.ext (by rw [regNum_val, regNum_val, mid])
  rw [num]
  refine ⟨by cases c <;> rfl, ?_⟩
  rintro (rfl | rfl) <;> cases c <;> exact ⟨rfl, rfl⟩

theorem rmN_back {g : RegNum} (g_wf : g.wf h 0 = true) (mid : Nat) :
    regNum (h.rexBit 0) (packByte 3 mid g.val).toNat = g :=
  regNum_of_wf g_wf (packByte_toNat (by decide) mid g.val).2.2

theorem spelled_movFromCr {g : RegNum} {c : CReg} (wf : (Instr.movFromCr h w g c).wf m = true) :
    Spelled m h (.movFromCr h w g c) := by
  simp only [Instr.wf, Bool.and_eq_true, Bool.not_eq_true'] at wf
  obtain ⟨⟨⟨⟨wf, ok⟩, size⟩, g_wf⟩, rexR⟩ := wf
  obtain ⟨num, legal⟩ := creg_back (op := 0x20) c g rexR
  refine spelled_byte (r := rowsMove[14]) (mr := packByte 3 c.num g.val) wf (mem_move _ (List.getElem_mem _)) 0x20 rfl
    rfl
    ⟨rfl, rfl, rfl, rfl⟩ rfl rfl (legal (.inl rfl)) size ok (fun _ => by decide) rfl fun rm v => ?_
  change buildMovFromCr _ = _
  unfold buildMovFromCr
  rw [show CReg.ofNum (partsOf h rowsMove[14] 0x20 (packByte 3 c.num g.val).toNat w rm v).regN.val = some c from num]
  exact congrArg (fun g => Instr.movFromCr h w g c) (rmN_back g_wf c.num)

theorem spelled_movToCr {g : RegNum} {c : CReg} (wf : (Instr.movToCr h w c g).wf m = true) :
    Spelled m h (.movToCr h w c g) := by
  simp only [Instr.wf, Bool.and_eq_true, Bool.not_eq_true'] at wf
  obtain ⟨⟨⟨⟨wf, ok⟩, size⟩, g_wf⟩, rexR⟩ := wf
  obtain ⟨num, legal⟩ := creg_back (op := 0x22) c g rexR
  refine spelled_byte (r := rowsMove[15]) (mr := packByte 3 c.num g.val) wf (mem_move _ (List.getElem_mem _)) 0x22 rfl
    rfl
    ⟨rfl, rfl, rfl, rfl⟩ rfl rfl (legal (.inr rfl)) size ok (fun _ => by decide) rfl fun rm v => ?_
  change buildMovToCr _ = _
  unfold buildMovToCr
  rw [show CReg.ofNum (partsOf h rowsMove[15] 0x22 (packByte 3 c.num g.val).toNat w rm v).regN.val = some c from num]
  exact congrArg (fun g => Instr.movToCr h w c g) (rmN_back g_wf c.num)

theorem sreg_back (sr : SReg) {n : Nat} (mid : n = sr.num % 8) : SReg.ofNum n = some sr := by
  subst mid
  cases sr <;> rfl

theorem sreg_num_lt (sr : SReg) : sr.num < 6 ∧ (sr ≠ .cs → sr.num ≠ 1) := by cases sr <;> decide

theorem spelled_movFromSeg {dst : RM} {sr : SReg} (wf : (Instr.movFromSeg h w dst sr).wf m = true) :
    Spelled m h (.movFromSeg h w dst sr) := by
  simp only [Instr.wf, Bool.and_eq_true] at wf
  obtain ⟨⟨⟨wf, ok⟩, size⟩, dst_wf⟩ := wf
  have sizeV : h.sized m .v (sizeV m h.os66 (h.rexBit 3)) = true := beq_self_eq_true _
  have wide := ne_w8_of_sized sizeV (by decide)
  have sreg (w : Width) (rm : RM) (mr v : Nat) (mid : mr / 8 % 8 = sr.num % 8) :
      SReg.ofNum (partsOf h rowsMove[12] 0x8C mr w rm v).modReg = some sr := sreg_back sr mid
  have row {i : Instr} (w : Width) (size : h.sized m .v w = true) (rm_wf : dst.wf m h w = true)
      (build : ∀ mr v, mr / 8 % 8 = sr.num % 8 → buildMovFromSeg (partsOf h rowsMove[12] 0x8C mr w dst v) = i)
      (body : encodeBody m i = 0x8C :: encodeRM m h sr.num dst) : Spelled m h i :=
    spelled_rm (r := rowsMove[12]) wf (mem_move _ (List.getElem_mem _)) 0x8C sr.num rfl rfl ⟨rfl, rfl, rfl⟩ (.inl rfl)
    nofun
      size ok rm_wf (fun _ => ⟨fun _ => (sreg_num_lt sr).1, nofun⟩) body build
  cases dst with
  | reg g =>
    refine row w (by simpa [RM.isMem] using size) dst_wf (fun mr v mid => ?_) rfl
    unfold buildMovFromSeg
    rw [sreg w _ mr v mid]
    rfl
  | mem mo =>
    have w16 : w = .w16 := by simpa [RM.isMem] using size
    refine row _ sizeV dst_wf (fun mr v mid => ?_) rfl
    unfold buildMovFromSeg
    rw [sreg _ _ mr v mid, w16]
    rfl

theorem spelled_movToSeg {src : RM} {sr : SReg} (wf : (Instr.movToSeg h sr src).wf m = true) :
    Spelled m h (.movToSeg h sr src) := by
  simp only [Instr.wf, Bool.and_eq_true, bne_iff_ne, ne_eq] at wf
  obtain ⟨⟨⟨wf, ok⟩, ne⟩, src_wf⟩ := wf
  obtain ⟨lt, ne_one⟩ := sreg_num_lt sr
  refine spelled_rm (r := rowsMove[13]) (w := .w16) wf (mem_move _ (List.getElem_mem _)) 0x8E sr.num rfl rfl
    ⟨rfl, rfl, rfl⟩
    (.inl rfl) nofun rfl ok src_wf (fun _ => ⟨nofun, fun _ => ⟨lt, ne_one ne⟩⟩) rfl fun mr v mid => ?_
  change buildMovToSeg _ = _
  unfold buildMovToSeg
  rw [show SReg.ofNum (partsOf h rowsMove[13] 0x8E mr .w16 src v).modReg = some sr from sreg_back sr mid]
  rfl

/-- The two-operand operations by constructor. -/
theorem spelled_twoOperand {n : Nat} {lock : Bool} {k : Hdr → AluForm → Instr} {f : AluForm}
    (among : aluRows n lock k ⊆ rowsArith ++ rowsLogic) (lt : n < 8) (enc : encodeBody m (k h f) = encodeAlu m n h f)
    (wf : (h.wf m && f.wf m h lock) = true) : Spelled m h (k h f) := by
  obtain ⟨wf, form⟩ := Bool.and_eq_true_iff.mp wf
  exact spelled_alu (mem_aluRows among) lt enc wf form

/-- A row of the system list that is one opcode and nothing else. -/
theorem spelled_system {k : Hdr → Instr} {l : List Row} (sub : ∀ r ∈ l, r ∈ rows) (hr : r ∈ l)
    (wf : (h.wf m && h.plain) = true)
    (columns : r.mask = .exact ∧ r.modes = .all ∧ r.pick = .always ∧ r.sel = .noModRM ∧ r.rep = .no ∧ r.imm = .none ∧
      r.size = .none) (body : encodeBody m (k h) = opcodeBytes r.map r.op) (build : ∀ p : Parts, r.build p = k p.h) :
    Spelled m h (k h) := by
  obtain ⟨exact, all, pick, sel, rep, imm, size⟩ := columns
  obtain ⟨wf, ok⟩ := Bool.and_eq_true_iff.mp wf
  exact spelled_op (w := .w8) wf (sub r hr) r.op (by rw [exact]; exact beq_self_eq_true _) (by rw [all]; rfl)
    (pick_always pick) ⟨sel, rep, imm⟩ (by rw [size]; rfl) ok body fun _ _ => build _

/-- A row with an operand size and nothing else. -/
theorem spelled_sized {k : Hdr → Width → Instr} {c : SizeClass} {l : List Row} (sub : ∀ r ∈ l, r ∈ rows) (hr : r ∈ l)
    (wf : (h.wf m && h.plain && h.sized m c w) = true)
    (columns : r.mask = .exact ∧ r.modes = .all ∧ r.pick = .always ∧ r.sel = .noModRM ∧ r.rep = .no ∧ r.imm = .none ∧
      r.size = c) (body : encodeBody m (k h w) = opcodeBytes r.map r.op) (build : ∀ p : Parts, r.build p = k p.h p.w) :
    Spelled m h (k h w) := by
  obtain ⟨exact, all, pick, sel, rep, imm, size⟩ := columns
  simp only [Bool.and_eq_true] at wf
  obtain ⟨⟨wf, ok⟩, is⟩ := wf
  exact spelled_op (w := w) wf (sub r hr) r.op (by rw [exact]; exact beq_self_eq_true _) (by rw [all]; rfl)
    (pick_always pick) ⟨sel, rep, imm⟩ (by rw [size]; exact is) ok body fun _ _ => build _

/-- A row with a short displacement. -/
theorem spelled_rel8 {k : Hdr → Width → Word → Instr} {rel : Word} (hr : r ∈ rowsControl)
    (wf : (h.wf m && h.plain && h.sized m .f64 w && relOk w .rel8 rel) = true)
    (columns : r.map = .m1 ∧ r.mask = .exact ∧ r.modes = .all ∧ r.pick = .always ∧ r.sel = .noModRM ∧ r.rep = .no ∧
      r.imm = .rel8 ∧ r.size = .f64) (body : encodeBody m (k h w rel) = BitVec.ofNat 8 r.op :: leBytes 1 rel.toNat)
    (build : ∀ p : Parts, r.build p = k p.h p.w p.imm) : Spelled m h (k h w rel) := by
  obtain ⟨m1, exact, all, pick, sel, rep, imm, size⟩ := columns
  simp only [Bool.and_eq_true] at wf
  obtain ⟨⟨⟨wf, ok⟩, is⟩, fits⟩ := wf
  refine spelled_opImm (w := w) wf (mem_control r hr) r.op rel.toNat (by rw [exact]; exact beq_self_eq_true _)
    (by rw [all]; rfl) ⟨sel, pick, rep⟩ (by rw [size]; exact is) ok (by rw [m1, imm]; exact body) fun rm => ?_
  rw [build, imm]
  change k h w (immValue r.imm w (rel.toNat % 256 ^ 1)) = _
  rw [imm, immBack_rel8 fits]

/-- A row with a near displacement. -/
theorem spelled_relz {k : Hdr → Width → Word → Instr} {rel : Word} (hr : r ∈ rowsControl)
    (wf : (h.wf m && h.plain && h.sized m .f64 w && relOk w .relz rel) = true)
    (columns : r.mask = .exact ∧ r.modes = .all ∧ r.pick = .always ∧ r.sel = .noModRM ∧ r.rep = .no ∧
      r.imm = .relz ∧ r.size = .f64)
    (body : encodeBody m (k h w rel) = opcodeBytes r.map r.op ++ leBytes (izWidth w).bytes rel.toNat)
    (build : ∀ p : Parts, r.build p = k p.h p.w p.imm) : Spelled m h (k h w rel) := by
  obtain ⟨exact, all, pick, sel, rep, imm, size⟩ := columns
  simp only [Bool.and_eq_true] at wf
  obtain ⟨⟨⟨wf, ok⟩, is⟩, fits⟩ := wf
  refine spelled_opImm (w := w) wf (mem_control r hr) r.op rel.toNat (by rw [exact]; exact beq_self_eq_true _)
    (by rw [all]; rfl) ⟨sel, pick, rep⟩ (by rw [size]; exact is) ok (by rw [imm]; exact body) fun rm => ?_
  rw [build, imm]
  change k h w (immValue r.imm w (rel.toNat % 256 ^ (izWidth w).bytes)) = _
  rw [imm, immBack_relz fits]

theorem spelled_jcc {cc : CC} {z : RelSize} {rel : Word} (wf : (Instr.jcc h cc w z rel).wf m = true) :
    Spelled m h (.jcc h cc w z rel) := by
  simp only [Instr.wf, Bool.and_eq_true] at wf
  obtain ⟨⟨⟨wf, ok⟩, size⟩, fits⟩ := wf
  cases z with
  | rel8 =>
    exact spelled_opImm (r := rowsControl[3]) wf (mem_control _ (List.getElem_mem _)) (0x70 + cc.num) rel.toNat
      (plusCC_agrees cc rfl) rfl ⟨rfl, rfl, rfl⟩ size ok rfl fun _ =>
        congr (congrArg (fun cc rel => Instr.jcc h cc w .rel8 rel) (cc_back cc rfl)) (immBack_rel8 fits)
  | relz =>
    exact spelled_opImm (r := rowsControl[4]) wf (mem_control _ (List.getElem_mem _)) (0x80 + cc.num) rel.toNat
      (plusCC_agrees cc rfl) rfl ⟨rfl, rfl, rfl⟩ size ok rfl fun _ =>
        congr (congrArg (fun cc rel => Instr.jcc h cc w .relz rel) (cc_back cc rfl)) (immBack_relz fits)

theorem spelled_jmpRel {z : RelSize} {rel : Word} (wf : (Instr.jmpRel h w z rel).wf m = true) :
    Spelled m h (.jmpRel h w z rel) := by
  cases z with
  | rel8 =>
    exact spelled_rel8 (r := rowsControl[0]) (k := fun h w rel => .jmpRel h w .rel8 rel) (List.getElem_mem _) wf
      ⟨rfl, rfl, rfl, rfl, rfl, rfl, rfl, rfl⟩ rfl fun _ => rfl
  | relz =>
    exact spelled_relz (r := rowsControl[1]) (k := fun h w rel => .jmpRel h w .relz rel) (List.getElem_mem _) wf
      ⟨rfl, rfl, rfl, rfl, rfl, rfl, rfl⟩ rfl fun _ => rfl

/-- A register destination of the size `v` and a register-or-memory source. -/
theorem spelled_dstReg {dst : Gpr} {src : RM} {l : List Row} (sub : ∀ r ∈ l, r ∈ rows) (hr : r ∈ l)
    (wf : h.wf m = true) (ok : h.plain = true) (size : h.sized m .v w = true) (dst_wf : dst.wf h w 2 = true)
    (src_wf : src.wf m h (if r.rm8 then .w8 else w) = true) (agrees : r.mask.agrees r.op op = true)
    (columns : r.modes.has m = true ∧ r.pick = .always ∧ r.rep = .no ∧ r.imm = .none ∧ r.size = .v ∧ r.digit = none)
    (sel : r.sel = .any ∨ r.sel = .mem ∧ src.isMem = true) (plain_op : r.op ≠ 0x8C ∧ r.op ≠ 0x8E)
    (body : encodeBody m i = opcodeBytes r.map op ++ encodeRM m h dst.low src)
    (build : ∀ p : Parts, p.h = h → p.w = w → p.rm = src → p.reg = dst → p.cc = CC.ofNum (op % 16) → r.build p = i) :
    Spelled m h i := by
  obtain ⟨modes, pick, rep, imm, v, digit⟩ := columns
  exact spelled_rm wf (sub r hr) op dst.low agrees modes ⟨pick, rep, imm⟩ sel (by simp [digit])
    (by rw [v]; exact size) ok
    src_wf (fun _ => ⟨fun is => absurd is plain_op.1, fun is => absurd is plain_op.2⟩) body fun mr v mid =>
      build _ rfl rfl rfl (reg_back dst_wf mid) rfl

theorem setWidth_ofNat_mod_self {n bytes : Nat} (v : BitVec n) (le : 2 ^ n ≤ 256 ^ bytes ∧ n ≤ 64) :
    (BitVec.ofNat 64 (v.toNat % 256 ^ bytes)).setWidth n = v := by
  obtain ⟨le, small⟩ := le
  have lt := v.isLt
  rw [Nat.mod_eq_of_lt (Nat.lt_of_lt_of_le lt le)]
  refine BitVec.eq_of_toNat_eq ?_
  rw [BitVec.toNat_setWidth, BitVec.toNat_ofNat,
    Nat.mod_eq_of_lt (Nat.lt_of_lt_of_le lt (Nat.pow_le_pow_right (by decide) small)), Nat.mod_eq_of_lt lt]

theorem leBytes_one (b : Byte) : leBytes 1 b.toNat = [b] := by simp [leBytes]

theorem regNum_90 (rexB : h.rexBit 0 = false) : regNum h.toPfx.rexB 0x90 = 0 := by
  rw [show h.toPfx.rexB = false from rexB]
  rfl

theorem hdr_wf_of_wf (wf : i.wf m = true) : ∃ h, i.hdr = some h ∧ h.wf m = true := by
  unfold Instr.wf at wf
  split at wf <;> simp only [Bool.and_eq_true, Bool.false_eq_true] at wf <;> exact ⟨_, rfl, by grind⟩

theorem aluRows_sub : aluRows 0 true .add ⊆ rowsArith ++ rowsLogic ∧ aluRows 1 true .or ⊆ rowsArith ++ rowsLogic ∧
    aluRows 2 true .adc ⊆ rowsArith ++ rowsLogic ∧ aluRows 3 true .sbb ⊆ rowsArith ++ rowsLogic ∧
    aluRows 4 true .and ⊆ rowsArith ++ rowsLogic ∧ aluRows 5 true .sub ⊆ rowsArith ++ rowsLogic ∧
    aluRows 6 true .xor ⊆ rowsArith ++ rowsLogic ∧ aluRows 7 false .cmp ⊆ rowsArith ++ rowsLogic := by
  rw [rowsArith_eq, rowsLogic_eq]
  and_intros <;> intro r hr <;> simp only [List.mem_append, hr, true_or, or_true]

theorem shiftRows_sub : shiftRows 0 .rol ⊆ rowsShift ∧ shiftRows 1 .ror ⊆ rowsShift ∧ shiftRows 4 .shl ⊆ rowsShift ∧
    shiftRows 5 .shr ⊆ rowsShift ∧ shiftRows 7 .sar ⊆ rowsShift := by
  rw [rowsShift_eq]
  and_intros <;> intro r hr <;> simp only [List.mem_append, hr, true_or, or_true]

end

end Sys2Proof
end

section
/-! PROOF. O4: the row of every instruction, and the round trip. -/

namespace Sys2Proof
open Sys2Proof Sys2Proof.Machine

section
variable {m : DecodeMode} {h : Hdr} {i : Instr}

/-- Every well-formed instruction is spelled by a row. -/
theorem spelled_of_wf (wf : i.wf m = true) (hdr : i.hdr = some h) : Spelled m h i := by
  obtain ⟨sub0, sub1, sub2, sub3, sub4, sub5, sub6, sub7⟩ := aluRows_sub
  obtain ⟨shift0, shift1, shift4, shift5, shift7⟩ := shiftRows_sub
  cases i with
  | add h f =>
    obtain rfl := Option.some.inj hdr
    exact spelled_twoOperand (n := 0) (lock := true) (k := .add) sub0 (by decide) rfl wf
  | or h f =>
    obtain rfl := Option.some.inj hdr
    exact spelled_twoOperand (n := 1) (lock := true) (k := .or) sub1 (by decide) rfl wf
  | adc h f =>
    obtain rfl := Option.some.inj hdr
    exact spelled_twoOperand (n := 2) (lock := true) (k := .adc) sub2 (by decide) rfl wf
  | sbb h f =>
    obtain rfl := Option.some.inj hdr
    exact spelled_twoOperand (n := 3) (lock := true) (k := .sbb) sub3 (by decide) rfl wf
  | and h f =>
    obtain rfl := Option.some.inj hdr
    exact spelled_twoOperand (n := 4) (lock := true) (k := .and) sub4 (by decide) rfl wf
  | sub h f =>
    obtain rfl := Option.some.inj hdr
    exact spelled_twoOperand (n := 5) (lock := true) (k := .sub) sub5 (by decide) rfl wf
  | xor h f =>
    obtain rfl := Option.some.inj hdr
    exact spelled_twoOperand (n := 6) (lock := true) (k := .xor) sub6 (by decide) rfl wf
  | cmp h f =>
    obtain rfl := Option.some.inj hdr
    exact spelled_twoOperand (n := 7) (lock := false) (k := .cmp) sub7 (by decide) rfl wf
  | test h f =>
    obtain rfl := Option.some.inj hdr
    exact spelled_test wf
  | not h w rm =>
    obtain rfl := Option.some.inj hdr
    simp only [Instr.wf, Bool.and_eq_true] at wf
    obtain ⟨⟨⟨wf, ok⟩, size⟩, rm_wf⟩ := wf
    exact spelled_group (k := .not) (r := rowsUnary[0]) wf (at_mem mem_unary 0 (by decide) .none rfl)
      ⟨rfl, rfl, rfl, rfl, rfl⟩ ⟨rfl, rfl, rfl, rfl⟩ rfl (by decide) (by decide) size (.inr ⟨rfl, ok⟩) rm_wf rfl fun _
      => rfl
  | neg h w rm =>
    obtain rfl := Option.some.inj hdr
    simp only [Instr.wf, Bool.and_eq_true] at wf
    obtain ⟨⟨⟨wf, ok⟩, size⟩, rm_wf⟩ := wf
    exact spelled_group (k := .neg) (r := rowsUnary[2]) wf (at_mem mem_unary 2 (by decide) .none rfl)
      ⟨rfl, rfl, rfl, rfl, rfl⟩ ⟨rfl, rfl, rfl, rfl⟩ rfl (by decide) (by decide) size (.inr ⟨rfl, ok⟩) rm_wf rfl fun _
      => rfl
  | mul h w rm =>
    obtain rfl := Option.some.inj hdr
    simp only [Instr.wf, Bool.and_eq_true] at wf
    obtain ⟨⟨⟨wf, ok⟩, size⟩, rm_wf⟩ := wf
    exact spelled_group (k := .mul) (r := rowsUnary[4]) wf (at_mem mem_unary 4 (by decide) .none rfl)
      ⟨rfl, rfl, rfl, rfl, rfl⟩ ⟨rfl, rfl, rfl, rfl⟩ rfl (by decide) (by decide) size (.inl ok) rm_wf rfl fun _ => rfl
  | imul1 h w rm =>
    obtain rfl := Option.some.inj hdr
    simp only [Instr.wf, Bool.and_eq_true] at wf
    obtain ⟨⟨⟨wf, ok⟩, size⟩, rm_wf⟩ := wf
    exact spelled_group (k := .imul1) (r := rowsUnary[6]) wf (at_mem mem_unary 6 (by decide) .none rfl)
      ⟨rfl, rfl, rfl, rfl, rfl⟩ ⟨rfl, rfl, rfl, rfl⟩ rfl (by decide) (by decide) size (.inl ok) rm_wf rfl fun _ => rfl
  | div h w rm =>
    obtain rfl := Option.some.inj hdr
    simp only [Instr.wf, Bool.and_eq_true] at wf
    obtain ⟨⟨⟨wf, ok⟩, size⟩, rm_wf⟩ := wf
    exact spelled_group (k := .div) (r := rowsUnary[8]) wf (at_mem mem_unary 8 (by decide) .none rfl)
      ⟨rfl, rfl, rfl, rfl, rfl⟩ ⟨rfl, rfl, rfl, rfl⟩ rfl (by decide) (by decide) size (.inl ok) rm_wf rfl fun _ => rfl
  | idiv h w rm =>
    obtain rfl := Option.some.inj hdr
    simp only [Instr.wf, Bool.and_eq_true] at wf
    obtain ⟨⟨⟨wf, ok⟩, size⟩, rm_wf⟩ := wf
    exact spelled_group (k := .idiv) (r := rowsUnary[10]) wf (at_mem mem_unary 10 (by decide) .none rfl)
      ⟨rfl, rfl, rfl, rfl, rfl⟩ ⟨rfl, rfl, rfl, rfl⟩ rfl (by decide) (by decide) size (.inl ok) rm_wf rfl fun _ => rfl
  | inc h f =>
    obtain rfl := Option.some.inj hdr
    exact spelled_inc wf
  | dec h f =>
    obtain rfl := Option.some.inj hdr
    exact spelled_dec wf
  | mov h f =>
    obtain rfl := Option.some.inj hdr
    exact spelled_mov wf
  | xchg h f =>
    obtain rfl := Option.some.inj hdr
    exact spelled_xchg wf
  | push h f =>
    obtain rfl := Option.some.inj hdr
    exact spelled_push wf
  | pop h f =>
    obtain rfl := Option.some.inj hdr
    exact spelled_pop wf
  | imul2 h w dst src =>
    obtain rfl := Option.some.inj hdr
    simp only [Instr.wf, Bool.and_eq_true] at wf
    obtain ⟨⟨⟨⟨wf, ok⟩, size⟩, dst_wf⟩, src_wf⟩ := wf
    exact spelled_dstReg (r := rowsUnary[18]) (op := 0xAF) mem_unary (List.getElem_mem _) wf ok size dst_wf src_wf rfl
      ⟨rfl, rfl, rfl, rfl, rfl, rfl⟩ (.inl rfl) (by decide) rfl (by rintro p rfl rfl rfl rfl -; rfl)
  | imul3 h w dst src imm z =>
    obtain rfl := Option.some.inj hdr
    simp only [Instr.wf, Bool.and_eq_true] at wf
    obtain ⟨⟨⟨⟨⟨wf, ok⟩, size⟩, dst_wf⟩, src_wf⟩, imm_ok⟩ := wf
    cases z with
    | immz =>
      exact spelled_modRM (r := rowsUnary[19]) (v := imm.toNat) wf (mem_unary _ (List.getElem_mem _)) 0x69 dst.low rfl
        rfl
        rfl rfl (.inl rfl) nofun size (.inl ok) src_wf (fun _ => ⟨nofun, nofun⟩) rfl fun mr mid =>
          congr (congrArg (fun g v => Instr.imul3 h w g src v .immz) (reg_back dst_wf mid))
            (immBack_iz (beq_iff_eq.mp imm_ok))
    | imm8 =>
      exact spelled_modRM (r := rowsUnary[20]) (v := imm.toNat) wf (mem_unary _ (List.getElem_mem _)) 0x6B dst.low rfl
        rfl
        rfl rfl (.inl rfl) nofun size (.inl ok) src_wf (fun _ => ⟨nofun, nofun⟩) rfl fun mr mid =>
          congr (congrArg (fun g v => Instr.imul3 h w g src v .imm8) (reg_back dst_wf mid)) (immBack_ibs imm_ok)
  | cmpxchg h w dst src =>
    obtain rfl := Option.some.inj hdr
    simp only [Instr.wf, Bool.and_eq_true] at wf
    obtain ⟨⟨⟨⟨wf, ok⟩, size⟩, dst_wf⟩, src_wf⟩ := wf
    exact spelled_pair_rm (r := rowsUnary[21]) wf (at_mem mem_unary 21 (by decide) .none rfl) src.low
      ⟨rfl, rfl, rfl, rfl, rfl⟩ ⟨rfl, rfl, rfl⟩ nofun (.inr (by decide)) size (.inr ⟨rfl, ok⟩) dst_wf
      (by rw [opcodeBytes_at_0F rfl]; rfl) fun mr v mid => congrArg (fun g => Instr.cmpxchg h w dst g)
      (reg_back src_wf mid)
  | xadd h w dst src =>
    obtain rfl := Option.some.inj hdr
    simp only [Instr.wf, Bool.and_eq_true] at wf
    obtain ⟨⟨⟨⟨wf, ok⟩, size⟩, dst_wf⟩, src_wf⟩ := wf
    exact spelled_pair_rm (r := rowsUnary[23]) wf (at_mem mem_unary 23 (by decide) .none rfl) src.low
      ⟨rfl, rfl, rfl, rfl, rfl⟩ ⟨rfl, rfl, rfl⟩ nofun (.inr (by decide)) size (.inr ⟨rfl, ok⟩) dst_wf
      (by rw [opcodeBytes_at_0F rfl]; rfl) fun mr v mid => congrArg (fun g => Instr.xadd h w dst g)
      (reg_back src_wf mid)
  | rol h w dst c =>
    obtain rfl := Option.some.inj hdr
    exact spelled_shift (d := 0) (k := .rol) shift0 (by decide) rfl wf
  | ror h w dst c =>
    obtain rfl := Option.some.inj hdr
    exact spelled_shift (d := 1) (k := .ror) shift1 (by decide) rfl wf
  | shl h w dst c =>
    obtain rfl := Option.some.inj hdr
    exact spelled_shift (d := 4) (k := .shl) shift4 (by decide) rfl wf
  | shr h w dst c =>
    obtain rfl := Option.some.inj hdr
    exact spelled_shift (d := 5) (k := .shr) shift5 (by decide) rfl wf
  | sar h w dst c =>
    obtain rfl := Option.some.inj hdr
    exact spelled_shift (d := 7) (k := .sar) shift7 (by decide) rfl wf
  | movFromSeg h w dst sr =>
    obtain rfl := Option.some.inj hdr
    exact spelled_movFromSeg wf
  | movToSeg h sr src =>
    obtain rfl := Option.some.inj hdr
    exact spelled_movToSeg wf
  | movFromCr h w g c =>
    obtain rfl := Option.some.inj hdr
    exact spelled_movFromCr wf
  | movToCr h w c g =>
    obtain rfl := Option.some.inj hdr
    exact spelled_movToCr wf
  | movzx h w dst sw src =>
    obtain rfl := Option.some.inj hdr
    simp only [Instr.wf, Bool.and_eq_true, Bool.or_eq_true, beq_iff_eq] at wf
    obtain ⟨⟨⟨⟨⟨wf, ok⟩, size⟩, narrow⟩, dst_wf⟩, src_wf⟩ := wf
    rcases narrow with rfl | rfl
    · exact spelled_dstReg (r := rowsMove[16]) (op := 0xB6) mem_move (List.getElem_mem _) wf ok size dst_wf src_wf rfl
        ⟨rfl, rfl, rfl, rfl, rfl, rfl⟩ (.inl rfl) (by decide) rfl (by rintro p rfl rfl rfl rfl -; rfl)
    · have src_wf := rm_wf_of_wide src_wf nofun (ne_w8_of_sized size (by decide))
      exact spelled_dstReg (r := rowsMove[17]) (op := 0xB7) mem_move (List.getElem_mem _) wf ok size dst_wf src_wf rfl
        ⟨rfl, rfl, rfl, rfl, rfl, rfl⟩ (.inl rfl) (by decide) rfl (by rintro p rfl rfl rfl rfl -; rfl)
  | movsx h w dst sw src =>
    obtain rfl := Option.some.inj hdr
    simp only [Instr.wf, Bool.and_eq_true, Bool.or_eq_true, beq_iff_eq] at wf
    obtain ⟨⟨⟨⟨⟨wf, ok⟩, size⟩, narrow⟩, dst_wf⟩, src_wf⟩ := wf
    rcases narrow with rfl | rfl
    · exact spelled_dstReg (r := rowsMove[18]) (op := 0xBE) mem_move (List.getElem_mem _) wf ok size dst_wf src_wf rfl
        ⟨rfl, rfl, rfl, rfl, rfl, rfl⟩ (.inl rfl) (by decide) rfl (by rintro p rfl rfl rfl rfl -; rfl)
    · have src_wf := rm_wf_of_wide src_wf nofun (ne_w8_of_sized size (by decide))
      exact spelled_dstReg (r := rowsMove[19]) (op := 0xBF) mem_move (List.getElem_mem _) wf ok size dst_wf src_wf rfl
        ⟨rfl, rfl, rfl, rfl, rfl, rfl⟩ (.inl rfl) (by decide) rfl (by rintro p rfl rfl rfl rfl -; rfl)
  | movsxd h w dst src =>
    obtain rfl := Option.some.inj hdr
    simp only [Instr.wf, Bool.and_eq_true] at wf
    obtain ⟨⟨⟨⟨⟨wf, ok⟩, long⟩, size⟩, dst_wf⟩, src_wf⟩ := wf
    exact spelled_dstReg (r := rowsMove[20]) (op := 0x63) mem_move (List.getElem_mem _) wf ok size dst_wf src_wf rfl
      ⟨long, rfl, rfl, rfl, rfl, rfl⟩ (.inl rfl) (by decide) rfl (by rintro p rfl rfl rfl rfl -; rfl)
  | lea h w dst mo =>
    obtain rfl := Option.some.inj hdr
    simp only [Instr.wf, Bool.and_eq_true] at wf
    obtain ⟨⟨⟨⟨wf, ok⟩, size⟩, dst_wf⟩, mo_wf⟩ := wf
    exact spelled_dstReg (r := rowsMove[21]) (op := 0x8D) (src := .mem mo) mem_move (List.getElem_mem _) wf ok size
      dst_wf
      mo_wf rfl ⟨rfl, rfl, rfl, rfl, rfl, rfl⟩ (.inr ⟨rfl, rfl⟩) (by decide) rfl fun p hp wp rp gp _ => by
        subst hp wp gp
        exact congrArg (fun rm => Parts.withMem { p with rm := rm } fun mo => Instr.lea p.h p.w p.reg mo) rp
  | cmovcc h cc w dst src =>
    obtain rfl := Option.some.inj hdr
    simp only [Instr.wf, Bool.and_eq_true] at wf
    obtain ⟨⟨⟨⟨wf, ok⟩, size⟩, dst_wf⟩, src_wf⟩ := wf
    exact spelled_dstReg (r := rowsMove[25]) (op := 0x40 + cc.num) mem_move (List.getElem_mem _) wf ok size dst_wf
      src_wf
      (plusCC_agrees cc rfl) ⟨rfl, rfl, rfl, rfl, rfl, rfl⟩ (.inl rfl) (by decide) rfl fun p hp wp rp gp cp => by
        subst hp wp rp gp
        exact congrArg (fun cc => Instr.cmovcc p.h cc p.w p.reg p.rm) (cp.trans (cc_back cc rfl))
  | setcc h cc dst =>
    obtain rfl := Option.some.inj hdr
    simp only [Instr.wf, Bool.and_eq_true] at wf
    obtain ⟨⟨wf, ok⟩, dst_wf⟩ := wf
    exact spelled_rm (r := rowsMove[26]) (w := .w8) wf (mem_move _ (List.getElem_mem _)) (0x90 + cc.num) 0
      (plusCC_agrees cc rfl) rfl ⟨rfl, rfl, rfl⟩ (.inl rfl) nofun rfl ok dst_wf nofun rfl fun _ _ _ =>
        congrArg (fun cc => Instr.setcc h cc dst) (cc_back cc (base := 0x90) rfl)
  | cbw h w =>
    obtain rfl := Option.some.inj hdr
    exact spelled_sized (r := rowsMove[27]) (k := .cbw) mem_move (List.getElem_mem _) wf
      ⟨rfl, rfl, rfl, rfl, rfl, rfl, rfl⟩ rfl fun _ => rfl
  | cwd h w =>
    obtain rfl := Option.some.inj hdr
    exact spelled_sized (r := rowsMove[28]) (k := .cwd) mem_move (List.getElem_mem _) wf
      ⟨rfl, rfl, rfl, rfl, rfl, rfl, rfl⟩ rfl fun _ => rfl
  | pushf h w =>
    obtain rfl := Option.some.inj hdr
    exact spelled_sized (r := rowsStack[6]) (k := .pushf) mem_stack (List.getElem_mem _) wf
      ⟨rfl, rfl, rfl, rfl, rfl, rfl, rfl⟩ rfl fun _ => rfl
  | popf h w =>
    obtain rfl := Option.some.inj hdr
    exact spelled_sized (r := rowsStack[7]) (k := .popf) mem_stack (List.getElem_mem _) wf
      ⟨rfl, rfl, rfl, rfl, rfl, rfl, rfl⟩ rfl fun _ => rfl
  | leave h w =>
    obtain rfl := Option.some.inj hdr
    exact spelled_sized (r := rowsStack[8]) (k := .leave) mem_stack (List.getElem_mem _) wf
      ⟨rfl, rfl, rfl, rfl, rfl, rfl, rfl⟩ rfl fun _ => rfl
  | ret h w =>
    obtain rfl := Option.some.inj hdr
    exact spelled_sized (r := rowsControl[7]) (k := .ret) mem_control (List.getElem_mem _) wf
      ⟨rfl, rfl, rfl, rfl, rfl, rfl, rfl⟩ rfl fun _ => rfl
  | sahf h =>
    obtain rfl := Option.some.inj hdr
    exact spelled_system (r := rowsMove[29]) (k := .sahf) mem_move (List.getElem_mem _) wf
      ⟨rfl, rfl, rfl, rfl, rfl, rfl, rfl⟩ rfl fun _ => rfl
  | lahf h =>
    obtain rfl := Option.some.inj hdr
    exact spelled_system (r := rowsMove[30]) (k := .lahf) mem_move (List.getElem_mem _) wf
      ⟨rfl, rfl, rfl, rfl, rfl, rfl, rfl⟩ rfl fun _ => rfl
  | int3 h =>
    obtain rfl := Option.some.inj hdr
    exact spelled_system (r := rowsControl[13]) (k := .int3) mem_control (List.getElem_mem _) wf
      ⟨rfl, rfl, rfl, rfl, rfl, rfl, rfl⟩ rfl fun _ => rfl
  | hlt h =>
    obtain rfl := Option.some.inj hdr
    exact spelled_system (r := rowsSystem[3]) (k := .hlt) mem_system (List.getElem_mem _) wf
      ⟨rfl, rfl, rfl, rfl, rfl, rfl, rfl⟩ rfl fun _ => rfl
  | cmc h =>
    obtain rfl := Option.some.inj hdr
    exact spelled_system (r := rowsSystem[4]) (k := .cmc) mem_system (List.getElem_mem _) wf
      ⟨rfl, rfl, rfl, rfl, rfl, rfl, rfl⟩ rfl fun _ => rfl
  | clc h =>
    obtain rfl := Option.some.inj hdr
    exact spelled_system (r := rowsSystem[5]) (k := .clc) mem_system (List.getElem_mem _) wf
      ⟨rfl, rfl, rfl, rfl, rfl, rfl, rfl⟩ rfl fun _ => rfl
  | stc h =>
    obtain rfl := Option.some.inj hdr
    exact spelled_system (r := rowsSystem[6]) (k := .stc) mem_system (List.getElem_mem _) wf
      ⟨rfl, rfl, rfl, rfl, rfl, rfl, rfl⟩ rfl fun _ => rfl
  | cli h =>
    obtain rfl := Option.some.inj hdr
    exact spelled_system (r := rowsSystem[7]) (k := .cli) mem_system (List.getElem_mem _) wf
      ⟨rfl, rfl, rfl, rfl, rfl, rfl, rfl⟩ rfl fun _ => rfl
  | sti h =>
    obtain rfl := Option.some.inj hdr
    exact spelled_system (r := rowsSystem[8]) (k := .sti) mem_system (List.getElem_mem _) wf
      ⟨rfl, rfl, rfl, rfl, rfl, rfl, rfl⟩ rfl fun _ => rfl
  | cld h =>
    obtain rfl := Option.some.inj hdr
    exact spelled_system (r := rowsSystem[9]) (k := .cld) mem_system (List.getElem_mem _) wf
      ⟨rfl, rfl, rfl, rfl, rfl, rfl, rfl⟩ rfl fun _ => rfl
  | std h =>
    obtain rfl := Option.some.inj hdr
    exact spelled_system (r := rowsSystem[10]) (k := .std) mem_system (List.getElem_mem _) wf
      ⟨rfl, rfl, rfl, rfl, rfl, rfl, rfl⟩ rfl fun _ => rfl
  | wrmsr h =>
    obtain rfl := Option.some.inj hdr
    exact spelled_system (r := rowsSystem[18]) (k := .wrmsr) mem_system (List.getElem_mem _) wf
      ⟨rfl, rfl, rfl, rfl, rfl, rfl, rfl⟩ rfl fun _ => rfl
  | rdmsr h =>
    obtain rfl := Option.some.inj hdr
    exact spelled_system (r := rowsSystem[19]) (k := .rdmsr) mem_system (List.getElem_mem _) wf
      ⟨rfl, rfl, rfl, rfl, rfl, rfl, rfl⟩ rfl fun _ => rfl
  | cpuid h =>
    obtain rfl := Option.some.inj hdr
    exact spelled_system (r := rowsSystem[20]) (k := .cpuid) mem_system (List.getElem_mem _) wf
      ⟨rfl, rfl, rfl, rfl, rfl, rfl, rfl⟩ rfl fun _ => rfl
  | jmpRel h w z rel =>
    obtain rfl := Option.some.inj hdr
    exact spelled_jmpRel wf
  | jcc h cc w z rel =>
    obtain rfl := Option.some.inj hdr
    exact spelled_jcc wf
  | callRel h w rel =>
    obtain rfl := Option.some.inj hdr
    exact spelled_relz (r := rowsControl[5]) (k := .callRel) (List.getElem_mem _) wf
      ⟨rfl, rfl, rfl, rfl, rfl, rfl, rfl⟩ rfl fun _ => rfl
  | loop h w rel =>
    obtain rfl := Option.some.inj hdr
    exact spelled_rel8 (r := rowsControl[9]) (k := .loop) (List.getElem_mem _) wf
      ⟨rfl, rfl, rfl, rfl, rfl, rfl, rfl, rfl⟩ rfl fun _ => rfl
  | loope h w rel =>
    obtain rfl := Option.some.inj hdr
    exact spelled_rel8 (r := rowsControl[10]) (k := .loope) (List.getElem_mem _) wf
      ⟨rfl, rfl, rfl, rfl, rfl, rfl, rfl, rfl⟩ rfl fun _ => rfl
  | loopne h w rel =>
    obtain rfl := Option.some.inj hdr
    exact spelled_rel8 (r := rowsControl[11]) (k := .loopne) (List.getElem_mem _) wf
      ⟨rfl, rfl, rfl, rfl, rfl, rfl, rfl, rfl⟩ rfl fun _ => rfl
  | jrcxz h w rel =>
    obtain rfl := Option.some.inj hdr
    exact spelled_rel8 (r := rowsControl[12]) (k := .jrcxz) (List.getElem_mem _) wf
      ⟨rfl, rfl, rfl, rfl, rfl, rfl, rfl, rfl⟩ rfl fun _ => rfl
  | jmpInd h w src =>
    obtain rfl := Option.some.inj hdr
    simp only [Instr.wf, Bool.and_eq_true] at wf
    obtain ⟨⟨⟨wf, ok⟩, size⟩, src_wf⟩ := wf
    exact spelled_rm (r := rowsControl[2]) wf (mem_control _ (List.getElem_mem _)) 0xFF 4 rfl rfl ⟨rfl, rfl, rfl⟩
      (.inl rfl) (by rintro d ⟨⟩; rfl) size ok src_wf (fun _ => ⟨nofun, nofun⟩) rfl fun _ _ _ => rfl
  | callInd h w src =>
    obtain rfl := Option.some.inj hdr
    simp only [Instr.wf, Bool.and_eq_true] at wf
    obtain ⟨⟨⟨wf, ok⟩, size⟩, src_wf⟩ := wf
    exact spelled_rm (r := rowsControl[6]) wf (mem_control _ (List.getElem_mem _)) 0xFF 2 rfl rfl ⟨rfl, rfl, rfl⟩
      (.inl rfl) (by rintro d ⟨⟩; rfl) size ok src_wf (fun _ => ⟨nofun, nofun⟩) rfl fun _ _ _ => rfl
  | retImm h w imm =>
    obtain rfl := Option.some.inj hdr
    simp only [Instr.wf, Bool.and_eq_true] at wf
    obtain ⟨⟨wf, ok⟩, size⟩ := wf
    exact spelled_opImm (r := rowsControl[8]) wf (mem_control _ (List.getElem_mem _)) 0xC2 imm.toNat rfl rfl
      ⟨rfl, rfl, rfl⟩
      size ok rfl fun _ => congrArg (Instr.retImm h w) (setWidth_ofNat_mod_self (bytes := 2) imm (by decide))
  | intn h vec =>
    obtain rfl := Option.some.inj hdr
    obtain ⟨wf, ok⟩ := Bool.and_eq_true_iff.mp wf
    exact spelled_opImm (r := rowsControl[14]) (w := .w8) wf (mem_control _ (List.getElem_mem _)) 0xCD vec.toNat rfl rfl
      ⟨rfl, rfl, rfl⟩ rfl ok (congrArg (0xCD :: ·) (leBytes_one vec).symm) fun _ =>
        congrArg (Instr.intn h) (setWidth_ofNat_mod_self (bytes := 1) vec (by decide))
  | into h =>
    obtain rfl := Option.some.inj hdr
    simp only [Instr.wf, Bool.and_eq_true] at wf
    obtain ⟨⟨wf, ok⟩, legacy⟩ := wf
    exact spelled_op (r := rowsControl[15]) (w := .w8) wf (mem_control _ (List.getElem_mem _)) 0xCE rfl legacy rfl
      ⟨rfl, rfl, rfl⟩ rfl ok rfl fun _ _ => rfl
  | movs h w =>
    obtain rfl := Option.some.inj hdr
    simp only [Instr.wf, Bool.and_eq_true, Bool.not_eq_true', bne_iff_ne] at wf
    obtain ⟨⟨⟨wf, lock⟩, use⟩, size⟩ := wf
    exact spelled_string (r := rowsString[0]) wf (at_mem mem_string 0 (by decide) .none rfl)
      ⟨rfl, rfl, rfl, rfl, rfl⟩ ⟨rfl, rfl⟩ size lock use (by rw [opcodeBytes_at rfl]; rfl) (by rintro p rfl rfl; rfl)
  | stos h w =>
    obtain rfl := Option.some.inj hdr
    simp only [Instr.wf, Bool.and_eq_true, Bool.not_eq_true', bne_iff_ne] at wf
    obtain ⟨⟨⟨wf, lock⟩, use⟩, size⟩ := wf
    exact spelled_string (r := rowsString[2]) wf (at_mem mem_string 2 (by decide) .none rfl)
      ⟨rfl, rfl, rfl, rfl, rfl⟩ ⟨rfl, rfl⟩ size lock use (by rw [opcodeBytes_at rfl]; rfl) (by rintro p rfl rfl; rfl)
  | lods h w =>
    obtain rfl := Option.some.inj hdr
    simp only [Instr.wf, Bool.and_eq_true, Bool.not_eq_true', bne_iff_ne] at wf
    obtain ⟨⟨⟨wf, lock⟩, use⟩, size⟩ := wf
    exact spelled_string (r := rowsString[4]) wf (at_mem mem_string 4 (by decide) .none rfl)
      ⟨rfl, rfl, rfl, rfl, rfl⟩ ⟨rfl, rfl⟩ size lock use (by rw [opcodeBytes_at rfl]; rfl) (by rintro p rfl rfl; rfl)
  | cmps h w =>
    obtain rfl := Option.some.inj hdr
    simp only [Instr.wf, Bool.and_eq_true, Bool.not_eq_true'] at wf
    obtain ⟨⟨wf, lock⟩, size⟩ := wf
    exact spelled_string (r := rowsString[6]) wf (at_mem mem_string 6 (by decide) .none rfl)
      ⟨rfl, rfl, rfl, rfl, rfl⟩ ⟨rfl, rfl⟩ size lock trivial (by rw [opcodeBytes_at rfl]; rfl)
      (by rintro p rfl rfl; rfl)
  | scas h w =>
    obtain rfl := Option.some.inj hdr
    simp only [Instr.wf, Bool.and_eq_true, Bool.not_eq_true'] at wf
    obtain ⟨⟨wf, lock⟩, size⟩ := wf
    exact spelled_string (r := rowsString[8]) wf (at_mem mem_string 8 (by decide) .none rfl)
      ⟨rfl, rfl, rfl, rfl, rfl⟩ ⟨rfl, rfl⟩ size lock trivial (by rw [opcodeBytes_at rfl]; rfl)
      (by rintro p rfl rfl; rfl)
  | nop h =>
    obtain rfl := Option.some.inj hdr
    simp only [Instr.wf, Bool.and_eq_true, Bool.not_eq_true'] at wf
    obtain ⟨⟨wf, ok⟩, rexB⟩ := wf
    have picks : Pick.num0.agrees h.toPfx 0x90 = true := by
      rw [Pick.agrees, regNum_90 rexB, show h.toPfx.rep = .none from (plain_iff.mp ok).2]
      rfl
    exact spelled_op (r := rowsSystem[0]) (w := .w8) wf (mem_system _ (List.getElem_mem _)) 0x90 rfl rfl picks
      ⟨rfl, rfl, rfl⟩ rfl ok rfl fun _ _ => rfl
  | pause h =>
    obtain rfl := Option.some.inj hdr
    simp only [Instr.wf, Bool.and_eq_true, Bool.not_eq_true', beq_iff_eq] at wf
    obtain ⟨⟨⟨wf, lock⟩, use⟩, rexB⟩ := wf
    have picks : Pick.num0F3.agrees h.toPfx 0x90 = true := by
      rw [Pick.agrees, regNum_90 rexB, show h.toPfx.rep = .rep from use]
      rfl
    exact spelled_noModRM (r := rowsSystem[1]) (w := .w8) (v := 0) wf (mem_system _ (List.getElem_mem _)) 0x90 rfl rfl
      picks
      rfl rfl lock use rfl fun _ => rfl
  | nopRm h w rm =>
    obtain rfl := Option.some.inj hdr
    simp only [Instr.wf, Bool.and_eq_true] at wf
    obtain ⟨⟨⟨wf, ok⟩, size⟩, rm_wf⟩ := wf
    exact spelled_rm (r := rowsSystem[2]) wf (mem_system _ (List.getElem_mem _)) 0x1F 0 rfl rfl ⟨rfl, rfl, rfl⟩
      (.inl rfl)
      (by rintro d ⟨⟩; rfl) size ok rm_wf nofun rfl fun _ _ _ => rfl
  | lfence h =>
    obtain rfl := Option.some.inj hdr
    simp only [Instr.wf, Bool.and_eq_true, Bool.not_eq_true'] at wf
    obtain ⟨⟨wf, ok⟩, os⟩ := wf
    exact spelled_fence (r := rowsSystem[11]) (mr := 0xE8) wf (mem_system _ (List.getElem_mem _))
      ⟨rfl, rfl, rfl, rfl, rfl, rfl, rfl, rfl, rfl⟩ rfl ok os rfl (by rintro p rfl; rfl)
  | mfence h =>
    obtain rfl := Option.some.inj hdr
    simp only [Instr.wf, Bool.and_eq_true, Bool.not_eq_true'] at wf
    obtain ⟨⟨wf, ok⟩, os⟩ := wf
    exact spelled_fence (r := rowsSystem[12]) (mr := 0xF0) wf (mem_system _ (List.getElem_mem _))
      ⟨rfl, rfl, rfl, rfl, rfl, rfl, rfl, rfl, rfl⟩ rfl ok os rfl (by rintro p rfl; rfl)
  | sfence h =>
    obtain rfl := Option.some.inj hdr
    simp only [Instr.wf, Bool.and_eq_true, Bool.not_eq_true'] at wf
    obtain ⟨⟨wf, ok⟩, os⟩ := wf
    exact spelled_fence (r := rowsSystem[13]) (mr := 0xF8) wf (mem_system _ (List.getElem_mem _))
      ⟨rfl, rfl, rfl, rfl, rfl, rfl, rfl, rfl, rfl⟩ rfl ok os rfl (by rintro p rfl; rfl)
  | lgdt h w mo =>
    obtain rfl := Option.some.inj hdr
    simp only [Instr.wf, Bool.and_eq_true] at wf
    obtain ⟨⟨⟨wf, ok⟩, size⟩, mo_wf⟩ := wf
    exact spelled_rm (r := rowsSystem[14]) (rm := .mem mo) wf (mem_system _ (List.getElem_mem _)) 0x01 2 rfl rfl
      ⟨rfl, rfl, rfl⟩ (.inr ⟨rfl, rfl⟩) (by rintro d ⟨⟩; rfl) size ok mo_wf nofun rfl fun _ _ _ => rfl
  | lidt h w mo =>
    obtain rfl := Option.some.inj hdr
    simp only [Instr.wf, Bool.and_eq_true] at wf
    obtain ⟨⟨⟨wf, ok⟩, size⟩, mo_wf⟩ := wf
    exact spelled_rm (r := rowsSystem[15]) (rm := .mem mo) wf (mem_system _ (List.getElem_mem _)) 0x01 3 rfl rfl
      ⟨rfl, rfl, rfl⟩ (.inr ⟨rfl, rfl⟩) (by rintro d ⟨⟩; rfl) size ok mo_wf nofun rfl fun _ _ _ => rfl
  | invlpg h mo =>
    obtain rfl := Option.some.inj hdr
    simp only [Instr.wf, Bool.and_eq_true] at wf
    obtain ⟨⟨wf, ok⟩, mo_wf⟩ := wf
    exact spelled_rm (r := rowsSystem[16]) (w := .w8) (rm := .mem mo) wf (mem_system _ (List.getElem_mem _)) 0x01 7
      rfl rfl
      ⟨rfl, rfl, rfl⟩ (.inr ⟨rfl, rfl⟩) (by rintro d ⟨⟩; rfl) rfl ok mo_wf nofun rfl fun _ _ _ => rfl
  | swapgs h =>
    obtain rfl := Option.some.inj hdr
    simp only [Instr.wf, Bool.and_eq_true] at wf
    obtain ⟨⟨wf, ok⟩, long⟩ := wf
    exact spelled_byte (r := rowsSystem[17]) (mr := 0xF8) (w := .w8) wf (mem_system _ (List.getElem_mem _)) 0x01 rfl
      long
      ⟨rfl, rfl, rfl, rfl⟩ rfl rfl ⟨rfl, rfl⟩ rfl ok (fun _ => by decide) rfl fun _ _ => rfl
  | ud2 => exact absurd wf Bool.false_ne_true
  | invalid => exact absurd wf Bool.false_ne_true

end

end Sys2Proof

open Sys2Proof Sys2Proof.Machine

/-- Settles O4: the encoder spells every well-formed instruction by a row of the table, and the decoder reads that
row's bytes back. -/
theorem decodeOfEncode : Obligations.DecodeOfEncode := by
  intro m i h rest wf hdr len
  obtain ⟨r, op, t, row, body, gives⟩ := spelled_of_wf wf hdr
  obtain ⟨h', hdr', hwf⟩ := hdr_wf_of_wf wf
  obtain rfl := Option.some.inj (hdr.symm.trans hdr')
  exact decode_of_opcodeGives hwf hdr len row body gives rest
end

section
/-! PROOF. O7: which encodings are `Invalid` and which are `Unsupported` (R316, R345, R346). -/

namespace Sys2Proof
open Sys2Proof Sys2Proof.Machine

section
variable {m : DecodeMode} {p q : Pfx} {map : OpMap} {op used : Nat} {mr : Byte} {ps bs t : List Byte}
  {short : DecodeResult} {i : Instr} {r : Row}

/-! ### The decoder after the prefixes -/

/-- The answer to too few bytes. -/
def shortOf (bytes : List Byte) : DecodeResult := if 15 ≤ bytes.length then .tooLong else .truncated

theorem shortOf_ne_invalid (bytes : List Byte) : shortOf bytes ≠ .invalid i := by
  unfold shortOf
  split <;> nofun

/-- The record after the prefix bytes `ps`. -/
abbrev prefixed (m : DecodeMode) (ps : List Byte) : Pfx := Pfx.empty.after m ps

theorem decode_prefixes (all : ∀ b ∈ ps, isPrefixByte m b = true) (le : ps.length ≤ 15) (bs : List Byte) :
    decode m (ps ++ bs) = decodeFrom m (prefixed m ps) ps.length (bs.take (15 - ps.length)) (shortOf (ps ++ bs)) := by
  rw [decode_eq_decodeFrom, List.take_append, List.take_of_length_le le, decodeFrom_prefixes all, Nat.zero_add]
  rfl

/-- Fifteen prefix bytes and no place for an opcode. -/
theorem decode_all_prefixes (all : ∀ b ∈ ps, isPrefixByte m b = true) (le : 15 ≤ ps.length) (bs : List Byte) :
    decode m (ps ++ bs) = shortOf (ps ++ bs) := by
  have taken : (ps ++ bs).take 15 = ps.take 15 ++ [] := by rw [List.take_append_of_le_length le, List.append_nil]
  rw [decode_eq_decodeFrom, taken, decodeFrom_prefixes fun b hb => all b (List.mem_of_mem_take hb)]
  rfl

theorem decode_m1 (all : ∀ b ∈ ps, isPrefixByte m b = true) (le : ps.length + 1 ≤ 15) {b : Byte}
    (first : isPrefixByte m b = false) (no_escape : b ≠ 0x0F) (t : List Byte) :
    decode m (ps ++ b :: t) = decodeOpcode m (prefixed m ps) .m1 b.toNat (ps.length + 1) (t.take (14 - ps.length))
      (shortOf (ps ++ b :: t)) := by
  have taken : (b :: t).take (15 - ps.length) = b :: t.take (14 - ps.length) := by
    rw [show 15 - ps.length = (14 - ps.length) + 1 by omega, List.take_succ_cons]
  have ne : (b.toNat == 0x0F) = false := by
    rw [beq_eq_false_iff_ne]
    exact fun eq => no_escape (BitVec.eq_of_toNat_eq eq)
  rw [decode_prefixes all (by omega), taken, decodeFrom_first first]
  simp [decodeAfterPrefixes, ne]

theorem decode_m0F (all : ∀ b ∈ ps, isPrefixByte m b = true) (le : ps.length + 2 ≤ 15) (b : Byte) (t : List Byte) :
    decode m (ps ++ 0x0F :: b :: t) =
      if b = 0x38 ∨ b = 0x3A then .unsupported
      else decodeOpcode m (prefixed m ps) .m0F b.toNat (ps.length + 2) (t.take (13 - ps.length))
        (shortOf (ps ++ 0x0F :: b :: t)) := by
  have taken : ((0x0F : Byte) :: b :: t).take (15 - ps.length) = 0x0F :: b :: t.take (13 - ps.length) := by
    rw [show 15 - ps.length = (13 - ps.length) + 1 + 1 by omega, List.take_succ_cons, List.take_succ_cons]
  have escape : isPrefixByte m 0x0F = false := by cases m <;> decide
  have is (c : Byte) : (b.toNat == c.toNat) = true ↔ b = c := by
    rw [beq_iff_eq]
    exact ⟨BitVec.eq_of_toNat_eq, congrArg _⟩
  have map3 : (b.toNat == 0x38 || b.toNat == 0x3A) = true ↔ b = 0x38 ∨ b = 0x3A := by
    rw [Bool.or_eq_true]
    exact or_congr (is 0x38) (is 0x3A)
  rw [decode_prefixes all (by omega), taken, decodeFrom_first escape]
  simp only [decodeAfterPrefixes, map3]
  rfl

/-- REX.R of the prefixes, as bit 3 of a register number. -/
theorem rexR_prefixed (all : ∀ b ∈ ps, isPrefixByte m b = true) (n : Nat) :
    (regNum (prefixed m ps).rexR n).val = rexRBit m ps + n % 8 := by
  rw [regNum_val]
  congr 1
  rcases List.eq_nil_or_concat ps with rfl | ⟨qs, b, rfl⟩
  · simp [prefixed, Pfx.after, Pfx.empty, Pfx.rexR, rexRBit]
  · have is := all b (by simp)
    have last : prefixed m (qs.concat b) = (prefixed m qs).next m b := by simp [prefixed, Pfx.after]
    rw [last]
    simp only [rexRBit, List.concat_eq_append, List.getLast?_append, List.getLast?_singleton, Option.some_or]
    have some_iff := legacy_isSome_iff m (prefixed m qs) b
    by_cases rex : m = .m64 ∧ b.toNat / 16 = 4
    · have legacy : (prefixed m qs).legacy m b.toNat = none := by
        rw [← Option.not_isSome_iff_eq_none, some_iff]
        have := rex.2
        simp
        omega
      have bit2 : (b.setWidth 4).getLsbD 2 = decide (b.toNat / 4 % 2 = 1) := by
        rw [BitVec.getLsbD_setWidth, BitVec.getLsbD, Nat.testBit_eq_decide_div_mod_eq]
        rfl
      rw [if_pos rex]
      simp only [Pfx.next, legacy, Option.getD_none, Pfx.rexR, Option.getD_some, bit2]
      rcases Nat.mod_two_eq_zero_or_one (b.toNat / 4) with zero | one <;> simp [*]
    · rw [if_neg rex]
      have some_q : ((prefixed m qs).legacy m b.toNat).isSome = true := by
        rw [some_iff]
        simp only [isPrefixByte, Bool.or_eq_true, Bool.and_eq_true, beq_iff_eq] at is
        exact is.resolve_right rex
      obtain ⟨q, legacy⟩ := Option.isSome_iff_exists.mp some_q
      have no_rex : q.rex = none := by
        unfold Pfx.legacy at legacy
        cases m <;> dsimp only at legacy <;> split at legacy <;> cases legacy <;> rfl
      simp [Pfx.next, legacy, Pfx.rexR, no_rex]

/-! ### `Invalid` and `Unsupported` after an opcode -/

/-- The opcodes whose ModRM byte R345 looks at have a row with a ModRM byte in every mode. -/
theorem rows_of_invalidModRM : ∀ x ∈ [(OpMap.m1, 0x8D), (.m1, 0x8E), (.m1, 0x8C), (.m1, 0xFE), (.m1, 0xFF),
    (.m0F, 0x20),
    (.m0F, 0x22)], ∃ r ∈ rows, r.map = x.1 ∧ r.mask.agrees r.op x.2 = true ∧ r.modes = .all ∧ r.pick = .always ∧
      r.hasModRM = true := by decide +kernel

theorem candidate_of_special (x : (map, op) ∈ [(OpMap.m1, 0x8D), (.m1, 0x8E), (.m1, 0x8C), (.m1, 0xFE), (.m1, 0xFF),
    (.m0F, 0x20), (.m0F, 0x22)]) (p : Pfx) : ∃ r ∈ candidates m p map op, r.hasModRM = true := by
  obtain ⟨r, hr, is_map, agrees, modes, pick, modRM⟩ := rows_of_invalidModRM _ x
  refine ⟨r, mem_candidates.mpr ⟨hr, ?_⟩, modRM⟩
  simp [Row.matchesOpcode, is_map, agrees, modes, pick, Modes.has, Pick.agrees]

theorem special_of_invalidModRM {n : Nat} {crn : RegNum} (illegal : invalidModRM map op n crn = true) :
    (map, op) ∈ [(OpMap.m1, 0x8D), (.m1, 0x8E), (.m1, 0x8C), (.m1, 0xFE), (.m1, 0xFF), (.m0F, 0x20), (.m0F, 0x22)] := by
  cases map <;> simp [invalidModRM] at illegal ⊢ <;> grind

/-- R345 at the ModRM byte. -/
theorem decodeOpcode_invalidModRM (inv : invalidOpcode m map op = none)
    (illegal : invalidModRM map op mr.toNat (regNum p.rexR (mr.toNat / 8)) = true) :
    decodeOpcode m p map op used (mr :: t) short = .invalid .invalid := by
  obtain ⟨r, hr, modRM⟩ := candidate_of_special (special_of_invalidModRM illegal) p
  exact (decodeOpcode_of_modRM inv hr modRM).trans (if_pos illegal)

/-- R346: control register 8. -/
theorem decodeOpcode_cr8 (is : op = 0x20 ∨ op = 0x22) (cr8 : regNum p.rexR (mr.toNat / 8) = 8) :
    decodeOpcode m p .m0F op used (mr :: t) short = .unsupported := by
  have special : (OpMap.m0F, op) ∈ [(OpMap.m1, 0x8D), (.m1, 0x8E), (.m1, 0x8C), (.m1, 0xFE), (.m1, 0xFF), (.m0F, 0x20),
      (.m0F, 0x22)] := by rcases is with rfl | rfl <;> decide
  obtain ⟨r, hr, modRM⟩ := candidate_of_special (m := m) special p
  have inv : invalidOpcode m .m0F op = none := by rcases is with rfl | rfl <;> rfl
  refine (decodeOpcode_of_modRM inv hr modRM).trans ?_
  have eight : ((8 : RegNum) : Nat) = 8 := rfl
  rcases is with rfl | rfl <;> simp [decodeModRM, invalidModRM, unsupportedModRM, cr8, eight]

/-- What no row matches. -/
theorem decodeOpcode_unmatched (inv : invalidOpcode m map op = none)
    (legal : invalidModRM map op mr.toNat (regNum p.rexR (mr.toNat / 8)) = false)
    (none_match : ∀ r ∈ candidates m p map op, r.hasModRM = true ∧ r.matchesModRM mr.toNat = false) :
    decodeOpcode m p map op used (mr :: t) short = .unsupported := by
  rcases decodeOpcode_cases m p map op used (mr :: t) short with ⟨i, is, -⟩ | ⟨-, ⟨-, un⟩ | ⟨r, hr, no, -⟩ | ⟨-, eq⟩⟩
  · exact absurd (is.symm.trans inv) nofun
  · exact un
  · exact absurd ((none_match r hr).1.symm.trans no) nofun
  · have none_found : (candidates m p map op).find? (·.matchesModRM mr.toNat) = none :=
      List.find?_eq_none.mpr fun r hr => by simp [(none_match r hr).2]
    refine eq.trans ?_
    simp only [decodeModRM, legal, none_found, Bool.false_eq_true, if_false, ite_self]

theorem rowAnswer_invalid {n len v : Nat} {w : Width} {rm : RM} (lock : p.lock = false) :
    rowAnswer m p r op n len w rm v ≠ .invalid i := by
  unfold rowAnswer
  split
  · nofun
  · rw [if_neg (by simp [lock])]
    nofun

/-- R345: without LOCK nothing else is `Invalid`. -/
theorem invalid_of_decodeOpcode (eq : decodeOpcode m p map op used bs short = .invalid i) (lock : p.lock = false)
    (no : short ≠ .invalid i) : invalidOpcode m map op = some i ∨ invalidOpcode m map op = none ∧
      ∃ mr t, bs = mr :: t ∧ i = .invalid ∧
        invalidModRM map op mr.toNat (regNum p.rexR (mr.toNat / 8)) = true := by
  have not_row {r : Row} {n used : Nat} {bs : List Byte} : decodeRow m p r op n used bs short ≠ .invalid i := by
    rcases decodeRow_cases m p r op n used bs with ⟨-, un⟩ | ⟨w, -, ⟨-, sh⟩ | ⟨rm, v, rest, -, gives⟩⟩
    · rw [un]
      nofun
    · rw [sh]
      exact no
    · rw [gives]
      exact rowAnswer_invalid lock
  rcases decodeOpcode_cases m p map op used bs short with ⟨j, inv, is⟩ | ⟨inv, ⟨-, un⟩ | ⟨r, -, -, row⟩ | ⟨-, mod⟩⟩
  · rw [is] at eq
    cases eq
    exact .inl inv
  · exact absurd (un.symm.trans eq) nofun
  · exact absurd (row.symm.trans eq) not_row
  · have eq := mod.symm.trans eq
    cases bs with
    | nil => exact absurd eq no
    | cons mr t =>
      simp only [decodeModRM] at eq
      split at eq
      next illegal =>
        cases eq
        exact .inr ⟨inv, mr, t, rfl, rfl, illegal⟩
      next =>
        split at eq
        · cases eq
        · split at eq
          · cases eq
          · exact absurd eq not_row

/-! ### The lists of R345 -/

/-- The lines of R345 that look at an opcode and what follows it, in the decoder's words. -/
def illegalAfter (m : DecodeMode) (map : OpMap) (op : Nat) (crn : Byte → RegNum) (n : Nat) (t : List Byte) :
    Option (Instr × Nat) :=
  match invalidOpcode m map op with
  | some i => some (i, n)
  | none =>
    match t.head? with
    | some mr => if invalidModRM map op mr.toNat (crn mr) = true then some (.invalid, n + 1) else none
    | none => none

theorem illegal_m1 {b : Byte} (ne : b ≠ 0x0F) (crn : Byte → RegNum) :
    illegal m ps (b :: t) = illegalAfter m .m1 b.toNat crn 1 t := by
  have ne' : b.toNat ≠ 0x0F := fun eq => ne (BitVec.eq_of_toNat_eq eq)
  unfold illegal
  split
  case h_1 eq | h_2 eq | h_3 eq | h_4 eq => exact absurd (List.cons.inj eq).1 ne'
  case h_6 eq => exact absurd eq (List.cons_ne_nil _ _)
  case h_5 op rest not_escape eq =>
    obtain ⟨rfl, rfl⟩ := List.cons.inj eq
    have removed : (m = .m64 ∧ [0x06, 0x07, 0x0E, 0x16, 0x17, 0x1E, 0x1F, 0x27, 0x2F, 0x37, 0x3F, 0x60, 0x61, 0x82,
        0x9A,
        0xCE, 0xD4, 0xD5, 0xD6, 0xEA].contains b.toNat = true) ↔ (m == .m64 && removedIn64 b.toNat) = true := by
      rw [Bool.and_eq_true, beq_iff_eq]
      rfl
    simp only [removed, illegalAfter, invalidOpcode]
    cases (m == .m64 && removedIn64 b.toNat) with
    | true => rfl
    | false =>
      cases t with
      | nil => rfl
      | cons mr t =>
        simp only [Bool.false_eq_true, if_false, List.map_cons, List.head?_cons, invalidModRM, Bool.or_eq_true,
          Bool.and_eq_true, beq_iff_eq, decide_eq_true_eq, or_assoc]

theorem illegal_m0F (all : ∀ b ∈ ps, isPrefixByte m b = true) (b : Byte) (t : List Byte) :
    illegal m ps (0x0F :: b :: t) =
      illegalAfter m .m0F b.toNat (fun mr => regNum (prefixed m ps).rexR (mr.toNat / 8)) 2 t := by
  simp only [illegalAfter, invalidOpcode]
  unfold illegal
  split
  case h_1 eq =>
    have is : b.toNat = 0x0B := (List.cons.inj (List.cons.inj eq).2).1
    simp [is]
  case h_2 eq | h_3 eq =>
    have is := (List.cons.inj (List.cons.inj eq).2).1
    change b.toNat = _ at is
    simp [is]
  case h_4 op mr rest ud2 ud1 ud0 eq =>
    obtain ⟨-, eq⟩ := List.cons.inj eq
    obtain ⟨rfl, eq⟩ := List.cons.inj eq
    cases t with
    | nil => cases eq
    | cons mrb t =>
      obtain ⟨rfl, -⟩ := List.cons.inj (List.cons.inj eq).2
      have crn : (regNum (prefixed m ps).rexR (mrb.toNat / 8)).val = rexRBit m ps + mrb.toNat / 8 % 8 :=
        rexR_prefixed all (mrb.toNat / 8)
      have plain : (b.toNat == 0x0B) = false ∧ (b.toNat == 0xB9 || b.toNat == 0xFF) = false := by
        simp only [beq_eq_false_iff_ne, Bool.or_eq_false_iff]
        exact ⟨fun is => ud2 is, fun is => ud1 is, fun is => ud0 is⟩
      simp only [plain, Bool.false_eq_true, if_false, List.head?_cons, invalidModRM, crn, Bool.and_eq_true,
        Bool.or_eq_true,
        beq_iff_eq]
  case h_6 eq => exact absurd eq (List.cons_ne_nil _ _)
  case h_5 op rest ud2 ud1 ud0 more eq =>
    obtain ⟨rfl, rfl⟩ := List.cons.inj eq
    cases t with
    | cons mr t => exact (more _ _ _ rfl rfl).elim
    | nil =>
      have plain : (b.toNat == 0x0B) = false ∧ (b.toNat == 0xB9 || b.toNat == 0xFF) = false := by
        simp only [beq_eq_false_iff_ne, Bool.or_eq_false_iff]
        exact ⟨fun is => ud2 [] rfl (by simp [is]), fun is => ud1 [] rfl (by simp [is]), fun is => ud0 [] rfl
          (by simp [is])⟩
      simp [plain]

/-- The opcode bytes at the front: none, an escape byte alone, a two-byte opcode or a one-byte one. -/
theorem opcode_cases (bs : List Byte) : bs = [] ∨ bs = [0x0F] ∨ (∃ b t, bs = 0x0F :: b :: t) ∨
    ∃ b t, bs = b :: t ∧ b ≠ 0x0F := by
  rcases bs with _ | ⟨b, t⟩
  · exact .inl rfl
  · by_cases is : b = 0x0F
    · subst is
      rcases t with _ | ⟨b, t⟩
      · exact .inr (.inl rfl)
      · exact .inr (.inr (.inl ⟨b, t, rfl⟩))
    · exact .inr (.inr (.inr ⟨b, t, rfl, is⟩))

/-- What R345 names after an opcode is what the decoder answers. -/
theorem decodeOpcode_illegal {n k : Nat} (illegal : illegalAfter m map op (fun mr => regNum p.rexR (mr.toNat / 8)) n t =
    some (i, k)) (enough : k ≤ n + bs.length) (same : ∀ mr, t.head? = some mr → bs ≠ [] → bs.head? = some mr) :
    decodeOpcode m p map op used bs short = .invalid i := by
  unfold illegalAfter at illegal
  cases inv : invalidOpcode m map op with
  | some j =>
    simp only [inv, Option.some.injEq, Prod.mk.injEq] at illegal
    obtain ⟨rfl, -⟩ := illegal
    exact decodeOpcode_invalid inv
  | none =>
    cases head : t.head? with
    | none => simp [inv, head] at illegal
    | some mr =>
      simp only [inv, head] at illegal
      split at illegal
      next bad =>
        cases illegal
        cases bs with
        | nil => exact absurd enough (by rw [List.length_nil]; omega)
        | cons b bs =>
          obtain rfl : b = mr := by simpa using same mr head (List.cons_ne_nil _ _)
          exact decodeOpcode_invalidModRM inv bad
      next => cases illegal

/-- An opcode that R345 looks at is no prefix. -/
theorem not_prefix_of_illegal {b : Byte} {n k : Nat} {crn : Byte → RegNum}
    (illegal : illegalAfter m .m1 b.toNat crn n t = some (i, k)) : isPrefixByte m b = false := by
  have removed : ∀ m ∈ [DecodeMode.m16, .m32, .m64], ∀ b : Byte, (invalidOpcode m .m1 b.toNat).isSome = true →
      isPrefixByte m b = false := by decide +kernel
  have special : ∀ m ∈ [DecodeMode.m16, .m32, .m64], ∀ b : Byte, (OpMap.m1, b.toNat) ∈ [(OpMap.m1, 0x8D), (.m1, 0x8E),
      (.m1, 0x8C), (.m1, 0xFE), (.m1, 0xFF), (.m0F, 0x20), (.m0F, 0x22)] → isPrefixByte m b = false := by decide +kernel
  have mem : m ∈ [DecodeMode.m16, .m32, .m64] := by cases m <;> decide
  unfold illegalAfter at illegal
  cases inv : invalidOpcode m .m1 b.toNat with
  | some j => exact removed m mem b (by simp [inv])
  | none =>
    cases head : t.head? with
    | none => simp [inv, head] at illegal
    | some mr =>
      simp only [inv, head] at illegal
      split at illegal
      next bad => exact special m mem b (special_of_invalidModRM bad)
      next => cases illegal

theorem take_head {n : Nat} {t : List Byte} (mr : Byte) (head : t.head? = some mr) (ne : t.take n ≠ []) :
    (t.take n).head? = some mr := by
  rcases t with _ | ⟨b, t⟩
  · exact absurd head nofun
  · cases n with
    | zero => exact absurd rfl ne
    | succ n => exact head

theorem illegal_escape (m : DecodeMode) (ps : List Byte) : illegal m ps [0x0F] = none := by cases m <;> rfl

/-- R345 (first part of the statement): what it lists is `Invalid`. -/
theorem decode_illegal (all : ∀ b ∈ ps, isPrefixByte m b = true) {k : Nat} (eq : illegal m ps bs = some (i, k))
    (le : ps.length + k ≤ 15) : decode m (ps ++ bs) = .invalid i := by
  rcases opcode_cases bs with rfl | rfl | ⟨b, t, rfl⟩ | ⟨b, t, rfl, ne⟩
  · exact absurd eq nofun
  · exact absurd ((illegal_escape m ps).symm.trans eq) nofun
  · rw [illegal_m0F all] at eq
    have two : 2 ≤ k ∧ k ≤ 2 + t.length := by
      unfold illegalAfter at eq
      cases t <;> simp at eq ⊢ <;> grind
    have not3 : ¬(b = 0x38 ∨ b = 0x3A) := by
      rintro (rfl | rfl) <;> unfold illegalAfter at eq <;> cases t <;> simp [invalidOpcode, invalidModRM] at eq
    rw [decode_m0F all (by omega), if_neg not3]
    refine decodeOpcode_illegal eq ?_ fun mr head ne => take_head mr head ne
    rw [List.length_take]
    omega
  · rw [illegal_m1 ne fun mr => regNum (prefixed m ps).rexR (mr.toNat / 8)] at eq
    have first := not_prefix_of_illegal eq
    have one : 1 ≤ k ∧ k ≤ 1 + t.length := by
      unfold illegalAfter at eq
      cases t <;> simp at eq ⊢ <;> grind
    rw [decode_m1 all (by omega) first ne]
    refine decodeOpcode_illegal eq ?_ fun mr head ne => take_head mr head ne
    rw [List.length_take]
    omega

theorem lock_prefixed (no : (0xF0 : Byte) ∉ ps) (clear : p.lock = false) : (p.after m ps).lock = false := by
  induction ps generalizing p with
  | nil => exact clear
  | cons b ps ih =>
    simp only [List.mem_cons, not_or] at no
    obtain ⟨ne, no⟩ := no
    refine ih no ?_
    have not240 : b.toNat ≠ 0xF0 := fun eq => ne (BitVec.eq_of_toNat_eq eq.symm)
    unfold Pfx.next
    cases legacy : p.legacy m b.toNat with
    | none => exact clear
    | some q =>
      unfold Pfx.legacy at legacy
      cases m <;> dsimp only at legacy <;> split at legacy <;> cases legacy <;> simp_all

/-- R345 (second part): without LOCK nothing else is `Invalid`. -/
theorem illegal_of_decode (all : ∀ b ∈ ps, isPrefixByte m b = true) (no_lock : (0xF0 : Byte) ∉ ps)
    (first : ∀ b, bs.head? = some b → isPrefixByte m b = false) (eq : decode m (ps ++ bs) = .invalid i) :
    ∃ k, illegal m ps bs = some (i, k) ∧ ps.length + k ≤ 15 := by
  have clear : (prefixed m ps).lock = false := lock_prefixed no_lock rfl
  have no_short {bytes : List Byte} : shortOf bytes ≠ .invalid i := shortOf_ne_invalid _
  have from_opcode {map : OpMap} {op n : Nat} {t : List Byte} {short : DecodeResult} (len : ps.length + n ≤ 15)
      (no : short ≠ .invalid i)
      (eq : decodeOpcode m (prefixed m ps) map op (ps.length + n) (t.take (15 - n - ps.length)) short = .invalid i) :
      ∃ k, illegalAfter m map op (fun mr => regNum (prefixed m ps).rexR (mr.toNat / 8)) n t = some (i, k) ∧
        ps.length + k ≤ 15 := by
    unfold illegalAfter
    rcases invalid_of_decodeOpcode eq clear no with inv | ⟨inv, mr, t', taken, rfl, bad⟩
    · exact ⟨n, by simp [inv], len⟩
    · have head : t.head? = some mr := by
        have := congrArg List.head? taken
        rw [List.head?_take] at this
        split at this <;> simp_all
      have room : 0 < 15 - n - ps.length := by
        rcases Nat.eq_zero_or_pos (15 - n - ps.length) with zero | pos
        · simp [zero] at taken
        · exact pos
      exact ⟨n + 1, by simp [inv, head, bad], by omega⟩
  by_cases full : 15 ≤ ps.length
  · exact absurd ((decode_all_prefixes all full bs).symm.trans eq) no_short
  rcases opcode_cases bs with rfl | rfl | ⟨b, t, rfl⟩ | ⟨b, t, rfl, ne⟩
  · rw [decode_prefixes all (by omega), List.take_nil] at eq
    exact absurd eq no_short
  · have escape : isPrefixByte m 0x0F = false := by cases m <;> decide
    rw [decode_prefixes all (by omega), show ([0x0F] : List Byte).take (15 - ps.length) = [0x0F] by
      rw [List.take_of_length_le]; simp; omega, decodeFrom_first escape] at eq
    exact absurd eq no_short
  · by_cases room : ps.length + 2 ≤ 15
    · rw [decode_m0F all room] at eq
      split at eq
      · cases eq
      · rw [illegal_m0F all]
        exact from_opcode room no_short eq
    · have escape : isPrefixByte m 0x0F = false := by cases m <;> decide
      rw [decode_prefixes all (by omega), show 15 - ps.length = 1 by omega, List.take_succ_cons, List.take_zero,
        decodeFrom_first escape] at eq
      exact absurd eq no_short
  · rw [illegal_m1 ne fun mr => regNum (prefixed m ps).rexR (mr.toNat / 8)]
    rw [decode_m1 all (by omega) (first b rfl) ne] at eq
    exact from_opcode (by omega) no_short eq

/-! ### `Unsupported` (R346) -/

theorem decodeOpcode_candidates_nil (inv : invalidOpcode m map op = none)
    (none_agrees : ∀ r ∈ rows, r.map = map → r.modes.has m = true → r.mask.agrees r.op op = false) :
    decodeOpcode m p map op used bs short = .unsupported := by
  refine decodeOpcode_no_row inv fun r hr => ?_
  rw [Bool.eq_false_iff]
  intro is
  simp only [Row.matchesOpcode, Bool.and_eq_true, beq_iff_eq] at is
  obtain ⟨⟨⟨is_map, agrees⟩, modes⟩, -⟩ := is
  exact absurd ((none_agrees r hr is_map modes).symm.trans agrees) nofun

/-- The two-byte opcodes of R346 have no row and are no opcode of R345. -/
theorem rows_unlisted_m0F : ∀ op < 256, ([0x38, 0x3A, 0x00, 0x05, 0x07, 0x34, 0x35, 0x06, 0x08, 0x09, 0x21, 0x23, 0x31,
    0xA0, 0xA1, 0xA8, 0xA9, 0xB2, 0xB4, 0xB5, 0xA3, 0xAB, 0xB3, 0xBB, 0xBA, 0xA4, 0xA5, 0xAC, 0xAD, 0xBC, 0xBD,
    0xC7].contains op = true ∨ op / 8 = 0xC8 / 8) → (invalidOpcode .m16 .m0F op).isNone = true ∧
      ∀ r ∈ rows, r.map = .m0F → r.mask.agrees r.op op = false := by decide +kernel

/-- The one-byte opcodes of R346, which are no prefixes. -/
theorem rows_unlisted_m1 : ∀ op < 256, ([0xCA, 0xCB, 0xCF, 0xC4, 0xC5, 0x62, 0x6C, 0x6D, 0x6E, 0x6F, 0xE4, 0xE5, 0xE6,
    0xE7, 0xEC, 0xED, 0xEE, 0xEF, 0x9B, 0xC8, 0xD7, 0xF1].contains op = true ∨ op / 8 = 0xD8 / 8) →
      (∀ m ∈ [DecodeMode.m16, .m32, .m64], (invalidOpcode m .m1 op).isNone = true ∧
        isPrefixByte m (BitVec.ofNat 8 op) = false) ∧
      ∀ r ∈ rows, r.map = .m1 → r.mask.agrees r.op op = false := by decide +kernel

/-- The one-byte opcodes of R346 outside 64-bit mode. -/
theorem rows_unlisted_legacy : ∀ op < 256, [0x9A, 0xEA, 0x06, 0x07, 0x0E, 0x16, 0x17, 0x1E, 0x1F, 0x27, 0x2F, 0x37,
    0x3F,
    0xD4, 0xD5, 0xD6, 0x60, 0x61, 0x63, 0x82].contains op = true →
      (∀ m ∈ [DecodeMode.m16, .m32, .m64], isPrefixByte m (BitVec.ofNat 8 op) = false) ∧
      ∀ r ∈ rows, r.map = .m1 → r.modes ≠ .long → r.mask.agrees r.op op = false := by decide +kernel

/-- The opcodes of the groups of R346. -/
theorem groups_unlisted : ∀ op ∈ [0xFF, 0x8F, 0xC6, 0xC7, 0xF6, 0xF7, 0xC0, 0xC1, 0xD0, 0xD1, 0xD2, 0xD3],
    ∀ m ∈ [DecodeMode.m16, .m32, .m64], (invalidOpcode m .m1 op).isNone = true ∧
      isPrefixByte m (BitVec.ofNat 8 op) = false := by decide +kernel

theorem mem_modes (m : DecodeMode) : m ∈ [DecodeMode.m16, .m32, .m64] := by cases m <;> decide

/-- The digits of the groups that R346 names. -/
theorem rows_unlisted_digit : ∀ r ∈ rows, r.map = .m1 →
    (r.mask.agrees r.op 0xFF = true → r.hasModRM = true ∧ ∃ d ∈ [0, 1, 2, 4, 6], r.digit = some d) ∧
    (∀ op ∈ [0x8F, 0xC6, 0xC7], r.mask.agrees r.op op = true → r.hasModRM = true ∧ r.digit = some 0) ∧
    (∀ op ∈ [0xF6, 0xF7], r.mask.agrees r.op op = true → r.hasModRM = true ∧ ∃ d ∈ [0, 2, 3, 4, 5, 6, 7], r.digit =
    some d) ∧
    (∀ op ∈ [0xC0, 0xC1, 0xD0, 0xD1, 0xD2, 0xD3], r.mask.agrees r.op op = true →
      r.hasModRM = true ∧ ∃ d ∈ [0, 1, 4, 5, 7], r.digit = some d) := by decide +kernel

/-- The rows of `0F 01`. -/
theorem rows_unlisted_0F01 : ∀ r ∈ rows, r.map = .m0F → r.mask.agrees r.op 0x01 = true →
    r.hasModRM = true ∧ (r.sel = .mem ∧ (∃ d ∈ [2, 3, 7], r.digit = some d) ∨ r.sel = .byte 0xF8) := by decide +kernel

theorem candidate_facts (hr : r ∈ candidates m p map op) : r ∈ rows ∧ r.map = map ∧ r.mask.agrees r.op op = true ∧
    r.modes.has m = true := by
  obtain ⟨in_rows, is⟩ := mem_candidates.mp hr
  simp only [Row.matchesOpcode, Bool.and_eq_true, beq_iff_eq] at is
  obtain ⟨⟨⟨is_map, agrees⟩, modes⟩, -⟩ := is
  exact ⟨in_rows, is_map, agrees, modes⟩

theorem unmatched_of_digit {n : Nat} {ds : List Nat} (digit : ∃ d ∈ ds, r.digit = some d) (out : n / 8 % 8 ∉ ds) :
    r.matchesModRM n = false := by
  obtain ⟨d, mem, is⟩ := digit
  have ne : (n / 8 % 8 == d) = false := beq_eq_false_iff_ne.mpr fun eq => out (eq ▸ mem)
  simp [Row.matchesModRM, is, ne]

/-- The ModRM bytes of a one-byte opcode that R346 names match no row. -/
theorem unlisted_digit {n : Nat} (hr : r ∈ candidates m p .m1 op)
    (named : (op = 0xFF ∧ (n / 8 % 8 = 3 ∨ n / 8 % 8 = 5)) ∨ ((op = 0x8F ∨ op = 0xC6 ∨ op = 0xC7) ∧ n / 8 % 8 ≠ 0) ∨
      ((op = 0xF6 ∨ op = 0xF7) ∧ n / 8 % 8 = 1) ∨
      ((op = 0xC0 ∨ op = 0xC1 ∨ op / 4 = 0xD0 / 4) ∧ (n / 8 % 8 = 2 ∨ n / 8 % 8 = 3 ∨ n / 8 % 8 = 6))) :
    r.hasModRM = true ∧ r.matchesModRM n = false := by
  obtain ⟨in_rows, m1, agrees, -⟩ := candidate_facts hr
  obtain ⟨ff, mov, test, shift⟩ := rows_unlisted_digit r in_rows m1
  rcases named with ⟨rfl, reg⟩ | ⟨is, reg⟩ | ⟨is, reg⟩ | ⟨is, reg⟩
  · obtain ⟨modRM, digit⟩ := ff agrees
    exact ⟨modRM, unmatched_of_digit digit (by simp; omega)⟩
  · obtain ⟨modRM, digit⟩ := mov op (by simpa using is) agrees
    exact ⟨modRM, unmatched_of_digit ⟨0, List.mem_singleton_self 0, digit⟩ (by simpa using reg)⟩
  · obtain ⟨modRM, digit⟩ := test op (by simpa using is) agrees
    exact ⟨modRM, unmatched_of_digit digit (by simp [reg])⟩
  · obtain ⟨modRM, digit⟩ := shift op (by simp; omega) agrees
    exact ⟨modRM, unmatched_of_digit digit (by simp; omega)⟩

theorem unlisted_0F01 {n : Nat} (hr : r ∈ candidates m p .m0F 0x01)
    (named : n ≠ 0xF8 ∧ (n / 64 = 3 ∨ n / 8 % 8 = 0 ∨ n / 8 % 8 = 1 ∨ n / 8 % 8 = 4 ∨ n / 8 % 8 = 5 ∨ n / 8 % 8 = 6)) :
    r.hasModRM = true ∧ r.matchesModRM n = false := by
  obtain ⟨in_rows, m0F, agrees, -⟩ := candidate_facts hr
  obtain ⟨modRM, ⟨sel, digit⟩ | sel⟩ := rows_unlisted_0F01 r in_rows m0F agrees
  · refine ⟨modRM, ?_⟩
    obtain ⟨not_swapgs, three | reg⟩ := named
    · simp [Row.matchesModRM, sel, three]
    · exact unmatched_of_digit digit (by simp; omega)
  · refine ⟨modRM, ?_⟩
    simp [Row.matchesModRM, sel, named.1]

theorem mem_groups_of_named {n : Nat} (named : (op = 0xFF ∧ (n / 8 % 8 = 3 ∨ n / 8 % 8 = 5)) ∨
    ((op = 0x8F ∨ op = 0xC6 ∨ op = 0xC7) ∧ n / 8 % 8 ≠ 0) ∨ ((op = 0xF6 ∨ op = 0xF7) ∧ n / 8 % 8 = 1) ∨
      ((op = 0xC0 ∨ op = 0xC1 ∨ op / 4 = 0xD0 / 4) ∧ (n / 8 % 8 = 2 ∨ n / 8 % 8 = 3 ∨ n / 8 % 8 = 6))) :
    op ∈ [0xFF, 0x8F, 0xC6, 0xC7, 0xF6, 0xF7, 0xC0, 0xC1, 0xD0, 0xD1, 0xD2, 0xD3] ∧
      ∀ crn, invalidModRM .m1 op n crn = false := by
  rcases named with ⟨rfl, reg⟩ | ⟨is, -⟩ | ⟨is, -⟩ | ⟨is, -⟩
  · exact ⟨by decide, fun _ => by rcases reg with reg | reg <;> simp [invalidModRM, reg]⟩
  · rcases is with rfl | rfl | rfl <;> exact ⟨by decide, fun _ => rfl⟩
  · rcases is with rfl | rfl <;> exact ⟨by decide, fun _ => rfl⟩
  · have : op = 0xC0 ∨ op = 0xC1 ∨ op = 0xD0 ∨ op = 0xD1 ∨ op = 0xD2 ∨ op = 0xD3 := by omega
    rcases this with rfl | rfl | rfl | rfl | rfl | rfl <;> exact ⟨by decide, fun _ => rfl⟩

theorem take_cons_of_le {n : Nat} (le : 1 ≤ n) (b : Byte) (t : List Byte) : (b :: t).take n = b :: t.take (n - 1) := by
  obtain ⟨n, rfl⟩ : ∃ k, n = k + 1 := ⟨n - 1, by omega⟩
  rfl

theorem ofNat_toNat_byte (b : Byte) : BitVec.ofNat 8 b.toNat = b := by simp

/-- R346: the two-byte opcodes it names. -/
theorem decode_unlisted_m0F (all : ∀ b ∈ ps, isPrefixByte m b = true) {k : Nat} {b : Byte}
    (eq : unlisted m ps (0x0F :: b :: t) = some k) (le : ps.length + k ≤ 15) :
    decode m (ps ++ 0x0F :: b :: t) = .unsupported := by
  unfold unlisted at eq
  split at eq
  case h_2 more list => exact (more _ _ (List.cons.inj list).1.symm (List.cons.inj list).2.symm).elim
  case h_3 list => cases list
  case h_1 op rest list =>
    obtain ⟨rfl, rfl⟩ := List.cons.inj (List.cons.inj list).2
    split at eq
    next named =>
      cases eq
      obtain ⟨inv, no_row⟩ := rows_unlisted_m0F b.toNat b.isLt named
      rw [decode_m0F all le]
      split
      · rfl
      · exact decodeOpcode_candidates_nil (Option.isNone_iff_eq_none.mp inv) fun r hr is_map _ => no_row r hr is_map
    next =>
      cases t with
      | nil => cases eq
      | cons mr t =>
        simp only [List.map_cons] at eq
        split at eq
        next named =>
          cases eq
          have not3 : ¬(b = 0x38 ∨ b = 0x3A) := by
            rintro (rfl | rfl) <;> simp at named
          rw [decode_m0F all (by omega), if_neg not3, take_cons_of_le (by omega)]
          rcases named with ⟨is, named⟩ | ⟨is, cr8⟩
          · rw [is]
            exact decodeOpcode_unmatched rfl rfl fun r hr => unlisted_0F01 hr named
          · refine decodeOpcode_cr8 is (Fin.ext ?_)
            rw [rexR_prefixed all]
            exact cr8
        next => cases eq

/-- R346: the one-byte opcodes it names. -/
theorem decode_unlisted_m1 (all : ∀ b ∈ ps, isPrefixByte m b = true) {k : Nat} {b : Byte} (ne : b ≠ 0x0F)
    (eq : unlisted m ps (b :: t) = some k) (le : ps.length + k ≤ 15) : decode m (ps ++ b :: t) = .unsupported := by
  have byte := ofNat_toNat_byte b
  unfold unlisted at eq
  split at eq
  case h_1 list => exact absurd (BitVec.eq_of_toNat_eq (List.cons.inj list).1) ne
  case h_3 list => cases list
  case h_2 op rest _ list =>
    obtain ⟨rfl, rfl⟩ := List.cons.inj list
    split at eq
    next named =>
      cases eq
      obtain ⟨inv, no_row⟩ := rows_unlisted_m1 b.toNat b.isLt named
      obtain ⟨inv, first⟩ := inv m (mem_modes m)
      rw [byte] at first
      rw [decode_m1 all le first ne]
      exact decodeOpcode_candidates_nil (Option.isNone_iff_eq_none.mp inv) fun r hr is_map _ => no_row r hr is_map
    next =>
      split at eq
      next named =>
        cases eq
        obtain ⟨legacy, among⟩ := named
        obtain ⟨first, no_row⟩ := rows_unlisted_legacy b.toNat b.isLt among
        have first := first m (mem_modes m)
        rw [byte] at first
        have inv : invalidOpcode m .m1 b.toNat = none := by simp [invalidOpcode, legacy]
        rw [decode_m1 all le first ne]
        refine decodeOpcode_candidates_nil inv fun r hr is_map modes => no_row r hr is_map fun long => ?_
        rw [long] at modes
        exact legacy (beq_iff_eq.mp modes)
      next =>
        cases t with
        | nil => cases eq
        | cons mr t =>
          simp only [List.map_cons] at eq
          split at eq
          next named =>
            cases eq
            obtain ⟨among, legal⟩ := mem_groups_of_named named
            obtain ⟨inv, first⟩ := groups_unlisted b.toNat among m (mem_modes m)
            rw [byte] at first
            rw [decode_m1 all (by omega) first ne, take_cons_of_le (by omega)]
            exact decodeOpcode_unmatched (Option.isNone_iff_eq_none.mp inv) (legal _) fun r hr => unlisted_digit hr
              named
          next => cases eq

/-- R346: the groups it names are `Unsupported`. -/
theorem decode_unlisted (all : ∀ b ∈ ps, isPrefixByte m b = true) {k : Nat} (eq : unlisted m ps bs = some k)
    (le : ps.length + k ≤ 15) : decode m (ps ++ bs) = .unsupported := by
  rcases opcode_cases bs with rfl | rfl | ⟨b, t, rfl⟩ | ⟨b, t, rfl, ne⟩
  · cases eq
  · cases m <;> cases eq
  · exact decode_unlisted_m0F all eq le
  · exact decode_unlisted_m1 all ne eq le

theorem illegalAfter_eq_none {crn : Byte → RegNum} {n : Nat} (eq : illegalAfter m map op crn n t = none) :
    invalidOpcode m map op = none ∧ ∀ mr, t.head? = some mr → invalidModRM map op mr.toNat (crn mr) = false := by
  unfold illegalAfter at eq
  cases inv : invalidOpcode m map op with
  | some j => simp [inv] at eq
  | none =>
    refine ⟨rfl, fun mr head => ?_⟩
    simp only [inv, head] at eq
    split at eq
    · cases eq
    next legal => simpa using legal

/-- An opcode or a ModRM byte that no row matches (last part of the statement). -/
theorem decode_unmatched (all : ∀ b ∈ ps, isPrefixByte m b = true) {b : Byte} {n : Nat}
    (form : (map = .m1 ∧ n = 1 ∧ bs = b :: t ∧ b ≠ 0x0F ∧ isPrefixByte m b = false) ∨
      (map = .m0F ∧ n = 2 ∧ bs = 0x0F :: b :: t)) (legal : illegal m ps bs = none) :
    (ps.length + n ≤ 15 → (∀ r ∈ rows, ∀ p, r.matchesOpcode m p map b.toNat = false) →
      decode m (ps ++ bs) = .unsupported) ∧
    (∀ mr tail, t = mr :: tail → ps.length + n + 1 ≤ 15 →
      (∀ r ∈ rows, ∀ p, r.matchesOpcode m p map b.toNat = true → r.hasModRM = true ∧ r.matchesModRM mr.toNat = false) →
      decode m (ps ++ bs) = .unsupported) := by
  have reach (le : ps.length + n ≤ 15) : decode m (ps ++ bs) = .unsupported ∨ decode m (ps ++ bs) =
      decodeOpcode m (prefixed m ps) map b.toNat (ps.length + n) (t.take (15 - n - ps.length)) (shortOf (ps ++ bs)) :=
      by
    rcases form with ⟨rfl, rfl, rfl, ne, first⟩ | ⟨rfl, rfl, rfl⟩
    · exact .inr (decode_m1 all le first ne t)
    · rw [decode_m0F all le]
      split
      · exact .inl rfl
      · exact .inr rfl
  have legal : illegalAfter m map b.toNat (fun mr => regNum (prefixed m ps).rexR (mr.toNat / 8)) n t = none := by
    rcases form with ⟨rfl, rfl, rfl, ne, -⟩ | ⟨rfl, rfl, rfl⟩
    · rw [← illegal_m1 ne]
      exact legal
    · rw [← illegal_m0F all]
      exact legal
  obtain ⟨inv, legal⟩ := illegalAfter_eq_none legal
  refine ⟨fun le no_row => ?_, fun mr tail is le no_match => ?_⟩
  · exact (reach le).elim id fun eq => eq.trans (decodeOpcode_no_row inv fun r hr => no_row r hr _)
  · subst is
    refine (reach (by omega)).elim id fun eq => eq.trans ?_
    rw [take_cons_of_le (by omega)]
    exact decodeOpcode_unmatched inv (legal mr rfl) fun r hr =>
      no_match r (mem_candidates.mp hr).1 _ (mem_candidates.mp hr).2

/-! ### LOCK (R316) -/

/-- Two records that differ in LOCK and the segment override only. -/
def SameButLock (p q : Pfx) : Prop := ∃ l o, q = { p with lock := l, segOv := o }

theorem sameButLock_next (same : SameButLock p q) (b : Byte) : SameButLock (p.next m b) (q.next m b) := by
  obtain ⟨l, o, rfl⟩ := same
  unfold Pfx.next Pfx.legacy SameButLock
  generalize b.toNat = n
  cases m <;> dsimp only <;> split <;> exact ⟨_, _, rfl⟩

theorem sameButLock_unlock (same : SameButLock p q) : SameButLock (p.next m 0xF0) (q.next m 0x3E) := by
  obtain ⟨l, o, rfl⟩ := same
  cases m <;> exact ⟨_, _, rfl⟩

theorem sameButLock_after (same : SameButLock p q) (ps : List Byte) :
    SameButLock (p.after m ps) (q.after m (unlock ps)) ∧ SameButLock (p.after m ps) (q.after m ps) := by
  constructor
  · induction ps generalizing p q with
    | nil => exact same
    | cons b ps ih =>
      by_cases is : b = 0xF0
      · subst is
        exact ih (sameButLock_unlock same)
      · have kept : unlock (b :: ps) = b :: unlock ps := by simp only [unlock, List.map_cons, if_neg is]
        rw [kept]
        exact ih (sameButLock_next same b)
  · induction ps generalizing p q with
    | nil => exact same
    | cons b ps ih => exact ih (sameButLock_next same b)

theorem lock_next (set : p.lock = true ∨ mr = 0xF0) : (p.next m mr).lock = true := by
  rcases set with set | rfl
  · unfold Pfx.next Pfx.legacy
    generalize mr.toNat = n
    cases m <;> dsimp only <;> split <;> simp [set]
  · cases m <;> rfl

theorem lock_after (set : p.lock = true ∨ (0xF0 : Byte) ∈ ps) : (p.after m ps).lock = true := by
  induction ps generalizing p with
  | nil => exact set.resolve_right List.not_mem_nil
  | cons b ps ih =>
    refine ih ?_
    rcases set with set | mem
    · exact .inl (lock_next (.inl set))
    · rcases List.mem_cons.mp mem with rfl | mem
      · exact .inl (lock_next (.inr rfl))
      · exact .inr mem

theorem unlock_prefixes (all : ∀ b ∈ ps, isPrefixByte m b = true) : ∀ b ∈ unlock ps, isPrefixByte m b = true := by
  intro b hb
  obtain ⟨c, hc, rfl⟩ := List.mem_map.mp hb
  split
  · cases m <;> decide
  · exact all c hc

theorem unlock_length (ps : List Byte) : (unlock ps).length = ps.length := List.length_map _

/-- The operand is read from the same bytes whatever the segment override. -/
theorem memOperand_rest (l : Bool) (o : Option SReg) (a : Width) (md low : Nat) (bs : List Byte) :
    (memOperand m a { p with lock := l, segOv := o } md low bs).map Prod.snd = (memOperand m a p md low bs).map
    Prod.snd := by
  have wide : (mem32 m { p with lock := l, segOv := o } md low bs).map Prod.snd = (mem32 m p md low bs).map Prod.snd
      := by
    unfold mem32
    split
    · dsimp only
      cases takeLE (dispLen md low) bs <;> rfl
    · rcases bs with _ | ⟨sib, bs⟩
      · rfl
      · dsimp only
        cases takeLE (dispLen md (sib.toNat % 8)) bs <;> rfl
  cases a with
  | w16 =>
    simp only [memOperand, mem16]
    cases takeLE (dispLen16 md low) bs <;> rfl
  | _ => exact wide

theorem exists_reads_of_sameButLock {n v : Nat} {w : Width} {rm : RM} {rest : List Byte} (l : Bool) (o : Option SReg)
    (reads : RowReads m p r n bs w rm v rest) :
    ∃ rm', RowReads m { p with lock := l, segOv := o } r n bs w rm' v rest := by
  obtain ⟨bs', operand, imm⟩ := reads
  unfold rowOperand at operand
  split at operand
  next mem =>
    obtain ⟨⟨mo, left⟩, read, eq⟩ := Option.map_eq_some_iff.mp operand
    cases eq
    have same := memOperand_rest (m := m) (p := p) l o (addrSize m p.as67) (n / 64) (n % 8) bs
    rw [read] at same
    obtain ⟨⟨mo', _⟩, read', rfl⟩ := Option.map_eq_some_iff.mp same
    refine ⟨.mem mo', _, ?_, imm⟩
    simp only [rowOperand, mem, if_true, read']
    rfl
  next no =>
    cases operand
    exact ⟨_, bs, if_neg no, imm⟩

theorem isMem_of_reads {n v : Nat} {w : Width} {rm : RM} {rest : List Byte} (reads : RowReads m p r n bs w rm v rest) :
    rm.isMem = r.takesMem n := by
  obtain ⟨bs', operand, -⟩ := reads
  unfold rowOperand at operand
  split at operand
  next mem =>
    obtain ⟨x, -, eq⟩ := Option.map_eq_some_iff.mp operand
    cases eq
    exact mem.symm
  next no =>
    cases operand
    exact (Bool.not_eq_true _ ▸ no).symm

/-- No row for a memory operand only has LOCK among its prefixes. -/
theorem lockAllowed_lea (parts : Parts) (h : Hdr) (w : Width) (g : Gpr) :
    lockAllowed (parts.withMem fun mo => .lea h w g mo) = false := by
  unfold Parts.withMem
  cases parts.rm <;> rfl

theorem lockAllowed_table (parts : Parts) (h : Hdr) (w : Width) :
    lockAllowed (parts.withMem fun mo => .lgdt h w mo) = false ∧
    lockAllowed (parts.withMem fun mo => .lidt h w mo) = false := by
  unfold Parts.withMem
  cases parts.rm <;> exact ⟨rfl, rfl⟩

theorem lockAllowed_invlpg (parts : Parts) (h : Hdr) :
    lockAllowed (parts.withMem fun mo => .invlpg h mo) = false := by
  unfold Parts.withMem
  cases parts.rm <;> rfl

theorem lockAllowed_special (parts : Parts) : lockAllowed (buildMovFromSeg parts) = false ∧
    lockAllowed (buildMovToSeg parts) = false ∧ lockAllowed (buildMovFromCr parts) = false ∧
    lockAllowed (buildMovToCr parts) = false := by
  refine ⟨?_, ?_, ?_, ?_⟩
  · unfold buildMovFromSeg
    split
    · split <;> rfl
    · rfl
  · unfold buildMovToSeg
    split <;> rfl
  · unfold buildMovFromCr
    split <;> rfl
  · unfold buildMovToCr
    split <;> rfl

/-- `lockAllowed` reads the LOCK column of the row and its operand. -/
theorem lockAllowed_build : ∀ r ∈ rows, ∀ parts : Parts, lockAllowed (r.build parts) = (r.lock && parts.rm.isMem) ∧
    (r.lock = true → (r.build parts).hdr = some parts.h) := by
  simp only [rows, rowsArith, rowsLogic, rowsUnary, rowsShift, rowsMove, rowsStack, rowsControl, rowsString,
    rowsSystem, List.forall_mem_append, List.forall_mem_cons, List.not_mem_nil, false_imp_iff, implies_true,
    and_true, true_and]
  and_intros <;> intro parts <;>
    simp [↓lockAllowed_lea, ↓lockAllowed_table, ↓lockAllowed_invlpg, ↓lockAllowed_special, lockAllowed, Instr.hdr]

/-- LOCK in the place of another prefix: what the decoder's answer `dq` without it says about the answer `dp` with
it. -/
def LockRule (dq dp : DecodeResult) : Prop :=
  match dq with
  | .decoded i =>
    if lockAllowed i = true then ∃ j h, dp = .decoded j ∧ j.hdr = some h ∧ h.lock = true else dp = .invalid .invalid
  | other => dp = other

theorem lockRule_self {d : DecodeResult} (no : ∀ i, d ≠ .decoded i) : LockRule d d := by
  unfold LockRule
  split
  next i => exact absurd rfl (no i)
  next => rfl

/-- R316: a row whose operand and immediate were there. -/
theorem lockRule_rowAnswer {n len v : Nat} {w : Width} {rm rm' : RM} (l : Bool) (o : Option SReg) (hr : r ∈ rows)
    (lock : p.lock = true) (mem : rm.isMem = r.takesMem n) :
    LockRule (rowAnswer m { p with lock := l, segOv := o } r op n len w rm v) (rowAnswer m p r op n len w rm' v) := by
  obtain ⟨allowed, -⟩ := lockAllowed_build r hr (partsOf (Pfx.toHdr m { p with lock := l, segOv := o } len) r op n w
    rm v)
  obtain ⟨-, hdr⟩ := lockAllowed_build r hr (partsOf (p.toHdr m len) r op n w rm' v)
  have refused_eq : prefixRefused r { p with lock := l, segOv := o } op = prefixRefused r p op := rfl
  unfold rowAnswer
  rw [refused_eq]
  by_cases refused : prefixRefused r p op = true
  · rw [if_pos refused, if_pos refused]
    rfl
  rw [if_neg refused, if_neg refused]
  have column : (partsOf (Pfx.toHdr m { p with lock := l, segOv := o } len) r op n w rm v).rm.isMem = r.takesMem n :=
      mem
  rw [column] at allowed
  cases lockable : (r.lock && r.takesMem n) with
  | false =>
    rw [lockable] at allowed
    rw [if_pos (show p.lock = true ∧ false = false from ⟨lock, rfl⟩)]
    split
    · rfl
    · simp [LockRule, allowed]
  | true =>
    rw [lockable] at allowed
    rw [if_neg (fun both => Bool.noConfusion both.2), if_neg (fun both => Bool.noConfusion both.2)]
    have column : r.lock = true := (Bool.and_eq_true_iff.mp lockable).1
    simp only [LockRule, allowed, if_true]
    exact ⟨_, _, rfl, hdr column, lock⟩

theorem lockRule_decodeRow {n : Nat} (l : Bool) (o : Option SReg) (hr : r ∈ rows) (lock : p.lock = true)
    (no : ∀ i, short ≠ .decoded i) :
    LockRule (decodeRow m { p with lock := l, segOv := o } r op n used bs short) (decodeRow m p r op n used bs short)
    := by
  rcases decodeRow_cases m p r op n used bs with ⟨size, un⟩ | ⟨w, size, ⟨few, sh⟩ | ⟨rm, v, rest, reads, gives⟩⟩
  · rw [un, decodeRow_no_size (p := { p with lock := l, segOv := o }) size]
    rfl
  · rw [sh, decodeRow_short (p := { p with lock := l, segOv := o }) size]
    · exact lockRule_self no
    · rintro ⟨rm, v, rest, reads⟩
      obtain ⟨rm', reads⟩ := exists_reads_of_sameButLock p.lock p.segOv reads
      exact few ⟨rm', v, rest, reads⟩
  · obtain ⟨rm', reads'⟩ := exists_reads_of_sameButLock l o reads
    rw [gives, decodeRow_of_reads (p := { p with lock := l, segOv := o }) size reads']
    exact lockRule_rowAnswer l o hr lock (isMem_of_reads reads')

theorem lockRule_decodeOpcode (l : Bool) (o : Option SReg) (lock : p.lock = true) (no : ∀ i, short ≠ .decoded i) :
    LockRule (decodeOpcode m { p with lock := l, segOv := o } map op used bs short)
      (decodeOpcode m p map op used bs short) := by
  have same : candidates m { p with lock := l, segOv := o } map op = candidates m p map op := rfl
  rcases decodeOpcode_cases m p map op used bs short with ⟨i, inv, eq⟩ |
    ⟨inv, ⟨none, eq⟩ | ⟨r, hr, no_modRM, eq⟩ | ⟨⟨r, hr, modRM⟩, eq⟩⟩
  · rw [eq, decodeOpcode_invalid inv]
    rfl
  · rw [eq, decodeOpcode_no_row inv fun r hr => by simpa using List.filter_eq_nil_iff.mp (same.trans none) r hr]
    rfl
  · rw [eq, decodeOpcode_of_noModRM (p := { p with lock := l, segOv := o }) inv hr no_modRM]
    exact lockRule_decodeRow l o (mem_candidates.mp hr).1 lock no
  · rw [eq, decodeOpcode_of_modRM (p := { p with lock := l, segOv := o }) inv hr modRM]
    cases bs with
    | nil => exact lockRule_self no
    | cons mr bs =>
      have rexR : Pfx.rexR { p with lock := l, segOv := o } = p.rexR := rfl
      simp only [decodeModRM, same, rexR]
      cases invalidModRM map op mr.toNat (regNum p.rexR (mr.toNat / 8)) with
      | true => rfl
      | false =>
      cases unsupportedModRM map op (regNum p.rexR (mr.toNat / 8)) with
      | true => rfl
      | false =>
      cases found : (candidates m p map op).find? (·.matchesModRM mr.toNat) with
      | none => rfl
      | some r => exact lockRule_decodeRow l o (mem_candidates.mp (List.mem_of_find?_eq_some found)).1 lock no

theorem lockRule_decodeAfterPrefixes (l : Bool) (o : Option SReg) (lock : p.lock = true)
    (no : ∀ i, short ≠ .decoded i) :
    LockRule (decodeAfterPrefixes m { p with lock := l, segOv := o } used bs short)
      (decodeAfterPrefixes m p used bs short) := by
  unfold decodeAfterPrefixes
  cases bs with
  | nil => exact lockRule_self no
  | cons op bs =>
    dsimp only
    split
    · cases bs with
      | nil => exact lockRule_self no
      | cons op2 bs =>
        dsimp only
        split
        · rfl
        · exact lockRule_decodeOpcode l o lock no
    · exact lockRule_decodeOpcode l o lock no

theorem shortOf_ne_decoded (bytes : List Byte) (i : Instr) : shortOf bytes ≠ .decoded i := by
  unfold shortOf
  split <;> exact fun eq => by cases eq

/-- R316, after any prefixes and whatever follows. -/
theorem lockRule_decode (all : ∀ b ∈ ps, isPrefixByte m b = true) (mem : (0xF0 : Byte) ∈ ps) (bs : List Byte) :
    LockRule (decode m (unlock ps ++ bs)) (decode m (ps ++ bs)) := by
  obtain ⟨qs, rest, rfl, all_qs, first⟩ := exists_prefixes m bs
  have all_ps : ∀ b ∈ ps ++ qs, isPrefixByte m b = true := fun b hb =>
    (List.mem_append.mp hb).elim (all b) (all_qs b)
  have all_unlock : ∀ b ∈ unlock ps ++ qs, isPrefixByte m b = true := fun b hb =>
    (List.mem_append.mp hb).elim (unlock_prefixes all b) (all_qs b)
  have same_length : (unlock ps ++ qs).length = (ps ++ qs).length := by
    rw [List.length_append, List.length_append, unlock_length]
  have same_short : shortOf ((unlock ps ++ qs) ++ rest) = shortOf ((ps ++ qs) ++ rest) := by
    unfold shortOf
    rw [List.length_append (as := unlock ps ++ qs), List.length_append (as := ps ++ qs), same_length]
  rw [← List.append_assoc, ← List.append_assoc]
  by_cases full : 15 ≤ (ps ++ qs).length
  · rw [decode_all_prefixes all_ps full, decode_all_prefixes all_unlock (same_length ▸ full), same_short]
    exact lockRule_self (shortOf_ne_decoded _)
  have lock : (prefixed m (ps ++ qs)).lock = true := lock_after (.inr (List.mem_append_left _ mem))
  have same : SameButLock (prefixed m (ps ++ qs)) (prefixed m (unlock ps ++ qs)) := by
    unfold prefixed Pfx.after
    rw [List.foldl_append, List.foldl_append]
    exact (sameButLock_after (sameButLock_after ⟨_, _, rfl⟩ ps).1 qs).2
  obtain ⟨l, o, eq⟩ := same
  rw [decode_prefixes all_ps (by omega), decode_prefixes all_unlock (by omega), same_length, same_short, eq]
  cases taken : rest.take (15 - (ps ++ qs).length) with
  | nil => exact lockRule_self (shortOf_ne_decoded _)
  | cons b t =>
    have not : isPrefixByte m b = false := by
      refine first b ?_
      have := congrArg List.head? taken
      rw [List.head?_take] at this
      split at this <;> simp_all
    rw [decodeFrom_first not, decodeFrom_first not]
    exact lockRule_decodeAfterPrefixes l o lock (shortOf_ne_decoded _)

end

/-- R342: at most one row for an opcode and its ModRM byte. -/
theorem rows_place_unique (m : DecodeMode) (p : Pfx) (map : OpMap) (op mr : Nat) (i j : Fin rows.length)
    (hi : rows[i].matchesOpcode m p map op = true) (modRM_i : rows[i].hasModRM = true → rows[i].matchesModRM mr = true)
    (hj : rows[j].matchesOpcode m p map op = true) (modRM_j : rows[j].hasModRM = true → rows[j].matchesModRM mr =
    true) :
    i = j :=
  place_unique hi hj fun has_i has_j => ⟨mr, modRM_i has_i, modRM_j has_j⟩

end Sys2Proof

open Sys2Proof Sys2Proof.Machine

/-- Settles O7: `rows_place_unique` for the table; the decoder after the prefix bytes is that of the opcode and its
ModRM byte under their record, which LOCK does not reach (`lockRule_decode`). -/
theorem opcodeRowsAreDisjoint : Obligations.OpcodeRowsAreDisjoint := by
  unfold Obligations.OpcodeRowsAreDisjoint
  refine ⟨fun m p map op mr i j _ _ hi modRM_i hj modRM_j => rows_place_unique m p map op mr i j hi modRM_i hj modRM_j,
    fun m ps bs all => ⟨fun i k eq le => decode_illegal all eq le,
      fun i no_lock first eq => illegal_of_decode all no_lock first eq, fun mem => ?_,
      fun k eq le => decode_unlisted all eq le,
      fun map op rest n form legal => decode_unmatched all form legal⟩⟩
  have rule := lockRule_decode all mem bs
  unfold LockRule at rule
  exact rule

end

section
/-! PROOF. O12: a call of `ExecuteBlock` ends within its limits (R700, R703). -/

namespace Sys2Proof.Machine
open Sys2Proof

section
variable {i : Instr} {s u v t : State}

/-- The record of the call and the parameters, as an instruction leaves them alone. -/
def SameRecord (s u : State) : Prop := u.cfg = s.cfg ∧ u.retired = s.retired ∧ u.nbytes = s.nbytes

theorem SystemWrite.sameRecord (write : SystemWrite s u i v) : SameRecord u v := by
  cases write with
  | cr h w r g level ok => exact (by cases ‹CReg› <;> exact ⟨rfl, rfl, rfl⟩)
  | msr h level ok => exact (by cases ‹Msr› <;> exact ⟨rfl, rfl, rfl⟩)
  | _ => exact ⟨rfl, rfl, rfl⟩

theorem Reached.sameRecord (at_u : Reached i s u) : SameRecord s u := by
  obtain ⟨r, f, m, rfl⟩ := at_u.eq
  exact ⟨rfl, rfl, rfl⟩

theorem FetchedFrom.sameRecord (at_u : FetchedFrom s u) : SameRecord s u := by
  rw [at_u.same]
  exact ⟨rfl, rfl, rfl⟩

theorem After.sameRecord (at_u : After (Reached i s) i s u) : SameRecord s u := by
  obtain ⟨u0, at_u0, rfl | write⟩ := at_u
  · exact at_u0.sameRecord
  · obtain ⟨cfg, retired, nbytes⟩ := at_u0.sameRecord
    obtain ⟨cfg', retired', nbytes'⟩ := write.sameRecord
    exact ⟨cfg'.trans cfg, retired'.trans retired, nbytes'.trans nbytes⟩

/-- R300: no instruction is longer than 15 bytes. -/
theorem len_of_given {m : DecodeMode} {h : Hdr} (given : Given m i) (hdr : i.hdr = some h) : h.len ≤ 15 := by
  obtain ⟨bytes, decoded⟩ | rfl | rfl := given
  · obtain ⟨-, h', hdr', -, le, -⟩ := decodedIsWellFormed m bytes i decoded
    cases hdr.symm.trans hdr'
    exact le
  · cases hdr
  · cases hdr

/-- A block that goes on: no outcome yet, and room for an instruction of any length. -/
structure GoesOn (c : Config) (s : State) : Prop where
  cfg : s.cfg = c
  open_ : s.outcome = none
  instrs : s.retired < c.maxBlockInstrs
  bytes : s.nbytes + 15 ≤ c.maxBlockBytes

/-- A block that has ended within its limits, with its outcome. -/
structure HasEnded (c : Config) (s : State) : Prop where
  cfg : s.cfg = c
  outcome : ∃ o, s.outcome = some o ∧ o.nextRip = s.rip ∧ o.retired = s.retired
  instrs : s.retired ≤ c.maxBlockInstrs
  bytes : s.nbytes ≤ c.maxBlockBytes

/-- The block ends before an instruction: with a fault, a software interrupt, a report. -/
theorem hasEnded_of_record {c : Config} (goes : GoesOn c s) (same : SameRecord s u) (cr2 : Word) (k : OutcomeKind) :
    HasEnded c { u with cr2 := cr2, outcome := some ⟨k, u.retired, u.rip⟩ } := by
  obtain ⟨cfg, retired, nbytes⟩ := same
  refine ⟨cfg.trans goes.cfg, ⟨_, rfl, rfl, rfl⟩, ?_, ?_⟩
  · exact retired ▸ Nat.le_of_lt goes.instrs
  · have := goes.bytes
    exact nbytes ▸ (by omega)

/-- The block goes on after an instruction, or has ended with it. -/
theorem complete_goesOn_or_hasEnded {c : Config} (goes : GoesOn c s) (same : SameRecord s u) {len : Nat}
    (le : len ≤ 15) (ends shadow : Bool) (rip : Word) :
    GoesOn c (complete s len ends shadow rip u) ∧ (complete s len ends shadow rip u).retired = s.retired + 1 ∨
      HasEnded c (complete s len ends shadow rip u) := by
  obtain ⟨cfg, retired, nbytes⟩ := same
  have instrs := goes.instrs
  have bytes := goes.bytes
  have in_instrs : u.retired + 1 ≤ c.maxBlockInstrs := by omega
  have in_bytes : u.nbytes + len ≤ c.maxBlockBytes := by omega
  have cfg : u.cfg = c := cfg.trans goes.cfg
  unfold complete
  dsimp only
  split
  next k _ => exact .inr ⟨cfg, ⟨_, rfl, rfl, rfl⟩, in_instrs, in_bytes⟩
  next not =>
    have room : ¬(u.cfg.maxBlockInstrs ≤ u.retired + 1 ∨ u.cfg.maxBlockBytes < u.nbytes + len + 15) := by
      unfold blockEnds at not
      intro full
      simp [full] at not
      grind
    rw [cfg] at room
    exact .inl ⟨⟨cfg, rfl, by dsimp only; omega, by dsimp only; omega⟩, by omega⟩

theorem exec_goesOn_or_hasEnded {c : Config} {m : DecodeMode} (goes : GoesOn c s) (given : Given m i)
    (run : exec i s = .next t) : GoesOn c t ∧ t.retired = s.retired + 1 ∨ HasEnded c t := by
  cases exec_ends run with
  | completes u at_u h hdr ends shadow rip eq _ =>
    subst eq
    exact complete_goesOn_or_hasEnded goes at_u.sameRecord (len_of_given given hdr) ends shadow rip
  | raises u at_u f proper eq => subst eq; exact .inr (hasEnded_of_record goes at_u.reached.sameRecord _ _)
  | asks vec k len eq => subst eq; exact .inr (hasEnded_of_record goes ⟨rfl, rfl, rfl⟩ _ _)

theorem GoesOn.fetched {c : Config} (goes : GoesOn c s) (at_u : FetchedFrom s u) : GoesOn c u := by
  rw [at_u.same]
  exact ⟨goes.cfg, goes.open_, goes.instrs, goes.bytes⟩

theorem step_goesOn_or_hasEnded {c : Config} (goes : GoesOn c s) (run : step s = .next t) :
    GoesOn c t ∧ t.retired = s.retired + 1 ∨ HasEnded c t := by
  have started : s.started = s := by rw [State.started, goes.open_]; rfl
  cases step_ends run with
  | reports k u at_u kind eq =>
    rw [started] at at_u
    subst eq
    exact .inr (hasEnded_of_record goes at_u.sameRecord u.cr2 k)
  | raises u at_u f proper eq =>
    rw [started] at at_u
    subst eq
    exact .inr (hasEnded_of_record goes at_u.sameRecord _ _)
  | runs u at_u i given run =>
    rw [started] at at_u
    rw [← at_u.sameRecord.2.1]
    exact exec_goesOn_or_hasEnded (goes.fetched at_u) given run

/-- A block with as many steps left as its limit leaves instructions ends in them. -/
theorem runBlock_hasEnded {c : Config} (n : Nat) (goes : GoesOn c s) (left : s.retired + n = c.maxBlockInstrs) :
    HasEnded c (runBlock n s) := by
  induction n generalizing s with
  | zero => exact absurd goes.instrs (by omega)
  | succ n ih =>
    obtain ⟨t, run⟩ := step_next s
    simp only [runBlock, run]
    obtain ⟨goes', counted⟩ | ended := step_goesOn_or_hasEnded goes run
    · rw [goes'.open_, if_neg (by simp)]
      exact ih goes' (by omega)
    · obtain ⟨o, eq, -⟩ := ended.outcome
      rw [eq]
      exact ended

end

end Sys2Proof.Machine

open Sys2Proof Sys2Proof.Machine

/-- Settles O12: `GoesOn` holds of a block that has begun, and each step keeps it and counts, or ends the block. -/
theorem executeBlockReturns : Obligations.ExecuteBlockReturns := by
  unfold Obligations.ExecuteBlockReturns
  intro s ok
  simp only [Config.ok, Bool.and_eq_true, decide_eq_true_eq] at ok
  have instrs : 1 ≤ s.cfg.maxBlockInstrs := by grind
  have bytes : 15 ≤ s.cfg.maxBlockBytes := by grind
  have ended : HasEnded s.cfg (executeBlock s) :=
    runBlock_hasEnded _ ⟨rfl, rfl, instrs, by simpa using bytes⟩ (by simp [State.beginBlock]; omega)
  obtain ⟨cfg, ⟨o, eq, rip, retired⟩, in_instrs, in_bytes⟩ := ended
  exact ⟨o, eq, rip, retired, in_instrs, in_bytes, cfg⟩

end

section
/-! PROOF. O18: the faults a step reports, and when an access or a fetch is refused (R207, R209, R712, R810 to
R812). -/

namespace Sys2Proof.Machine
open Sys2Proof

section
variable {s t u : State} {f : FaultRec} {r : Nat} {a : Word}

/-! ### The record of a fault -/

theorem Reached.is64 {i : Instr} (at_u : Reached i s u) : u.is64 = s.is64 ∧ u.rip = s.rip := by
  rw [at_u.same]
  exact ⟨rfl, rfl⟩

theorem FetchedFrom.is64 (at_u : FetchedFrom s u) : u.is64 = s.is64 ∧ u.rip = s.rip := by
  rw [at_u.same]
  exact ⟨rfl, rfl⟩

/-- A step that ends in a fault took one of the exceptions of R810, with mode and `rip` unchanged. -/
theorem step_fault (run : step s = .next t) (fault : t.outcome = some ⟨.fault f, r, a⟩) :
    ∃ u g, u.is64 = s.is64 ∧ u.rip = s.rip ∧ g.Proper ∧ t = takeFault g u ∧ f = u.reported g ∧ a = u.rip := by
  have started : s.started.is64 = s.is64 ∧ s.started.rip = s.rip := by
    obtain ⟨b, eq⟩ := started_eq_withBooks s
    rw [eq]
    exact ⟨rfl, rfl⟩
  cases step_ends run with
  | reports k u at_u kind eq =>
    rw [eq] at fault
    obtain rfl | ⟨bytes, rfl⟩ := kind <;> simp at fault
  | raises u at_u g proper eq =>
    rw [eq] at fault
    simp only [takeFault_outcome, Option.some.injEq, BlockOutcome.mk.injEq, OutcomeKind.fault.injEq] at fault
    obtain ⟨is_f, -, is_a⟩ := fault
    exact ⟨u, g, at_u.is64.1.trans started.1, at_u.is64.2.trans started.2, proper, eq, is_f.symm, is_a.symm⟩
  | runs u at_u i given run =>
    obtain ⟨u', g, at_u', proper, eq, is_f, -, is_a⟩ := exec_fault run fault
    exact ⟨u', g, (at_u'.reached.is64.1.trans at_u.is64.1).trans started.1,
      (at_u'.reached.is64.2.trans at_u.is64.2).trans started.2, proper, eq, is_f, is_a⟩

/-- R810 to R812. -/
theorem step_fault_record (run : step s = .next t) (fault : t.outcome = some ⟨.fault f, r, a⟩) :
    (f.vector = 0 ∨ f.vector = 6 ∨ f.vector = 11 ∨ f.vector = 12 ∨ f.vector = 13 ∨ f.vector = 14) ∧
    (f.code.isSome = true ↔ 11 ≤ f.vector) ∧ (f.addr.isSome = true ↔ f.vector = 14) ∧
    (∀ x, f.addr = some x → t.cr2 = x ∧ (s.decodeMode ≠ .m64 → x.toNat < 2 ^ 32)) ∧
    a = t.rip ∧ t.rip = s.rip := by
  obtain ⟨u, g, mode, rip, proper, rfl, rfl, rfl⟩ := step_fault run fault
  refine ⟨proper.vector, proper.code, ?_, fun x is => ⟨?_, fun not64 => ?_⟩, rfl, rip⟩
  · simpa using proper.addr
  · rw [takeFault_cr2, is, Option.getD_some]
  · obtain ⟨y, -, rfl⟩ := Option.map_eq_some_iff.mp is
    refine reportedAddr_lt ?_ y
    rw [mode, Bool.eq_false_iff]
    exact fun is64 => not64 ((is64_iff s).mp is64)

/-! ### Refused accesses -/

theorem segFault_eq (seg : SReg) : segFault seg = ⟨if seg = .ss then 12 else 13, some 0, none⟩ := by
  cases seg <;> rfl

section
variable {α : Type} {refused : Prop} {ok : Bool} {body : M α}

/-- A check that refuses raises with nothing changed. -/
theorem check_refused (iff : ok = true ↔ ¬refused) (no : refused) (f : FaultRec) (s : State) :
    (raiseIf (!ok) f >>= fun _ => body) s = .error f s := by
  have : ok = false := Bool.eq_false_iff.mpr fun is => iff.mp is no
  rw [this]
  rfl

/-- A check that passes leaves the rest. -/
theorem check_passed (iff : ok = true ↔ ¬refused) (yes : ¬refused) (f : FaultRec) (s : State) :
    (raiseIf (!ok) f >>= fun _ => body) s = body s := by
  rw [iff.mpr yes]
  rfl

end

section
variable {α : Type} (s : State) {seg : SReg} {off : Word} {n : Nat} {k : Access} {body : M α}

/-- The two checks of an access refuse it. -/
theorem checks_refused (no : s.SegRefuses seg off n k ∨ s.CanonRefuses (s.lin seg off) n) :
    (raiseIf (!s.segOk seg off n k) (segFault seg) >>= fun _ =>
      raiseIf (!s.canonOk (s.lin seg off) n) (segFault seg) >>= fun _ => body) s = .error (segFault seg) s := by
  by_cases seg_no : s.SegRefuses seg off n k
  · exact check_refused (segOk_iff s seg off n k) seg_no _ s
  · rw [check_passed (segOk_iff s seg off n k) seg_no]
    exact check_refused (canonOk_iff s _ n) (no.resolve_left seg_no) _ s

/-- The two checks of an access let it pass. -/
theorem checks_passed (yes : ¬(s.SegRefuses seg off n k ∨ s.CanonRefuses (s.lin seg off) n)) :
    (raiseIf (!s.segOk seg off n k) (segFault seg) >>= fun _ =>
      raiseIf (!s.canonOk (s.lin seg off) n) (segFault seg) >>= fun _ => body) s = body s := by
  obtain ⟨seg_yes, canon_yes⟩ := not_or.mp yes
  rw [check_passed (segOk_iff s seg off n k) seg_yes, check_passed (canonOk_iff s _ n) canon_yes]

theorem rmwBegin_refused (no : (s.SegRefuses seg off n .write ∨ s.CanonRefuses (s.lin seg off) n) ∨
      (s.SegRefuses seg off n .read ∨ s.CanonRefuses (s.lin seg off) n)) :
    rmwBegin seg off n s = .error (segFault seg) s := by
  unfold rmwBegin
  rw [get_bind_run]
  by_cases write_no : s.SegRefuses seg off n .write
  · exact check_refused (segOk_iff s seg off n .write) write_no _ s
  · rw [check_passed (segOk_iff s seg off n .write) write_no]
    exact checks_refused s (by grind)

theorem rmwBegin_passed (yes : ¬((s.SegRefuses seg off n .write ∨ s.CanonRefuses (s.lin seg off) n) ∨
      (s.SegRefuses seg off n .read ∨ s.CanonRefuses (s.lin seg off) n))) :
    rmwBegin seg off n s = (translateSpan (s.lin seg off) n .write s.user >>= fun p =>
      spanRead p n >>= fun old => pure (old, p)) s := by
  unfold rmwBegin
  rw [get_bind_run, check_passed (segOk_iff s seg off n .write) (by grind)]
  exact checks_passed s (by grind)

end

/-! ### Refused fetches -/

/-- The check of a fetched byte, as R712 words it. -/
theorem fetchOk_iff (s : State) (k : Nat) : s.fetchOk k = true ↔
    ¬((s.cfg.segChecks = true ∧ s.decodeMode ≠ .m64 ∧ s.segs.cs.LimitRefuses (s.fetchOff k).toNat 1) ∨
      s.CanonRefuses (s.lin .cs (s.fetchOff k)) 1) := by
  rw [not_or, ← canonOk_iff]
  unfold State.fetchOk State.canonOk State.fetchLin
  by_cases is : s.is64 = true
  · simp [is, (is64_iff s).mp is]
  · have not64 : s.decodeMode ≠ .m64 := fun m64 => is ((is64_iff s).mpr m64)
    simp only [is, not64, ← inLimit_iff]
    cases s.cfg.segChecks <;> simp [not64, ← inLimit_iff]

theorem fetchOff_eq (s : State) (k : Nat) : s.fetchOff k =
    if s.decodeMode = .m64 then s.rip + BitVec.ofNat 64 k
    else BitVec.ofNat 64 ((s.rip + BitVec.ofNat 64 k).toNat % 2 ^ 32) := by
  unfold State.fetchOff State.ripWrap
  simp only [is64_iff]
  split
  · rfl
  · exact BitVec.eq_of_toNat_eq (by rw [trunc_toNat, BitVec.toNat_ofNat]; simp [Width.bits]; omega)

end

end Sys2Proof.Machine

open Sys2Proof Sys2Proof.Machine

/-- Settles O18: `step_fault_record` for the step; each access is its checks and then its translation. -/
theorem faultRecords : Obligations.FaultRecords := by
  unfold Obligations.FaultRecords
  refine ⟨fun s t f r a run fault => step_fault_record run fault, fun s seg off v n _ _ => ?_, fun s k => ?_⟩
  · dsimp only
    rw [← segFault_eq]
    refine ⟨checks_refused s, checks_passed s, checks_refused s, checks_passed s, rmwBegin_refused s,
      rmwBegin_passed s, fun k => ⟨checks_refused s, checks_passed s⟩⟩
  · dsimp only
    rw [← fetchOff_eq]
    exact ⟨fun no => check_refused (fetchOk_iff s k) no _ s, fun yes => check_passed (fetchOk_iff s k) yes _ s⟩

end

section
/-! PROOF. O32 to O34. What any walk gives, in RAM or not (`Walked.Sound`), what it can raise, and that what it leaves
in the translation cache answers the next time (R252, R253, R270 to R274, R280). -/

namespace Sys2Proof.Machine
open Sys2Proof

section
variable {s t u : State} {lin : Word} {kind : Access} {user : Bool} {α β : Type} {P : α → Prop} {Q : β → Prop}

/-! ### What a part of a walk gives and raises -/

/-- The state after accesses to pages that are not RAM. -/
def BusOnly (s u : State) : Prop := ∃ k, u = s.withMs { s.ms with busOps := k }

/-- Started in `s`, or after accesses to pages that are not RAM, a part of a walk changes no more than they do, gives
what satisfies `P`, and raises only `#PF` at the address translated (R273), reserved bits only in a present entry. -/
structure WalkPart (s : State) (lin : Word) (kind : Access) (user : Bool) (P : α → Prop) (x : M α) : Prop where
  ok : ∀ u a t, BusOnly s u → x u = .ok a t → BusOnly s t ∧ P a
  error : ∀ u f t, BusOnly s u → x u = .error f t → BusOnly s t ∧
    ∃ present rsvd, (rsvd = true → present = true) ∧ f = .pf (s.pfCode kind user present rsvd) lin

theorem walkPart_pure {a : α} (gives : P a) : WalkPart s lin kind user P (pure a) where
  ok u b t bus run := by cases run; exact ⟨bus, gives⟩
  error _ _ _ _ run := (ok_ne_error run).elim

theorem walkPart_bind {x : M α} {f : α → M β} (first : WalkPart s lin kind user P x)
    (rest : ∀ a, P a → WalkPart s lin kind user Q (f a)) : WalkPart s lin kind user Q (x >>= f) where
  ok u b t bus run := by
    obtain ⟨a, v, run, run'⟩ := bind_ok.mp run
    obtain ⟨bus, gives⟩ := first.ok u a v bus run
    exact (rest a gives).ok v b t bus run'
  error u e t bus run := by
    rcases bind_error.mp run with run | ⟨a, v, run, run'⟩
    · exact first.error u e t bus run
    · obtain ⟨bus, gives⟩ := first.ok u a v bus run
      exact (rest a gives).error v e t bus run'

theorem walkPart_get {f : State → M β} (rest : ∀ k, WalkPart s lin kind user Q
    (f (s.withMs { s.ms with busOps := k }))) :
    WalkPart s lin kind user Q (get >>= f) where
  ok u b t bus run := by
    obtain ⟨k, eq⟩ := bus
    rw [get_bind_run] at run
    exact (rest k).ok u b t ⟨k, eq⟩ (eq ▸ run)
  error u e t bus run := by
    obtain ⟨k, eq⟩ := bus
    rw [get_bind_run] at run
    exact (rest k).error u e t ⟨k, eq⟩ (eq ▸ run)

/-- A check that can raise `#PF` (R273). -/
theorem walkPart_pfIf (c : Bool) {present rsvd : Bool} (le : rsvd = true → present = true) :
    WalkPart s lin kind user (fun _ => c = false) (pfIf c lin kind user present rsvd) := by
  refine walkPart_get fun k => ?_
  cases c
  · exact walkPart_pure rfl
  · exact ⟨fun _ _ _ _ run => (ok_ne_error run.symm).elim,
      fun u f t bus run => by cases run; exact ⟨bus, present, rsvd, le, rfl⟩⟩

/-- An entry that a walk has read: present, of its size, and in RAM what memory holds. -/
structure EntryRead (s : State) (size : Nat) (e : Nat × Word) : Prop where
  present : bit e.2 0 = true
  lt : e.2.toNat < 2 ^ (8 * size)
  ram : isRam s.cfg (e.1 / 4096) = true → e.2 = s.ramEntry e.1 size

theorem bytes_congr {m m' : MemSys} (same : m'.mem = m.mem) (pa n : Nat) : m'.bytes pa n = m.bytes pa n := by
  induction n generalizing pa with
  | zero => rfl
  | succ n ih => simp only [MemSys.bytes, ih, MemSys.byte, same]

theorem ramEntry_busOps (s : State) (k pa size : Nat) :
    (s.withMs { s.ms with busOps := k }).ramEntry pa size = s.ramEntry pa size := by
  unfold State.ramEntry
  rw [bytes_congr (m := s.ms) (m' := (s.withMs { s.ms with busOps := k }).ms) rfl]

theorem walkPart_readEntry (pa size : Nat) :
    WalkPart s lin kind user (fun e => EntryRead s size (pa, e)) (readEntry pa size lin kind user) := by
  refine walkPart_bind (P := fun e : Word => e.toNat < 2 ^ (8 * size) ∧
    (isRam s.cfg (pa / 4096) = true → e = s.ramEntry pa size)) ⟨fun u e t bus run => ?_, fun u f t bus run => ?_⟩
    fun e ⟨lt, ram⟩ => walkPart_bind (walkPart_pfIf _ nofun) fun _ present =>
      walkPart_pure ⟨by simpa using present, lt, ram⟩
  · have lt := physRead_lt run
    obtain ⟨k, rfl⟩ := bus
    unfold physRead at run
    split at run
    next => cases run; exact ⟨⟨k, rfl⟩, lt, fun _ => ramEntry_busOps ..⟩
    next no => cases run; exact ⟨⟨k + 1, rfl⟩, lt, fun is => (no is).elim⟩
  · unfold physRead at run
    split at run <;> cases run

/-! ### What a walk gives -/

/-- The entries a walk has read, with their permissions together (R270, R271), aligned as the formats lay them out. -/
structure Walked.Sound (s : State) (r : Walked) : Prop where
  nonempty : r.levels ≠ []
  size : r.size = 4 ∨ r.size = 8
  entry : ∀ e ∈ r.levels, EntryRead s r.size e ∧ e.1 % r.size = 0
  writable : r.w = true → ∀ e ∈ r.levels, bit e.2 1 = true
  user : r.u = true → ∀ e ∈ r.levels, bit e.2 2 = true
  execute : r.x = true → s.nxe = true → r.size = 8 → ∀ e ∈ r.levels, bit e.2 63 = false
  ppn : s.cfg.ok = true → r.ppn < 2 ^ 40

theorem aligned4 (page i : Nat) : (page * 4096 + i * 4) % 4 = 0 := by omega

theorem aligned8 (page i : Nat) : (page * 4096 + i * 8) % 8 = 0 := by omega

theorem field_lt (v : Word) (hi lo : Nat) : field v hi lo < 2 ^ (hi + 1 - lo) := Nat.mod_lt _ (Nat.two_pow_pos _)

theorem physBits_of_ok {c : Config} (ok : c.ok = true) : 32 ≤ c.physBits ∧ c.physBits ≤ 52 := by
  simp only [Config.ok, Bool.and_eq_true, decide_eq_true_eq] at ok
  exact ⟨ok.1.2, ok.2⟩

theorem entryBase_lt (ok : s.cfg.ok = true) (e : Word) : s.entryBase e < 2 ^ 40 := by
  obtain ⟨low, high⟩ := physBits_of_ok ok
  calc s.entryBase e < 2 ^ (s.cfg.physBits - 1 + 1 - 12) := field_lt ..
    _ ≤ 2 ^ 40 := Nat.pow_le_pow_right (by omega) (by omega)

theorem largePpn_lt (ok : s.cfg.ok = true) (e : Word) (lin : Word) :
    field e (s.cfg.physBits - 1) 21 * 512 + field lin 20 12 < 2 ^ 40 := by
  obtain ⟨low, high⟩ := physBits_of_ok ok
  have base : field e (s.cfg.physBits - 1) 21 < 2 ^ 31 :=
    calc field e (s.cfg.physBits - 1) 21 < 2 ^ (s.cfg.physBits - 1 + 1 - 21) := field_lt ..
      _ ≤ 2 ^ 31 := Nat.pow_le_pow_right (by omega) (by omega)
  have off := field_lt lin 20 12
  omega

theorem walkPart_legacy2 : WalkPart s lin kind user (Walked.Sound s) (walkLegacy2 lin kind user) := by
  refine walkPart_get fun k => walkPart_bind (walkPart_readEntry _ 4) fun pde pde_read => ?_
  have pde_ppn := field_lt pde 31 22
  have lin_ppn := field_lt lin 21 12
  split
  · refine walkPart_pure ⟨by simp, .inl rfl, ?_, by simp, by simp, by simp, fun _ => ?_⟩
    · rw [List.forall_mem_singleton]
      exact ⟨pde_read, aligned4 _ _⟩
    · change field pde 31 22 * 1024 + field lin 21 12 < 2 ^ 40
      omega
  · refine walkPart_bind (walkPart_readEntry _ 4) fun pte pte_read => walkPart_pure ?_
    have pte_ppn := field_lt pte 31 12
    refine ⟨by simp, .inl rfl, ?_, by simp, by simp, by simp, fun _ => ?_⟩
    · rw [List.forall_mem_cons, List.forall_mem_singleton]
      exact ⟨⟨pde_read, aligned4 _ _⟩, pte_read, aligned4 _ _⟩
    · change field pte 31 12 < 2 ^ 40
      omega

theorem walkPart_pd {base : Nat} {above : List (Nat × Word)} {w u xd pae : Bool}
    (entry : ∀ e ∈ above, EntryRead s 8 e ∧ e.1 % 8 = 0) (writable : w = true → ∀ e ∈ above, bit e.2 1 = true)
    (user_of : u = true → ∀ e ∈ above, bit e.2 2 = true) (execute : xd = false → ∀ e ∈ above, bit e.2 63 = false) :
    WalkPart s lin kind user (Walked.Sound s) (walkPd base above w u xd pae lin kind user) := by
  refine walkPart_get fun k => walkPart_bind (walkPart_readEntry _ 8) fun pde pde_read =>
    walkPart_bind (walkPart_pfIf _ fun _ => rfl) fun _ _ => ?_
  split
  · refine walkPart_pure ⟨by simp, .inr rfl, ?_, ?_, ?_, ?_, fun ok => largePpn_lt (s := s) ok pde lin⟩
    · simp only [List.forall_mem_append, List.forall_mem_singleton]
      exact ⟨entry, pde_read, aligned8 _ _⟩
    · simp only [Bool.and_eq_true, List.forall_mem_append, List.forall_mem_singleton]
      exact fun both => ⟨writable both.1, both.2⟩
    · simp only [Bool.and_eq_true, List.forall_mem_append, List.forall_mem_singleton]
      exact fun both => ⟨user_of both.1, both.2⟩
    · intro x nxe _
      have nxe' : State.nxe (s.withMs { s.ms with busOps := k }) = true := nxe
      simp only [nxe', Bool.true_and, Bool.not_eq_true', Bool.or_eq_false_iff] at x
      simp only [List.forall_mem_append, List.forall_mem_singleton]
      exact ⟨execute x.1, x.2⟩
  · refine walkPart_bind (walkPart_readEntry _ 8) fun pte pte_read =>
      walkPart_bind (walkPart_pfIf _ fun _ => rfl) fun _ _ => walkPart_pure ?_
    refine ⟨by simp, .inr rfl, ?_, ?_, ?_, ?_, fun ok => entryBase_lt (s := s) ok pte⟩
    · simp only [List.forall_mem_append, List.forall_mem_cons, List.not_mem_nil, false_imp_iff, implies_true, and_true]
      exact ⟨entry, ⟨pde_read, aligned8 _ _⟩, pte_read, aligned8 _ _⟩
    · simp only [Bool.and_eq_true, List.forall_mem_append, List.forall_mem_cons, List.not_mem_nil, false_imp_iff,
        implies_true, and_true]
      exact fun all => ⟨writable all.1, all.2⟩
    · simp only [Bool.and_eq_true, List.forall_mem_append, List.forall_mem_cons, List.not_mem_nil, false_imp_iff,
        implies_true, and_true]
      exact fun all => ⟨user_of all.1, all.2⟩
    · intro x nxe _
      have nxe' : State.nxe (s.withMs { s.ms with busOps := k }) = true := nxe
      simp only [nxe', Bool.true_and, Bool.not_eq_true', Bool.or_eq_false_iff] at x
      simp only [List.forall_mem_append, List.forall_mem_cons, List.not_mem_nil, false_imp_iff, implies_true, and_true]
      exact ⟨execute x.1, x.2⟩

theorem walkPart_pae3 : WalkPart s lin kind user (Walked.Sound s) (walkPae3 lin kind user) :=
  walkPart_get fun _ => walkPart_bind (walkPart_readEntry _ 8) fun _ _ =>
    walkPart_bind (walkPart_pfIf _ fun _ => rfl) fun _ _ => walkPart_pd (by simp) (by simp) (by simp) (by simp)

theorem walkPart_long4 : WalkPart s lin kind user (Walked.Sound s) (walkLong4 lin kind user) := by
  refine walkPart_get fun _ => walkPart_bind (walkPart_readEntry _ 8) fun e4 read4 =>
    walkPart_bind (walkPart_pfIf _ fun _ => rfl) fun _ _ => walkPart_bind (walkPart_readEntry _ 8) fun e3 read3 =>
    walkPart_bind (walkPart_pfIf _ fun _ => rfl) fun _ _ => walkPart_pd ?_ ?_ ?_ ?_
  · rw [List.forall_mem_cons, List.forall_mem_singleton]
    exact ⟨⟨read4, aligned8 _ _⟩, read3, aligned8 _ _⟩
  all_goals simp

theorem walkPart_walkTables (mode : PagingMode) :
    WalkPart s lin kind user (Walked.Sound s) (walkTables mode lin kind user) := by
  cases mode
  · exact walkPart_long4
  · exact walkPart_legacy2
  · exact walkPart_pae3
  · exact walkPart_long4

/-! ### The walk -/

theorem writeEntry_ok (pa size : Nat) (old new : Word) (s : State) : ∃ t, writeEntry pa size old new s = .ok () t := by
  unfold writeEntry
  split
  · exact ⟨s, rfl⟩
  · exact ⟨_, rfl⟩

/-- Setting accessed and dirty bits never raises. -/
theorem markLevels_ok (size : Nat) (kind : Access) (l : List (Nat × Word)) (s : State) :
    ∃ t, markLevels size kind l s = .ok () t := by
  induction l generalizing s with
  | nil => exact ⟨s, rfl⟩
  | cons e rest ih =>
    obtain ⟨pa, e⟩ := e
    obtain ⟨t, run⟩ := writeEntry_ok pa size e (markEntry kind rest.isEmpty e) s
    obtain ⟨u, run'⟩ := ih t
    exact ⟨u, by rw [markLevels, bind_run_ok run, run']⟩

theorem busOnly_self (s : State) : BusOnly s s := ⟨s.ms.busOps, rfl⟩

/-- A walk that succeeds: what it read, its permissions, and the marks it set. -/
theorem walk_ok {r : Walked} (run : walk lin kind user s = .ok r t) : ∃ u, BusOnly s u ∧
    walkTables s.pagingMode lin kind user s = .ok r u ∧ r.Sound s ∧ s.permits r.w r.u r.x kind user = true ∧
    markLevels r.size kind r.levels u = .ok () t := by
  unfold walk at run
  rw [get_bind_run] at run
  obtain ⟨r', u, tables, checked⟩ := bind_ok.mp run
  obtain ⟨bus, sound⟩ := (walkPart_walkTables s.pagingMode).ok s r' u (busOnly_self s) tables
  obtain ⟨_, v, check, marked⟩ := bind_ok.mp checked
  have pass := (walkPart_pfIf (s := u) (lin := lin) (kind := kind) (user := user)
    (!s.permits r'.w r'.u r'.x kind user) (present := true) (rsvd := false) nofun).ok u _ v (busOnly_self u) check
  have same : v = u := by
    have yes : s.permits r'.w r'.u r'.x kind user = true := by simpa using pass.2
    rw [yes] at check
    cases check
    rfl
  subst same
  obtain ⟨_, w, marks, done⟩ := bind_ok.mp marked
  cases done
  exact ⟨v, bus, tables, sound, by simpa using pass.2, marks⟩

/-- A walk that raises: with its page fault, nothing changed but accesses to pages that are not RAM. -/
theorem walk_error {f : FaultRec} (run : walk lin kind user s = .error f t) :
    BusOnly s t ∧ (walkTables s.pagingMode lin kind user s = .error f t ∨
      ∃ r, walkTables s.pagingMode lin kind user s = .ok r t ∧ s.permits r.w r.u r.x kind user = false ∧
        f = .pf (s.pfCode kind user true false) lin) := by
  unfold walk at run
  rw [get_bind_run] at run
  rcases bind_error.mp run with tables | ⟨r, u, tables, run⟩
  · exact ⟨((walkPart_walkTables s.pagingMode).error s f t (busOnly_self s) tables).1, .inl tables⟩
  · obtain ⟨⟨k, rfl⟩, -⟩ := (walkPart_walkTables s.pagingMode).ok s r u (busOnly_self s) tables
    cases permits : s.permits r.w r.u r.x kind user with
    | false =>
      rw [permits] at run
      cases run
      exact ⟨⟨k, rfl⟩, .inr ⟨r, tables, permits, rfl⟩⟩
    | true =>
      rw [permits] at run
      obtain ⟨v, marks⟩ := markLevels_ok r.size kind r.levels (s.withMs { s.ms with busOps := k })
      have ok : (pfIf (!true) lin kind user true false >>= fun _ => markLevels r.size kind r.levels >>= fun _ =>
          (pure r : M Walked)) (s.withMs { s.ms with busOps := k }) = .ok r v := by
        rw [bind_run_ok (show pfIf (!true) lin kind user true false _ = .ok () _ from rfl), bind_run_ok marks]
        rfl
      exact (ok_ne_error (ok.symm.trans run)).elim

/-- R270, R271, as the entries have it. -/
theorem permits_iff (s : State) (w u x : Bool) (kind : Access) (user : Bool) : s.permits w u x kind user = true ↔
    (user = true → u = true) ∧ (kind = .write → user = true ∨ s.wp = true → w = true) ∧ (kind = .execute → x = true)
    := by
  unfold State.permits
  cases kind <;> cases user <;> cases w <;> cases u <;> cases x <;> simp

/-! ### The translation cache -/

/-- A walk changes memory, page versions and counter only. -/
theorem keeps_of_walk {r : Walked} (run : walk lin kind user s = .ok r t) : ∃ m, t = s.withMs m :=
  ((keeps_walk onlyMs_access lin kind user).ok run).elim

/-- A translation that succeeds: without paging, from the cache, or by a walk whose result it enters. -/
theorem translate_ok {pa : Nat} (run : translate lin kind user s = .ok pa t) :
    (s.pagingMode = .none ∧ t = s ∧ pa = field lin 31 0) ∨
    (s.pagingMode ≠ .none ∧ s.tlbHit (s.tlbEntry (s.tlbIndex lin)) lin kind user = true ∧ t = s ∧
      pa = (s.tlbEntry (s.tlbIndex lin)).ppn.toNat * 4096 + lin.toNat % 4096) ∨
    (s.pagingMode ≠ .none ∧ s.tlbHit (s.tlbEntry (s.tlbIndex lin)) lin kind user = false ∧
      ∃ r u, walk lin kind user s = .ok r u ∧ t = u.setTlb (u.tlbIndex lin) (u.tlbFill lin kind r) ∧
        pa = r.ppn * 4096 + lin.toNat % 4096) := by
  by_cases none : s.pagingMode = .none
  · rw [translate_of_no_paging none] at run
    cases run
    exact .inl ⟨none, rfl, rfl⟩
  cases hit : s.tlbHit (s.tlbEntry (s.tlbIndex lin)) lin kind user with
  | true =>
    rw [translate_of_hit none hit] at run
    cases run
    exact .inr (.inl ⟨none, rfl, rfl, rfl⟩)
  | false =>
    unfold translate at run
    rw [get_bind_run, if_neg (by simpa using none), hit, if_neg (by simp)] at run
    obtain ⟨r, u, walked, run⟩ := bind_ok.mp run
    cases run
    exact .inr (.inr ⟨none, rfl, r, u, walked, rfl, rfl⟩)

/-- A translation raises what its walk raises. -/
theorem translate_error {f : FaultRec} (run : translate lin kind user s = .error f t) :
    s.pagingMode ≠ .none ∧ s.tlbHit (s.tlbEntry (s.tlbIndex lin)) lin kind user = false ∧
      walk lin kind user s = .error f t := by
  by_cases none : s.pagingMode = .none
  · rw [translate_of_no_paging none] at run
    exact (ok_ne_error run).elim
  cases hit : s.tlbHit (s.tlbEntry (s.tlbIndex lin)) lin kind user with
  | true =>
    rw [translate_of_hit none hit] at run
    exact (ok_ne_error run).elim
  | false =>
    refine ⟨none, rfl, ?_⟩
    unfold translate at run
    rw [get_bind_run, if_neg (by simpa using none), hit, if_neg (by simp)] at run
    rcases bind_error.mp run with walked | ⟨r, u, _, run⟩
    · exact walked
    · exact (ok_ne_error run).elim

/-- What a walk enters in the cache answers the access it was made for. -/
theorem tlbHit_fill {r : Walked} (permits : s.permits r.w r.u r.x kind user = true) :
    s.tlbHit (s.tlbFill lin kind r) lin kind user = true := by
  unfold State.tlbHit State.tlbFill Walked.dirty
  rw [permits]
  cases kind <;> simp

theorem tlbEntry_setTlb {e : TlbEntry} (valid : e.valid = true) (i : Nat) : (s.setTlb i e).tlbEntry i = e :=
  sparseGet_set_same_of_ne _ _ _ fun eq => by rw [eq] at valid; cases valid

/-- After a translation that succeeded, without paging or with a hit that gives the same address. -/
theorem translate_settled {pa : Nat} (ok : s.cfg.ok = true) (run : translate lin kind user s = .ok pa t) :
    (t.pagingMode = .none ∧ pa = field lin 31 0) ∨
    (t.pagingMode ≠ .none ∧ t.tlbHit (t.tlbEntry (t.tlbIndex lin)) lin kind user = true ∧
      pa = (t.tlbEntry (t.tlbIndex lin)).ppn.toNat * 4096 + lin.toNat % 4096) := by
  rcases translate_ok run with ⟨none, rfl, eq⟩ | ⟨paging, hit, rfl, eq⟩ | ⟨paging, -, r, u, walked, rfl, rfl⟩
  · exact .inl ⟨none, eq⟩
  · exact .inr ⟨paging, hit, eq⟩
  · obtain ⟨_, _, _, sound, permits, -⟩ := walk_ok walked
    obtain ⟨m, rfl⟩ := keeps_of_walk walked
    have entry : ((s.withMs m).setTlb ((s.withMs m).tlbIndex lin) ((s.withMs m).tlbFill lin kind r)).tlbEntry
        ((s.withMs m).tlbIndex lin) = (s.withMs m).tlbFill lin kind r := tlbEntry_setTlb rfl _
    refine .inr ⟨paging, ?_, ?_⟩
    · exact (congrArg (fun e => s.tlbHit e lin kind user) entry).trans (tlbHit_fill (s := s) permits)
    · have ppn := congrArg (fun e => e.ppn.toNat * 4096 + lin.toNat % 4096) entry
      refine Eq.trans ?_ ppn.symm
      simp only [State.tlbFill, BitVec.toNat_ofNat, Nat.mod_eq_of_lt (sound.ppn ok)]

theorem tlbHit_empty : s.tlbHit .empty lin kind user = false := rfl

theorem sparseGet_mem {γ : Type} {d : γ} {l : List (Nat × γ)} {k : Nat} (ne : sparseGet d l k ≠ d) :
    (k, sparseGet d l k) ∈ l := by
  induction l with
  | nil => exact absurd rfl ne
  | cons e l ih =>
    obtain ⟨a, b⟩ := e
    unfold sparseGet at ne ⊢
    split
    next eq => simp [eq]
    next other =>
      rw [if_neg other] at ne
      exact List.mem_cons_of_mem _ (ih ne)

/-- After the salt is bumped no entry hits (R280). -/
theorem tlbHit_bumpSalt (salts : s.saltsOk = true) (i : Nat) :
    s.bumpSalt.tlbHit (s.bumpSalt.tlbEntry i) lin kind user = false := by
  by_cases empty : s.bumpSalt.tlbEntry i = .empty
  · rw [empty]
    exact tlbHit_empty
  · have le : (s.bumpSalt.tlbEntry i).salt ≤ s.tlbSalt :=
      (saltsOk_iff s).mp salts _ (sparseGet_mem (d := TlbEntry.empty) (l := s.ms.tlb) empty)
    have ne : ((s.bumpSalt.tlbEntry i).salt == s.bumpSalt.tlbSalt) = false := by
      rw [beq_eq_false_iff_ne]
      simp only [State.bumpSalt] at le ⊢
      omega
    unfold State.tlbHit
    rw [ne]
    simp

end

end Sys2Proof.Machine

open Sys2Proof Sys2Proof.Machine

/-- Settles O32: what a walk enters in the cache hits (`translate_settled`), and no entry has the bumped salt. -/
theorem translationCache : Obligations.TranslationCache := by
  unfold Obligations.TranslationCache
  refine fun s lin kind user => ⟨fun pa t ok run => ?_, fun salts i => tlbHit_bumpSalt salts i⟩
  obtain ⟨none, rfl⟩ | ⟨paging, hit, rfl⟩ := translate_settled ok run
  · exact translate_of_no_paging none lin kind user
  · exact translate_of_hit paging hit

/-- Settles O34: a walk that succeeds has passed the permission check on the entries it read. -/
theorem walksRespectPermissions : Obligations.WalksRespectPermissions := by
  unfold Obligations.WalksRespectPermissions
  intro s t lin kind user r run
  obtain ⟨_, _, _, sound, permits, -⟩ := walk_ok run
  obtain ⟨user_ok, write_ok, execute_ok⟩ := (permits_iff ..).mp permits
  exact ⟨fun user => sound.user (user_ok user), fun write who => sound.writable (write_ok write who),
    fun execute nxe size => sound.execute (execute_ok execute) nxe size,
    fun e mem => (sound.entry e mem).1.present, sound.nonempty⟩

end

section
/-! PROOF. O33, O35. The walk where every page is RAM: it stops where its path does (`pathStop`), and else gives the
page of the path's last entry with the permissions of its levels (R256 to R262, R270 to R274). -/

namespace Sys2Proof.Machine
open Sys2Proof

section
variable {s t : State} {lin : Word} {kind : Access} {user : Bool}

/-! ### What the entries of a path give -/

/-- How a walk ends that reads the path `p` and gives `r`, where nothing on the path stops it (R274). -/
def State.pathEnd (s : State) (lin : Word) (kind : Access) (user : Bool) (p : List PathEntry) (r : Walked) :
    EStateM.Result FaultRec State Walked :=
  match pathStop p with
  | some rsvd => .error (.pf (s.pfCode kind user rsvd rsvd) lin) s
  | none => .ok r s

/-- The page-directory entry of the 8-byte formats, for the page directory in page `base`. -/
def State.pdeAt (s : State) (lin : Word) (base : Nat) : Word := s.ramEntry (base * 4096 + field lin 29 21 * 8) 8

/-- The page-table entry that it leads to. -/
def State.pteAt (s : State) (lin : Word) (base : Nat) : Word :=
  s.ramEntry (s.entryBase (s.pdeAt lin base) * 4096 + field lin 20 12 * 8) 8

/-- The page that they give (R258, R259, R260). -/
def State.lowerPpn (s : State) (lin : Word) (base : Nat) : Nat :=
  if bit (s.pdeAt lin base) 7 then field (s.pdeAt lin base) (s.cfg.physBits - 1) 21 * 512 + field lin 20 12
  else s.entryBase (s.pteAt lin base)

theorem lowerPath_of_large {base : Nat} (large : bit (s.pdeAt lin base) 7 = true) (pae : Bool) :
    s.lowerPath lin base pae =
      [⟨base * 4096 + field lin 29 21 * 8, s.pdeAt lin base, s.rsvd8 (s.pdeAt lin base) pae
      (bit (s.pdeAt lin base) 7)⟩] := by
  unfold State.pdeAt at large ⊢
  simp only [State.lowerPath, large, if_true]

theorem lowerPath_of_table {base : Nat} (table : bit (s.pdeAt lin base) 7 = false) (pae : Bool) :
    s.lowerPath lin base pae =
      [⟨base * 4096 + field lin 29 21 * 8, s.pdeAt lin base, s.rsvd8 (s.pdeAt lin base) pae (bit (s.pdeAt lin base) 7)⟩,
        ⟨s.entryBase (s.pdeAt lin base) * 4096 + field lin 20 12 * 8, s.pteAt lin base,
          s.rsvd8 (s.pteAt lin base) pae false⟩] := by
  unfold State.pteAt State.pdeAt at *
  simp only [State.lowerPath, table, Bool.false_eq_true, if_false]

/-- The two upper entries of the 4-level format (R259). -/
def State.pml4eAt (s : State) (lin : Word) : Word := s.ramEntry (s.entryBase s.cr3 * 4096 + field lin 47 39 * 8) 8

def State.pdpteAt (s : State) (lin : Word) : Word :=
  s.ramEntry (s.entryBase (s.pml4eAt lin) * 4096 + field lin 38 30 * 8) 8

/-- The page-directory-pointer entry of the PAE format (R258). -/
def State.paePdpteAt (s : State) (lin : Word) : Word := s.ramEntry (field s.cr3 31 5 * 32 + field lin 31 30 * 8) 8

/-- The two entries of the 2-level format (R256). -/
def State.legacyPdeAt (s : State) (lin : Word) : Word := s.ramEntry (field s.cr3 31 12 * 4096 + field lin 31 22 * 4) 4

def State.legacyPteAt (s : State) (lin : Word) : Word :=
  s.ramEntry (field (s.legacyPdeAt lin) 31 12 * 4096 + field lin 21 12 * 4) 4

theorem path_long4 (mode : s.pagingMode = .long4) : s.path lin =
    ⟨s.entryBase s.cr3 * 4096 + field lin 47 39 * 8, s.pml4eAt lin,
      bit (s.pml4eAt lin) 7 || s.rsvd8 (s.pml4eAt lin) false false⟩ ::
    ⟨s.entryBase (s.pml4eAt lin) * 4096 + field lin 38 30 * 8, s.pdpteAt lin,
      bit (s.pdpteAt lin) 7 || s.rsvd8 (s.pdpteAt lin) false false⟩ ::
    s.lowerPath lin (s.entryBase (s.pdpteAt lin)) false := by
  simp only [State.path, mode]
  rfl

theorem path_pae3 (mode : s.pagingMode = .pae3) : s.path lin =
    ⟨field s.cr3 31 5 * 32 + field lin 31 30 * 8, s.paePdpteAt lin, field (s.paePdpteAt lin) 2 1 != 0 ||
      field (s.paePdpteAt lin) 8 5 != 0 || field (s.paePdpteAt lin) 63 s.cfg.physBits != 0⟩ ::
    s.lowerPath lin (s.entryBase (s.paePdpteAt lin)) true := by
  simp only [State.path, mode]
  rfl

theorem path_legacy2 (mode : s.pagingMode = .legacy2) : s.path lin =
    ⟨field s.cr3 31 12 * 4096 + field lin 31 22 * 4, s.legacyPdeAt lin, false⟩ ::
    if bit (s.legacyPdeAt lin) 7 && s.pse then []
    else [⟨field (s.legacyPdeAt lin) 31 12 * 4096 + field lin 21 12 * 4, s.legacyPteAt lin, false⟩] := by
  simp only [State.path, mode]
  rfl

/-- The page that the path gives in the paging mode of a state. -/
def State.pathPpn (s : State) (lin : Word) : Nat :=
  match s.pagingMode with
  | .none => 0
  | .legacy2 =>
    if bit (s.legacyPdeAt lin) 7 && s.pse then field (s.legacyPdeAt lin) 31 22 * 1024 + field lin 21 12
    else field (s.legacyPteAt lin) 31 12
  | .pae3 => s.lowerPpn lin (s.entryBase (s.paePdpteAt lin))
  | .long4 => s.lowerPpn lin (s.entryBase (s.pdpteAt lin))

/-- An entry of a path, as a walk records it. -/
def PathEntry.level (e : PathEntry) : Nat × Word := (e.addr, e.word)

/-- What a walk of RAM gives where nothing on its path stops it. -/
def State.walked (s : State) (lin : Word) : Walked where
  levels := (s.levels lin).map PathEntry.level
  size := s.entrySize
  ppn := s.pathPpn lin
  w := (s.levels lin).all fun e => bit e.word 1
  u := (s.levels lin).all fun e => bit e.word 2
  x := !(s.nxe && (s.levels lin).any fun e => bit e.word 63)

/-! ### The walks in RAM -/

theorem pfIf_run (c : Bool) (present rsvd : Bool) : pfIf c lin kind user present rsvd s =
    if c then .error (.pf (s.pfCode kind user present rsvd) lin) s else .ok () s := by
  unfold pfIf
  rw [get_bind_run, raiseIf_run]

theorem readEntry_ram (ram : s.AllRam) (pa size : Nat) : readEntry pa size lin kind user s =
    if bit (s.ramEntry pa size) 0 then .ok (s.ramEntry pa size) s
    else .error (.pf (s.pfCode kind user false false) lin) s := by
  unfold readEntry
  have word : BitVec.ofNat 64 (leNat (s.ms.bytes pa size)) = s.ramEntry pa size := rfl
  rw [bind_run_ok (physRead_ram ram pa size), bind_run, pfIf_run, word]
  cases bit (s.ramEntry pa size) 0 <;> rfl

section
variable {c : Word → Bool} {K : Word → M Walked} {pa size : Nat} {p : List PathEntry} {r : Walked}

/-- One entry of a walk without reserved bits, and the rest of the path. -/
theorem entry_step (ram : s.AllRam) (rest : K (s.ramEntry pa size) s = s.pathEnd lin kind user p r) :
    (readEntry pa size lin kind user >>= K) s =
      s.pathEnd lin kind user (⟨pa, s.ramEntry pa size, false⟩ :: p) r := by
  rw [bind_run, readEntry_ram ram]
  unfold State.pathEnd pathStop
  cases bit (s.ramEntry pa size) 0
  · rfl
  · exact rest

/-- One entry of a walk with its reserved bits, and the rest of the path. -/
theorem entry_step_rsvd (ram : s.AllRam) (rest : K (s.ramEntry pa size) s = s.pathEnd lin kind user p r) :
    (readEntry pa size lin kind user >>= fun e => pfIf (c e) lin kind user true true >>= fun _ => K e) s =
      s.pathEnd lin kind user (⟨pa, s.ramEntry pa size, c (s.ramEntry pa size)⟩ :: p) r := by
  rw [bind_run, readEntry_ram ram]
  unfold State.pathEnd pathStop
  cases bit (s.ramEntry pa size) 0
  · rfl
  · simp only [if_true, bind_run, pfIf_run, Bool.not_true, Bool.false_eq_true, if_false]
    cases c (s.ramEntry pa size)
    · exact rest
    · rfl

end

theorem walkPd_ram (ram : s.AllRam) (base : Nat) (above : List (Nat × Word)) (w u xd pae : Bool) :
    walkPd base above w u xd pae lin kind user s = s.pathEnd lin kind user (s.lowerPath lin base pae)
      ⟨above ++ (s.lowerPath lin base pae).map PathEntry.level, 8, s.lowerPpn lin base,
        w && (s.lowerPath lin base pae).all fun e => bit e.word 1,
        u && (s.lowerPath lin base pae).all fun e => bit e.word 2,
        !(s.nxe && (xd || (s.lowerPath lin base pae).any fun e => bit e.word 63))⟩ := by
  unfold walkPd
  rw [get_bind_run]
  cases large : bit (s.pdeAt lin base) 7
  · rw [lowerPath_of_table large]
    refine entry_step_rsvd ram ?_
    change (if bit (s.pdeAt lin base) 7 then _ else _ : M Walked) s = _
    rw [large, if_neg (by simp)]
    refine entry_step_rsvd ram ?_
    simp only [State.pathEnd, pathStop, PathEntry.level, State.lowerPpn, large, List.map_cons, List.map_nil,
      List.all_cons, List.all_nil, List.any_cons, List.any_nil, Bool.and_true, Bool.or_false]
    rfl
  · rw [lowerPath_of_large large]
    refine entry_step_rsvd ram ?_
    change (if bit (s.pdeAt lin base) 7 then _ else _ : M Walked) s = _
    rw [large, if_pos rfl]
    simp only [State.pathEnd, pathStop, PathEntry.level, State.lowerPpn, large, List.map_cons, List.map_nil,
      List.all_cons, List.all_nil, List.any_cons, List.any_nil, Bool.and_true, Bool.or_false]
    rfl

/-- A word of 4 bytes has no bit 63. -/
theorem bit63_ramEntry4 (s : State) (pa : Nat) : bit (s.ramEntry pa 4) 63 = false := by
  have lt : (s.ramEntry pa 4).toNat < 2 ^ (8 * 4) := ofNat_leNat_lt _ (bytes_length ..)
  rw [Bool.eq_false_iff, Ne, bit_iff, Nat.div_eq_of_lt (by omega)]
  decide

/-- The walk of a state with all pages in RAM: its path, and what that gives. -/
theorem walkTables_ram (ram : s.AllRam) (paging : s.pagingMode ≠ .none) :
    walkTables s.pagingMode lin kind user s = s.pathEnd lin kind user (s.path lin) (s.walked lin) := by
  unfold State.walked State.levels State.pathPpn State.entrySize
  cases mode : s.pagingMode with
  | none => exact absurd mode paging
  | legacy2 =>
    change walkLegacy2 lin kind user s = _
    unfold walkLegacy2
    rw [get_bind_run, path_legacy2 mode]
    have pde : s.ramEntry (field s.cr3 31 12 * 4096 + field lin 31 22 * 4) 4 = s.legacyPdeAt lin := rfl
    have pte : s.ramEntry (field (s.legacyPdeAt lin) 31 12 * 4096 + field lin 21 12 * 4) 4 = s.legacyPteAt lin := rfl
    have pde63 : bit (s.legacyPdeAt lin) 63 = false := bit63_ramEntry4 s _
    have pte63 : bit (s.legacyPteAt lin) 63 = false := bit63_ramEntry4 s _
    refine entry_step ram ?_
    change (if bit (s.legacyPdeAt lin) 7 && s.pse then _ else _ : M Walked) s = _
    cases bit (s.legacyPdeAt lin) 7 && s.pse
    · refine entry_step ram ?_
      simp [State.pathEnd, pathStop, PathEntry.level, pde, pte, pde63, pte63]
    · simp [State.pathEnd, pathStop, PathEntry.level, pde, pde63]
  | pae3 =>
    change walkPae3 lin kind user s = _
    unfold walkPae3
    rw [get_bind_run, path_pae3 mode]
    refine entry_step_rsvd ram ?_
    rw [walkPd_ram ram]
    simp
    rfl
  | long4 =>
    change walkLong4 lin kind user s = _
    unfold walkLong4
    rw [get_bind_run, path_long4 mode]
    refine entry_step_rsvd ram (entry_step_rsvd ram ?_)
    rw [walkPd_ram ram]
    simp [PathEntry.level, Bool.and_assoc, Bool.or_assoc]
    rfl

/-! ### When a translation raises -/

/-- A translation that succeeds by a walk has nothing on its path that stops it. -/
theorem pathStop_of_walk_ok {r : Walked} (ram : s.AllRam) (paging : s.pagingMode ≠ .none)
    (run : walk lin kind user s = .ok r t) : pathStop (s.path lin) = none ∧ r = s.walked lin := by
  obtain ⟨u, -, tables, -⟩ := walk_ok run
  rw [walkTables_ram ram paging] at tables
  unfold State.pathEnd at tables
  split at tables
  next => cases tables
  next stop => cases tables; exact ⟨stop, rfl⟩

theorem translate_raises (ram : s.AllRam) (paging : s.pagingMode ≠ .none)
    (miss : s.tlbHit (s.tlbEntry (s.tlbIndex lin)) lin kind user = false) (stop : pathStop (s.path lin) ≠ none) :
    ∃ g u, translate lin kind user s = .error g u := by
  cases run : translate lin kind user s with
  | error g u => exact ⟨g, u, rfl⟩
  | ok pa t =>
    rcases translate_ok run with ⟨none, -⟩ | ⟨-, hit, -⟩ | ⟨-, -, r, u, walked, -⟩
    · exact absurd none paging
    · exact absurd (miss.symm.trans hit) nofun
    · exact absurd (pathStop_of_walk_ok ram paging walked).1 stop

/-- R262, in numbers. -/
theorem rsvd8_iff (e : Word) (pae large : Bool) : s.rsvd8 e pae large = true ↔
    (e.toNat / 2 ^ s.cfg.physBits % 2 ^ (52 - s.cfg.physBits) ≠ 0 ∨
      (pae = true ∧ e.toNat / 2 ^ 52 % 2 ^ 11 ≠ 0) ∨ (s.nxe = false ∧ 2 ^ 63 ≤ e.toNat) ∨
      (large = true ∧ e.toNat / 2 ^ 13 % 2 ^ 8 ≠ 0)) := by
  have lt := e.isLt
  have bit63 : bit e 63 = true ↔ 2 ^ 63 ≤ e.toNat := by
    rw [bit_iff]
    omega
  unfold State.rsvd8 field
  simp only [Bool.or_eq_true, Bool.and_eq_true, bne_iff_ne, Bool.not_eq_true', bit63]
  grind

/-- R273: the bits of a page fault's error code. -/
theorem pfCode_bits (s : State) (kind : Access) (user present rsvd : Bool) :
    let code := s.pfCode kind user present rsvd
    code.getLsbD 0 = present ∧ (code.getLsbD 1 = true ↔ kind = .write) ∧ code.getLsbD 2 = user ∧
    code.getLsbD 3 = rsvd ∧ (code.getLsbD 4 = true ↔ kind = .execute ∧ s.pae = true ∧ s.nxe = true) ∧
    code.toNat < 32 := by
  unfold State.pfCode
  generalize s.pae = pae
  generalize s.nxe = nxe
  revert kind user present rsvd pae nxe
  intro kind
  cases kind <;> decide

/-- A translation that raises does so for its walk's reason (R274). -/
theorem translate_error_code {f : FaultRec} (run : translate lin kind user s = .error f t) :
    ∃ present rsvd, f = .pf (s.pfCode kind user present rsvd) lin ∧ (rsvd = true → present = true) ∧ BusOnly s t ∧
      (s.AllRam → (present, rsvd) = match pathStop (s.path lin) with
        | some false => (false, false)
        | some true => (true, true)
        | none => (true, false)) := by
  obtain ⟨paging, -, walked⟩ := translate_error run
  obtain ⟨bus, tables | ⟨r, tables, -, rfl⟩⟩ := walk_error walked
  · obtain ⟨-, present, rsvd, le, rfl⟩ := (walkPart_walkTables _).error s f t (busOnly_self s) tables
    by_cases ram : s.AllRam
    · have tables' := tables
      rw [walkTables_ram ram paging] at tables'
      unfold State.pathEnd at tables'
      split at tables'
      next q stop =>
        injection tables' with same
        exact ⟨q, q, same.symm, id, bus, fun _ => by rw [stop]; cases q <;> rfl⟩
      next => cases tables'
    · exact ⟨present, rsvd, rfl, le, bus, fun is => (ram is).elim⟩
  · refine ⟨true, false, rfl, nofun, bus, fun ram => ?_⟩
    rw [walkTables_ram ram paging] at tables
    unfold State.pathEnd at tables
    split at tables
    next => cases tables
    next stop => rw [stop]

end

end Sys2Proof.Machine

open Sys2Proof Sys2Proof.Machine

/-- Settles O33: in RAM the walk stops where its path does (`walkTables_ram`), or its permission check raises. -/
theorem pageFaultRecord : Obligations.PageFaultRecord := by
  unfold Obligations.PageFaultRecord
  refine fun s t lin kind user f => ⟨translate_raises, fun e pae large => rsvd8_iff e pae large, fun run => ?_⟩
  obtain ⟨present, rsvd, rfl, le, ⟨k, rfl⟩, ram⟩ := translate_error_code run
  obtain ⟨bit0, bit1, bit2, bit3, bit4, lt⟩ := pfCode_bits s kind user present rsvd
  refine ⟨rfl, rfl, _, rfl, bit1, by rw [bit2], by rw [bit0, bit3]; exact le, bit4, lt, rfl, rfl, fun is => ?_⟩
  rw [bit0, bit3]
  exact ram is

end

section
/-! PROOF. O35: which accesses the entries of a path permit, and the address they give (R256 to R260, R262, R270 to
R272). -/

namespace Sys2Proof.Machine
open Sys2Proof

section
variable {s t : State} {lin : Word} {kind : Access} {user : Bool}

/-- R270 and R271, of the entries in numbers. -/
def Permitted (s : State) (kind : Access) (user : Bool) (es : List Nat) : Prop :=
  (user = true → ∀ e ∈ es, e / 4 % 2 = 1) ∧
  (kind = .write → (user = false ∧ s.wp = false) ∨ ∀ e ∈ es, e / 2 % 2 = 1) ∧
  (kind = .execute → s.nxe = true → ∀ e ∈ es, e < 2 ^ 63)

/-- The access gets the address `pa` exactly when the entries permit it, and faults otherwise. -/
def Gives (s : State) (lin : Word) (kind : Access) (user : Bool) (pa : Nat) (es : List Nat) : Prop :=
  (Permitted s kind user es → ∃ t, translate lin kind user s = .ok pa t) ∧
  (¬Permitted s kind user es → ∃ f t, translate lin kind user s = .error f t)

theorem bit63_iff (v : Word) : bit v 63 = false ↔ v.toNat < 2 ^ 63 := by
  rw [Bool.eq_false_iff, Ne, bit_iff]
  have := v.isLt
  omega

theorem permits_walked_iff : s.permits (s.walked lin).w (s.walked lin).u (s.walked lin).x kind user = true ↔
    Permitted s kind user ((s.levels lin).map fun e => e.word.toNat) := by
  have all (i : Nat) : ((s.levels lin).all fun e => bit e.word i) = true ↔
      ∀ n ∈ (s.levels lin).map fun e => e.word.toNat, n / 2 ^ i % 2 = 1 := by
    simp [List.all_eq_true, bit_iff]
  have none : ((s.levels lin).any fun e => bit e.word 63) = false ↔
      ∀ n ∈ (s.levels lin).map fun e => e.word.toNat, n < 2 ^ 63 := by
    rw [List.any_eq_false]
    simp only [Bool.not_eq_true, bit63_iff, List.forall_mem_map]
  have execute : (!(s.nxe && (s.levels lin).any fun e => bit e.word 63)) = true ↔
      (s.nxe = true → ∀ n ∈ (s.levels lin).map fun e => e.word.toNat, n < 2 ^ 63) := by
    rw [← none]
    cases s.nxe <;> simp
  rw [permits_iff]
  unfold State.walked Permitted
  dsimp only
  rw [all 1, all 2, execute]
  cases user <;> cases s.wp <;> simp

/-- In RAM, where nothing on the path stops the walk and the cache does not answer. -/
theorem gives_of_path (ram : s.AllRam) (paging : s.pagingMode ≠ .none)
    (miss : s.tlbHit (s.tlbEntry (s.tlbIndex lin)) lin kind user = false) (stop : pathStop (s.path lin) = none) :
    Gives s lin kind user (s.pathPpn lin * 4096 + lin.toNat % 4096) ((s.levels lin).map fun e => e.word.toNat) := by
  unfold Gives
  rw [← permits_walked_iff]
  cases run : translate lin kind user s with
  | ok pa t =>
    rcases translate_ok run with ⟨none, -⟩ | ⟨-, hit, -⟩ | ⟨-, -, r, u, walked, -, rfl⟩
    · exact absurd none paging
    · exact absurd (miss.symm.trans hit) nofun
    · obtain ⟨-, rfl⟩ := pathStop_of_walk_ok ram paging walked
      obtain ⟨-, -, -, -, permits, -⟩ := walk_ok walked
      exact ⟨fun _ => ⟨t, rfl⟩, fun no => absurd permits no⟩
  | error f t =>
    refine ⟨fun permits => ?_, fun _ => ⟨f, t, rfl⟩⟩
    obtain ⟨-, -, walked⟩ := translate_error run
    obtain ⟨-, tables | ⟨r, tables, refused, -⟩⟩ := walk_error walked <;>
      rw [walkTables_ram ram paging, State.pathEnd, stop] at tables <;> cases tables
    exact absurd (permits.symm.trans refused) nofun

/-! ### The formats -/

theorem ramEntry_toNat (s : State) (pa n : Nat) (le : n ≤ 8) : (s.ramEntry pa n).toNat = leNat (s.ms.bytes pa n) := by
  have lt : leNat (s.ms.bytes pa n) < 256 ^ 8 :=
    Nat.lt_of_lt_of_le (leNat_lt _) (by rw [bytes_length]; exact Nat.pow_le_pow_right (by omega) le)
  rw [State.ramEntry, BitVec.toNat_ofNat, Nat.mod_eq_of_lt (by simpa using lt)]

theorem entryBase_eq (ok : s.cfg.ok = true) (e : Word) :
    s.entryBase e = e.toNat / 4096 % 2 ^ (s.cfg.physBits - 12) := by
  obtain ⟨low, high⟩ := physBits_of_ok ok
  unfold State.entryBase field
  rw [show s.cfg.physBits - 1 + 1 - 12 = s.cfg.physBits - 12 by omega, show (2 : Nat) ^ 12 = 4096 from rfl]

/-- The address in a 2 MiB page. -/
theorem largePage_eq (ok : s.cfg.ok = true) (e : Word) :
    (field e (s.cfg.physBits - 1) 21 * 512 + field lin 20 12) * 4096 + lin.toNat % 4096 =
      e.toNat / 2 ^ 21 % 2 ^ (s.cfg.physBits - 21) * 2 ^ 21 + lin.toNat % 2 ^ 21 := by
  obtain ⟨low, high⟩ := physBits_of_ok ok
  unfold field
  rw [show s.cfg.physBits - 1 + 1 - 21 = s.cfg.physBits - 21 by omega]
  omega

/-- An 8-byte entry that is present and has no reserved bit set, in numbers. -/
def Valid (s : State) (pae large : Prop) (e : Nat) : Prop :=
  e % 2 = 1 ∧ e / 2 ^ s.cfg.physBits % 2 ^ (52 - s.cfg.physBits) = 0 ∧ (pae → e / 2 ^ 52 % 2 ^ 11 = 0) ∧
  (s.nxe = false → e < 2 ^ 63) ∧ (large → e / 2 ^ 13 % 2 ^ 8 = 0)

theorem bit0_iff (v : Word) : bit v 0 = true ↔ v.toNat % 2 = 1 := by simp [bit_iff]

theorem bit7_iff (v : Word) : bit v 7 = true ↔ v.toNat / 128 % 2 = 1 := by simp [bit_iff]

theorem valid_iff (v : Word) (pae large : Bool) : Valid s (pae = true) (large = true) v.toNat ↔
    bit v 0 = true ∧ s.rsvd8 v pae large = false := by
  rw [Bool.eq_false_iff, Ne, rsvd8_iff, bit0_iff]
  unfold Valid
  have : v.toNat < 2 ^ 63 ↔ ¬2 ^ 63 ≤ v.toNat := by omega
  rw [this]
  grind

/-- An entry of a path that does not stop the walk. -/
theorem pathStop_cons {a : Nat} {v : Word} {c : Bool} {p : List PathEntry} (present : bit v 0 = true)
    (clear : c = false) :
    pathStop (⟨a, v, c⟩ :: p) = pathStop p := by
  simp [pathStop, present, clear]

/-- The lower path: what it takes to go through, and what it gives. -/
structure LowerGives (s : State) (lin : Word) (pae : Bool) (base e2 : Nat) : Prop where
  large : e2 / 128 % 2 = 1 → pathStop (s.lowerPath lin base pae) = none ∧
    (s.lowerPath lin base pae).map (fun e => e.word.toNat) = [e2] ∧
    s.lowerPpn lin base * 4096 + lin.toNat % 4096 =
      e2 / 2 ^ 21 % 2 ^ (s.cfg.physBits - 21) * 2 ^ 21 + lin.toNat % 2 ^ 21
  table : ¬e2 / 128 % 2 = 1 → ∀ e1, leNat (s.ms.bytes
      (e2 / 4096 % 2 ^ (s.cfg.physBits - 12) * 4096 + field lin 20 12 * 8) 8) = e1 → Valid s (pae = true) False e1 →
    pathStop (s.lowerPath lin base pae) = none ∧
    (s.lowerPath lin base pae).map (fun e => e.word.toNat) = [e2, e1] ∧
    s.lowerPpn lin base * 4096 + lin.toNat % 4096 =
      e1 / 4096 % 2 ^ (s.cfg.physBits - 12) * 4096 + lin.toNat % 2 ^ 12

theorem lowerGives (ok : s.cfg.ok = true) {pae : Bool} {base e2 : Nat}
    (word : leNat (s.ms.bytes (base * 4096 + field lin 29 21 * 8) 8) = e2)
    (valid : Valid s (pae = true) (e2 / 128 % 2 = 1) e2) : LowerGives s lin pae base e2 := by
  have eq : (s.pdeAt lin base).toNat = e2 := (ramEntry_toNat s _ 8 (Nat.le_refl _)).trans word
  subst eq
  rw [← bit7_iff, valid_iff] at valid
  obtain ⟨present, clear⟩ := valid
  constructor
  · intro large
    rw [← bit7_iff] at large
    rw [lowerPath_of_large large, pathStop_cons present clear]
    refine ⟨rfl, rfl, ?_⟩
    rw [State.lowerPpn, if_pos large, largePage_eq ok]
  · intro small e1 word1 valid1
    rw [← bit7_iff, Bool.not_eq_true] at small
    rw [← entryBase_eq ok] at word1
    have eq1 : (s.pteAt lin base).toNat = e1 := (ramEntry_toNat s _ 8 (Nat.le_refl _)).trans word1
    subst eq1
    have valid1 : Valid s (pae = true) (false = true) (s.pteAt lin base).toNat := by simpa using valid1
    rw [valid_iff] at valid1
    rw [lowerPath_of_table small, pathStop_cons present clear, pathStop_cons valid1.1 valid1.2]
    refine ⟨rfl, rfl, ?_⟩
    rw [State.lowerPpn, small, if_neg (by simp), entryBase_eq ok, show (2 : Nat) ^ 12 = 4096 from rfl]

section
variable (ram : s.AllRam) (ok : s.cfg.ok = true) (miss : s.tlbHit (s.tlbEntry (s.tlbIndex lin)) lin kind user = false)
include ram ok miss

/-- R259, R260. -/
theorem gives_long4 (mode : s.pagingMode = .long4) {e4 e3 e2 : Nat}
    (word4 : leNat (s.ms.bytes (s.cr3.toNat / 4096 % 2 ^ (s.cfg.physBits - 12) * 4096 + field lin 47 39 * 8) 8) = e4)
    (valid4 : Valid s False False e4) (small4 : ¬e4 / 128 % 2 = 1)
    (word3 : leNat (s.ms.bytes (e4 / 4096 % 2 ^ (s.cfg.physBits - 12) * 4096 + field lin 38 30 * 8) 8) = e3)
    (valid3 : Valid s False False e3) (small3 : ¬e3 / 128 % 2 = 1)
    (word2 : leNat (s.ms.bytes (e3 / 4096 % 2 ^ (s.cfg.physBits - 12) * 4096 + field lin 29 21 * 8) 8) = e2)
    (valid2 : Valid s False (e2 / 128 % 2 = 1) e2) :
    (e2 / 128 % 2 = 1 → Gives s lin kind user
      (e2 / 2 ^ 21 % 2 ^ (s.cfg.physBits - 21) * 2 ^ 21 + lin.toNat % 2 ^ 21) [e4, e3, e2]) ∧
    (∀ e1, ¬e2 / 128 % 2 = 1 →
      leNat (s.ms.bytes (e2 / 4096 % 2 ^ (s.cfg.physBits - 12) * 4096 + field lin 20 12 * 8) 8) = e1 →
      Valid s False False e1 → Gives s lin kind user
        (e1 / 4096 % 2 ^ (s.cfg.physBits - 12) * 4096 + lin.toNat % 2 ^ 12) [e4, e3, e2, e1]) := by
  have paging : s.pagingMode ≠ .none := by rw [mode]; decide
  have off : (False ↔ (false = true)) := by simp
  rw [← entryBase_eq ok] at word4
  have eq4 : (s.pml4eAt lin).toNat = e4 := (ramEntry_toNat s _ 8 (Nat.le_refl _)).trans word4
  subst eq4
  rw [← entryBase_eq ok] at word3
  have eq3 : (s.pdpteAt lin).toNat = e3 := (ramEntry_toNat s _ 8 (Nat.le_refl _)).trans word3
  subst eq3
  rw [← entryBase_eq ok] at word2
  rw [off, valid_iff] at valid4 valid3
  rw [← bit7_iff, Bool.not_eq_true] at small4 small3
  have lower := lowerGives ok (pae := false) word2 (by simpa using valid2)
  have through : pathStop (s.path lin) = pathStop (s.lowerPath lin (s.entryBase (s.pdpteAt lin)) false) := by
    rw [path_long4 mode, pathStop_cons valid4.1 (by rw [small4, valid4.2]; rfl),
      pathStop_cons valid3.1 (by rw [small3, valid3.2]; rfl)]
  have words : (s.levels lin).map (fun e => e.word.toNat) = (s.pml4eAt lin).toNat :: (s.pdpteAt lin).toNat ::
      (s.lowerPath lin (s.entryBase (s.pdpteAt lin)) false).map fun e => e.word.toNat := by
    simp [State.levels, mode, path_long4 mode]
  have ppn : s.pathPpn lin = s.lowerPpn lin (s.entryBase (s.pdpteAt lin)) := by simp [State.pathPpn, mode]
  refine ⟨fun large => ?_, fun e1 small word1 valid1 => ?_⟩
  · obtain ⟨stop, lows, page⟩ := lower.large large
    have gives := gives_of_path ram paging miss (through.trans stop)
    rwa [words, lows, ppn, page] at gives
  · obtain ⟨stop, lows, page⟩ := lower.table small e1 word1 (by simpa using valid1)
    have gives := gives_of_path ram paging miss (through.trans stop)
    rwa [words, lows, ppn, page] at gives

/-- R258, R260. -/
theorem gives_pae3 (mode : s.pagingMode = .pae3) {e3 e2 : Nat}
    (word3 : leNat (s.ms.bytes (s.cr3.toNat / 32 % 2 ^ 27 * 32 + field lin 31 30 * 8) 8) = e3)
    (low3 : e3 % 8 = 1) (mid3 : e3 / 32 % 16 = 0) (high3 : e3 < 2 ^ s.cfg.physBits)
    (word2 : leNat (s.ms.bytes (e3 / 4096 % 2 ^ (s.cfg.physBits - 12) * 4096 + field lin 29 21 * 8) 8) = e2)
    (valid2 : Valid s True (e2 / 128 % 2 = 1) e2) :
    (e2 / 128 % 2 = 1 → Gives s lin kind user
      (e2 / 2 ^ 21 % 2 ^ (s.cfg.physBits - 21) * 2 ^ 21 + lin.toNat % 2 ^ 21) [e2]) ∧
    (∀ e1, ¬e2 / 128 % 2 = 1 →
      leNat (s.ms.bytes (e2 / 4096 % 2 ^ (s.cfg.physBits - 12) * 4096 + field lin 20 12 * 8) 8) = e1 →
      Valid s True False e1 → Gives s lin kind user
        (e1 / 4096 % 2 ^ (s.cfg.physBits - 12) * 4096 + lin.toNat % 2 ^ 12) [e2, e1]) := by
  have paging : s.pagingMode ≠ .none := by rw [mode]; decide
  obtain ⟨low, high⟩ := physBits_of_ok ok
  have eq3 : (s.paePdpteAt lin).toNat = e3 := (ramEntry_toNat s _ 8 (Nat.le_refl _)).trans word3
  subst eq3
  rw [← entryBase_eq ok] at word2
  have lower := lowerGives ok (pae := true) word2 (by simpa using valid2)
  have present : bit (s.paePdpteAt lin) 0 = true := by rw [bit0_iff]; omega
  have clear : (field (s.paePdpteAt lin) 2 1 != 0 || field (s.paePdpteAt lin) 8 5 != 0 ||
      field (s.paePdpteAt lin) 63 s.cfg.physBits != 0) = false := by
    have high0 : field (s.paePdpteAt lin) 63 s.cfg.physBits = 0 := by
      refine Classical.byContradiction fun ne => ?_
      exact absurd ((field_63_ne_zero_iff _ (by omega)).mp ne) (by omega)
    have low0 : field (s.paePdpteAt lin) 2 1 = 0 := by unfold field; omega
    have mid0 : field (s.paePdpteAt lin) 8 5 = 0 := by unfold field; omega
    rw [high0, low0, mid0]
    rfl
  have through : pathStop (s.path lin) = pathStop (s.lowerPath lin (s.entryBase (s.paePdpteAt lin)) true) := by
    rw [path_pae3 mode, pathStop_cons present clear]
  have words : (s.levels lin).map (fun e => e.word.toNat) =
      (s.lowerPath lin (s.entryBase (s.paePdpteAt lin)) true).map fun e => e.word.toNat := by
    simp [State.levels, mode, path_pae3 mode]
  have ppn : s.pathPpn lin = s.lowerPpn lin (s.entryBase (s.paePdpteAt lin)) := by simp [State.pathPpn, mode]
  refine ⟨fun large => ?_, fun e1 small word1 valid1 => ?_⟩
  · obtain ⟨stop, lows, page⟩ := lower.large large
    have gives := gives_of_path ram paging miss (through.trans stop)
    rwa [words, lows, ppn, page] at gives
  · obtain ⟨stop, lows, page⟩ := lower.table small e1 word1 (by simpa using valid1)
    have gives := gives_of_path ram paging miss (through.trans stop)
    rwa [words, lows, ppn, page] at gives

omit ok in
/-- R256, R257. -/
theorem gives_legacy2 (mode : s.pagingMode = .legacy2) {e2 : Nat}
    (word2 : leNat (s.ms.bytes (s.cr3.toNat / 2 ^ 12 % 2 ^ 20 * 2 ^ 12 + field lin 31 22 * 4) 4) = e2)
    (present2 : e2 % 2 = 1) :
    (e2 / 128 % 2 = 1 → s.pse = true → Gives s lin kind user (e2 / 2 ^ 22 * 2 ^ 22 + lin.toNat % 2 ^ 22) [e2]) ∧
    (∀ e1, ¬e2 / 128 % 2 = 1 ∨ s.pse = false →
      leNat (s.ms.bytes (e2 / 2 ^ 12 * 2 ^ 12 + field lin 21 12 * 4) 4) = e1 → e1 % 2 = 1 →
      Gives s lin kind user (e1 / 2 ^ 12 * 2 ^ 12 + lin.toNat % 2 ^ 12) [e2, e1]) := by
  have paging : s.pagingMode ≠ .none := by rw [mode]; decide
  have lt (pa : Nat) : leNat (s.ms.bytes pa 4) < 2 ^ 32 := by
    have := leNat_lt (s.ms.bytes pa 4)
    rwa [bytes_length] at this
  have frame (v : Word) (lt : v.toNat < 2 ^ 32) : field v 31 12 = v.toNat / 2 ^ 12 := by unfold field; omega
  have eq2 : (s.legacyPdeAt lin).toNat = e2 := (ramEntry_toNat s _ 4 (by omega)).trans word2
  have lt2 : (s.legacyPdeAt lin).toNat < 2 ^ 32 := eq2 ▸ word2 ▸ lt _
  subst eq2
  rw [← bit7_iff]
  rw [← bit0_iff] at present2
  refine ⟨fun large pse => ?_, fun e1 small word1 present1 => ?_⟩
  · have both : (bit (s.legacyPdeAt lin) 7 && s.pse) = true := by rw [large, pse]; rfl
    have path := path_legacy2 (lin := lin) mode
    rw [both, if_pos rfl] at path
    have stop : pathStop (s.path lin) = none := by rw [path, pathStop_cons present2 rfl, pathStop]
    have gives := gives_of_path ram paging miss stop
    have ppn : s.pathPpn lin * 4096 + lin.toNat % 4096 =
        (s.legacyPdeAt lin).toNat / 2 ^ 22 * 2 ^ 22 + lin.toNat % 2 ^ 22 := by
      simp only [State.pathPpn, mode, both, if_true]
      unfold field
      omega
    rw [ppn] at gives
    simpa [State.levels, mode, path] using gives
  · have both : (bit (s.legacyPdeAt lin) 7 && s.pse) = false := by
      rcases small with small | small
      · rw [Bool.not_eq_true] at small
        rw [small, Bool.false_and]
      · rw [small, Bool.and_false]
    rw [← frame _ lt2] at word1
    have eq1 : (s.legacyPteAt lin).toNat = e1 := (ramEntry_toNat s _ 4 (by omega)).trans word1
    have lt1 : (s.legacyPteAt lin).toNat < 2 ^ 32 := eq1 ▸ word1 ▸ lt _
    subst eq1
    rw [← bit0_iff] at present1
    have path := path_legacy2 (lin := lin) mode
    rw [both, if_neg (by simp)] at path
    have stop : pathStop (s.path lin) = none := by
      rw [path, pathStop_cons present2 rfl, pathStop_cons present1 rfl, pathStop]
    have gives := gives_of_path ram paging miss stop
    have ppn : s.pathPpn lin * 4096 + lin.toNat % 4096 =
        (s.legacyPteAt lin).toNat / 2 ^ 12 * 2 ^ 12 + lin.toNat % 2 ^ 12 := by
      simp only [State.pathPpn, mode, both, Bool.false_eq_true, if_false]
      rw [frame _ lt1, show (2 : Nat) ^ 12 = 4096 from rfl]
    rw [ppn] at gives
    simpa [State.levels, mode, path] using gives

end

/-! ### System accesses (R216) -/

theorem translateSpan_whole {n pa : Nat} (fits : lin.toNat % 4096 + n ≤ 4096)
    (run : translate lin kind user s = .ok pa t) : translateSpan lin n kind user s = .ok ⟨pa, 0, n, false⟩ t := by
  unfold translateSpan
  rw [get_bind_run, if_pos fits, bind_run_ok run]
  rfl

theorem allRam_of_translate {pa : Nat} (ram : s.AllRam) (run : translate lin kind user s = .ok pa t) : t.AllRam := by
  obtain ⟨m, rfl⟩ := ((keeps_translate onlyMs_access lin kind user).ok run).elim
  exact ram

theorem sysRead_of_translate {n pa : Nat} (ram : s.AllRam) (fits : lin.toNat % 4096 + n ≤ 4096)
    (run : translate lin .read false s = .ok pa t) :
    sysRead lin n s = .ok (BitVec.ofNat 64 (leNat (t.ms.bytes pa n))) t := by
  unfold sysRead linRead
  rw [bind_run_ok (translateSpan_whole fits run)]
  exact physRead_ram (allRam_of_translate ram run) pa n

theorem sysWrite_of_translate {n pa : Nat} (fits : lin.toNat % 4096 + n ≤ 4096)
    (run : translate lin .write false s = .ok pa t) (v : Word) :
    sysWrite lin n v s = .ok () (t.stored ⟨pa, 0, n, false⟩ n v) := by
  unfold sysWrite linWrite
  rw [bind_run_ok (translateSpan_whole fits run)]
  exact spanWrite_run ..

end

end Sys2Proof.Machine

open Sys2Proof Sys2Proof.Machine

/-- Settles O35: `gives_of_path` for the path that the entries make in each format. -/
theorem fourLevelTranslation : Obligations.FourLevelTranslation := by
  unfold Obligations.FourLevelTranslation
  intro s lin kind user e4 e3 e2 e1 ram ok miss
  refine ⟨fun mode word4 valid4 small4 word3 valid3 small3 word2 valid2 => ?_,
    fun mode word3 low3 mid3 high3 word2 valid2 => ?_, fun mode word2 present2 => ?_, fun n pa t _ _ fits => ?_⟩
  · obtain ⟨large, table⟩ := gives_long4 ram ok miss mode word4 valid4 small4 word3 valid3 small3 word2 valid2
    exact ⟨large, table e1⟩
  · obtain ⟨large, table⟩ := gives_pae3 ram ok miss mode word3 low3 mid3 high3 word2 valid2
    exact ⟨large, table e1⟩
  · obtain ⟨large, table⟩ := gives_legacy2 ram miss mode word2 present2
    exact ⟨large, table e1⟩
  · exact ⟨sysRead_of_translate ram fits, fun run v => sysWrite_of_translate fits run v⟩

end

section
/-! PROOF. O28, O29, O30. What a store puts where (R201, R204, R210, R211, R232), and what a read of it gives. -/

namespace Sys2Proof.Machine
open Sys2Proof

/-! ### Bytes of a value (R201) -/

theorem leBytes_getElem (n v i : Nat) (lt : i < (leBytes n v).length) :
    (leBytes n v)[i] = BitVec.ofNat 8 (v / 256 ^ i) := by
  induction n generalizing v i with
  | zero => exact absurd lt (Nat.not_lt_zero _)
  | succ n ih =>
    cases i with
    | zero => simp [leBytes]
    | succ i =>
      refine (ih (v / 256) i (by simpa [leBytes] using lt)).trans ?_
      rw [Nat.div_div_eq_div_mul, Nat.pow_succ, Nat.mul_comm]

theorem bytes_getElem (m : MemSys) (pa n i : Nat) (lt : i < (m.bytes pa n).length) :
    (m.bytes pa n)[i] = m.byte (pa + i) := by
  induction n generalizing pa i with
  | zero => exact absurd lt (Nat.not_lt_zero _)
  | succ n ih =>
    cases i with
    | zero => rfl
    | succ i =>
      refine (ih (pa + 1) i (by simpa [MemSys.bytes] using lt)).trans ?_
      rw [Nat.add_right_comm, Nat.add_assoc]

theorem bytes_eq_map (m : MemSys) (pa n : Nat) : m.bytes pa n = (List.range n).map fun i => m.byte (pa + i) :=
  List.ext_getElem (by simp [bytes_length]) fun i lt _ => by simp [bytes_getElem m pa n i lt]

/-- The byte at a place of a little-endian value. -/
theorem byte_of_leNat {bs : List Byte} {i : Nat} (lt : i < bs.length) : BitVec.ofNat 8 (leNat bs / 256 ^ i) = bs[i] :=
    by
  induction bs generalizing i with
  | nil => exact absurd lt (Nat.not_lt_zero _)
  | cons b bs ih =>
    have small : b.toNat < 256 := b.isLt
    cases i with
    | zero =>
      refine BitVec.eq_of_toNat_eq ?_
      simp only [leNat, BitVec.toNat_ofNat, Nat.pow_zero, Nat.div_one, List.getElem_cons_zero]
      omega
    | succ i =>
      rw [List.getElem_cons_succ, ← ih (by simpa using lt), Nat.pow_succ, Nat.mul_comm, ← Nat.div_div_eq_div_mul, leNat]
      rw [show (b.toNat + 256 * leNat bs) / 256 = leNat bs by omega]

section
variable {s t : State} {lin : Word} {kind : Access} {user : Bool} {n : Nat} {v : Word} {p : Span}

/-! ### The addresses of an access (R210) -/

theorem pa_mod_of_translate {pa : Nat} (run : translate lin kind user s = .ok pa t) : pa % 4096 = lin.toNat % 4096 := by
  rcases translate_ok run with ⟨-, -, rfl⟩ | ⟨-, -, -, rfl⟩ | ⟨-, -, r, u, -, -, rfl⟩
  · rw [field_31_0]
    omega
  · omega
  · omega

/-- How a translated access lies in the pages it touches. -/
inductive Span.Laid (p : Span) (n : Nat) : Prop where
  | whole (split : p.split = false) (k : p.k = n) (fits : p.pa0 % 4096 + n ≤ 4096)
  | across (split : p.split = true) (low : 1 ≤ p.k) (high : p.k < n) (first : p.pa0 % 4096 + p.k = 4096)
    (second : p.pa1 % 4096 = 0)

theorem linAdd_page (s : State) (lin : Word) :
    (s.linAdd lin (4096 - lin.toNat % 4096)).toNat % 4096 = 0 := by
  unfold State.linAdd
  split
  · rw [BitVec.toNat_add, BitVec.toNat_ofNat]
    omega
  · rw [trunc_toNat, BitVec.toNat_add, BitVec.toNat_ofNat, show 2 ^ Width.w32.bits = 4294967296 from rfl]
    omega

theorem laid_of_translateSpan (run : translateSpan lin n kind user s = .ok p t) : p.Laid n := by
  unfold translateSpan at run
  rw [get_bind_run] at run
  split at run
  next fits =>
    obtain ⟨pa, u, first, run⟩ := bind_ok.mp run
    cases run
    exact .whole rfl rfl (by rw [pa_mod_of_translate first]; exact fits)
  next crosses =>
    obtain ⟨pa0, u, first, run⟩ := bind_ok.mp run
    obtain ⟨pa1, u', second, run⟩ := bind_ok.mp run
    cases run
    have page0 := pa_mod_of_translate first
    have page1 := (pa_mod_of_translate second).trans (linAdd_page s lin)
    exact .across rfl (by dsimp only; omega) (by dsimp only; omega) (by dsimp only; omega) page1

theorem addr_injective (laid : p.Laid n) (le : n ≤ 8) {i j : Nat} (hi : i < n) (hj : j < n) (eq : p.addr i = p.addr j) :
    i = j := by
  unfold Span.addr at eq
  cases laid with
  | whole split k fits => split at eq <;> split at eq <;> omega
  | across split low high first second => split at eq <;> split at eq <;> omega

theorem covers_iff (laid : p.Laid n) (a : Nat) : p.Covers n a ↔ a ∈ p.addrs n := by
  unfold Span.Covers
  cases laid with
  | whole split k fits =>
    rw [split, if_neg (by simp)]
    simp only [Span.addrs, List.mem_map, List.mem_range, Span.addr, k]
    constructor
    · exact fun ⟨low, high⟩ => ⟨a - p.pa0, by omega, by rw [if_pos (by omega)]; omega⟩
    · rintro ⟨i, lt, rfl⟩
      rw [if_pos lt]
      omega
  | across split _ _ _ _ => rw [if_pos split]

theorem addr_mem (p : Span) {i : Nat} (lt : i < n) : p.addr i ∈ p.addrs n :=
  List.mem_map_of_mem (List.mem_range.mpr lt)

/-! ### What a store puts (R204, R211) -/

theorem memory_wf (wf : s.ms.wf = true) : Memory.wf s.ms.mem = true := ((MemSys.wf_iff _).mp wf).1

theorem physWrite_of_ram (ram : s.AllRam) (m : MemSys) (pa : Nat) (bs : List Byte) :
    m.physWrite s.cfg pa bs = m.storeBytes pa bs := if_pos (isRam_of_allRam ram _)

/-- In a list of bytes for different addresses each is put at its own. -/
theorem putEach_byte (ram : s.AllRam) {m : MemSys} {l : List (Nat × Byte)} (wf : Memory.wf m.mem = true)
    (apart : l.Pairwise fun e f => e.1 ≠ f.1) {a : Nat} {b : Byte} (mem : (a, b) ∈ l) : (m.putEach s.cfg l).byte a = b
    := by
  induction l generalizing m with
  | nil => exact absurd mem List.not_mem_nil
  | cons e l ih =>
    obtain ⟨first, apart⟩ := List.pairwise_cons.mp apart
    rw [MemSys.putEach, physWrite_of_ram ram]
    have one : leBytes 1 (e.2.setWidth 64).toNat = [e.2] := by
      rw [BitVec.toNat_setWidth_of_le (by omega)]
      exact leBytes_one e.2
    rw [one]
    rcases List.mem_cons.mp mem with rfl | mem
    · rw [putEach_byte_other _ _ _ fun f hf => first f hf]
      exact storeBytes_byte m a [b] 0 (by simp) wf
    · exact ih (storeBytes_wf _ _ _ wf) apart mem

/-- Byte `i` of a store is byte `i` of its value. -/
theorem stored_byte (ram : s.AllRam) (wf : s.ms.wf = true) (laid : p.Laid n) (le : n ≤ 8) {i : Nat} (lt : i < n) :
    (s.stored p n v).ms.byte (p.addr i) = BitVec.ofNat 8 (v.toNat / 256 ^ i) := by
  have in_bytes : i < (leBytes n v.toNat).length := by rwa [leBytes_length]
  rw [← leBytes_getElem n v.toNat i in_bytes]
  cases laid with
  | whole split k fits =>
    have addr : p.addr i = p.pa0 + i := if_pos (k ▸ lt)
    rw [stored_ms_whole s p n v split, onGuestWrite_byte, physWrite_of_ram ram, addr]
    exact storeBytes_byte s.ms p.pa0 _ i in_bytes (memory_wf wf)
  | across split low high first second =>
    rw [stored_ms_split s p n v split, onGuestWrite_byte, onGuestWrite_byte]
    refine putEach_byte ram (memory_wf wf) ?_ ?_
    · have laid : p.Laid n := .across split low high first second
      refine List.Pairwise.of_map (S := (· ≠ ·)) Prod.fst (fun _ _ ne => ne) ?_
      unfold Span.puts
      rw [List.map_fst_zip (by simp [Span.addrs, leBytes_length]), Span.addrs]
      exact List.pairwise_map.mpr <| List.nodup_range.imp_of_mem fun ha hb ne eq =>
        ne (addr_injective laid le (List.mem_range.mp ha) (List.mem_range.mp hb) eq)
    · refine List.mem_iff_getElem.mpr ⟨i, by simp [Span.puts, Span.addrs, leBytes_length, lt], ?_⟩
      simp [Span.puts, Span.addrs]

theorem stored_byte_of_not_mem (laid : p.Laid n) {a : Nat} (out : a ∉ p.addrs n) :
    (s.stored p n v).ms.byte a = s.ms.byte a :=
  stored_byte_other s p n v fun covered => out ((covers_iff laid a).mp covered)

theorem storeBytes_busOps (m : MemSys) (pa : Nat) (bs : List Byte) : (m.storeBytes pa bs).busOps = m.busOps := by
  exact (storeBytes_pageVersion m pa bs).2.2

theorem putEach_busOps (ram : s.AllRam) (m : MemSys) (l : List (Nat × Byte)) :
    (m.putEach s.cfg l).busOps = m.busOps := by
  induction l generalizing m with
  | nil => rfl
  | cons e l ih => rw [MemSys.putEach, ih, physWrite_of_ram ram, storeBytes_busOps]

theorem stored_busOps (ram : s.AllRam) (p : Span) (n : Nat) (v : Word) : (s.stored p n v).ms.busOps = s.ms.busOps := by
  cases split : p.split with
  | true =>
    rw [stored_ms_split s p n v split, (onGuestWrite_mem ..).2.2, (onGuestWrite_mem ..).2.2, putEach_busOps ram]
  | false =>
    rw [stored_ms_whole s p n v split, (onGuestWrite_mem ..).2.2, physWrite_of_ram ram, storeBytes_busOps]

/-- A store changes the bytes and the versions of memory only. -/
theorem stored_eq (ram : s.AllRam) (p : Span) (n : Nat) (v : Word) : s.stored p n v = s.withMs { s.ms with
    mem := (s.stored p n v).ms.mem, pageVersion := (s.stored p n v).ms.pageVersion } := by
  have only := stored_withMs p n v s
  have tlb := stored_tlb s p n v
  have ops := stored_busOps ram p n v
  generalize (s.stored p n v).ms = m at *
  obtain ⟨mem, versions, cache, busOps⟩ := m
  cases tlb
  cases ops
  exact only

/-! ### Reads of RAM (R203, R210) -/

theorem readEach_ram (ram : s.AllRam) (l : List Nat) : readEach l s = .ok (l.map s.ms.byte) s := by
  induction l with
  | nil => rfl
  | cons a l ih =>
    unfold readEach
    rw [bind_run_ok (physRead_ram ram a 1), bind_run_ok ih]
    exact congrArg (fun b => EStateM.Result.ok (b :: l.map s.ms.byte) s) (setWidth_byte _)

theorem spanRead_ram (ram : s.AllRam) (laid : p.Laid n) :
    spanRead p n s = .ok (BitVec.ofNat 64 (leNat ((p.addrs n).map s.ms.byte))) s := by
  unfold spanRead
  cases laid with
  | whole split k fits =>
    rw [split, if_neg (by simp), physRead_ram ram, bytes_eq_map]
    have addrs : (p.addrs n).map s.ms.byte = (List.range n).map fun i => s.ms.byte (p.pa0 + i) := by
      rw [Span.addrs, List.map_map]
      refine List.map_congr_left fun i hi => ?_
      exact congrArg s.ms.byte (if_pos (k ▸ List.mem_range.mp hi))
    rw [addrs]
  | across split _ _ _ _ =>
    rw [split, if_pos rfl, bind_run_ok (readEach_ram ram _)]
    rfl

end

/-! ### Flat memory (R206, R210, R213, R232) -/

section
variable {s : State} {seg : SReg} {off v : Word} {n : Nat}

/-- The span of a flat access. -/
def State.flatSpan (s : State) (seg : SReg) (off : Word) (n : Nat) : Span :=
  if (s.lin seg off).toNat % 4096 + n ≤ 4096 then ⟨s.flatAddr seg off 0, 0, n, false⟩
  else ⟨s.flatAddr seg off 0, s.flatAddr seg off (4096 - (s.lin seg off).toNat % 4096),
    4096 - (s.lin seg off).toNat % 4096, true⟩

theorem lin_flat (flat : s.Flat) (seg : SReg) (off : Word) : (s.lin seg off).toNat = s.flatAddr seg off 0 := by
  simp only [State.lin, flat.mode, Bool.false_eq_true, if_false, trunc_toNat, BitVec.toNat_add, Width.bits,
    State.flatAddr]
  omega

theorem translateSpan_flat (flat : s.Flat) (seg : SReg) (off : Word) (n : Nat) (kind : Access) (user : Bool) :
    translateSpan (s.lin seg off) n kind user s = .ok (s.flatSpan seg off n) s := by
  have once (lin : Word) : translate lin kind user s = .ok (lin.toNat % 2 ^ 32) s := by
    rw [translate_of_no_paging flat.paging, field_31_0]
  have low : (s.lin seg off).toNat % 2 ^ 32 = s.flatAddr seg off 0 := by
    rw [lin_flat flat]
    exact Nat.mod_mod _ _
  unfold translateSpan State.flatSpan
  rw [get_bind_run]
  split
  · rw [bind_run_ok (once _), low]
    rfl
  · have next : (s.linAdd (s.lin seg off) (4096 - (s.lin seg off).toNat % 4096)).toNat % 2 ^ 32 =
        s.flatAddr seg off (4096 - (s.lin seg off).toNat % 4096) := by
      have eq := lin_flat flat seg off
      simp only [State.linAdd, flat.mode, Bool.false_eq_true, if_false, trunc_toNat, BitVec.toNat_add,
        BitVec.toNat_ofNat, Width.bits, eq]
      unfold State.flatAddr
      omega
    rw [bind_run_ok (once _), bind_run_ok (once _), low, next]
    rfl

theorem flatSpan_addr (flat : s.Flat) (le : n ≤ 8) {i : Nat} (lt : i < n) :
    (s.flatSpan seg off n).addr i = s.flatAddr seg off i := by
  have eq := lin_flat flat seg off
  unfold State.flatSpan Span.addr
  rw [eq]
  unfold State.flatAddr
  split
  · dsimp only
    omega
  · dsimp only
    split <;> omega

theorem flatSpan_laid (flat : s.Flat) (seg : SReg) (off : Word) (n : Nat) : (s.flatSpan seg off n).Laid n :=
  laid_of_translateSpan (translateSpan_flat flat seg off n .read false)

theorem flatSpan_addrs (flat : s.Flat) (le : n ≤ 8) :
    (s.flatSpan seg off n).addrs n = (List.range n).map (s.flatAddr seg off) :=
  List.map_congr_left fun _ hi => flatSpan_addr flat le (List.mem_range.mp hi)

theorem checks_flat {α : Type} (flat : s.Flat) {k : Access} {body : M α} :
    (raiseIf (!s.segOk seg off n k) (segFault seg) >>= fun _ =>
      raiseIf (!s.canonOk (s.lin seg off) n) (segFault seg) >>= fun _ => body) s = body s := by
  refine checks_passed s ?_
  rintro (⟨on, -⟩ | ⟨m64, -⟩)
  · exact absurd (flat.segs.symm.trans on) nofun
  · exact absurd (flat.mode.symm.trans ((is64_iff s).mpr m64)) nofun

theorem memRead_flat (flat : s.Flat) (ram : s.AllRam) (le : n ≤ 8) : memRead seg off n s =
    .ok (BitVec.ofNat 64 (leNat ((List.range n).map fun i => s.ms.byte (s.flatAddr seg off i)))) s := by
  unfold memRead
  rw [get_bind_run, checks_flat flat, linRead, bind_run_ok (translateSpan_flat flat ..),
    spanRead_ram ram (flatSpan_laid flat ..), flatSpan_addrs flat le, List.map_map]
  rfl

theorem memWrite_flat (flat : s.Flat) : memWrite seg off n v s =
    .ok () (s.stored (s.flatSpan seg off n) n v) := by
  unfold memWrite
  rw [get_bind_run, checks_flat flat, linWrite, bind_run_ok (translateSpan_flat flat ..), spanWrite_run]

/-- R232: a flat store raises the version of each page it writes by 1, and no other. -/
theorem version_flatStore (flat : s.Flat) (pos : 1 ≤ n) (le : n ≤ 8) (q : Nat) :
    ((∃ i, i < n ∧ q = s.flatAddr seg off i / 4096) →
      (s.stored (s.flatSpan seg off n) n v).ms.version q = s.ms.version q + 1) ∧
    ((∀ i, i < n → q ≠ s.flatAddr seg off i / 4096) →
      (s.stored (s.flatSpan seg off n) n v).ms.version q = s.ms.version q) := by
  have eq := lin_flat flat seg off
  by_cases fits : (s.lin seg off).toNat % 4096 + n ≤ 4096
  · have span : s.flatSpan seg off n = ⟨s.flatAddr seg off 0, 0, n, false⟩ := if_pos fits
    rw [span, stored_ms_whole _ _ _ _ rfl, onGuestWrite_version, physWrite_version]
    dsimp only
    rw [eq] at fits
    constructor
    · rintro ⟨i, lt, rfl⟩
      have at_i : s.flatAddr seg off i = s.flatAddr seg off 0 + i := by
        unfold State.flatAddr at fits ⊢
        omega
      rw [at_i, if_pos (by omega)]
    · intro out
      have := out 0 (by omega)
      rw [if_neg (by omega), Nat.add_zero]
  · have span : s.flatSpan seg off n = ⟨s.flatAddr seg off 0, s.flatAddr seg off (4096 - (s.lin seg off).toNat % 4096),
        4096 - (s.lin seg off).toNat % 4096, true⟩ := if_neg fits
    rw [span, stored_ms_split _ _ _ _ rfl, onGuestWrite_version, onGuestWrite_version, putEach_version]
    dsimp only
    rw [eq] at fits ⊢
    have first : (s.flatAddr seg off 0 + (4096 - s.flatAddr seg off 0 % 4096) - 1) / 4096 =
        s.flatAddr seg off 0 / 4096 := by omega
    generalize k_eq : 4096 - s.flatAddr seg off 0 % 4096 = k at *
    have second : s.flatAddr seg off k % 4096 = 0 := by
      unfold State.flatAddr at *
      omega
    have apart : s.flatAddr seg off k / 4096 ≠ s.flatAddr seg off 0 / 4096 := by
      unfold State.flatAddr at *
      omega
    constructor
    · rintro ⟨i, lt, rfl⟩
      by_cases low : i < k
      · have at_i : s.flatAddr seg off i / 4096 = s.flatAddr seg off 0 / 4096 := by
          unfold State.flatAddr at *
          omega
        rw [at_i, if_pos (by omega), if_neg (by omega)]
      · have at_i : s.flatAddr seg off i / 4096 = s.flatAddr seg off k / 4096 := by
          unfold State.flatAddr at *
          omega
        rw [at_i, if_neg (by omega), if_pos (by omega)]
    · intro out
      have not_first := out 0 (by omega)
      have not_second := out k (by omega)
      rw [if_neg (by omega), if_neg (by omega), Nat.add_zero]

end

/-! ### A read of what was written (R205, R252, R253) -/

section
variable {s t : State} {seg : SReg} {off v : Word} {n : Nat}

/-- Where a write is permitted, a read is. -/
theorem segOk_read (ok : s.segOk seg off n .write = true) : s.segOk seg off n .read = true := by
  rw [segOk_iff] at ok ⊢
  rintro ⟨on, mode, refused⟩
  refine ok ⟨on, mode, refused.imp_right (Or.imp_left fun ⟨real, type⟩ => ⟨real, ?_⟩)⟩
  unfold SegReg.TypeRefuses at type ⊢
  simp_all

theorem tlbHit_read {e : TlbEntry} {lin : Word} {user : Bool} (hit : s.tlbHit e lin .write user = true) :
    s.tlbHit e lin .read user = true := by
  unfold State.tlbHit State.permits at *
  simp_all

/-- What a write translated, a read translates alike. -/
theorem translate_read_after {lin : Word} {user : Bool} {pa : Nat} {s1 : State} (ok : s.cfg.ok = true)
    (run : translate lin .write user s = .ok pa s1) (same : t = s1.withMs t.ms) (tlb : t.ms.tlb = s1.ms.tlb) :
    translate lin .read user t = .ok pa t := by
  have entry (i : Nat) : t.tlbEntry i = s1.tlbEntry i := by unfold State.tlbEntry; rw [tlb]
  have mode : t.pagingMode = s1.pagingMode := by rw [same]; rfl
  have index : t.tlbIndex lin = s1.tlbIndex lin := by rw [same]; rfl
  have hits (e : TlbEntry) : t.tlbHit e lin .read user = s1.tlbHit e lin .read user := by rw [same]; rfl
  obtain ⟨none, rfl⟩ | ⟨paging, hit, rfl⟩ := translate_settled ok run
  · exact translate_of_no_paging (mode.trans none) ..
  · have hit : t.tlbHit (t.tlbEntry (t.tlbIndex lin)) lin .read user = true := by
      rw [hits, entry, index]
      exact tlbHit_read hit
    rw [translate_of_hit (fun none => paging (mode.symm.trans none)) hit, entry, index]

/-- An access that went on to its translation passed its checks. -/
theorem memWrite_ok (run : memWrite seg off n v s = .ok () t) : s.segOk seg off n .write = true ∧
    s.canonOk (s.lin seg off) n = true ∧
    ∃ p s1, translateSpan (s.lin seg off) n .write s.user s = .ok p s1 ∧ t = s1.stored p n v := by
  have passed : ¬(s.SegRefuses seg off n .write ∨ s.CanonRefuses (s.lin seg off) n) := fun no =>
    ok_ne_error (run.symm.trans (checks_refused s no))
  have run : linWrite (s.lin seg off) n v s.user s = .ok () t := (checks_passed s passed).symm.trans run
  obtain ⟨seg_ok, canon_ok⟩ := not_or.mp passed
  obtain ⟨p, s1, translated, written⟩ := bind_ok.mp run
  rw [spanWrite_run] at written
  cases written
  exact ⟨(segOk_iff ..).mpr seg_ok, (canonOk_iff ..).mpr canon_ok, p, s1, translated, rfl⟩

/-- The value of the bytes that a store has put. -/
theorem leNat_stored {p : Span} (ram : s.AllRam) (wf : s.ms.wf = true) (laid : p.Laid n) (le : n ≤ 8) :
    leNat ((p.addrs n).map (s.stored p n v).ms.byte) = v.toNat % 256 ^ n := by
  rw [← leNat_leBytes]
  refine congrArg leNat (List.ext_getElem (by simp [Span.addrs, leBytes_length]) fun i lt lt' => ?_)
  have lt : i < n := by simpa [Span.addrs] using lt
  simp only [Span.addrs, List.getElem_map, List.getElem_range]
  rw [stored_byte ram wf laid le lt, leBytes_getElem n v.toNat i lt']

theorem memRead_after_memWrite (cfg : s.cfg.ok = true) (ram : s.AllRam) (wf : s.ms.wf = true) (le : n ≤ 8)
    (fits : (s.lin seg off).toNat % 4096 + n ≤ 4096) (run : memWrite seg off n v s = .ok () t) :
    memRead seg off n t = .ok (BitVec.ofNat 64 (v.toNat % 256 ^ n)) t := by
  obtain ⟨seg_ok, canon_ok, p, s1, translated, rfl⟩ := memWrite_ok run
  have laid := laid_of_translateSpan translated
  have wf1 : s1.ms.wf = true := (keeps_translateSpan wf_access _ _ _ _).ok translated wf
  unfold translateSpan at translated
  rw [get_bind_run, if_pos fits] at translated
  obtain ⟨pa, s1', once, rest⟩ := bind_ok.mp translated
  cases rest
  obtain ⟨m, rfl⟩ := ((keeps_translate onlyMs_access _ _ _).ok once).elim
  have same := stored_withMs ⟨pa, 0, n, false⟩ n v (s.withMs m)
  have again := translate_read_after cfg once same (stored_tlb ..)
  have value := leNat_stored (v := v) (s := s.withMs m) ram wf1 laid le
  generalize (s.withMs m).stored ⟨pa, 0, n, false⟩ n v = t at *
  obtain ⟨m', rfl⟩ : ∃ m', t = s.withMs m' := ⟨t.ms, same⟩
  unfold memRead
  rw [get_bind_run, bind_run_ok (show raiseIf (!_) _ _ = .ok () _ from raiseIf_passed _ (by
      rw [Bool.not_eq_false']; exact segOk_read seg_ok) _),
    bind_run_ok (show raiseIf (!_) _ _ = .ok () _ from raiseIf_passed _ (by rw [Bool.not_eq_false']; exact canon_ok) _),
    linRead]
  refine (bind_run_ok (translateSpan_whole fits again)).trans ((spanRead_ram (s := s.withMs m') ram laid).trans ?_)
  exact congrArg (fun x => EStateM.Result.ok (BitVec.ofNat 64 x) _) value

end

end Sys2Proof.Machine

open Sys2Proof Sys2Proof.Machine

/-- Settles O28: a flat access is at `flatSpan`, whose bytes are those of `flatAddr`. -/
theorem flatMemory : Obligations.FlatMemory := by
  unfold Obligations.FlatMemory
  intro s seg off v n flat ram wf pos le
  have laid := flatSpan_laid flat seg off n
  refine ⟨memRead_flat flat ram le, _, (memWrite_flat flat).trans (congrArg _ (stored_withMs ..)), stored_tlb ..,
    stored_busOps ram .., fun i lt => ?_, fun a out => ?_, fun i lt => ?_, fun q out => ?_⟩
  · rw [← flatSpan_addr flat le lt]
    exact stored_byte ram wf laid le lt
  · refine stored_byte_of_not_mem laid fun mem => ?_
    rw [flatSpan_addrs flat le] at mem
    obtain ⟨i, hi, eq⟩ := List.mem_map.mp mem
    exact out i (List.mem_range.mp hi) eq.symm
  · exact (version_flatStore flat pos le _).1 ⟨i, lt, rfl⟩
  · exact (version_flatStore flat pos le q).2 out

/-- Settles O29: the span of a translation is `Laid` in its pages, so its addresses are apart. -/
theorem storesPutTheirBytes : Obligations.StoresPutTheirBytes := by
  unfold Obligations.StoresPutTheirBytes
  intro s s1 lin v n kind user p ram wf pos le run
  have laid := laid_of_translateSpan run
  have wf1 : s1.ms.wf = true := (keeps_translateSpan wf_access _ _ _ _).ok run wf
  have ram1 : s1.AllRam := by
    obtain ⟨m, rfl⟩ := ((keeps_translateSpan onlyMs_access _ _ _ _).ok run).elim
    exact ram
  exact ⟨fun i lt => stored_byte ram1 wf1 laid le lt, fun a out => stored_byte_of_not_mem laid out,
    fun i lt => version_lt_stored s1 p n v ((covers_iff laid _).mpr (addr_mem p lt)), stored_eq ram1 p n v⟩

/-- Settles O30: the read is translated as the write was, from the cache, and finds the bytes it put. -/
theorem readAfterWrite : Obligations.ReadAfterWrite := by
  unfold Obligations.ReadAfterWrite
  intro s t seg off v n cfg ram wf _ le fits run
  exact memRead_after_memWrite cfg ram wf le fits run

end

section
/-! PROOF. O36: the accessed and dirty bits that a walk sets, in the entries it has read (R234, R275). -/

namespace Sys2Proof.Machine
open Sys2Proof

section
variable {s t u : State} {lin : Word} {kind : Access} {user : Bool} {size pa : Nat} {e : Word}

/-! ### One entry -/

/-- The bits that R275 sets in an entry. -/
def setBits (kind : Access) (leaf : Bool) : Word := if leaf && kind == .write then 0x60 else 0x20

theorem markEntry_eq (kind : Access) (leaf : Bool) (e : Word) : markEntry kind leaf e = e ||| setBits kind leaf := by
  unfold markEntry setBits
  rw [BitVec.or_assoc]
  cases leaf && kind == .write <;> rfl

/-- A byte of a value is the field of its eight bits. -/
theorem byte_eq_field (v : Word) (i : Nat) : BitVec.ofNat 8 (v.toNat / 256 ^ i) = (v >>> (8 * i)).setWidth 8 := by
  refine BitVec.eq_of_toNat_eq ?_
  rw [BitVec.toNat_ofNat, BitVec.toNat_setWidth, BitVec.toNat_ushiftRight, Nat.shiftRight_eq_div_pow, pow256]

theorem byte_or (v w : Word) (i : Nat) : BitVec.ofNat 8 ((v ||| w).toNat / 256 ^ i) =
    BitVec.ofNat 8 (v.toNat / 256 ^ i) ||| BitVec.ofNat 8 (w.toNat / 256 ^ i) := by
  rw [byte_eq_field, byte_eq_field, byte_eq_field, BitVec.ushiftRight_or_distrib, BitVec.setWidth_or]

/-- The bits that R275 allows in a byte. -/
def markMask (kind : Access) : Byte := if kind = .write then 0x60 else 0x20

theorem byte_setBits (kind : Access) (leaf : Bool) (i : Nat) :
    BitVec.ofNat 8 ((setBits kind leaf).toNat / 256 ^ i) &&& ~~~markMask kind = 0 := by
  cases i with
  | zero => cases kind <;> cases leaf <;> decide
  | succ i =>
    have small : (setBits kind leaf).toNat < 256 := by cases kind <;> cases leaf <;> decide
    have le : 256 ^ 1 ≤ 256 ^ (i + 1) := Nat.pow_le_pow_right (by omega) (by omega)
    rw [Nat.div_eq_of_lt (by omega)]
    exact BitVec.zero_and

theorem marked_self (mask a : Byte) : Marked mask a a := ⟨0, BitVec.zero_and, (BitVec.or_zero).symm⟩

/-- The byte of an entry. -/
theorem ramEntry_byte (s : State) (pa : Nat) {size i : Nat} (le : size ≤ 8) (lt : i < size) :
    BitVec.ofNat 8 ((s.ramEntry pa size).toNat / 256 ^ i) = s.ms.byte (pa + i) := by
  have in_bytes : i < (s.ms.bytes pa size).length := by rwa [bytes_length]
  rw [ramEntry_toNat s pa size le, byte_of_leNat in_bytes, bytes_getElem s.ms pa size i in_bytes]

theorem ramEntry_congr (same : ∀ i, i < size → t.ms.byte (pa + i) = s.ms.byte (pa + i)) :
    t.ramEntry pa size = s.ramEntry pa size := by
  unfold State.ramEntry
  rw [bytes_eq_map, bytes_eq_map]
  exact congrArg (fun bs => BitVec.ofNat 64 (leNat bs)) (List.map_congr_left fun i hi => same i (List.mem_range.mp hi))

theorem ramEntry_setTlb (s : State) (i : Nat) (f : TlbEntry) (pa size : Nat) :
    (s.setTlb i f).ramEntry pa size = s.ramEntry pa size :=
  ramEntry_congr (s := s) (t := s.setTlb i f) fun _ _ => rfl

/-- An entry lies in one page. -/
theorem entry_page (sizes : size = 4 ∨ size = 8) (aligned : pa % size = 0) {i : Nat} (lt : i < size) :
    (pa + i) / 4096 = pa / 4096 ∧ pa % 4096 + size ≤ 4096 := by
  rcases sizes with rfl | rfl <;> omega

/-- The span of an entry. -/
abbrev entrySpan (pa size : Nat) : Span := ⟨pa, 0, size, false⟩

theorem entrySpan_laid (sizes : size = 4 ∨ size = 8) (aligned : pa % size = 0) : (entrySpan pa size).Laid size :=
  .whole rfl rfl (entry_page sizes aligned (i := 0) (by omega)).2

/-! ### What the marks of a walk are in memory -/

/-- Memory differs from that of `s` by bits of R275 only. -/
structure OnlyMarked (kind : Access) (s u : State) : Prop where
  wf : u.ms.wf = true
  bytes : ∀ a, Marked (markMask kind) (s.ms.byte a) (u.ms.byte a)
  cfg : u.cfg = s.cfg

theorem onlyMarked_writeEntry (sizes : size = 4 ∨ size = 8) (read : EntryRead s size (pa, e))
    (leaf : Bool) (marked : OnlyMarked kind s u) :
    OnlyMarked kind s (endState (writeEntry pa size e (markEntry kind leaf e)) u) := by
  rw [endState, writeEntry_run]
  dsimp only
  split
  · exact marked
  · refine ⟨(memFollows_stored u ..).wf marked.wf, fun a => ?_, ?_⟩
    · by_cases covered : pa ≤ a ∧ a < pa + size
      · obtain ⟨i, rfl⟩ : ∃ i, a = pa + i := ⟨a - pa, by omega⟩
        by_cases ram : isRam s.cfg (pa / 4096) = true
        · have lt : i < size := by omega
          have low : BitVec.ofNat 8 (e.toNat / 256 ^ i) = s.ms.byte (pa + i) := by
            rw [show e = s.ramEntry pa size from read.ram ram]
            exact ramEntry_byte s pa (by omega) lt
          have byte : (u.stored (entrySpan pa size) size (markEntry kind leaf e)).ms.byte (pa + i) =
              BitVec.ofNat 8 ((markEntry kind leaf e).toNat / 256 ^ i) := by
            have in_bytes : i < (leBytes size (markEntry kind leaf e).toNat).length := by rwa [leBytes_length]
            rw [stored_ms_whole u _ _ _ rfl, onGuestWrite_byte, MemSys.physWrite, marked.cfg, if_pos ram,
              storeBytes_byte u.ms pa _ i in_bytes (memory_wf marked.wf)]
            exact leBytes_getElem ..
          rw [byte, markEntry_eq, byte_or, low]
          exact ⟨_, byte_setBits kind leaf i, rfl⟩
        · rw [stored_ms_whole u _ _ _ rfl, onGuestWrite_byte, MemSys.physWrite, marked.cfg, if_neg ram]
          exact marked.bytes _
      · rw [stored_byte_other u _ _ _ (by simpa [Span.Covers] using covered)]
        exact marked.bytes a
    · rw [stored_withMs]
      exact marked.cfg

theorem onlyMarked_markLevels (sizes : size = 4 ∨ size = 8) {l : List (Nat × Word)}
    (read : ∀ e ∈ l, EntryRead s size e) (marked : OnlyMarked kind s u)
    (run : markLevels size kind l u = .ok () t) : OnlyMarked kind s t := by
  induction l generalizing u with
  | nil => cases run; exact marked
  | cons e rest ih =>
    obtain ⟨pa, e⟩ := e
    have entry := read _ List.mem_cons_self
    obtain ⟨_, u', first, run⟩ := bind_ok.mp run
    have next := onlyMarked_writeEntry (kind := kind) sizes entry rest.isEmpty marked
    rw [endState, first] at next
    exact ih (fun e mem => read e (List.mem_cons_of_mem _ mem)) next run

/-- R275: a translation sets accessed bits, and dirty bits for a write, and changes no other bit of memory. -/
theorem marked_of_translate {pa : Nat} (wf : s.ms.wf = true) (run : translate lin kind user s = .ok pa t) (a : Nat) :
    Marked (markMask kind) (s.ms.byte a) (t.ms.byte a) := by
  rcases translate_ok run with ⟨-, rfl, -⟩ | ⟨-, -, rfl, -⟩ | ⟨-, -, r, u, walked, rfl, -⟩
  · exact marked_self ..
  · exact marked_self ..
  · obtain ⟨v, ⟨k, rfl⟩, -, sound, -, marks⟩ := walk_ok walked
    have start : OnlyMarked kind s (s.withMs { s.ms with busOps := k }) := ⟨wf, fun a => marked_self .., rfl⟩
    exact (onlyMarked_markLevels sound.size (fun e mem => (sound.entry e mem).1) start marks).bytes a

/-! ### The entries after a walk of RAM -/

/-- The bits that a walk of the entries `l` sets in the one at `addr`: the leaf's where it is the leaf. -/
def marksAt (kind : Access) (l : List (Nat × Word)) (addr : Nat) : Word :=
  if kind = .write ∧ l.getLast?.map Prod.fst = some addr then 0x60 else 0x20

theorem or_set_of_or_dirty {v k : Word} (is : k = 0x60 ∨ k = 0x20) (eq : v ||| k = v) : v ||| 0x20 = v := by
  rcases is with rfl | rfl
  · calc v ||| 0x20 = (v ||| 0x60) ||| 0x20 := by rw [eq]
      _ = v ||| 0x60 := by rw [BitVec.or_assoc]; rfl
      _ = v := eq
  · exact eq

theorem marksAt_cases (kind : Access) (l : List (Nat × Word)) (addr : Nat) :
    marksAt kind l addr = 0x60 ∨ marksAt kind l addr = 0x20 := by
  unfold marksAt
  split
  · exact .inl rfl
  · exact .inr rfl

theorem marksAt_cons {e : Nat × Word} {rest : List (Nat × Word)} (more : rest ≠ []) (addr : Nat) :
    marksAt kind (e :: rest) addr = marksAt kind rest addr := by
  unfold marksAt
  rw [List.getLast?_cons, List.getLast?_eq_some_getLast more]
  rfl

theorem setBits_of_more {rest : List (Nat × Word)} (more : rest ≠ []) : setBits kind rest.isEmpty = 0x20 := by
  have : rest.isEmpty = false := by simpa using more
  rw [this]
  rfl

/-- The entries `l` as a walk of RAM has read them, `u` being the state in which they are marked. -/
structure ToMark (size : Nat) (l : List (Nat × Word)) (u : State) : Prop where
  sizes : size = 4 ∨ size = 8
  ram : u.AllRam
  wf : u.ms.wf = true
  aligned : ∀ e ∈ l, e.1 % size = 0
  lt : ∀ e ∈ l, e.2.toNat < 2 ^ (8 * size)
  /-- An address has one entry. -/
  once : ∀ e ∈ l, ∀ f ∈ l, e.1 = f.1 → e.2 = f.2
  /-- No entry has been marked as more than an upper level. -/
  holds : ∀ e ∈ l, u.ramEntry e.1 size = e.2 ∨ u.ramEntry e.1 size = e.2 ||| 0x20

/-- What marking the entries `l` does from `u` to `t`. -/
structure HasMarked (size : Nat) (kind : Access) (l : List (Nat × Word)) (u t : State) : Prop where
  entries : ∀ e ∈ l, t.ramEntry e.1 size = e.2 ||| marksAt kind l e.1
  others : ∀ a, (∀ e ∈ l, a < e.1 ∨ e.1 + size ≤ a) → t.ms.byte a = u.ms.byte a
  versions : ∀ p, (∀ e ∈ l, e.1 / 4096 = p → e.2 ||| marksAt kind l e.1 = e.2) → t.ms.version p = u.ms.version p

theorem ramEntry_stored {v : Word} (ram : s.AllRam) (wf : s.ms.wf = true) (sizes : size = 4 ∨ size = 8)
    (aligned : pa % size = 0) (lt : v.toNat < 2 ^ (8 * size)) :
    (s.stored (entrySpan pa size) size v).ramEntry pa size = v := by
  have value := leNat_stored (v := v) ram wf (entrySpan_laid sizes aligned) (by omega)
  have addrs : (entrySpan pa size).addrs size = (List.range size).map (pa + ·) :=
    List.map_congr_left fun i hi => if_pos (List.mem_range.mp hi)
  rw [addrs, List.map_map] at value
  rw [State.ramEntry, bytes_eq_map]
  refine (congrArg (BitVec.ofNat 64) value).trans ?_
  rw [Nat.mod_eq_of_lt (by rwa [pow256]), BitVec.ofNat_toNat, BitVec.setWidth_eq]

theorem toNat_or_lt {v k : Word} (sizes : size = 4 ∨ size = 8) (lt : v.toNat < 2 ^ (8 * size)) (small : k.toNat < 256) :
    (v ||| k).toNat < 2 ^ (8 * size) := by
  rw [BitVec.toNat_or]
  exact Nat.or_lt_two_pow lt (by rcases sizes with rfl | rfl <;> omega)

/-- The entry at the head is marked. -/
theorem head_marked {rest : List (Nat × Word)} (h : ToMark size ((pa, e) :: rest) u)
    (run : writeEntry pa size e (markEntry kind rest.isEmpty e) u = .ok () t) :
    t.ramEntry pa size = e ||| setBits kind rest.isEmpty ∧
    (∀ a, a < pa ∨ pa + size ≤ a → t.ms.byte a = u.ms.byte a) ∧
    (∀ p, (pa / 4096 = p → e ||| setBits kind rest.isEmpty = e) → t.ms.version p = u.ms.version p) ∧
    t.AllRam ∧ t.ms.wf = true := by
  have aligned := h.aligned _ List.mem_cons_self
  have lt := h.lt _ List.mem_cons_self
  rw [writeEntry_run, markEntry_eq] at run
  split at run
  next same =>
    cases run
    refine ⟨?_, fun _ _ => rfl, fun _ _ => rfl, h.ram, h.wf⟩
    rcases h.holds _ List.mem_cons_self with plain | marked
    · exact plain.trans same.symm
    · have bits : setBits kind rest.isEmpty = 0x60 ∨ setBits kind rest.isEmpty = 0x20 := by
        unfold setBits
        split
        · exact .inl rfl
        · exact .inr rfl
      rw [marked, same]
      exact or_set_of_or_dirty bits same
  next changes =>
    have small : (setBits kind rest.isEmpty).toNat < 256 := by cases kind <;> cases rest.isEmpty <;> decide
    cases run
    refine ⟨ramEntry_stored h.ram h.wf h.sizes aligned (toNat_or_lt h.sizes lt small), fun a out => ?_, fun p none =>
      ?_,
      ?_, (memFollows_stored u ..).wf h.wf⟩
    · exact stored_byte_other u _ _ _ (by simp only [Span.Covers, Bool.false_eq_true, if_false]; omega)
    · have other : pa / 4096 ≠ p := fun is => changes (none is)
      obtain ⟨-, fits⟩ := entry_page h.sizes aligned (i := 0) (by rcases h.sizes with rfl | rfl <;> omega)
      rw [stored_ms_whole u _ _ _ rfl, onGuestWrite_version, physWrite_version, if_neg (by dsimp only; omega),
        Nat.add_zero]
    · rw [stored_withMs]
      exact h.ram

/-- Two entries of one size are the same or apart. -/
theorem entries_apart (sizes : size = 4 ∨ size = 8) {q : Nat} (hp : pa % size = 0) (hq : q % size = 0) (ne : q ≠ pa)
    {i : Nat} (lt : i < size) : q + i < pa ∨ pa + size ≤ q + i := by
  rcases sizes with rfl | rfl <;> omega

theorem hasMarked_markLevels {l : List (Nat × Word)} (h : ToMark size l u) (run : markLevels size kind l u = .ok () t) :
    HasMarked size kind l u t := by
  induction l generalizing u with
  | nil =>
    cases run
    exact ⟨fun _ mem => absurd mem List.not_mem_nil, fun _ _ => rfl, fun _ _ => rfl⟩
  | cons e rest ih =>
    obtain ⟨pa, e⟩ := e
    obtain ⟨_, v, first, run⟩ := bind_ok.mp run
    obtain ⟨head, others, versions, ram, wf⟩ := head_marked h first
    have aligned := h.aligned _ List.mem_cons_self
    by_cases last : rest = []
    · subst last
      cases run
      have marks : marksAt kind [(pa, e)] pa = setBits kind true := by
        unfold marksAt setBits
        cases kind <;> simp
      refine ⟨?_, fun a out => others a (out _ List.mem_cons_self), fun p none => versions p fun is => ?_⟩
      · rw [List.forall_mem_singleton, marks]
        exact head
      · change e ||| setBits kind true = e
        rw [← marks]
        exact none _ List.mem_cons_self is
    · rw [setBits_of_more last] at head versions
      have next : ToMark size rest v := by
        refine ⟨h.sizes, ram, wf, fun f mem => h.aligned f (List.mem_cons_of_mem _ mem),
          fun f mem => h.lt f (List.mem_cons_of_mem _ mem), fun f mf g mg => h.once f (List.mem_cons_of_mem _ mf) g
            (List.mem_cons_of_mem _ mg), fun f mem => ?_⟩
        have mem' := List.mem_cons_of_mem (pa, e) mem
        by_cases same : f.1 = pa
        · rw [same, h.once f mem' (pa, e) List.mem_cons_self same]
          exact .inr head
        · have kept : v.ramEntry f.1 size = u.ramEntry f.1 size := ramEntry_congr fun i lt =>
            others _ (entries_apart h.sizes aligned (h.aligned f mem') same lt)
          rw [kept]
          exact h.holds f mem'
      obtain ⟨entries, others', versions'⟩ := ih next run
      refine ⟨fun f mem => ?_, fun a out => ?_, fun p none => ?_⟩
      · rw [marksAt_cons last]
        rcases List.mem_cons.mp mem with rfl | mem
        · by_cases again : ∃ g ∈ rest, g.1 = pa
          · obtain ⟨g, mg, rfl⟩ := again
            rw [← h.once g (List.mem_cons_of_mem _ mg) (g.1, e) List.mem_cons_self rfl]
            exact entries g mg
          · have not_leaf : rest.getLast?.map Prod.fst ≠ some pa := by
              rw [List.getLast?_eq_some_getLast last]
              exact fun eq => again ⟨_, List.getLast_mem last, Option.some.inj eq⟩
            rw [marksAt, if_neg fun both => not_leaf both.2, ← head]
            refine ramEntry_congr fun i lt => others' _ fun g mg => ?_
            have mg' := List.mem_cons_of_mem (pa, e) mg
            exact entries_apart h.sizes (h.aligned g mg') aligned (fun eq => again ⟨g, mg, eq.symm⟩) lt
        · exact entries f mem
      · rw [others' a fun f mem => out f (List.mem_cons_of_mem _ mem)]
        exact others a (out _ List.mem_cons_self)
      · have same (addr : Nat) := marksAt_cons (kind := kind) (e := (pa, e)) last addr
        rw [versions' p fun f mem is => same f.1 ▸ none f (List.mem_cons_of_mem _ mem) is]
        exact versions p fun is => or_set_of_or_dirty (marksAt_cases kind _ _) (none _ List.mem_cons_self is)

/-! ### The path and its levels -/

/-- An entry of the path is what RAM holds at its address, of its size and aligned. -/
structure PathEntry.Held (s : State) (size : Nat) (e : PathEntry) : Prop where
  word : e.word = s.ramEntry e.addr size
  aligned : e.addr % size = 0

theorem held_lowerPath (s : State) (lin : Word) (base : Nat) (pae : Bool) :
    ∀ e ∈ s.lowerPath lin base pae, e.Held s 8 := by
  cases large : bit (s.pdeAt lin base) 7
  · rw [lowerPath_of_table large]
    simp only [List.forall_mem_cons, List.not_mem_nil, false_imp_iff, implies_true, and_true]
    exact ⟨⟨rfl, aligned8 _ _⟩, rfl, aligned8 _ _⟩
  · rw [lowerPath_of_large large, List.forall_mem_singleton]
    exact ⟨rfl, aligned8 _ _⟩

theorem held_levels (s : State) (lin : Word) : ∀ e ∈ s.levels lin, e.Held s s.entrySize := by
  unfold State.levels State.entrySize
  cases mode : s.pagingMode with
  | none => simp [State.path, mode]
  | legacy2 =>
    simp only [reduceCtorEq, if_false, if_true, path_legacy2 mode, List.forall_mem_cons]
    refine ⟨⟨rfl, aligned4 _ _⟩, ?_⟩
    split
    · simp
    · rw [List.forall_mem_singleton]
      exact ⟨rfl, aligned4 _ _⟩
  | pae3 =>
    simp only [reduceCtorEq, if_false, if_true, path_pae3 mode, List.drop_succ_cons, List.drop_zero]
    exact held_lowerPath s lin _ _
  | long4 =>
    simp only [reduceCtorEq, if_false, path_long4 mode, List.forall_mem_cons]
    exact ⟨⟨rfl, aligned8 _ _⟩, ⟨rfl, aligned8 _ _⟩, held_lowerPath s lin _ _⟩

theorem entrySize_cases (s : State) : s.entrySize = 4 ∨ s.entrySize = 8 := by
  unfold State.entrySize
  split
  · exact .inl rfl
  · exact .inr rfl

theorem toMark_levels (ram : s.AllRam) (wf : s.ms.wf = true) :
    ToMark s.entrySize ((s.levels lin).map PathEntry.level) s := by
  have held := held_levels s lin
  refine ⟨entrySize_cases s, ram, wf, ?_, ?_, ?_, ?_⟩
  · exact List.forall_mem_map.mpr fun e mem => (held e mem).aligned
  · refine List.forall_mem_map.mpr fun e mem => ?_
    change e.word.toNat < _
    rw [(held e mem).word]
    exact ofNat_leNat_lt _ (bytes_length ..)
  · refine List.forall_mem_map.mpr fun e me => List.forall_mem_map.mpr fun f mf eq => ?_
    change e.word = f.word
    rw [(held e me).word, (held f mf).word, show e.addr = f.addr from eq]
  · exact List.forall_mem_map.mpr fun e mem => .inl (held e mem).word.symm

theorem marksAt_levels (e : PathEntry) :
    marksAt kind ((s.levels lin).map PathEntry.level) e.addr = s.entryMarks lin kind e := by
  unfold marksAt State.entryMarks
  rw [List.getLast?_map, Option.map_map]
  rfl

/-- The translation that walks RAM marks the entries of its levels. -/
theorem hasMarked_of_translate {pa : Nat} (ram : s.AllRam) (wf : s.ms.wf = true) (paging : s.pagingMode ≠ .none)
    (miss : s.tlbHit (s.tlbEntry (s.tlbIndex lin)) lin kind user = false) (run : translate lin kind user s = .ok pa t) :
    HasMarked s.entrySize kind ((s.levels lin).map PathEntry.level) s t := by
  rcases translate_ok run with ⟨none, -⟩ | ⟨-, hit, -⟩ | ⟨-, -, r, u, walked, rfl, -⟩
  · exact absurd none paging
  · exact absurd (miss.symm.trans hit) nofun
  · obtain ⟨v, -, tables, -, -, marks⟩ := walk_ok walked
    obtain ⟨stop, rfl⟩ := pathStop_of_walk_ok ram paging walked
    rw [walkTables_ram ram paging, State.pathEnd, stop] at tables
    cases tables
    obtain ⟨entries, others, versions⟩ := hasMarked_markLevels (toMark_levels ram wf) marks
    exact ⟨fun e mem => (ramEntry_setTlb ..).trans (entries e mem), others, versions⟩

theorem memFollows_translate {pa : Nat} (run : translate lin kind user s = .ok pa t) : MemFollows s t := by
  have keeps := (runs_translate_of_walks (walks_memFollows s) lin kind user).keeps s (memFollows_refl s)
  rwa [endState, run] at keeps

end

end Sys2Proof.Machine

open Sys2Proof Sys2Proof.Machine

/-- Settles O36: `marked_of_translate` for any memory, `hasMarked_of_translate` for the entries in RAM. -/
theorem translationOnlyMarks : Obligations.TranslationOnlyMarks := by
  unfold Obligations.TranslationOnlyMarks
  intro s t lin kind user pa wf run
  refine ⟨marked_of_translate wf run, (keeps_translate onlyMs_access _ _ _).ok run, ?_, fun ram paging miss => ?_⟩
  · rintro (none | hit)
    · rcases translate_ok run with ⟨-, eq, -⟩ | ⟨paging, -⟩ | ⟨paging, -⟩
      · exact eq
      · exact absurd none paging
      · exact absurd none paging
    · rcases translate_ok run with ⟨-, eq, -⟩ | ⟨-, -, eq, -⟩ | ⟨-, miss, -⟩
      · exact eq
      · exact eq
      · exact absurd (hit.symm.trans miss) nofun
  · have held := held_levels s lin
    obtain ⟨entries, others, versions⟩ := hasMarked_of_translate ram wf paging miss run
    rw [List.forall_mem_map] at entries
    simp only [List.forall_mem_map] at others versions
    have entry (e : PathEntry) (mem : e ∈ s.levels lin) :
        t.ramEntry e.addr s.entrySize = s.ramEntry e.addr s.entrySize ||| s.entryMarks lin kind e := by
      rw [← marksAt_levels, ← (held e mem).word]
      exact entries e mem
    dsimp only
    refine ⟨fun e mem => entry e mem, others, fun e mem ne => ?_, fun p still => ?_⟩
    · have : ∃ i, i < s.entrySize ∧ t.ms.byte (e.addr + i) ≠ s.ms.byte (e.addr + i) := by
        refine Classical.byContradiction fun none => ne ?_
        exact ramEntry_congr fun i lt => Classical.byContradiction fun change => none ⟨i, lt, change⟩
      obtain ⟨i, lt, change⟩ := this
      have page := (entry_page (entrySize_cases s) (held e mem).aligned lt).1
      rw [← page]
      exact (memFollows_translate run).lt _ change
    · refine versions p fun e mem is => ?_
      have kept := still e mem is
      change e.word ||| marksAt kind _ e.addr = e.word
      rw [marksAt_levels, (held e mem).word, ← entry e mem]
      exact kept

end

section
/-! PROOF. O19 and the first part of O55: a repeated string instruction is the loop of its elements (R560, R561,
R570). -/

namespace Sys2Proof.Machine
open Sys2Proof

/-! ### Registers at the address size -/

theorem regRead_regWrite_same (s : State) (a : Width) (r : RegNum) (v : Word) :
    (s.regWrite a (gpr r) v).regRead a (gpr r) = trunc a v := by
  have written := regWrite_x_same s a (gpr r) v
  unfold State.regRead
  cases a with
  | w8 =>
    simp only [gpr, Bool.false_eq_true, if_false] at written ⊢
    rw [written, mergeReg_low8]
    refine BitVec.eq_of_getLsbD_eq fun i _ => ?_
    simp [trunc, Width.bits, BitVec.getLsbD_append]
    grind
  | w16 =>
    simp only [gpr] at written ⊢
    rw [written, mergeReg_w16]
    refine BitVec.eq_of_getLsbD_eq fun i _ => ?_
    simp [trunc, Width.bits, BitVec.getLsbD_append]
    grind
  | w32 =>
    simp only [gpr] at written ⊢
    rw [written]
    refine BitVec.eq_of_getLsbD_eq fun i _ => ?_
    simp [trunc, Width.bits, mergeReg]
  | w64 =>
    simp only [gpr] at written ⊢
    rw [written]
    rfl

theorem trunc_regRead (s : State) (a : Width) (r : Gpr) : trunc a (s.regRead a r) = s.regRead a r :=
  trunc_of_lt (regRead_lt s a r)

theorem trunc_add_trunc (a : Width) (x y : Word) : trunc a (trunc a x + y) = trunc a (x + y) := by
  refine BitVec.eq_of_toNat_eq ?_
  have dvd : 2 ^ a.bits ∣ 2 ^ 64 := Nat.pow_dvd_pow 2 (by cases a <;> decide)
  rw [trunc_toNat, trunc_toNat, BitVec.toNat_add, BitVec.toNat_add, trunc_toNat, Nat.mod_mod_of_dvd _ dvd,
    Nat.mod_mod_of_dvd _ dvd, Nat.mod_add_mod]

section
variable {o : StringOp} {h : Hdr} {w : Width} {s t u v : State} {f : FaultRec}

theorem indexAfter_zero (s : State) (h : Hdr) (w : Width) (r : Gpr) : s.indexAfter h w r 0 = s.regRead h.a r := by
  unfold State.indexAfter
  rw [Nat.zero_mul, BitVec.sub_zero, BitVec.add_zero, ite_self]
  exact trunc_regRead ..

theorem indexAfter_one (s : State) (h : Hdr) (w : Width) (r : Gpr) :
    s.indexAfter h w r 1 = trunc h.a (s.advanced h.a w.bytes r) := by
  unfold State.indexAfter State.advanced
  rw [Nat.one_mul]

/-- Elements add up. -/
theorem indexAfter_succ (k : Nat) (r : Gpr) (df : u.flags.df = s.flags.df)
    (one : u.regRead h.a r = s.indexAfter h w r 1) : u.indexAfter h w r k = s.indexAfter h w r (k + 1) := by
  have sum : BitVec.ofNat 64 ((k + 1) * w.bytes) = BitVec.ofNat 64 (1 * w.bytes) + BitVec.ofNat 64 (k * w.bytes) := by
    rw [← BitVec.ofNat_add]
    rw [Nat.add_mul, Nat.add_comm]
  unfold State.indexAfter at one ⊢
  rw [df, one, sum]
  cases s.flags.df
  · simp only [Bool.false_eq_true, if_false]
    rw [trunc_add_trunc, BitVec.add_assoc]
  · simp only [if_true]
    rw [BitVec.sub_eq_add_neg, trunc_add_trunc, BitVec.sub_eq_add_neg, BitVec.sub_eq_add_neg, BitVec.neg_add,
      BitVec.sub_eq_add_neg, BitVec.add_assoc]

/-! ### One element -/

/-- The body of an element. -/
def StringOp.elem (o : StringOp) (h : Hdr) (w : Width) : M Unit :=
  match o with
  | .movs => movsElem h w
  | .stos => stosElem h w
  | .lods => lodsElem h w
  | .cmps => cmpsElem h w
  | .scas => scasElem h w

theorem exec_string (o : StringOp) (h : Hdr) (w : Width) (s : State) :
    exec (o.instr h w) s = retire h false (stringBody h o.compares (o.elem h w)) s := by cases o <;> rfl

theorem exec_element (o : StringOp) (h : Hdr) (w : Width) (s : State) :
    exec (o.instr (elementHdr h) w) s = retire h false (o.elem h w) s := by cases o <;> rfl

theorem exec_repeated (rep : h.rep ≠ .none) (o : StringOp) (w : Width) (s : State) : exec (o.instr h w) s =
    retire h false (repLoop h.a h.rep o.compares (o.elem h w) (s.regRead h.a rCX).toNat) s := by
  rw [exec_string]
  unfold retire stringBody
  cases is : h.rep with
  | none => exact absurd is rep
  | rep | repne => rfl

theorem movsElem_eq (h : Hdr) (w : Width) (s : State) : movsElem h w s =
    (memRead (srcSeg h) (s.regRead h.a rSI) w.bytes >>= fun v => memWrite .es (s.regRead h.a rDI) w.bytes v >>= fun _ =>
      advance h.a w.bytes rSI >>= fun _ => advance h.a w.bytes rDI) s := rfl

theorem stosElem_eq (h : Hdr) (w : Width) (s : State) : stosElem h w s =
    (memWrite .es (s.regRead h.a rDI) w.bytes (s.regRead w rAX) >>= fun _ => advance h.a w.bytes rDI) s := rfl

theorem lodsElem_eq (h : Hdr) (w : Width) (s : State) : lodsElem h w s =
    (memRead (srcSeg h) (s.regRead h.a rSI) w.bytes >>= fun v => setReg w rAX v >>= fun _ =>
      advance h.a w.bytes rSI) s := rfl

theorem cmpsElem_eq (h : Hdr) (w : Width) (s : State) : cmpsElem h w s =
    (memRead (srcSeg h) (s.regRead h.a rSI) w.bytes >>= fun x => memRead .es (s.regRead h.a rDI) w.bytes >>= fun y =>
      cmpElems w x y >>= fun _ => advance h.a w.bytes rSI >>= fun _ => advance h.a w.bytes rDI) s := rfl

theorem scasElem_eq (h : Hdr) (w : Width) (s : State) : scasElem h w s =
    (memRead .es (s.regRead h.a rDI) w.bytes >>= fun y => cmpElems w (s.regRead w rAX) y >>= fun _ =>
      advance h.a w.bytes rDI) s := rfl

/-- What an element leaves of registers and flags. -/
structure ElemLeaves (o : StringOp) (h : Hdr) (w : Width) (s v : State) : Prop where
  frame : ∃ rs st m, v = { s with regs := rs, flags := s.flags.withSt st, ms := m }
  flags : o.compares = false → v.flags = s.flags
  src : v.regRead h.a rSI = if o.usesSrc then s.indexAfter h w rSI 1 else s.regRead h.a rSI
  dst : v.regRead h.a rDI = if o.usesDst then s.indexAfter h w rDI 1 else s.regRead h.a rDI
  count : v.regRead h.a rCX = s.regRead h.a rCX
  acc : o ≠ .lods → v.x 0 = s.x 0

/-- An element that completes, by its operation. -/
theorem elem_ok_cases (run : o.elem h w s = .ok () v) :
    (∃ m, (o = .movs ∧ v = (((s.withMs m).regWrite h.a rSI (s.advanced h.a w.bytes rSI)).regWrite h.a rDI
      (s.advanced h.a w.bytes rDI))) ∨
    (o = .stos ∧ v = (s.withMs m).regWrite h.a rDI (s.advanced h.a w.bytes rDI)) ∨
    (∃ x, o = .lods ∧ v = ((s.withMs m).regWrite w rAX x).regWrite h.a rSI (s.advanced h.a w.bytes rSI)) ∨
    (∃ x y, o = .cmps ∧ v = (((s.withMs m).withFlags (subFlags w x y false s.flags).flags).regWrite h.a rSI
      (s.advanced h.a w.bytes rSI)).regWrite h.a rDI (s.advanced h.a w.bytes rDI)) ∨
    (∃ x y, o = .scas ∧ v = ((s.withMs m).withFlags (subFlags w x y false s.flags).flags).regWrite h.a rDI
      (s.advanced h.a w.bytes rDI))) := by
  have whole := run
  cases o with
  | movs =>
    replace run := (movsElem_eq h w s).symm.trans run
    obtain ⟨x, s1, source, run⟩ := bind_ok.mp run
    obtain ⟨_, s2, written, -⟩ := bind_ok.mp run
    rw [memWrite_eq] at written
    obtain ⟨p, s3, opened, -⟩ := bind_ok.mp written
    have eq := whole.symm.trans (movsElem_run source opened)
    have only : ∃ m, s3.stored p w.bytes x = s.withMs m := by
      rw [stored_withMs, openAccess_withMs opened, memRead_withMs source]
      exact ⟨_, rfl⟩
    obtain ⟨m, only⟩ := only
    rw [only] at eq
    cases eq
    exact ⟨m, .inl ⟨rfl, rfl⟩⟩
  | stos =>
    replace run := (stosElem_eq h w s).symm.trans run
    obtain ⟨_, s2, written, -⟩ := bind_ok.mp run
    rw [memWrite_eq] at written
    obtain ⟨p, s3, opened, -⟩ := bind_ok.mp written
    have eq := whole.symm.trans (stosElem_run opened)
    have only : ∃ m, s3.stored p w.bytes (s.regRead w rAX) = s.withMs m := by
      rw [stored_withMs, openAccess_withMs opened]
      exact ⟨_, rfl⟩
    obtain ⟨m, only⟩ := only
    rw [only] at eq
    cases eq
    exact ⟨m, .inr (.inl ⟨rfl, rfl⟩)⟩
  | lods =>
    replace run := (lodsElem_eq h w s).symm.trans run
    obtain ⟨x, s1, source, -⟩ := bind_ok.mp run
    have eq := whole.symm.trans (lodsElem_run source)
    rw [memRead_withMs source] at eq
    cases eq
    exact ⟨_, .inr (.inr (.inl ⟨x, rfl, rfl⟩))⟩
  | cmps =>
    replace run := (cmpsElem_eq h w s).symm.trans run
    obtain ⟨x, s1, source, run⟩ := bind_ok.mp run
    obtain ⟨y, s2, second, -⟩ := bind_ok.mp run
    have eq := whole.symm.trans (cmpsElem_run source second)
    rw [memRead_withMs second, memRead_withMs source] at eq
    cases eq
    exact ⟨_, .inr (.inr (.inr (.inl ⟨x, y, rfl, rfl⟩)))⟩
  | scas =>
    replace run := (scasElem_eq h w s).symm.trans run
    obtain ⟨y, s1, second, -⟩ := bind_ok.mp run
    have eq := whole.symm.trans (scasElem_run second)
    rw [memRead_withMs second] at eq
    cases eq
    exact ⟨_, .inr (.inr (.inr (.inr ⟨_, y, rfl, rfl⟩)))⟩

theorem subFlags_withSt (w : Width) (x y : Word) (f : Flags) :
    (subFlags w x y false f).flags = f.withSt (subFlags w x y false f).flags.st := rfl

theorem elem_ok (run : o.elem h w s = .ok () v) : ElemLeaves o h w s v := by
  have cx_si : rCX.num ≠ rSI.num := by decide
  have cx_di : rCX.num ≠ rDI.num := by decide
  have cx_ax : rCX.num ≠ rAX.num := by decide
  have si_di : rSI.num ≠ rDI.num := by decide
  have di_si : rDI.num ≠ rSI.num := by decide
  have di_ax : rDI.num ≠ rAX.num := by decide
  have ax_si : (0 : RegNum) ≠ rSI.num := by decide
  have ax_di : (0 : RegNum) ≠ rDI.num := by decide
  have si : rSI = gpr 6 := rfl
  have di : rDI = gpr 7 := rfl
  obtain ⟨m, ⟨rfl, rfl⟩ | ⟨rfl, rfl⟩ | ⟨x, rfl, rfl⟩ | ⟨x, y, rfl, rfl⟩ | ⟨x, y, rfl, rfl⟩⟩ := elem_ok_cases run
  case inl =>
    refine ⟨⟨_, s.flags.st, m, rfl⟩, fun _ => rfl, ?_, ?_, ?_, fun _ => ?_⟩
    · rw [regRead_regWrite_other _ _ si_di, si, regRead_regWrite_same, ← si, ← indexAfter_one]; rfl
    · rw [di, regRead_regWrite_same, ← di, ← indexAfter_one]; rfl
    · rw [regRead_regWrite_other _ _ cx_di, regRead_regWrite_other _ _ cx_si]; rfl
    · rw [regWrite_x_other _ _ _ _ _ ax_di, regWrite_x_other _ _ _ _ _ ax_si]; rfl
  case inr.inl =>
    refine ⟨⟨_, s.flags.st, m, rfl⟩, fun _ => rfl, ?_, ?_, ?_, fun _ => ?_⟩
    · rw [regRead_regWrite_other _ _ si_di]; rfl
    · rw [di, regRead_regWrite_same, ← di, ← indexAfter_one]; rfl
    · rw [regRead_regWrite_other _ _ cx_di]; rfl
    · rw [regWrite_x_other _ _ _ _ _ ax_di]; rfl
  case inr.inr.inl =>
    refine ⟨⟨_, s.flags.st, m, rfl⟩, fun _ => rfl, ?_, ?_, ?_, fun no => absurd rfl no⟩
    · rw [si, regRead_regWrite_same, ← si, ← indexAfter_one]; rfl
    · rw [regRead_regWrite_other _ _ di_si, regRead_regWrite_other _ _ di_ax]; rfl
    · rw [regRead_regWrite_other _ _ cx_si, regRead_regWrite_other _ _ cx_ax]; rfl
  case inr.inr.inr.inl =>
    refine ⟨⟨_, (subFlags w x y false s.flags).flags.st, m, rfl⟩, nofun, ?_, ?_, ?_, fun _ => ?_⟩
    · rw [regRead_regWrite_other _ _ si_di, si, regRead_regWrite_same, ← si, ← indexAfter_one]; rfl
    · rw [di, regRead_regWrite_same, ← di, ← indexAfter_one]; rfl
    · rw [regRead_regWrite_other _ _ cx_di, regRead_regWrite_other _ _ cx_si]; rfl
    · rw [regWrite_x_other _ _ _ _ _ ax_di, regWrite_x_other _ _ _ _ _ ax_si]; rfl
  case inr.inr.inr.inr =>
    refine ⟨⟨_, (subFlags w x y false s.flags).flags.st, m, rfl⟩, nofun, ?_, ?_, ?_, fun _ => ?_⟩
    · rw [regRead_regWrite_other _ _ si_di]; rfl
    · rw [di, regRead_regWrite_same, ← di, ← indexAfter_one]; rfl
    · rw [regRead_regWrite_other _ _ cx_di]; rfl
    · rw [regWrite_x_other _ _ _ _ _ ax_di]; rfl

/-- An element that raises has changed memory at most (R802). -/
theorem elem_error (run : o.elem h w s = .error f t) : ∃ m, t = s.withMs m := by
  have read {seg : SReg} {off : Word} {s t : State} (run : memRead seg off w.bytes s = .error f t) : OnlyMs s t :=
    (keeps_memRead onlyMs_access _ _ _).error run
  have write {seg : SReg} {off x : Word} {s t : State} (run : memWrite seg off w.bytes x s = .error f t) :
      OnlyMs s t := (keeps_memWrite onlyMs_access _ _ _ _).error run
  refine OnlyMs.elim ?_
  cases o with
  | movs =>
    replace run := (movsElem_eq h w s).symm.trans run
    rcases bind_error.mp run with run | ⟨x, s1, source, run⟩
    · exact read run
    refine onlyMs_frame.trans _ _ _ (memRead_withMs source) ?_
    rcases bind_error.mp run with run | ⟨_, s2, -, run⟩
    · exact write run
    · rw [advance_both_run] at run
      cases run
  | stos =>
    replace run := (stosElem_eq h w s).symm.trans run
    rcases bind_error.mp run with run | ⟨_, s1, -, run⟩
    · exact write run
    · cases run
  | lods =>
    replace run := (lodsElem_eq h w s).symm.trans run
    rcases bind_error.mp run with run | ⟨x, s1, -, run⟩
    · exact read run
    · cases run
  | cmps =>
    replace run := (cmpsElem_eq h w s).symm.trans run
    rcases bind_error.mp run with run | ⟨x, s1, source, run⟩
    · exact read run
    refine onlyMs_frame.trans _ _ _ (memRead_withMs source) ?_
    rcases bind_error.mp run with run | ⟨y, s2, -, run⟩
    · exact read run
    · rw [bind_run_ok (cmpElems_run ..), advance_both_run] at run
      cases run
  | scas =>
    replace run := (scasElem_eq h w s).symm.trans run
    rcases bind_error.mp run with run | ⟨y, s1, -, run⟩
    · exact read run
    · rw [bind_run_ok (cmpElems_run ..)] at run
      cases run

/-- The state before the commits of a completion. -/
def State.uncommitted (s : State) (len : Nat) (t : State) : State :=
  { t with
    rip := s.rip
    flags := { t.flags with rf := s.flags.rf }
    interruptShadow := s.interruptShadow
    retired := t.retired - 1
    nbytes := t.nbytes - len
    outcome := s.outcome }

theorem uncommitted_complete {len : Nat} {ends shadow : Bool} {rip : Word} (at_rip : u.rip = s.rip)
    (rf : u.flags.rf = s.flags.rf) (interrupt : u.interruptShadow = s.interruptShadow)
    (outcome : u.outcome = s.outcome) : s.uncommitted len (complete s len ends shadow rip u) = u := by
  unfold State.uncommitted complete
  dsimp only
  rw [← at_rip, ← rf, ← interrupt, ← outcome, Nat.add_sub_cancel, Nat.add_sub_cancel]

theorem elementDone_iff : ElementDone o h w s t ↔
    ∃ v, o.elem h w s = .ok () v ∧ t = v.regWrite h.a rCX (s.regRead h.a rCX - 1) := by
  unfold ElementDone
  rw [exec_element]
  constructor
  · rintro ⟨u, run, rip, rf, shadow, outcome, rfl⟩
    cases elem : o.elem h w s with
    | error f t =>
      rw [retire_error elem] at run
      injection run with same
      exact (outcome_complete_ne_fault s u h.len false false _ (t.reported f) _ _ (by rw [← same]; rfl)).elim
    | ok _ v =>
      refine ⟨v, rfl, ?_⟩
      rw [retire_ok elem] at run
      injection run with same
      obtain ⟨rs, st, m, frame⟩ := (elem_ok elem).frame
      have back := congrArg (s.uncommitted h.len) same
      rw [uncommitted_complete (by rw [frame]) (by rw [frame]; rfl) (by rw [frame]) (by rw [frame]),
        uncommitted_complete rip rf shadow outcome] at back
      rw [back]
  · rintro ⟨v, elem, rfl⟩
    obtain ⟨rs, st, m, frame⟩ := (elem_ok elem).frame
    exact ⟨v, retire_ok elem, by rw [frame], by rw [frame]; rfl, by rw [frame], by rw [frame], rfl⟩

/-! ### So many elements -/

/-- What `k` elements leave of registers and flags, with the count reduced. -/
structure ElemsLeave (o : StringOp) (h : Hdr) (w : Width) (k : Nat) (s u : State) : Prop where
  frame : ∃ rs st m, u = { s with regs := rs, flags := s.flags.withSt st, ms := m }
  flags : o.compares = false → u.flags = s.flags
  src : u.regRead h.a rSI = if o.usesSrc then s.indexAfter h w rSI k else s.regRead h.a rSI
  dst : u.regRead h.a rDI = if o.usesDst then s.indexAfter h w rDI k else s.regRead h.a rDI
  count : (u.regRead h.a rCX).toNat = (s.regRead h.a rCX).toNat - k
  acc : o ≠ .lods → u.x 0 = s.x 0

theorem elemsLeave_zero (o : StringOp) (h : Hdr) (w : Width) (s : State) : ElemsLeave o h w 0 s s := by
  refine ⟨⟨s.regs, s.flags.st, s.ms, rfl⟩, fun _ => rfl, ?_, ?_, rfl, fun _ => rfl⟩
  · rw [indexAfter_zero, ite_self]
  · rw [indexAfter_zero, ite_self]

/-- The count after an element, from one that is not 0. -/
theorem count_after {c : Nat} (count : (s.regRead h.a rCX).toNat = c + 1) :
    s.regRead h.a rCX - 1 = BitVec.ofNat 64 c ∧
    ((v.regWrite h.a rCX (BitVec.ofNat 64 c)).regRead h.a rCX).toNat = c := by
  have lt := regRead_lt s h.a rCX
  have lt64 := (s.regRead h.a rCX).isLt
  constructor
  · refine BitVec.eq_of_toNat_eq ?_
    rw [BitVec.toNat_ofNat, BitVec.toNat_sub, count]
    have one : (1 : Word).toNat = 1 := rfl
    rw [one]
    omega
  · rw [show rCX = gpr 1 from rfl, regRead_regWrite_same, trunc_toNat, BitVec.toNat_ofNat,
      Nat.mod_eq_of_lt (a := c) (b := 2 ^ 64) (by omega), Nat.mod_eq_of_lt (by omega)]

/-- One element and its count. -/
theorem elemsLeave_one (leaves : ElemLeaves o h w s v) {c : Nat} (count : (s.regRead h.a rCX).toNat = c + 1) :
    ElemsLeave o h w 1 s (v.regWrite h.a rCX (BitVec.ofNat 64 c)) := by
  have si_cx : rSI.num ≠ rCX.num := by decide
  have di_cx : rDI.num ≠ rCX.num := by decide
  have ax_cx : (0 : RegNum) ≠ rCX.num := by decide
  obtain ⟨⟨rs, st, m, rfl⟩, flags, src, dst, -, acc⟩ := leaves
  refine ⟨⟨_, st, m, rfl⟩, flags, ?_, ?_, ?_, fun no => ?_⟩
  · rw [regRead_regWrite_other _ _ si_cx, src]
  · rw [regRead_regWrite_other _ _ di_cx, dst]
  · rw [(count_after count).2]
    omega
  · rw [regWrite_x_other _ _ _ _ _ ax_cx, acc no]

theorem elemsLeave_trans {k : Nat} (first : ElemsLeave o h w 1 s u) (rest : ElemsLeave o h w k u t) :
    ElemsLeave o h w (k + 1) s t := by
  obtain ⟨⟨rs, st, m, rfl⟩, flags, src, dst, count, acc⟩ := first
  obtain ⟨⟨rs', st', m', rfl⟩, flags', src', dst', count', acc'⟩ := rest
  refine ⟨⟨rs', st', m', rfl⟩, fun no => (flags' no).trans (flags no), ?_, ?_, ?_, fun no => (acc' no).trans (acc no)⟩
  · rw [src']
    split at src
    · rw [if_pos ‹_›, if_pos ‹_›]
      exact indexAfter_succ k rSI rfl src
    · rw [if_neg ‹_›, if_neg ‹_›, src]
  · rw [dst']
    split at dst
    · rw [if_pos ‹_›, if_pos ‹_›]
      exact indexAfter_succ k rDI rfl dst
    · rw [if_neg ‹_›, if_neg ‹_›, dst]
  · rw [count', count]
    omega

/-- The first of `k + 1` elements, with its count. -/
theorem elementsDone_succ {k c : Nat} (count : (s.regRead h.a rCX).toNat = c + 1) :
    ElementsDone o h w (k + 1) s t ↔ ∃ v, o.elem h w s = .ok () v ∧
      (k = 0 ∨ ¬RepEnds o h (v.regWrite h.a rCX (BitVec.ofNat 64 c))) ∧
      ElementsDone o h w k (v.regWrite h.a rCX (BitVec.ofNat 64 c)) t := by
  have first : ElementsDone o h w (k + 1) s t ↔ ∃ u, ElementDone o h w s u ∧ (k = 0 ∨ ¬RepEnds o h u) ∧
      ElementsDone o h w k u t := Iff.rfl
  rw [first, ← (count_after (v := s) count).1]
  constructor
  · rintro ⟨u, done, goes, rest⟩
    obtain ⟨v, elem, rfl⟩ := elementDone_iff.mp done
    exact ⟨v, elem, goes, rest⟩
  · rintro ⟨v, elem, goes, rest⟩
    exact ⟨_, elementDone_iff.mpr ⟨v, elem, rfl⟩, goes, rest⟩

theorem elemsLeave_of_elementsDone {k : Nat} (le : k ≤ (s.regRead h.a rCX).toNat) (done : ElementsDone o h w k s t) :
    ElemsLeave o h w k s t := by
  induction k generalizing s with
  | zero =>
    subst done
    exact elemsLeave_zero o h w t
  | succ k ih =>
    obtain ⟨c, count⟩ : ∃ c, (s.regRead h.a rCX).toNat = c + 1 := ⟨_, (Nat.sub_add_cancel (by omega)).symm⟩
    obtain ⟨v, elem, -, rest⟩ := (elementsDone_succ count).mp done
    have first := elemsLeave_one (elem_ok elem) count
    exact elemsLeave_trans first (ih (by rw [first.count]; omega) rest)

/-! ### The loop (R561) -/

/-- The loop of a repeated string instruction. -/
abbrev StringOp.loop (o : StringOp) (h : Hdr) (w : Width) (c : Nat) : M Unit :=
  repLoop h.a h.rep o.compares (o.elem h w) c

theorem repEnds_iff (rep : h.rep ≠ .none) :
    RepEnds o h s ↔ (o.compares && repStops h.rep s.flags.st.zf) = true := by
  unfold RepEnds repStops
  cases is : h.rep with
  | none => exact absurd is rep
  | rep | repne => simp

theorem loop_succ_error {c : Nat} (elem : o.elem h w s = .error f t) : o.loop h w (c + 1) s = .error f t :=
  bind_run_error elem

theorem loop_succ_ends {c : Nat} (rep : h.rep ≠ .none) (elem : o.elem h w s = .ok () v)
    (ends : RepEnds o h (v.regWrite h.a rCX (BitVec.ofNat 64 c))) :
    o.loop h w (c + 1) s = .ok () (v.regWrite h.a rCX (BitVec.ofNat 64 c)) := by
  rw [repEnds_iff rep] at ends
  unfold StringOp.loop repLoop
  rw [bind_run_ok elem, bind_run_ok (setReg_run ..), get_bind_run, if_pos ends]
  rfl

theorem loop_succ_goes {c : Nat} (rep : h.rep ≠ .none) (elem : o.elem h w s = .ok () v)
    (goes : ¬RepEnds o h (v.regWrite h.a rCX (BitVec.ofNat 64 c))) :
    o.loop h w (c + 1) s = o.loop h w c (v.regWrite h.a rCX (BitVec.ofNat 64 c)) := by
  rw [repEnds_iff rep] at goes
  rw [StringOp.loop, repLoop, bind_run_ok elem, bind_run_ok (setReg_run ..), get_bind_run, if_neg goes]

/-- A loop that raises does so in an element, after those before it. -/
theorem loop_error {c : Nat} (rep : h.rep ≠ .none) (count : (s.regRead h.a rCX).toNat = c)
    (run : o.loop h w c s = .error f t) : ∃ k u, k < c ∧ ElementsDone o h w k s u ∧ (k = 0 ∨ ¬RepEnds o h u) ∧
      o.elem h w u = .error f t := by
  induction c generalizing s with
  | zero => exact (ok_ne_error run).elim
  | succ c ih =>
    cases elem : o.elem h w s with
    | error g t' =>
      rw [loop_succ_error elem] at run
      cases run
      exact ⟨0, s, by omega, rfl, .inl rfl, elem⟩
    | ok _ v =>
      by_cases ends : RepEnds o h (v.regWrite h.a rCX (BitVec.ofNat 64 c))
      · exact (ok_ne_error ((loop_succ_ends rep elem ends).symm.trans run)).elim
      · rw [loop_succ_goes rep elem ends] at run
        obtain ⟨k, u, lt, done, goes, raised⟩ := ih (count_after count).2 run
        refine ⟨k + 1, u, by omega, (elementsDone_succ count).mpr ⟨v, elem, .inr ends, done⟩, .inr ?_, raised⟩
        rcases goes with rfl | goes
        · subst done
          exact ends
        · exact goes

/-- A loop that completes has done its elements. -/
theorem loop_ok {c : Nat} (rep : h.rep ≠ .none) (count : (s.regRead h.a rCX).toNat = c)
    (run : o.loop h w c s = .ok () t) : ∃ k, k ≤ c ∧ ElementsDone o h w k s t ∧ (k = c ∨ (0 < k ∧ RepEnds o h t)) := by
  induction c generalizing s with
  | zero =>
    cases run
    exact ⟨0, Nat.le_refl _, rfl, .inl rfl⟩
  | succ c ih =>
    cases elem : o.elem h w s with
    | error g t' => exact (ok_ne_error (run.symm.trans (loop_succ_error elem))).elim
    | ok _ v =>
      by_cases ends : RepEnds o h (v.regWrite h.a rCX (BitVec.ofNat 64 c))
      · rw [loop_succ_ends rep elem ends] at run
        cases run
        exact ⟨1, by omega, (elementsDone_succ count).mpr ⟨v, elem, .inl rfl, rfl⟩, .inr ⟨by omega, ends⟩⟩
      · rw [loop_succ_goes rep elem ends] at run
        obtain ⟨k, le, done, last⟩ := ih (count_after count).2 run
        exact ⟨k + 1, by omega, (elementsDone_succ count).mpr ⟨v, elem, .inr ends, done⟩,
          last.imp (by omega) fun ⟨_, ends⟩ => ⟨by omega, ends⟩⟩

/-- Going on from where elements have led. -/
theorem loop_from {k c : Nat} (rep : h.rep ≠ .none) (count : (s.regRead h.a rCX).toNat = c) (le : k ≤ c)
    (done : ElementsDone o h w k s u) (goes : k = 0 ∨ ¬RepEnds o h u) : o.loop h w c s = o.loop h w (c - k) u := by
  induction k generalizing s c with
  | zero =>
    subst done
    rfl
  | succ k ih =>
    obtain ⟨c, rfl⟩ : ∃ d, c = d + 1 := ⟨_, (Nat.sub_add_cancel (by omega)).symm⟩
    obtain ⟨v, elem, goes', rest⟩ := (elementsDone_succ count).mp done
    have first : ¬RepEnds o h (v.regWrite h.a rCX (BitVec.ofNat 64 c)) := by
      rcases goes' with rfl | goes'
      · subst rest
        exact goes.resolve_left (by omega)
      · exact goes'
    rw [loop_succ_goes rep elem first, ih (count_after count).2 (by omega) rest (goes.imp (by omega) id)]
    congr 1
    omega

/-- A loop whose elements lead to its end completes there. -/
theorem loop_of_elementsDone {k c : Nat} (rep : h.rep ≠ .none) (count : (s.regRead h.a rCX).toNat = c)
    (done : ElementsDone o h w k s t) (last : k = c ∨ (0 < k ∧ k ≤ c ∧ RepEnds o h t)) :
    o.loop h w c s = .ok () t := by
  induction k generalizing s c with
  | zero =>
    obtain rfl : 0 = c := last.resolve_right fun both => absurd both.1 (by omega)
    subst done
    rfl
  | succ k ih =>
    obtain ⟨c, rfl⟩ : ∃ d, c = d + 1 := ⟨_, (Nat.sub_add_cancel (by omega)).symm⟩
    obtain ⟨v, elem, goes, rest⟩ := (elementsDone_succ count).mp done
    by_cases ends : RepEnds o h (v.regWrite h.a rCX (BitVec.ofNat 64 c))
    · obtain rfl : k = 0 := goes.resolve_right fun no => no ends
      subst rest
      exact loop_succ_ends rep elem ends
    · rw [loop_succ_goes rep elem ends]
      refine ih (count_after count).2 rest ?_
      rcases last with last | ⟨-, le, stops⟩
      · exact .inl (by omega)
      · refine .inr ⟨Nat.pos_of_ne_zero ?_, by omega, stops⟩
        rintro rfl
        subst rest
        exact ends stops

end

end Sys2Proof.Machine

open Sys2Proof Sys2Proof.Machine

/-- Settles O19: the loop raises in an element (`loop_error`), and goes on from any of them (`loop_from`). -/
theorem repeatedStringFaultsAtAnElement : Obligations.RepeatedStringFaultsAtAnElement := by
  unfold Obligations.RepeatedStringFaultsAtAnElement
  intro o h w s t f r a rep _
  rw [exec_repeated rep]
  -- how an instruction ends whose outcome is a fault
  have faulted {body : M Unit} {s : State} (fault : t.outcome = some ⟨.fault f, r, a⟩)
      (run : retire h false body s = .next t) : ∃ g v, body s = .error g v ∧ t = takeFault g v := by
    cases body_run : body s with
    | error g v =>
      rw [retire_error body_run] at run
      cases run
      exact ⟨g, v, rfl, rfl⟩
    | ok _ v =>
      rw [retire_ok body_run] at run
      cases run
      exact (outcome_complete_ne_fault _ _ _ _ _ _ _ _ _ fault).elim
  refine ⟨fun fault run => ?_, fun k u lt done goes fault run => ?_, fun k u le done goes => ?_⟩
  · obtain ⟨g, v, body, rfl⟩ := faulted fault run
    obtain ⟨k, u, lt, done, goes, raised⟩ := loop_error rep rfl body
    obtain ⟨m, rfl⟩ := elem_error raised
    obtain ⟨-, flags, src, dst, count, acc⟩ := elemsLeave_of_elementsDone (Nat.le_of_lt lt) done
    refine ⟨k, u, lt, done, goes, ?_, count, src, dst, rfl, flags, acc⟩
    rw [exec_element, retire_error raised]
    rfl
  · rw [exec_element] at run
    obtain ⟨g, v, raised, rfl⟩ := faulted fault run
    obtain ⟨c, left⟩ : ∃ c, (s.regRead h.a rCX).toNat - k = c + 1 := ⟨_, (Nat.sub_add_cancel (by omega)).symm⟩
    have body := loop_from rep rfl (Nat.le_of_lt lt) done goes
    rw [left, loop_succ_error raised] at body
    exact retire_error body
  · have body := loop_from rep rfl le done goes
    obtain ⟨⟨rs, st, m, rfl⟩, -, -, -, count, -⟩ := elemsLeave_of_elementsDone le done
    rw [exec_repeated rep, count]
    unfold StringOp.loop at body
    unfold retire
    rw [body]
    rfl

end

section
/-! PROOF. O55: a repeated string instruction over flat memory (R560 to R564, R570). -/

namespace Sys2Proof.Machine
open Sys2Proof

section
variable {o : StringOp} {h : Hdr} {w : Width} {s t u v : State} {seg : SReg} {off : Word} {n k : Nat}

/-! ### Accesses that cannot fault -/

theorem physRead_ok (pa n : Nat) (s : State) : ∃ v t, physRead pa n s = .ok v t := by
  unfold physRead
  split
  · exact ⟨_, _, rfl⟩
  · exact ⟨_, _, rfl⟩

theorem readEach_ok (l : List Nat) (s : State) : ∃ bs t, readEach l s = .ok bs t := by
  induction l generalizing s with
  | nil => exact ⟨_, _, rfl⟩
  | cons a l ih =>
    obtain ⟨v, t, run⟩ := physRead_ok a 1 s
    obtain ⟨bs, u, run'⟩ := ih t
    exact ⟨_, u, by unfold readEach; rw [bind_run_ok run, bind_run_ok run']; rfl⟩

theorem spanRead_ok (p : Span) (n : Nat) (s : State) : ∃ v t, spanRead p n s = .ok v t := by
  unfold spanRead
  split
  · obtain ⟨bs, t, run⟩ := readEach_ok (p.addrs n) s
    exact ⟨_, t, by rw [bind_run_ok run]; rfl⟩
  · exact physRead_ok ..

theorem memRead_flat_ok (flat : s.Flat) (seg : SReg) (off : Word) (n : Nat) :
    ∃ v m, memRead seg off n s = .ok v (s.withMs m) := by
  obtain ⟨v, t, run⟩ := spanRead_ok (s.flatSpan seg off n) n s
  have read : memRead seg off n s = .ok v t := by
    unfold memRead
    rw [get_bind_run, checks_flat flat, linRead, bind_run_ok (translateSpan_flat flat ..)]
    exact run
  exact ⟨v, t.ms, read.trans (congrArg _ (memRead_withMs read))⟩

theorem openAccess_flat (flat : s.Flat) (seg : SReg) (off : Word) (n : Nat) (kind : Access) :
    openAccess seg off n kind s = .ok (s.flatSpan seg off n) s := by
  unfold openAccess
  rw [get_bind_run, checks_flat flat]
  exact translateSpan_flat flat ..

theorem flat_of_frame (flat : s.Flat) {rs : Vector Word 16} {fl : Flags} {m : MemSys} :
    State.Flat { s with regs := rs, flags := fl, ms := m } := ⟨flat.paging, flat.mode, flat.segs⟩

/-- Where no access can fault, an element completes. -/
theorem elem_flat (flat : s.Flat) (o : StringOp) (h : Hdr) (w : Width) : ∃ v, o.elem h w s = .ok () v := by
  cases o with
  | movs =>
    obtain ⟨x, m, source⟩ := memRead_flat_ok flat (srcSeg h) (s.regRead h.a rSI) w.bytes
    exact ⟨_, movsElem_run source (openAccess_flat (s := s.withMs m) (flat_of_frame flat) ..)⟩
  | stos => exact ⟨_, stosElem_run (openAccess_flat flat ..)⟩
  | lods =>
    obtain ⟨x, m, source⟩ := memRead_flat_ok flat (srcSeg h) (s.regRead h.a rSI) w.bytes
    exact ⟨_, lodsElem_run source⟩
  | cmps =>
    obtain ⟨x, m, source⟩ := memRead_flat_ok flat (srcSeg h) (s.regRead h.a rSI) w.bytes
    obtain ⟨y, m', second⟩ := memRead_flat_ok (s := s.withMs m) (flat_of_frame flat) .es (s.regRead h.a rDI) w.bytes
    exact ⟨_, cmpsElem_run source second⟩
  | scas =>
    obtain ⟨y, m, second⟩ := memRead_flat_ok flat .es (s.regRead h.a rDI) w.bytes
    exact ⟨_, scasElem_run second⟩

theorem loop_flat (rep : h.rep ≠ .none) (flat : s.Flat) (c : Nat) (count : (s.regRead h.a rCX).toNat = c) :
    ∃ t, o.loop h w c s = .ok () t := by
  cases run : o.loop h w c s with
  | ok _ t => exact ⟨t, rfl⟩
  | error f t =>
    obtain ⟨k, u, lt, done, -, raised⟩ := loop_error rep count run
    obtain ⟨⟨rs, st, m, rfl⟩, -⟩ := elemsLeave_of_elementsDone (by omega) done
    obtain ⟨v, elem⟩ := elem_flat (flat_of_frame flat) o h w
    exact (ok_ne_error (elem.symm.trans raised)).elim

theorem exec_of_loop (rep : h.rep ≠ .none) (run : o.loop h w (s.regRead h.a rCX).toNat s = .ok () t) :
    exec (o.instr h w) s = s.done h t := (exec_repeated rep o w s).trans (retire_ok run)

/-! ### The elements' addresses -/

/-- The address of byte `j` of element `k` on one side of a string operation. -/
def State.elemAddr (s : State) (h : Hdr) (w : Width) (seg : SReg) (r : Gpr) (k j : Nat) : Nat :=
  s.flatAddr seg (s.indexAfter h w r k) j

theorem elemAddr_succ (segs : u.segs = s.segs) {r : Gpr} (df : u.flags.df = s.flags.df)
    (one : u.regRead h.a r = s.indexAfter h w r 1) (seg : SReg) (k j : Nat) :
    u.elemAddr h w seg r k j = s.elemAddr h w seg r (k + 1) j := by
  unfold State.elemAddr State.flatAddr
  rw [segs, indexAfter_succ k r df one]

theorem elemAddr_zero (s : State) (h : Hdr) (w : Width) (seg : SReg) (r : Gpr) (j : Nat) :
    s.elemAddr h w seg r 0 j = s.flatAddr seg (s.regRead h.a r) j := by
  unfold State.elemAddr
  rw [indexAfter_zero]

/-- The offset of element `k`, in numbers. -/
theorem indexAfter_toNat (s : State) (h : Hdr) (w : Width) (r : Gpr) (k : Nat) (lt : k * w.bytes < 2 ^ 64) :
    (s.indexAfter h w r k).toNat = (if s.flags.df then (s.regRead h.a r).toNat + (2 ^ 64 - k * w.bytes)
      else (s.regRead h.a r).toNat + k * w.bytes) % 2 ^ h.a.bits := by
  have dvd : 2 ^ h.a.bits ∣ 2 ^ 64 := Nat.pow_dvd_pow 2 (by cases h.a <;> decide)
  unfold State.indexAfter
  rw [trunc_toNat]
  split
  · rw [BitVec.toNat_sub, BitVec.toNat_ofNat, Nat.mod_eq_of_lt lt, Nat.mod_mod_of_dvd _ dvd, Nat.add_comm]
  · rw [BitVec.toNat_add, BitVec.toNat_ofNat, Nat.mod_eq_of_lt lt, Nat.mod_mod_of_dvd _ dvd]

/-- Elements of `b` bytes upward from an offset are apart where they do not come round to it. -/
theorem apart_up {B R k k' j j' n b m : Nat} (modulus : m = 2 ^ 16 ∨ m = 2 ^ 32)
    (size : b = 1 ∨ b = 2 ∨ b = 4 ∨ b = 8) (fits : n * b ≤ m)
    (lt : k < n) (lt' : k' < n) (ne : k ≠ k') (hj : j < b) (hj' : j' < b) :
    (B + (R + k * b) % m + j) % 2 ^ 32 ≠ (B + (R + k' * b) % m + j') % 2 ^ 32 := by
  rcases modulus with rfl | rfl <;> rcases size with rfl | rfl | rfl | rfl <;> omega

/-- The same downward. -/
theorem apart_down {B R k k' j j' n b m : Nat} (modulus : m = 2 ^ 16 ∨ m = 2 ^ 32)
    (size : b = 1 ∨ b = 2 ∨ b = 4 ∨ b = 8) (fits : n * b ≤ m)
    (lt : k < n) (lt' : k' < n) (ne : k ≠ k') (hj : j < b) (hj' : j' < b) :
    (B + (R + (2 ^ 64 - k * b)) % m + j) % 2 ^ 32 ≠ (B + (R + (2 ^ 64 - k' * b)) % m + j') % 2 ^ 32 := by
  rcases modulus with rfl | rfl <;> rcases size with rfl | rfl | rfl | rfl <;> omega

theorem bytes_cases (w : Width) : w.bytes = 1 ∨ w.bytes = 2 ∨ w.bytes = 4 ∨ w.bytes = 8 := by cases w <;> simp
    [Width.bytes]

/-- The bytes of different elements are apart, where the elements fit the address size. -/
theorem elemAddr_ne (size : h.a = .w16 ∨ h.a = .w32) (fits : n * w.bytes ≤ 2 ^ h.a.bits) {k k' j j' : Nat} (lt : k < n)
    (lt' : k' < n) (ne : k ≠ k') (hj : j < w.bytes) (hj' : j' < w.bytes) (seg : SReg) (r : Gpr) :
    s.elemAddr h w seg r k j ≠ s.elemAddr h w seg r k' j' := by
  have modulus : 2 ^ h.a.bits = 2 ^ 16 ∨ 2 ^ h.a.bits = 2 ^ 32 := by
    rcases size with eq | eq <;> rw [eq] <;> decide
  have small {i : Nat} (lt : i < n) : i * w.bytes < 2 ^ 64 := by
    have := Nat.mul_le_mul_right w.bytes (Nat.le_of_lt lt)
    omega
  unfold State.elemAddr State.flatAddr
  rw [indexAfter_toNat s h w r k (small lt), indexAfter_toNat s h w r k' (small lt')]
  split
  · exact apart_down modulus (bytes_cases w) fits lt lt' ne hj hj'
  · exact apart_up modulus (bytes_cases w) fits lt lt' ne hj hj'

/-! ### Elements of RAM -/

theorem width_bytes_le (w : Width) : 1 ≤ w.bytes ∧ w.bytes ≤ 8 := by cases w <;> decide

/-- The low bytes of a register are those of its width. -/
theorem byte_trunc (w : Width) (x : Word) {j : Nat} (lt : j < w.bytes) :
    BitVec.ofNat 8 ((trunc w x).toNat / 256 ^ j) = BitVec.ofNat 8 (x.toNat / 256 ^ j) := by
  rw [byte_eq_field, byte_eq_field]
  have le : 8 * j + 8 ≤ w.bits := by rw [← bits_eq]; omega
  refine BitVec.eq_of_getLsbD_eq fun i hi => ?_
  have in_bits : 8 * j + i < w.bits := by omega
  have in_word : 8 * j + i < 64 := by cases w <;> simp only [Width.bits] at in_bits <;> omega
  simp [trunc, BitVec.getLsbD_setWidth, BitVec.getLsbD_ushiftRight, in_bits, in_word]

/-- What the store of an element leaves in flat RAM. -/
structure Puts (s u : State) (seg : SReg) (off : Word) (n : Nat) (byte : Nat → Byte) : Prop where
  put : ∀ j, j < n → u.ms.byte (s.flatAddr seg off j) = byte j
  others : ∀ a, (∀ j, j < n → a ≠ s.flatAddr seg off j) → u.ms.byte a = s.ms.byte a
  wf : u.ms.wf = true

theorem puts_stored (flat : s.Flat) (ram : s.AllRam) (wf : s.ms.wf = true) (le : n ≤ 8) (seg : SReg) (off x : Word) :
    Puts s (s.stored (s.flatSpan seg off n) n x) seg off n fun j => BitVec.ofNat 8 (x.toNat / 256 ^ j) := by
  have laid := flatSpan_laid flat seg off n
  refine ⟨fun j lt => ?_, fun a out => ?_, (memFollows_stored s ..).wf wf⟩
  · rw [← flatSpan_addr flat le lt]
    exact stored_byte ram wf laid le lt
  · refine stored_byte_of_not_mem laid fun mem => ?_
    rw [flatSpan_addrs flat le] at mem
    obtain ⟨i, hi, eq⟩ := List.mem_map.mp mem
    exact out i (List.mem_range.mp hi) eq.symm

/-- The little-endian value of an element in flat RAM. -/
def State.flatValue (s : State) (seg : SReg) (off : Word) (n : Nat) : Word :=
  BitVec.ofNat 64 (leNat ((List.range n).map fun i => s.ms.byte (s.flatAddr seg off i)))

theorem byte_flatValue (le : n ≤ 8) {j : Nat} (lt : j < n) :
    BitVec.ofNat 8 ((s.flatValue seg off n).toNat / 256 ^ j) = s.ms.byte (s.flatAddr seg off j) := by
  have len : ((List.range n).map fun i => s.ms.byte (s.flatAddr seg off i)).length = n := by simp
  have small := leNat_lt ((List.range n).map fun i => s.ms.byte (s.flatAddr seg off i))
  have fits : 256 ^ n ≤ 256 ^ 8 := Nat.pow_le_pow_right (by omega) le
  unfold State.flatValue
  rw [BitVec.toNat_ofNat, Nat.mod_eq_of_lt (by rw [len] at small; omega), byte_of_leNat (by rwa [len])]
  simp

/-! ### The loops of STOS, MOVS and LODS in RAM -/

/-- `n` elements have been stored: byte `j` of element `k` is `byte k j`, and no other byte has changed. -/
structure Filled (h : Hdr) (w : Width) (n : Nat) (s t : State) (byte : Nat → Nat → Byte) : Prop where
  put : ∀ k j, k < n → j < w.bytes → t.ms.byte (s.elemAddr h w .es rDI k j) = byte k j
  others : ∀ a, (∀ k j, k < n → j < w.bytes → a ≠ s.elemAddr h w .es rDI k j) → t.ms.byte a = s.ms.byte a

/-- One element, and the rest from the state it leaves. -/
theorem filled_succ {byte : Nat → Nat → Byte} (size : h.a = .w16 ∨ h.a = .w32)
    (fits : (n + 1) * w.bytes ≤ 2 ^ h.a.bits) (first : Puts s u .es (s.regRead h.a rDI) w.bytes (byte 0))
    (shift : ∀ k j, u.elemAddr h w .es rDI k j = s.elemAddr h w .es rDI (k + 1) j)
    (rest : Filled h w n u t fun k => byte (k + 1)) : Filled h w (n + 1) s t byte := by
  have put0 (j : Nat) : s.elemAddr h w .es rDI 0 j = s.flatAddr .es (s.regRead h.a rDI) j := elemAddr_zero ..
  refine ⟨fun k j lt hj => ?_, fun a out => ?_⟩
  · cases k with
    | zero =>
      rw [rest.others, put0, first.put j hj]
      intro k' j' lt' hj'
      rw [shift]
      exact elemAddr_ne size fits lt (by omega) (by omega) hj hj' .es rDI
    | succ k =>
      rw [← shift]
      exact rest.put k j (by omega) hj
  · rw [rest.others a fun k j lt hj => by rw [shift]; exact out (k + 1) j (by omega) hj]
    exact first.others a fun j hj => put0 j ▸ out 0 j (by omega) hj

/-- What the next element starts from. -/
theorem next_elem (leaves : ElemLeaves o h w s v) (flat : s.Flat) (ram : s.AllRam) {c : Nat}
    (count : (s.regRead h.a rCX).toNat = c + 1) :
    State.Flat (v.regWrite h.a rCX (BitVec.ofNat 64 c)) ∧ State.AllRam (v.regWrite h.a rCX (BitVec.ofNat 64 c)) ∧
    ((v.regWrite h.a rCX (BitVec.ofNat 64 c)).regRead h.a rCX).toNat = c ∧
    (o.usesDst = true → ∀ k j, (v.regWrite h.a rCX (BitVec.ofNat 64 c)).elemAddr h w .es rDI k j =
      s.elemAddr h w .es rDI (k + 1) j) ∧
    (o.usesSrc = true → ∀ k j, (v.regWrite h.a rCX (BitVec.ofNat 64 c)).elemAddr h w (srcSeg h) rSI k j =
      s.elemAddr h w (srcSeg h) rSI (k + 1) j) := by
  have next := elemsLeave_one leaves count
  have count' := (count_after (v := v) count).2
  generalize v.regWrite h.a rCX (BitVec.ofNat 64 c) = u at *
  obtain ⟨⟨rs, st, m, frame⟩, -, src, dst, -⟩ := next
  have segs : u.segs = s.segs := by rw [frame]
  have df : u.flags.df = s.flags.df := by rw [frame]; rfl
  refine ⟨by rw [frame]; exact flat_of_frame flat, by rw [frame]; exact ram, count', fun uses => ?_, fun uses => ?_⟩
  · rw [if_pos uses] at dst
    exact elemAddr_succ segs df dst .es
  · rw [if_pos uses] at src
    exact elemAddr_succ segs df src (srcSeg h)

theorem not_repEnds (no : o.compares = false) : ¬RepEnds o h s := fun ends => absurd (no.symm.trans ends.1) nofun

/-- An element of STOS stores the accumulator. -/
theorem stos_elem_ram (flat : s.Flat) (ram : s.AllRam) (wf : s.ms.wf = true) : ∃ v, StringOp.stos.elem h w s = .ok ()
    v ∧
    Puts s v .es (s.regRead h.a rDI) w.bytes fun j => BitVec.ofNat 8 ((s.x 0).toNat / 256 ^ j) := by
  have puts := puts_stored flat ram wf (width_bytes_le w).2 .es (s.regRead h.a rDI) (s.regRead w rAX)
  refine ⟨_, stosElem_run (openAccess_flat flat ..), fun j hj => ?_, puts.others, puts.wf⟩
  have low : s.regRead w rAX = trunc w (s.x 0) := by unfold State.regRead; cases w <;> rfl
  rw [← byte_trunc w (s.x 0) hj, ← low]
  exact puts.put j hj

/-- An element of MOVS stores what it has read. -/
theorem movs_elem_ram (flat : s.Flat) (ram : s.AllRam) (wf : s.ms.wf = true) : ∃ v, StringOp.movs.elem h w s = .ok ()
    v ∧
    Puts s v .es (s.regRead h.a rDI) w.bytes fun j => s.ms.byte (s.elemAddr h w (srcSeg h) rSI 0 j) := by
  have le := (width_bytes_le w).2
  have source : memRead (srcSeg h) (s.regRead h.a rSI) w.bytes s =
      .ok (s.flatValue (srcSeg h) (s.regRead h.a rSI) w.bytes) s := memRead_flat flat ram le
  have puts := puts_stored flat ram wf le .es (s.regRead h.a rDI) (s.flatValue (srcSeg h) (s.regRead h.a rSI) w.bytes)
  refine ⟨_, movsElem_run source (openAccess_flat flat ..), fun j hj => ?_, puts.others, puts.wf⟩
  rw [elemAddr_zero, ← byte_flatValue le hj]
  exact puts.put j hj

/-- An element of LODS loads the accumulator. -/
theorem lods_elem_ram (flat : s.Flat) (ram : s.AllRam) : ∃ v, StringOp.lods.elem h w s = .ok () v ∧ v.ms = s.ms ∧
    v.x 0 = (s.regWrite w rAX (s.flatValue (srcSeg h) (s.regRead h.a rSI) w.bytes)).x 0 :=
  ⟨_, lodsElem_run (memRead_flat flat ram (width_bytes_le w).2), rfl,
    regWrite_x_other _ _ _ _ _ (show (0 : RegNum) ≠ rSI.num by decide)⟩

/-- R563, R561. -/
theorem stos_loop (rep : h.rep ≠ .none) (size : h.a = .w16 ∨ h.a = .w32) (flat : s.Flat) (ram : s.AllRam)
    (wf : s.ms.wf = true) (count : (s.regRead h.a rCX).toNat = n) (fits : n * w.bytes ≤ 2 ^ h.a.bits) :
    ∃ t, StringOp.stos.loop h w n s = .ok () t ∧
      Filled h w n s t fun _ j => BitVec.ofNat 8 ((s.x 0).toNat / 256 ^ j) := by
  induction n generalizing s with
  | zero => exact ⟨s, rfl, fun _ _ lt => absurd lt (by omega), fun _ _ => rfl⟩
  | succ n ih =>
    obtain ⟨v, elem, puts⟩ := stos_elem_ram (h := h) (w := w) flat ram wf
    have leaves := elem_ok elem
    obtain ⟨flat', ram', count', shift, -⟩ := next_elem leaves flat ram count
    have acc := (elemsLeave_one leaves count).acc (by simp)
    have fits' : n * w.bytes ≤ 2 ^ h.a.bits := Nat.le_trans (Nat.mul_le_mul_right _ (by omega)) fits
    obtain ⟨t, run, filled⟩ := ih flat' ram' puts.wf count' fits'
    rw [acc] at filled
    refine ⟨t, (loop_succ_goes rep elem (not_repEnds rfl)).trans run, ?_⟩
    exact filled_succ (u := v.regWrite h.a rCX (BitVec.ofNat 64 n)) size fits ⟨puts.put, puts.others, puts.wf⟩
      (shift rfl) filled

/-- R562, R561, where source and destination do not overlap. -/
theorem movs_loop (rep : h.rep ≠ .none) (size : h.a = .w16 ∨ h.a = .w32) (flat : s.Flat) (ram : s.AllRam)
    (wf : s.ms.wf = true) (count : (s.regRead h.a rCX).toNat = n) (fits : n * w.bytes ≤ 2 ^ h.a.bits)
    (apart : ∀ k j k' j', k < n → j < w.bytes → k' < n → j' < w.bytes →
      s.elemAddr h w (srcSeg h) rSI k j ≠ s.elemAddr h w .es rDI k' j') :
    ∃ t, StringOp.movs.loop h w n s = .ok () t ∧
      Filled h w n s t fun k j => s.ms.byte (s.elemAddr h w (srcSeg h) rSI k j) := by
  induction n generalizing s with
  | zero => exact ⟨s, rfl, fun _ _ lt => absurd lt (by omega), fun _ _ => rfl⟩
  | succ n ih =>
    obtain ⟨v, elem, puts⟩ := movs_elem_ram (h := h) (w := w) flat ram wf
    have leaves := elem_ok elem
    obtain ⟨flat', ram', count', shift, shift_src⟩ := next_elem leaves flat ram count
    have fits' : n * w.bytes ≤ 2 ^ h.a.bits := Nat.le_trans (Nat.mul_le_mul_right _ (by omega)) fits
    obtain ⟨t, run, put, others⟩ := ih flat' ram' puts.wf count' fits' fun k j k' j' lt hj lt' hj' => by
      rw [shift rfl, shift_src rfl]
      exact apart (k + 1) j (k' + 1) j' (by omega) hj (by omega) hj'
    refine ⟨t, (loop_succ_goes rep elem (not_repEnds rfl)).trans run, ?_⟩
    refine filled_succ (u := v.regWrite h.a rCX (BitVec.ofNat 64 n)) size fits ⟨puts.put, puts.others, puts.wf⟩
      (shift rfl) ⟨fun k j lt hj => ?_, others⟩
    refine (put k j lt hj).trans ?_
    rw [shift_src rfl]
    refine puts.others _ fun j' hj' eq => ?_
    exact apart (k + 1) j 0 j' (by omega) hj (by omega) hj' (eq.trans (elemAddr_zero ..).symm)

/-- A register written twice at one width. -/
theorem regWrite_x_again {r : Gpr} {x y : Word} (same : u.x r.num = (s.regWrite w r x).x r.num) :
    (u.regWrite w r y).x r.num = (s.regWrite w r y).x r.num := by
  rw [regWrite_x_same, regWrite_x_same, same, regWrite_x_same]
  cases w with
  | w8 =>
    cases r.high8
    · rw [mergeReg_low8, mergeReg_low8, mergeReg_low8]
      ext i
      simp [BitVec.getElem_append]
      grind
    · rw [mergeReg_high8, mergeReg_high8, mergeReg_high8]
      ext i
      simp [BitVec.getElem_append]
      grind
  | w16 =>
    rw [mergeReg_w16, mergeReg_w16, mergeReg_w16]
    ext i
    simp [BitVec.getElem_append]
    grind
  | w32 => rfl
  | w64 => rfl

/-- R564, R561. -/
theorem lods_loop (rep : h.rep ≠ .none) (flat : s.Flat) (ram : s.AllRam) (count : (s.regRead h.a rCX).toNat = n) :
    ∃ t, StringOp.lods.loop h w n s = .ok () t ∧ t.ms = s.ms ∧
      (0 < n → t.x 0 = (s.regWrite w rAX (BitVec.ofNat 64 (leNat ((List.range w.bytes).map fun j =>
        s.ms.byte (s.elemAddr h w (srcSeg h) rSI (n - 1) j))))).x 0) := by
  induction n generalizing s with
  | zero => exact ⟨s, rfl, rfl, fun pos => absurd pos (by omega)⟩
  | succ n ih =>
    obtain ⟨v, elem, v_ms, v_ax⟩ := lods_elem_ram (h := h) (w := w) flat ram
    have leaves := elem_ok elem
    obtain ⟨flat', ram', count', -, shift⟩ := next_elem leaves flat ram count
    obtain ⟨t, run, ms, acc⟩ := ih flat' ram' count'
    refine ⟨t, (loop_succ_goes rep elem (not_repEnds rfl)).trans run, ms.trans v_ms, fun _ => ?_⟩
    have first : (v.regWrite h.a rCX (BitVec.ofNat 64 n)).x rAX.num =
        (s.regWrite w rAX (s.flatValue (srcSeg h) (s.regRead h.a rSI) w.bytes)).x rAX.num :=
      (regWrite_x_other _ _ _ _ _ (show (0 : RegNum) ≠ rCX.num by decide)).trans v_ax
    by_cases last : n = 0
    · subst last
      cases run
      refine first.trans ?_
      simp only [Nat.zero_add, Nat.sub_self, elemAddr_zero]
      rfl
    · rw [acc (by omega)]
      refine (regWrite_x_again first).trans ?_
      simp only [shift rfl, show n - 1 + 1 = n + 1 - 1 by omega]
      rw [regWrite_ms, v_ms]
      rfl

end

end Sys2Proof.Machine

open Sys2Proof Sys2Proof.Machine

/-- Settles O55: the loop completes where its elements lead to its end (`loop_of_elementsDone`); over flat memory they
do, and the loops of STOS, MOVS and LODS store and load as their elements do one after the other. -/
theorem repeatedStringsComplete : Obligations.RepeatedStringsComplete := by
  unfold Obligations.RepeatedStringsComplete
  intro o h w s rep not8
  refine ⟨fun k t done last => exec_of_loop rep (loop_of_elementsDone rep rfl done last), fun zero => ?_, fun flat =>
    ?_,
    fun flat ram wf not64 fits => ?_, fun flat ram => ?_⟩
  · exact exec_of_loop rep (loop_of_elementsDone (k := 0) rep rfl rfl (.inl zero.symm))
  · obtain ⟨t, run⟩ := loop_flat (o := o) (w := w) rep flat _ rfl
    obtain ⟨k, le, done, last⟩ := loop_ok rep rfl run
    obtain ⟨-, flags, src, dst, count, acc⟩ := elemsLeave_of_elementsDone le done
    exact ⟨k, t, le, done, exec_of_loop rep run, last, count, src, dst, flags, acc⟩
  · have size : h.a = .w16 ∨ h.a = .w32 := by
      cases is : h.a with
      | w8 => exact absurd is not8
      | w16 => exact .inl rfl
      | w32 => exact .inr rfl
      | w64 => exact absurd is not64
    obtain ⟨t, run, put, others⟩ := stos_loop (w := w) rep size flat ram wf rfl fits
    refine ⟨⟨t, exec_of_loop (o := .stos) rep run, put, others⟩, fun apart => ?_⟩
    obtain ⟨t, run, put, others⟩ := movs_loop (w := w) rep size flat ram wf rfl fits apart
    exact ⟨t, exec_of_loop (o := .movs) rep run, put, others⟩
  · obtain ⟨t, run, ms, acc⟩ := lods_loop (w := w) rep flat ram rfl
    exact ⟨t, exec_of_loop (o := .lods) rep run, ms, acc⟩

end

section
/-! PROOF. O25: memory changes only where an instruction stores (R210 to R214, R234, R561). `StoresAt` compares a body
with the computation of the addresses it stores to, access by access. -/

namespace Sys2Proof.Machine
open Sys2Proof

/-! ### What holds of a byte that is not stored to -/

theorem Marked.trans {mask a b c : Byte} (ab : Marked mask a b) (bc : Marked mask b c) : Marked mask a c := by
  obtain ⟨k, in_mask, rfl⟩ := ab
  obtain ⟨l, in_mask', rfl⟩ := bc
  refine ⟨k ||| l, ?_, BitVec.or_assoc ..⟩
  rw [BitVec.and_or_distrib_right, in_mask, in_mask']
  rfl

/-- The bits of a read are among those of a write (R275). -/
theorem Marked.of_markMask {kind : Access} {a b : Byte} (marked : Marked (markMask kind) a b) : Marked 0x60 a b := by
  obtain ⟨k, in_mask, eq⟩ := marked
  refine ⟨k, ?_, eq⟩
  unfold markMask at in_mask
  split at in_mask
  · exact in_mask
  · have smaller : ~~~(0x60 : Byte) = ~~~0x20 &&& ~~~0x60 := by decide
    rw [smaller, ← BitVec.and_assoc, in_mask]
    rfl

/-- From `s` to `u` the byte at `pa` has changed by accessed and dirty bits at most, and without paging not at all. -/
structure Kept (pa : Nat) (s u : State) : Prop where
  wf : u.ms.wf = true
  mode : u.pagingMode = s.pagingMode
  marked : Marked 0x60 (s.ms.byte pa) (u.ms.byte pa)
  flat : s.pagingMode = .none → u.ms.byte pa = s.ms.byte pa

section
variable {pa : Nat} {s u v : State}

theorem kept_self (wf : s.ms.wf = true) : Kept pa s s := ⟨wf, rfl, marked_self .., fun _ => rfl⟩

/-- A change of memory that keeps the byte. -/
theorem Kept.withMs (kept : Kept pa s u) (mem : MemFollows u v) (only : OnlyMs u v)
    (same : v.ms.byte pa = u.ms.byte pa) : Kept pa s v := by
  obtain ⟨m, rfl⟩ := only.elim
  exact ⟨mem.wf kept.wf, kept.mode, same ▸ kept.marked, fun none => same.trans (kept.flat none)⟩

theorem Kept.translated (kept : Kept pa s u) (lin : Word) (kind : Access) (user : Bool) :
    Kept pa s (endState (translate lin kind user) u) := by
  have mem := (runs_translate_of_walks (walks_memFollows u) lin kind user).keeps u (memFollows_refl u)
  have only := keeps_translate onlyMs_access lin kind user u
  cases run : translate lin kind user u with
  | error f v =>
    rw [endState, run] at mem only ⊢
    obtain ⟨k, rfl⟩ := (walk_error (translate_error run).2.2).1
    exact kept.withMs mem only rfl
  | ok a v =>
    rw [endState, run] at mem only ⊢
    have marked := (marked_of_translate kept.wf run pa).of_markMask
    obtain ⟨m, rfl⟩ := only.elim
    refine ⟨mem.wf kept.wf, kept.mode, kept.marked.trans marked, fun none => ?_⟩
    rw [translate_of_no_paging (kept.mode.trans none)] at run
    injection run with _ same
    rw [← same]
    exact kept.flat none

theorem Kept.stored (kept : Kept pa s u) {p : Span} {n : Nat} (laid : p.Laid n) (out : pa ∉ p.addrs n) (v : Word) :
    Kept pa s (u.stored p n v) :=
  kept.withMs (memFollows_stored u p n v) (by rw [stored_withMs]; rfl) (stored_byte_of_not_mem laid out)

theorem reads_kept (pa : Nat) (s : State) : Reads (Kept pa s) where
  busOp u kept := kept.withMs ((walks_memFollows u).busOp u (memFollows_refl u)) rfl rfl
  translated lin kind user _ kept := kept.translated lin kind user

/-- Registers and flags may change as they like. -/
theorem writes_kept (pa : Nat) (s : State) :
    Writes False (Kept pa s) (Kept pa s) (List.finRange 16) fun _ => True where
  reads := reads_kept pa s
  le _ kept := kept
  stored := False.elim
  setX _ _ _ _ kept := ⟨kept.wf, kept.mode, kept.marked, kept.flat⟩
  withFlags _ _ _ kept := ⟨kept.wf, kept.mode, kept.marked, kept.flat⟩
  flags _ _ := trivial

theorem any_reg (r : RegNum) : r ∈ List.finRange 16 := List.mem_finRange r

/-! ### A body beside the computation of its addresses -/

/-- From `u` the body `x` keeps the byte at `pa` where `y` does not list it. -/
def StoresAt {α : Type} (pa : Nat) (s : State) (x : M α) (y : M (List Nat)) (u : State) : Prop :=
  Kept pa s u → (∀ as v, y u = .ok as v → pa ∉ as) → Kept pa s (endState x u)

variable {α β : Type} {x : M α} {f : α → M β} {y : M (List Nat)}

theorem endState_bind_ok {a : α} (run : x u = .ok a v) : endState (x >>= f) u = endState (f a) v := by
  rw [endState, endState, bind_run_ok run]

theorem endState_bind_error {e : FaultRec} (run : x u = .error e v) : endState (x >>= f) u = v := by
  rw [endState, bind_run_error run]

theorem endState_ok {a : α} (run : x u = .ok a v) : endState x u = v := by rw [endState, run]

theorem endState_error {e : FaultRec} (run : x u = .error e v) : endState x u = v := by rw [endState, run]

/-- What a body keeps, one part after the other. -/
theorem kept_bind (first : Kept pa s (endState x u))
    (rest : ∀ a v, x u = .ok a v → Kept pa s v → Kept pa s (endState (f a) v)) : Kept pa s (endState (x >>= f) u) := by
  cases run : x u with
  | error e v =>
    rw [endState_error run] at first
    rwa [endState_bind_error run]
  | ok a v =>
    rw [endState_ok run] at first
    rw [endState_bind_ok run]
    exact rest a v run first

/-- A body that does not store. -/
theorem storesAt_of_runs (runs : Runs (Kept pa s) (Kept pa s) (Kept pa s) x) : StoresAt pa s x y u :=
  fun kept _ => runs.keeps u kept

/-- A read that both do. -/
theorem storesAt_bind {g : α → M (List Nat)} (runs : Runs (Kept pa s) (Kept pa s) (Kept pa s) x)
    (rest : ∀ a v, x u = .ok a v → StoresAt pa s (f a) (g a) v) : StoresAt pa s (x >>= f) (x >>= g) u :=
  fun kept out => kept_bind (runs.keeps u kept) fun a v run next => rest a v run next fun as w listed =>
    out as w ((bind_run_ok run).trans listed)

theorem storesAt_get {f : State → M β} {g : State → M (List Nat)} (rest : StoresAt pa s (f u) (g u) u) :
    StoresAt pa s ((get : M State) >>= f) ((get : M State) >>= g) u := by
  unfold StoresAt endState
  rwa [get_bind_run, get_bind_run]

theorem storesAt_get_left {f : State → M β} (rest : StoresAt pa s (f u) y u) :
    StoresAt pa s ((get : M State) >>= f) y u := by
  unfold StoresAt endState
  rwa [get_bind_run]

/-- A read that only the body does, after the addresses are known. -/
theorem storesAt_read {l : List Nat} (runs : Runs (Kept pa s) (Kept pa s) (Kept pa s) x)
    (rest : ∀ a v, StoresAt pa s (f a) (pure l) v) : StoresAt pa s (x >>= f) (pure l) u :=
  fun kept out => kept_bind (runs.keeps u kept) fun a v _ next => rest a v next fun as w listed => by
    cases listed
    exact out l u rfl

/-- A read of the state, or a check, that only the body does. -/
theorem storesAt_of_still (still : ∀ v, endState x v = v) (rest : ∀ a, StoresAt pa s (f a) y u) :
    StoresAt pa s (x >>= f) y u :=
  fun kept out => kept_bind ((still u).symm ▸ kept) fun a v run next => by
    have same : v = u := (endState_ok run).symm.trans (still u)
    subst same
    exact rest a next out

/-- What comes after the store. -/
theorem storesAt_then (stores : StoresAt pa s x y u)
    (rest : ∀ a, Runs (Kept pa s) (Kept pa s) (Kept pa s) (f a)) : StoresAt pa s (x >>= f) y u :=
  fun kept out => kept_bind (stores kept out) fun a v _ next => (rest a).keeps v next

theorem still_readReg (w : Width) (r : Gpr) (v : State) : endState (readReg w r) v = v := rfl

theorem still_raiseIf (c : Bool) (e : FaultRec) (v : State) : endState (raiseIf c e) v = v := by cases c <;> rfl

theorem still_branchCheck (t : Word) (v : State) : endState (branchCheck t) v = v :=
  still_raiseIf (!v.branchOk t) (.gp 0) v

theorem still_takeRel (h : Hdr) (w : Width) (rel : Word) (v : State) : endState (takeRel h w rel) v = v := by
  have check := still_branchCheck (v.relTarget h w rel) v
  show endState (branchCheck (v.relTarget h w rel) >>= fun _ => pure (v.relTarget h w rel)) v = v
  cases run : branchCheck (v.relTarget h w rel) v with
  | error e t => rwa [endState_bind_error run, ← endState_error run]
  | ok a t => rw [endState_bind_ok run]; rwa [endState_ok run] at check

/-! ### The stores -/

theorem storesAt_spanWrite {p : Span} {n : Nat} (laid : p.Laid n) (v : Word) :
    StoresAt pa s (spanWrite p n v) (pure (p.addrs n)) u := by
  intro kept out
  rw [endState_ok (spanWrite_run ..)]
  exact kept.stored laid (out _ _ rfl) v

theorem storesAt_translateSpan {f : Span → M β} {lin : Word} {n : Nat} {user : Bool}
    (rest : ∀ p v, p.Laid n → StoresAt pa s (f p) (pure (p.addrs n)) v) :
    StoresAt pa s (translateSpan lin n .write user >>= f)
      (translateSpan lin n .write user >>= fun p => pure (p.addrs n)) u :=
  storesAt_bind (runs_translateSpan (reads_kept pa s) lin n .write user) fun p v run =>
    rest p v (laid_of_translateSpan run)

theorem storesAt_memWrite (seg : SReg) (off : Word) (n : Nat) (v : Word) :
    StoresAt pa s (memWrite seg off n v) (spanOf seg off n) u :=
  storesAt_get <| storesAt_of_still (still_raiseIf _ _) fun _ => storesAt_of_still (still_raiseIf _ _) fun _ =>
    storesAt_translateSpan fun _ _ laid => storesAt_spanWrite laid v

theorem storesAt_rmwBegin {f : Word × Span → M β} {seg : SReg} {off : Word} {n : Nat}
    (rest : ∀ o v, o.2.Laid n → StoresAt pa s (f o) (pure (o.2.addrs n)) v) :
    StoresAt pa s (rmwBegin seg off n >>= f) (spanOf seg off n) u := by
  unfold rmwBegin
  simp only [bind_assoc, pure_bind]
  exact storesAt_get <| storesAt_of_still (still_raiseIf _ _) fun _ => storesAt_of_still (still_raiseIf _ _) fun _ =>
    storesAt_of_still (still_raiseIf _ _) fun _ => storesAt_translateSpan fun p _ laid =>
      storesAt_read (runs_spanRead (reads_kept pa s) p n) fun old v => rest (old, p) v laid

/-! ### The bodies with a destination in memory -/

theorem storesAt_writeRM (h : Hdr) (w : Width) (o : RM) (v : Word) :
    StoresAt pa s (writeRM h w o v) (rmSpan h w o) u := by
  cases o with
  | reg r => exact storesAt_of_runs (runs_setReg (writes_kept pa s) w (any_reg _) v)
  | mem m => exact storesAt_get (storesAt_memWrite m.seg (u.ea h m) w.bytes v)

theorem storesAt_rmwRM (h : Hdr) (w : Width) (o : RM) (f : Word → Flags → Computed) :
    StoresAt pa s (rmwRM h w o f) (rmSpan h w o) u := by
  cases o with
  | reg r => exact storesAt_of_runs (runs_rmwReg (writes_kept pa s) (any_reg _) (fun _ _ _ => trivial) w)
  | mem m =>
    exact storesAt_get <| storesAt_rmwBegin fun _ _ laid =>
      storesAt_then (storesAt_spanWrite laid _) fun _ => runs_setFlags (writes_kept pa s) trivial

/-- What a two-operand operation stores to. -/
def aluSpan (h : Hdr) (f : AluForm) : M (List Nat) :=
  match f with
  | .mr w dst _ | .mi w dst _ | .mis w dst _ => rmSpan h w dst
  | .rm _ _ _ | .acc _ _ => pure []

theorem storesAt_aluWrite (h : Hdr) (g : Width → Word → Word → Flags → Computed) (f : AluForm) :
    StoresAt pa s (aluWrite h g f) (aluSpan h f) u := by
  cases f with
  | mr w dst src => exact storesAt_of_still (still_readReg w src) fun b => storesAt_rmwRM h w dst fun a fl => g w a b fl
  | mi w dst imm => exact storesAt_rmwRM h w dst fun a fl => g w a imm fl
  | mis w dst imm => exact storesAt_rmwRM h w dst fun a fl => g w a imm fl
  | rm w dst src =>
    exact storesAt_of_runs (runs_aluWrite (writes_kept pa s) (f := .rm w dst src) (fun _ _ _ _ _ => trivial)
      (fun no => Bool.noConfusion no) (fun r _ => any_reg r) h)
  | acc w imm =>
    exact storesAt_of_runs (runs_aluWrite (writes_kept pa s) (f := .acc w imm) (fun _ _ _ _ _ => trivial)
      (fun no => Bool.noConfusion no) (fun r _ => any_reg r) h)

theorem storesAt_cmpxchgBody (h : Hdr) (w : Width) (dst : RM) (src : Gpr) :
    StoresAt pa s (cmpxchgBody h w dst src) (rmSpan h w dst) u := by
  cases dst with
  | reg r =>
    exact storesAt_of_runs (runs_cmpxchgBody (writes_kept pa s) (fun _ _ _ _ _ => trivial)
      (fun no => Bool.noConfusion no) (any_reg _)
      (fun r _ => any_reg r) h w src)
  | mem m =>
    refine storesAt_get <| storesAt_rmwBegin fun o v laid => ?_
    refine storesAt_then ?_ fun _ => runs_setFlags (writes_kept pa s) trivial
    split
    · exact storesAt_spanWrite laid _
    · exact storesAt_then (storesAt_spanWrite laid _) fun _ => runs_setReg (writes_kept pa s) w (any_reg _) _

theorem storesAt_xaddBody (h : Hdr) (w : Width) (dst : RM) (src : Gpr) :
    StoresAt pa s (xaddBody h w dst src) (rmSpan h w dst) u := by
  cases dst with
  | reg r =>
    exact storesAt_of_runs (runs_xaddBody (writes_kept pa s) (fun _ _ _ _ _ => trivial)
      (fun no => Bool.noConfusion no) (any_reg _)
      (fun r _ => any_reg r) h w)
  | mem m =>
    exact storesAt_get <| storesAt_rmwBegin fun o v laid =>
      storesAt_then (storesAt_spanWrite laid _) fun _ =>
        runs_bind (runs_setReg (writes_kept pa s) w (any_reg _) _) fun _ => runs_setFlags (writes_kept pa s) trivial

theorem storesAt_xchgMem (h : Hdr) (w : Width) (m : MemOp) (r : Gpr) :
    StoresAt pa s (xchgBody h (.mr w (.mem m) r)) (rmSpan h w (.mem m)) u :=
  storesAt_get <| storesAt_rmwBegin fun _ _ laid =>
    storesAt_then (storesAt_spanWrite laid _) fun _ => runs_setReg (writes_kept pa s) w (any_reg _) _

theorem storesAt_movFromSegBody (h : Hdr) (w : Width) (dst : RM) (sel : BitVec 16) :
    StoresAt pa s (movFromSegBody h w dst sel) (rmSpan h .w16 dst) u := by
  cases dst with
  | reg r => exact storesAt_of_runs (runs_setReg (writes_kept pa s) w (any_reg _) _)
  | mem m => exact storesAt_writeRM h .w16 (.mem m) _

/-! ### The stack -/

theorem storesAt_push (n : Nat) (v : Word) : StoresAt pa s (push n v) (pushSpan n) u :=
  storesAt_get <| storesAt_then (storesAt_memWrite .ss (u.spMinus n) n v) fun _ =>
    runs_setSp (writes_kept pa s) (any_reg _) _

/-- A push of what has been read. -/
theorem storesAt_push_read (h : Hdr) (w : Width) (src : RM) : StoresAt pa s (pushBody h (.rm w src))
    (readRM h w src >>= fun _ => pushSpan w.bytes) u :=
  storesAt_bind (runs_readRM (reads_kept pa s) h w src) fun v _ _ => storesAt_push w.bytes v

theorem storesAt_popMem (h : Hdr) (w : Width) (m : MemOp) : StoresAt pa s (popBody h (.rm w (.mem m)))
    (storeAddrs (.pop h (.rm w (.mem m)))) u :=
  storesAt_get <| storesAt_bind (runs_memRead (reads_kept pa s) .ss u.sp w.bytes) fun v _ _ =>
    storesAt_then (storesAt_memWrite m.seg (u.popEa h w m) w.bytes v) fun _ =>
      runs_setSp (writes_kept pa s) (any_reg _) _

theorem storesAt_pushReturn (h : Hdr) (w : Width) : StoresAt pa s (pushReturn h w) (pushSpan w.bytes) u :=
  storesAt_get_left (storesAt_push w.bytes _)

theorem storesAt_callRel (h : Hdr) (w : Width) (rel : Word) :
    StoresAt pa s (takeRel h w rel >>= fun t => pushReturn h w >>= fun _ => pure t) (pushSpan w.bytes) u :=
  storesAt_of_still (still_takeRel h w rel) fun _ =>
    storesAt_then (storesAt_pushReturn h w) fun _ => runs_pure _ fun _ kept => kept

theorem storesAt_callInd (h : Hdr) (w : Width) (src : RM) :
    StoresAt pa s (readRM h w src >>= fun t => branchCheck t >>= fun _ => pushReturn h w >>= fun _ => pure t)
      (readRM h w src >>= fun _ => pushSpan w.bytes) u :=
  storesAt_bind (runs_readRM (reads_kept pa s) h w src) fun t _ _ =>
    storesAt_of_still (still_branchCheck t) fun _ =>
      storesAt_then (storesAt_pushReturn h w) fun _ => runs_pure _ fun _ kept => kept

/-! ### A descriptor's accessed bit -/

theorem runs_setSeg_kept (g : State → SegReg) (r : SReg) (same : ∀ t b, g (t.withBooks b) = g t) :
    Runs (Kept pa s) (Kept pa s) (Kept pa s) (modify fun t => t.setSeg r (g t)) :=
  runs_modify (fun _ kept => ⟨kept.wf, kept.mode, kept.marked, kept.flat⟩) fun t b => by rw [same]; rfl

theorem storesAt_markDescriptor (lin raw : Word) : StoresAt pa s (markDescriptor lin raw)
    (translateSpan (lin + 5) 1 .write false >>= fun p => pure (p.addrs 1)) u := by
  unfold markDescriptor
  split
  · exact storesAt_of_runs (runs_pure _ fun _ kept => kept)
  · exact storesAt_translateSpan fun _ _ laid => storesAt_spanWrite laid _

theorem storesAt_loadSeg (r : SReg) (sel : BitVec 16) : StoresAt pa s (loadSeg r sel) (descriptorSpan sel) u := by
  refine storesAt_get ?_
  split
  next real =>
    simp only [real, Bool.true_or, if_true]
    exact storesAt_of_runs (runs_setSeg_kept _ r fun _ _ => rfl)
  next protected_ =>
    split
    next null =>
      simp only [null, Bool.or_true, if_true]
      exact storesAt_of_runs (runs_bind (runs_raiseIf _ (proper_gp 0)) fun _ =>
        runs_setSeg_kept (fun _ => nullSeg sel) r fun _ _ => rfl)
    next names =>
      simp only [protected_, names, Bool.or_false, Bool.false_eq_true, if_false]
      refine storesAt_get_left <| storesAt_of_still (still_raiseIf _ _) fun _ =>
        storesAt_of_still (still_raiseIf _ _) fun _ =>
          storesAt_bind (runs_linRead (reads_kept pa s) _ _ _ _) fun raw v _ => ?_
      cases fault : u.descFault r sel (descriptor raw) with
      | some f =>
        simp only [fault]
        exact storesAt_of_runs (runs_raise (proper_descFault fault) fun _ kept => kept)
      | none =>
        simp only [fault]
        exact storesAt_then (storesAt_markDescriptor _ _) fun _ => runs_setSeg_kept (fun _ => _) r fun _ _ => rfl

/-! ### One element of MOVS and STOS, and the loop -/

theorem storesAt_movsElem (h : Hdr) (w : Width) :
    StoresAt pa s (movsElem h w) (storeAddrs (.movs h w)) u :=
  storesAt_get <| storesAt_bind (runs_memRead (reads_kept pa s) _ _ _) fun v _ _ =>
    storesAt_then (storesAt_memWrite .es _ w.bytes v) fun _ =>
      runs_bind (runs_advance (writes_kept pa s) (any_reg _) _ _) fun _ =>
        runs_advance (writes_kept pa s) (any_reg _) _ _

theorem storesAt_stosElem (h : Hdr) (w : Width) :
    StoresAt pa s (stosElem h w) (storeAddrs (.stos h w)) u :=
  storesAt_get <| storesAt_then (storesAt_memWrite .es _ w.bytes _) fun _ =>
    runs_advance (writes_kept pa s) (any_reg _) _ _

/-- A body that raises before it has stored keeps the byte where it raises. -/
theorem writes_kept_before (pa : Nat) (s : State) :
    Writes True (Kept pa s) (fun _ => True) (List.finRange 16) fun _ => True :=
  ⟨reads_kept pa s, fun _ _ => trivial, fun _ _ _ _ _ _ => trivial, fun _ _ _ _ _ => trivial,
    fun _ _ _ _ => trivial, fun _ _ => trivial⟩

/-- Where the byte at `pa` is not listed in a state, `storeAddrs` does not list it there. -/
theorem not_listed {i : Instr} (out : pa ∉ u.storesOnce i) (as : List Nat) (v : State)
    (listed : storeAddrs i u = .ok as v) : pa ∉ as := by
  unfold State.storesOnce at out
  rwa [listed] at out

/-- The loop stores where its elements do. -/
theorem kept_repLoop {i : Instr} {elem : M Unit} (stores : ∀ u, StoresAt pa s elem (storeAddrs i) u)
    (raises : Runs (Kept pa s) (Kept pa s) (fun _ => True) elem) (a : Width) (rp : Rep) (c : Nat)
    (kept : Kept pa s u) (out : pa ∉ elementStores i a elem c u) :
    Kept pa s (endState (repLoop a rp false elem c) u) := by
  induction c generalizing u with
  | zero => exact kept
  | succ c ih =>
    unfold elementStores at out
    cases run : elem u with
    | error f v =>
      rw [repLoop, endState_bind_error run]
      exact (raises.error u f v kept run).1
    | ok _ v =>
      rw [run] at out
      simp only [List.mem_append, not_or] at out
      have next := stores u kept (not_listed out.1)
      rw [endState_ok run] at next
      rw [repLoop, endState_bind_ok run, endState_bind_ok (setReg_run ..)]
      exact ih ((writes_kept pa s).setX v _ _ (any_reg _) next) out.2

/-- A string instruction stores where its elements do. -/
theorem kept_stringBody {i : Instr} {h : Hdr} {elem : M Unit} (stores : ∀ u, StoresAt pa s elem (storeAddrs i) u)
    (raises : Runs (Kept pa s) (Kept pa s) (fun _ => True) elem) (kept : Kept pa s u)
    (out : pa ∉ u.stringStores i h elem) : Kept pa s (endState (stringBody h false elem) u) := by
  unfold State.stringStores at out
  unfold stringBody
  cases rep : h.rep with
  | none =>
    rw [rep, if_pos rfl] at out
    exact stores u kept (not_listed out)
  | rep | repne =>
    rw [rep, if_neg (by decide)] at out
    exact kept_repLoop stores raises _ _ _ kept out

/-! ### Instructions that do not store -/

/-- What holds while an instruction runs that does not store. -/
structure KeptPlain (i : Instr) (pa : Nat) (s u : State) : Prop where
  kept : Kept pa s u
  cpl : u.cpl = s.cpl
  flags : FlagRule i s u.flags

theorem keptPlain_self (i : Instr) (wf : s.ms.wf = true) : KeptPlain i pa s s :=
  ⟨kept_self wf, rfl, flagRule_self i s⟩

theorem KeptPlain.withMs {i : Instr} (plain : KeptPlain i pa s u) (only : OnlyMs u v) (kept : Kept pa s v) :
    KeptPlain i pa s v := by
  obtain ⟨m, rfl⟩ := only.elim
  exact ⟨kept, plain.cpl, plain.flags⟩

theorem writes_keptPlain {i : Instr} (no : storesMem i = false) (pa : Nat) (s : State) :
    Writes (storesMem i = true) (KeptPlain i pa s) (KeptPlain i pa s) (destRegs i) (FlagRule i s) where
  reads := {
    busOp := fun u plain => plain.withMs rfl ((reads_kept pa s).busOp u plain.kept)
    translated := fun lin kind user u plain =>
      plain.withMs (keeps_translate onlyMs_access lin kind user u) (plain.kept.translated lin kind user) }
  le _ plain := plain
  stored yes := absurd (no.symm.trans yes) nofun
  setX u r v _ plain := ⟨(writes_kept pa s).setX u r v (any_reg r) plain.kept, plain.cpl, plain.flags⟩
  withFlags u f rule plain := ⟨(writes_kept pa s).withFlags u f trivial plain.kept, plain.cpl, rule⟩
  flags _ plain := plain.flags

/-- The byte at `pa` has changed by accessed and dirty bits at most, and without paging not at all. -/
def Leaves (pa : Nat) (s t : State) : Prop :=
  Marked 0x60 (s.ms.byte pa) (t.ms.byte pa) ∧ (s.pagingMode = .none → t.ms.byte pa = s.ms.byte pa)

theorem Kept.leaves {t : State} (kept : Kept pa s u) (same : t.ms = u.ms) : Leaves pa s t := by
  unfold Leaves
  rw [same]
  exact ⟨kept.marked, kept.flat⟩

section
variable {i : Instr} {t : State} {h : Hdr}

theorem leaves_of_no_store (no : storesMem i = false) (wf : s.ms.wf = true) (run : exec i s = .next t) :
    Leaves pa s t := by
  have ran := exec_ran i (writes_keptPlain no pa s) (fun _ plain => plain.cpl) (fun _ _ plain => plain)
    (keptPlain_self i wf)
  cases ran.eq_of_next run with
  | completes u at_u h hdr ends shadow rip eq _ =>
    subst eq
    obtain ⟨u0, at_u0, rfl | write⟩ := at_u
    · exact at_u0.kept.leaves rfl
    · exact at_u0.kept.leaves write.ms
  | raises u at_u f proper eq => subst eq; exact at_u.kept.leaves rfl
  | asks vec k len eq => subst eq; exact (kept_self wf).leaves rfl

/-! ### Instructions that store -/

theorem EndsFrom.ms (fin : EndsFrom s u t) : t.ms = u.ms := by
  cases fin with
  | completes len ends shadow rip eq => rw [eq, complete_ms]
  | raises f eq => rw [eq, takeFault_ms]
  | asks vec k len eq => rw [eq, softInt_ms]

/-- Where a body can end it ends in its `endState`. -/
theorem keeps_endState {α : Type} (body : M α) : Keeps (fun s u => u = endState body s) body := fun _ => rfl

theorem leaves_retire {ends : Bool} {body : M Unit} (kept : Kept pa s (endState body s))
    (run : retire h ends body s = .next t) : Leaves pa s t := by
  obtain ⟨u, rfl, fin⟩ := retire_ends (keeps_endState body) run
  exact kept.leaves fin.ms

/-- An instruction that stores once does so where `storeAddrs` says. -/
theorem leaves_once {ends : Bool} {body : M Unit} (stores : StoresAt pa s body (storeAddrs i) s)
    (wf : s.ms.wf = true) (run : retire h ends body s = .next t) (out : pa ∉ s.storesOnce i) : Leaves pa s t :=
  leaves_retire (stores (kept_self wf) (not_listed out)) run

theorem leaves_once_to {body : M Word} (stores : StoresAt pa s body (storeAddrs i) s)
    (wf : s.ms.wf = true) (run : retireTo h body s = .next t) (out : pa ∉ s.storesOnce i) : Leaves pa s t := by
  obtain ⟨u, rfl, fin⟩ := retireTo_ends (keeps_endState body) run
  exact (stores (kept_self wf) (not_listed out)).leaves fin.ms

theorem leaves_alu {g : Width → Word → Word → Flags → Computed} {f : AluForm} (is : storeAddrs i = aluSpan h f)
    (wf : s.ms.wf = true) (run : retire h false (aluWrite h g f) s = .next t) (out : pa ∉ s.storesOnce i) :
    Leaves pa s t :=
  leaves_once (is ▸ storesAt_aluWrite h g f) wf run out

theorem leaves_movToSeg {r : SReg} {src : RM} (wf : s.ms.wf = true) (run : exec (.movToSeg h r src) s = .next t)
    (out : pa ∉ s.storesOnce (.movToSeg h r src)) : Leaves pa s t := by
  obtain ⟨u, rfl, fin⟩ := retireShadow_ends (keeps_endState _) run
  have stores : StoresAt pa s (raiseIf (r == .cs) .ud >>= fun _ => readRM h .w16 src >>= fun sel =>
      loadSeg r (sel.setWidth 16) >>= fun _ => pure (r == SReg.ss)) (storeAddrs (.movToSeg h r src)) s :=
    storesAt_of_still (still_raiseIf _ _) fun _ => storesAt_bind (runs_readRM (reads_kept pa s) h .w16 src)
      fun sel _ _ => storesAt_then (storesAt_loadSeg r _) fun _ => runs_pure _ fun _ kept => kept
  exact (stores (kept_self wf) (not_listed out)).leaves fin.ms

theorem leaves_of_store (yes : storesMem i = true) (wf : s.ms.wf = true) (run : exec i s = .next t)
    (out : pa ∉ s.storesTo i) : Leaves pa s t := by
  cases i with
  | add h f | or h f | adc h f | sbb h f | and h f | sub h f | xor h f =>
    exact leaves_alu (by cases f <;> rfl) wf run out
  | not h w dst | neg h w dst => exact leaves_once (storesAt_rmwRM h w dst _) wf run out
  | inc h f | dec h f =>
    cases f with
    | rm w dst => exact leaves_once (storesAt_rmwRM h w dst _) wf run out
    | short w r => cases yes
  | cmpxchg h w dst src => exact leaves_once (storesAt_cmpxchgBody h w dst src) wf run out
  | xadd h w dst src => exact leaves_once (storesAt_xaddBody h w dst src) wf run out
  | rol h w dst c | ror h w dst c | shl h w dst c | shr h w dst c | sar h w dst c =>
    exact leaves_once (storesAt_get_left (storesAt_rmwRM h w dst _)) wf run out
  | mov h f =>
    cases f with
    | mr w dst src =>
      exact leaves_once (storesAt_of_still (still_readReg w src) fun v => storesAt_writeRM h w dst v) wf run out
    | mi w dst imm => exact leaves_once (storesAt_writeRM h w dst imm) wf run out
    | toMoffs w m =>
      exact leaves_once (storesAt_of_still (still_readReg w rAX) fun v => storesAt_writeRM h w (.mem m) v) wf run out
    | rm w dst src | ri w dst imm | fromMoffs w m => cases yes
  | movFromSeg h w dst sr => exact leaves_once (storesAt_movFromSegBody h w dst _) wf run out
  | movToSeg h sr src => exact leaves_movToSeg wf run out
  | xchg h f =>
    cases f with
    | mr w dst r =>
      cases dst with
      | reg d => cases yes
      | mem m => exact leaves_once (storesAt_xchgMem h w m r) wf run out
    | acc w r => cases yes
  | setcc h cc dst => exact leaves_once (storesAt_get_left (storesAt_writeRM h .w8 dst _)) wf run out
  | push h f =>
    cases f with
    | reg w r => exact leaves_once (storesAt_of_still (still_readReg w r) fun v => storesAt_push w.bytes v) wf run out
    | immz w imm => exact leaves_once (storesAt_push w.bytes imm) wf run out
    | imm8 w imm => exact leaves_once (storesAt_push w.bytes imm) wf run out
    | rm w src => exact leaves_once (storesAt_push_read h w src) wf run out
  | pop h f =>
    cases f with
    | reg w r => cases yes
    | rm w dst =>
      cases dst with
      | reg r => cases yes
      | mem m => exact leaves_once (storesAt_popMem h w m) wf run out
  | pushf h w => exact leaves_once (storesAt_get_left (storesAt_push w.bytes _)) wf run out
  | callRel h w rel => exact leaves_once_to (storesAt_callRel h w rel) wf run out
  | callInd h w src => exact leaves_once_to (storesAt_callInd h w src) wf run out
  | movs h w =>
    exact leaves_retire (kept_stringBody (fun _ => storesAt_movsElem h w)
      (runs_movsElem (writes_kept_before pa s) h w (any_reg _) (any_reg _) trivial) (kept_self wf) out) run
  | stos h w =>
    exact leaves_retire (kept_stringBody (fun _ => storesAt_stosElem h w)
      (runs_stosElem (writes_kept_before pa s) h w (any_reg _) trivial) (kept_self wf) out) run
  | _ => cases yes

end

end

end Sys2Proof.Machine

open Sys2Proof Sys2Proof.Machine

/-- Settles O25: a body beside the computation of its store's addresses (`StoresAt`), and the loop of a repeated
string instruction element by element (`kept_repLoop`). -/
theorem memoryFrame : Obligations.MemoryFrame := by
  intro i s t pa wf run out
  cases stores : storesMem i with
  | false => exact leaves_of_no_store stores wf run
  | true => exact leaves_of_store stores wf run out

end
